-- ==== Sys2Proof/Word.lean ====
section
/-! DEFINITION. The words of the CT-8: bus words, bytes, addresses, ECU timestamps and part time (00, 2.2 to 2.4). -/

namespace Sys2Proof

/-- A data word of the bus (00, 2.2). -/
abbrev Word := BitVec 32

/-- One byte of a word, or one 8-bit field. -/
abbrev Byte := BitVec 8

/-- A 24-bit byte address (00, 2.2). -/
abbrev Addr := BitVec 24

/-- A 24-bit ECU timestamp in ticks, wrapping (R1). -/
abbrev Stamp := BitVec 24

/-- Part time: 32 bits of microseconds, wrapping (R2). -/
abbrev Micros := BitVec 32

/-- The four byte enables of a cycle; bit `i` enables bits 8i+7..8i of the word (00, 2.2). -/
abbrev Enables := BitVec 4

/-- All four byte enables asserted: a full-word access (00, 2.2). -/
def fullWord : Enables := 0xF

end Sys2Proof
end

