-- ==== Sys2Proof/Syntax.lean ====
section
/-! DEFINITION. The commands of the CT-8, one constructor for each row of spec/opcode_table.json.

A row that is a processor cycle carries what the processor drives: the byte address, the data word and the byte
enables. A command word of the command area lies at a fixed offset of the Configuration Page (12.2), so its row carries
its data alone; where the row is one code of a command word, the row carries the 24 data bits that are not the code. -/

namespace Sys2Proof

inductive Instr where
  /-- Power-on reset, with the strap inputs sampled at its end (R18). -/
  | powerOnReset (strap : BitVec 4)
  /-- Assertion of the ECU reset line (R17). -/
  | ecuReset
  /-- A processor cycle presented at the upstream port (R3). -/
  | forwardCycle (address : Addr) (data : Word) (enables : Enables) (write : Bool)
  /-- A write with not all byte enables asserted (R7). -/
  | partialWordWrite (address : Addr) (data : Word) (enables : Enables)
  /-- A processor read meant for the Status Block or the Statistics Window (R10). -/
  | refreshRead (address : Addr) (enables : Enables)
  /-- The SRAM completes the forwarded cycle or the refresh write in progress (R3, R10). -/
  | downstreamCycleComplete
  /-- The SRAM completes the injected word in progress (R12). -/
  | injectedWordComplete
  /-- The PTU's report that no word with the publishes mark is left (R146). -/
  | postStoppedEntry
  /-- The report that ends Disengage (R28). -/
  | endOfDisengage
  /-- A 1 ms boundary of part time (R15). -/
  | intervalBoundary
  /-- A write into the settings area, by its offset in the page (R19). -/
  | settingsWrite (offset : BitVec 12) (data : Word) (enables : Enables)
  /-- Command word 000h (R22). -/
  | apply (data : Word)
  /-- Command word 004h (R149). -/
  | noticeClear (data : Word)
  /-- Command word 008h (R145). -/
  | consumerCount (data : Word)
  /-- Command word 00Ch, code 1 (R146). -/
  | postStop (upper : BitVec 24)
  /-- Command word 00Ch, code 2 (R146). -/
  | postResume (upper : BitVec 24)
  /-- Command word 010h, code 1 (R135). -/
  | snapshot (upper : BitVec 24)
  /-- Command word 010h, code 2 (R136). -/
  | clear (upper : BitVec 24)
  /-- Command word 010h, code 3 (R137). -/
  | snapshotAndClear (upper : BitVec 24)
  /-- Command word 014h (R126). -/
  | cylinderRelease (data : Word)
  /-- Command word 018h (R29). -/
  | analysisReset (data : Word)
  /-- Command word 01Ch (R27). -/
  | disengage (data : Word)
  /-- A full-word write meant for the Tooth Window (R32). -/
  | toothEntry (address : Addr) (data : Word)
  /-- Expiry of the stall timer (R40). -/
  | stall
  /-- A full-word write meant for a Schedule Window offset 0 mod 8 (R8). -/
  | scheduleFirstWord (address : Addr) (data : Word)
  /-- A full-word write meant for a Schedule Window offset 4 mod 8 (R8). -/
  | scheduleCommit (address : Addr) (data : Word)
  /-- A full-word write meant for Knock Window offset 0 (R9). -/
  | knockHeaderTimestamp (address : Addr) (data : Word)
  /-- A full-word write meant for Knock Window offset 4 (R9). -/
  | knockHeaderCommit (address : Addr) (data : Word)
  /-- A full-word write meant for a Knock Window offset of 8 or more (R89). -/
  | knockSampleWord (address : Addr) (data : Word)
  /-- Expiry of Knock Waits (R93). -/
  | knockWaitExpiry
  /-- Expiry of plan ages (R67). -/
  | planAgeExpiry
  deriving DecidableEq, Repr

end Sys2Proof
end

