-- ==== Sys2Proof/Decode.lean ====
section
/-! DEFINITION. The command a word spells. spec/opcode_table.json gives none of its rows any bits ("fields" is empty in
every row and no row has "fixed"), so no word spells a command (log 27). -/

namespace Sys2Proof

/-- No row of the table gives bits: every word is rejected. -/
def decodeTableWord (_nbits _w : Nat) : Option Instr := none

end Sys2Proof
end

