-- ==== Sys2Proof/Config.lean ====
section
/-! DEFINITION. What one part fixes (the sizes of its stores) and the free values: constants with no body, so that
no proof can see what they are. -/

namespace Sys2Proof.Config

/-- Slots of the Open Firing List (R52). -/
def slotCount : Nat := 24
/-- Entries of the Injection Queue (R11). -/
def queueCapacity : Nat := 32
/-- Verdicts the Post Queue holds (R140). -/
def postCapacity : Nat := 16
/-- Frames the Frame Store holds (R85). -/
def frameCapacity : Nat := 6
/-- Entries of one Cylinder History ring (R118). -/
def historyCapacity : Nat := 16
/-- Live counters, and words of the Snapshot Bank (R131). -/
def counterCount : Nat := 538

/-- FREE VALUE (log 10). The byte that a write in flight leaves in the SRAM when a power-on reset cuts it off: the
manual states none. Applied to a fresh number each time. -/
opaque freeByte : Nat → BitVec 8

/-- FREE VALUE (log 2). The order in which timers that fall due in the same microsecond are taken: the manual states
none. Applied to part time, it numbers one arrangement of the expiries due. -/
opaque expiryOrder : BitVec 32 → Nat

end Sys2Proof.Config
end

