-- ==== Sys2Proof/Machine/State.lean ====
section
/-! DEFINITION. The state of the CT-8 as plain data: every item of R4, R5, R8, R9, R11, R15, R19 to R31, R33, R52, R53,
R72, R85, R104, R118, R131, R140, R149 and part time (R2), with the SRAM it faces and the queue of waiting commands. -/

namespace Sys2Proof.Machine

/-! ### Memory -/

/-- Bytes by address, in ONE canonical form (`Memory.wf`): addresses strictly rising, no byte listed that equals what
an unlisted address reads as. -/
abbrev Memory := List Host.Cell

/-- What an unlisted address reads as. For the Staging Copy this is its power-on value (R19); for the SRAM it is a
DESIGN CHOICE (log 8). -/
def Memory.unlisted : Byte := 0

/-- The canonical form. -/
abbrev Memory.wf (m : Memory) : Prop :=
  m.Pairwise (fun x y => x.1 < y.1) ∧ ∀ c ∈ m, c.2 ≠ Memory.unlisted

/-! ### Names -/

/-- The mode (R27, R28). -/
inductive Mode where
  | transparent | monitoring | disengaging
  deriving DecidableEq, Repr

/-- The sync state of the Angle Tracker (R33). -/
inductive SyncState where
  | stopped | seeking | halfSync | synced
  deriving DecidableEq, Repr

/-- Reasons of a sync loss, and `never` for NONE (R33, R41). -/
inductive LossReason where
  | never | gap | cam | stall | config | reset
  deriving DecidableEq, Repr

/-- The post state (R140). -/
inductive PostState where
  | running | stopping | stopped
  deriving DecidableEq, Repr

/-- Results of an Apply, and `never` for NONE (R21). -/
inductive ApplyResult where
  | never | refused | pending | active | superseded | busy
  deriving DecidableEq, Repr

/-- The twelve checks of R23, in their order. -/
inductive Check where
  | cylinders | wheel | firing | segment | knockWindow | sensor | bands | windows | ring | timing | context | health
  deriving DecidableEq, Repr

/-- Classes of a validated configuration (R24). -/
inductive ApplyClass where
  | layout | geometry | tuning | identical
  deriving DecidableEq, Repr

/-- Classes of the misfire half (R78); `weak` is the class PARTIAL. -/
inductive MisfireClass where
  | none | weak | misfire | intended | unavailable
  deriving DecidableEq, Repr

/-- Classes of the knock half (R97). -/
inductive KnockClass where
  | none | light | heavy | skipped | unavailable | sensorFault
  deriving DecidableEq, Repr

/-- Fuel state of an entry (12.1). -/
inductive FuelState where
  | normal | enrich | cut
  deriving DecidableEq, Repr

/-- Ignition state of an entry (12.1). -/
inductive IgnitionState where
  | normal | retard | cut
  deriving DecidableEq, Repr

/-- States of a record held in a slot (R53). -/
inductive RecordState where
  | planned | measuring | settling
  deriving DecidableEq, Repr

/-- Reasons of an abandonment (R66). -/
inductive AbandonReason where
  | stale | sync | reset | config
  deriving DecidableEq, Repr

/-- The six operating contexts, in the order of the Context Table (R104). -/
inductive Ctx where
  | als | launch | rough | flare | transient | resync
  deriving DecidableEq, Repr

/-- States of a context (R104). -/
inductive CtxState where
  | idle | active | holding
  deriving DecidableEq, Repr

/-- Health states of a cylinder (R118). -/
inductive Health where
  | healthy | suspect | faulted
  deriving DecidableEq, Repr

/-- States of a knock sensor (R85). -/
inductive SensorState where
  | ok | quiet | clipped
  deriving DecidableEq, Repr

/-- States of a frame (R85). -/
inductive FrameState where
  | filling | complete | truncated
  deriving DecidableEq, Repr

/-- Reasons a processor cycle is held (R4). -/
inductive HoldReason where
  | injectionBusy | forced | refresh
  deriving DecidableEq, Repr

/-- The windows of the match set (R5). -/
inductive Window where
  | configPage | tooth | schedule | knock | verdictRing | statusBlock | statistics
  deriving DecidableEq, Repr

/-- The thirteen notices, in the order of their numbers (12.4). -/
inductive Notice where
  | watermark | postStopped | verdictDropped | cylSuspect | cylFault | knockAlert | turbineRate | sensorFault
  | syncLost | configResult | stallBudget | counterHalf | scheduleRefused
  deriving DecidableEq, Repr

/-- The two notice lines (R150). -/
inductive Line where
  | a | b
  deriving DecidableEq, Repr

/-- The engine counters, in the order of their indices (R134). -/
inductive EngineCounter where
  | teethTaken | cyclesSynced | syncLossesGap | syncLossesCam | stalls | schedulesTaken | revisions | refusedCheck
  | refusedOrder | refusedRange | refusedLate | refusedNoSlot | recordsDecided | abandonedSync | abandonedStale
  | abandonedConfigOrReset | framesCompleted | framesTruncated | framesEvicted | orphanSampleWords | verdictsPosted
  | verdictsDropped | forcedInjections | consumerCountErrors | misfireUnavailable | knockUnavailable
  deriving DecidableEq, Repr

/-- The kinds of class counters, in the order of their numbers (R133); `weak` is PARTIAL. -/
inductive ClassKind where
  | firings | misfire | weak | knockEvals | knockLight | knockHeavy | withheld | intended
  deriving DecidableEq, Repr

/-- Post policies (R141). -/
inductive PostPolicy where
  | all | exceptions | none
  deriving DecidableEq, Repr

/-! ### A configuration -/

/-- One configuration: every setting of 12.3, as read from its field. Window bases are bits 23..0 of their word. -/
structure Settings where
  cylinders : Nat
  allotment : Nat
  sensorCount : Nat
  segOffset : Nat
  teeth : Nat
  missing : Nat
  gapRatio : Nat
  camHalf : Nat
  firingOrder : Vector Nat 8
  tdc : Vector Nat 8
  knockOpen : Vector Nat 8
  knockClose : Vector Nat 8
  sensorMap : Vector Nat 8
  samplePeriod : Nat
  tickNs : Nat
  bias : Vector Nat 4
  minCover : Nat
  quietFloor : Nat
  seed : Vector Nat 8
  toothBase : Nat
  toothSize : Nat
  scheduleBase : Nat
  scheduleSize : Nat
  knockBase : Nat
  knockSize : Nat
  ringBase : Nat
  ringSize : Nat
  statusBase : Nat
  statisticsBase : Nat
  speedBounds : Vector Nat 7
  loadBounds : Vector Nat 3
  partialFraction : Nat
  misfireTable : Vector Nat 32
  lightRatio : Vector Nat 8
  heavyRatio : Vector Nat 8
  stallTime : Nat
  planAgeLimit : Nat
  knockWaitLimit : Nat
  patience : Nat
  burst : Nat
  stallBudget : Nat
  postPolicy : Nat
  watermark : Nat
  residency : Vector Nat 6
  effects : Vector Byte 6
  mergePolicy : Nat
  transientStep : Nat
  roughLevel : Nat
  roughEnter : Nat
  roughExit : Nat
  flareStep : Nat
  suspectCount : Nat
  clearCount : Nat
  faultCount : Nat
  faultRun : Nat
  alertCount : Nat
  blockCycles : Nat
  turbineLimit : Nat
  noticeEnables : BitVec 13
  noticeRoutes : BitVec 13
  deriving DecidableEq, Repr

/-! ### The Pass-Through Unit -/

/-- A processor cycle as the processor presents it (R3). -/
structure Cycle where
  address : Addr
  data : Word
  enables : Enables
  write : Bool
  deriving DecidableEq, Repr

/-- The held-cycle record when it holds a cycle (R4). -/
structure HeldCycle where
  cycle : Cycle
  reason : HoldReason
  /-- For a read: classified at arrival as a read of the Status Block or the Statistics Window. -/
  live : Bool
  deriving DecidableEq, Repr

/-- An Entry Latch that holds a word (R8, R9). -/
structure Latched where
  address : Nat
  word : Word
  deriving DecidableEq, Repr

/-- An entry of the Injection Queue (R11). -/
structure QueuedWord where
  address : Addr
  data : Word
  publishes : Bool
  recordEnd : Bool
  entered : Micros
  deriving DecidableEq, Repr

/-- The downstream port (1.6): free, or busy with one of three things. A refresh write is followed by its read without
the port becoming free. -/
inductive Port where
  | free
  /-- A forwarded processor cycle; `ready` says whether its completion is still owed upstream (R17). -/
  | forwarding (cycle : Cycle) (ready : Bool)
  /-- A refresh write of `value` to the word at `address` (R10). -/
  | refreshing (address : Nat) (value : Word)
  /-- The head word of the Injection Queue; `burst` is absent for an unforced word, else the number of words that its
  forced burst wrote before it (R14). -/
  | injecting (burst : Option Nat)
  deriving DecidableEq, Repr

/-- The state of the PTU (chapter 1). -/
structure PassThrough where
  strap : BitVec 4
  scheduleLatch : Option Latched
  knockLatch : Option Latched
  queue : List QueuedWord
  forcedCount : Nat
  held : Option HeldCycle
  port : Port
  deriving DecidableEq, Repr

/-! ### The Configuration Shadow -/

/-- A Pending Copy with the generation tag it arrived with (R26). -/
structure PendingCopy where
  settings : Settings
  generation : BitVec 16
  deriving DecidableEq, Repr

/-- The state of the CSH (R30). -/
structure ConfigShadow where
  staging : Memory
  pendingCopy : Option PendingCopy
  active : Option Settings
  mode : Mode
  activeGen : BitVec 16
  lastGen : BitVec 16
  lastResult : ApplyResult
  lastReason : Option Check
  deriving DecidableEq, Repr

/-! ### The Angle Tracker -/

/-- The state of the ATK (R33). -/
structure Tracker where
  sync : SyncState
  lastTooth : Option Stamp
  lastInterval : Option Nat
  refGap : Option Nat
  revPos : Nat
  revHalf : Bool
  boundarySeen : Bool
  segAcc : Option Nat
  cycAcc : Option Nat
  lastPeriod : Option Nat
  engineCycle : BitVec 32
  stallStart : Option Micros
  lastLoss : LossReason
  deriving DecidableEq, Repr

/-! ### The Firing List Controller -/

/-- A firing record held in a slot (R53). The slot is its place in `FiringList.slots`; the fields that decision sets are
those of `Decided`. -/
structure Record where
  seq : BitVec 16
  cylinder : Nat
  cycleTag : Byte
  spark : Byte
  fuel : FuelState
  ignition : IgnitionState
  load : Nat
  als : Bool
  launch : Bool
  takenTime : Micros
  state : RecordState
  cycleNumber : Option (BitVec 32)
  /-- Whether the previous-neighbour period is present; only its presence is kept (R53). -/
  hasNeighbour : Bool
  period : Option Nat
  openTime : Option Stamp
  closeTime : Option Stamp
  contexts : Option (BitVec 6)
  misfire : Option MisfireClass
  roughness : Option Int
  knock : Option KnockClass
  intensity : Option Nat
  coverage : Option Nat
  clipped : Option Nat
  ratio : Option Nat
  deriving DecidableEq, Repr

/-- A record at its decision, with the fields decision sets (R53, R65). -/
structure Decided where
  record : Record
  misfireClass : MisfireClass
  knockClass : KnockClass
  misfireWithheld : Bool
  knockWithheld : Bool
  freezeBackground : Bool
  speedBand : Nat
  loadBand : Nat
  decisionTime : Micros
  deriving DecidableEq, Repr

/-- The state of the FLC (R52). -/
structure FiringList where
  slots : Vector (Option Record) 24
  counts : Vector Nat 8
  reserveInUse : Nat
  nextSeq : BitVec 16
  /-- The taking order: the slots held, oldest taken first. -/
  order : List Nat
  deriving DecidableEq, Repr

/-! ### The Segment Analyser -/

/-- A closed-segment entry (R72). -/
structure SegmentEntry where
  cylinder : Nat
  cycleNumber : BitVec 32
  period : Nat
  roughness : Option Int
  deriving DecidableEq, Repr

/-- The state of the SGA (R72). -/
structure SegmentAnalyser where
  sequence : List SegmentEntry
  openSegment : Option (Nat × BitVec 32)
  roughness : List Int
  prevSpeed : Option Nat
  deriving DecidableEq, Repr

/-! ### The Knock Analyser -/

/-- A frame (R85). -/
structure Frame where
  sensor : Nat
  start : Stamp
  pairs : Nat
  samples : List Nat
  state : FrameState
  commit : BitVec 32
  deriving DecidableEq, Repr

/-- A pending evaluation (R85). -/
structure PendingEval where
  slot : Nat
  seq : BitVec 16
  cylinder : Nat
  sensor : Nat
  openTime : Stamp
  closeTime : Stamp
  fixTime : Micros
  deriving DecidableEq, Repr

/-- The health of one sensor (R85, R98, R99). -/
structure Sensor where
  state : SensorState
  quietRun : Nat
  clipRun : Nat
  cleanRun : Nat
  deriving DecidableEq, Repr

/-- The state of the KNA (R85). The Frame Store lists its frames in the order their headers were committed. -/
structure KnockAnalyser where
  frames : List Frame
  commitIndex : BitVec 32
  waitList : List PendingEval
  refs : Vector Nat 8
  sensors : Vector Sensor 4
  deriving DecidableEq, Repr

/-! ### The Context Unit -/

/-- An entry of the Context Table (R104). -/
structure CtxEntry where
  state : CtxState
  remaining : Nat
  mark : Bool
  deriving DecidableEq, Repr

/-- The Context Table (R104). -/
structure ContextTable where
  als : CtxEntry
  launch : CtxEntry
  rough : CtxEntry
  flare : CtxEntry
  transient : CtxEntry
  resync : CtxEntry
  deriving DecidableEq, Repr

/-- The cycle result the SGA hands on (R82). -/
structure CycleResult where
  roughness : List Int
  speed : Option Nat
  previous : Option Nat
  deriving DecidableEq, Repr

/-- The held boundary input: one of the two inputs of a cycle evaluation, its engine cycle number and the configuration
fixed with it (R107). `result` is absent when the input held is the cycle boundary event. -/
structure HeldInput where
  cycleNumber : BitVec 32
  result : Option CycleResult
  settings : Settings
  deriving DecidableEq, Repr

/-- The state of the CXU (R104). -/
structure ContextUnit where
  table : ContextTable
  roughHistory : List Bool
  resyncCount : Nat
  lastLoad : Option Nat
  heldInput : Option HeldInput
  deriving DecidableEq, Repr

/-! ### The History Unit -/

/-- A history entry (R118): NONE, PARTIAL or MISFIRE, and NONE, LIGHT or HEAVY, each present or absent. -/
structure HistoryEntry where
  misfire : Option MisfireClass
  knock : Option KnockClass
  deriving DecidableEq, Repr

/-- What the HSU keeps of one cylinder (R118). -/
structure CylinderHistory where
  ring : List HistoryEntry
  run : Nat
  health : Health
  alert : Bool
  deriving DecidableEq, Repr

/-- The state of the HSU (R118). -/
structure HistoryUnit where
  cylinders : Vector CylinderHistory 8
  blockCycles : Nat
  blockMisfires : Nat
  exceeded : Bool
  deriving DecidableEq, Repr

/-! ### The Statistics Banks, the Post Engine, the Notice Unit -/

/-- The state of the STB (R131). -/
structure Statistics where
  live : Vector Word 538
  snapshot : Vector Word 538
  generation : BitVec 16
  deriving DecidableEq, Repr

/-- A verdict: its eight words (R141, 12.4). -/
structure Verdict where
  w0 : Word
  w1 : Word
  w2 : Word
  w3 : Word
  w4 : Word
  w5 : Word
  w6 : Word
  w7 : Word
  deriving DecidableEq, Repr

/-- The state of the PSE (R140). -/
structure PostEngine where
  postQueue : List Verdict
  assigned : BitVec 16
  published : BitVec 16
  consumer : BitVec 16
  postState : PostState
  deriving DecidableEq, Repr

/-- The state of the NTU (R149): bit n is the flag of notice n (12.4). -/
structure NoticeUnit where
  flags : BitVec 13
  deriving DecidableEq, Repr

/-! ### The part and the whole state -/

/-- The CT-8: part time and the state of its eleven blocks. -/
structure Part where
  partTime : Micros
  ptu : PassThrough
  csh : ConfigShadow
  atk : Tracker
  flc : FiringList
  sga : SegmentAnalyser
  kna : KnockAnalyser
  cxu : ContextUnit
  hsu : HistoryUnit
  stb : Statistics
  pse : PostEngine
  ntu : NoticeUnit
  deriving DecidableEq, Repr

/-- A processor cycle completed upstream and, for a read, the word returned (R3; log 25). -/
structure Reply where
  cycle : Cycle
  data : Word
  deriving DecidableEq, Repr

/-- The part, the SRAM it faces, its last upstream completion, the model's own counter of free values, and the queue of
commands that wait, first in first out. -/
structure State where
  part : Part
  sram : Memory
  reply : Option Reply
  freeCount : Nat
  pending : List Instr
  deriving DecidableEq, Repr

/-! ### Outcomes -/

/-- No command of the CT-8 stops the part: the spec gives it no fault and no trap. -/
inductive Fault where
  deriving DecidableEq, Repr

/-- The reasons of a refusal. -/
inductive Refusal where
  /-- Raised by an arm of `exec` that has no meaning yet (no arm is so). Safe: the model stops. -/
  | notModelled (mnemonic : String)
  deriving DecidableEq, Repr

/-! ### Power-on values -/

/-- A Context Table entry at reset (R104). -/
def CtxEntry.reset : CtxEntry := ⟨.idle, 0, false⟩

/-- The Context Table at reset: all IDLE, remaining 0, marks clear (R104). -/
def ContextTable.reset : ContextTable :=
  ⟨.reset, .reset, .reset, .reset, .reset, .reset⟩

/-- A sensor at reset: OK, run counters 0 (R85). -/
def Sensor.reset : Sensor := ⟨.ok, 0, 0, 0⟩

/-- A cylinder of the HSU at reset (R118). -/
def CylinderHistory.reset : CylinderHistory := ⟨[], 0, .healthy, false⟩

/-- The part after power-on reset with the strap value sampled (R2, R18, R30, R33, R52, R72, R85, R104, R118, R131,
R140, R149). -/
def Part.powerOn (strap : BitVec 4) : Part where
  partTime := 0
  ptu := ⟨strap, none, none, [], 0, none, .free⟩
  csh := ⟨[], none, none, .transparent, 0, 0, .never, none⟩
  atk := ⟨.stopped, none, none, none, 0, false, false, none, none, none, 0, none, .never⟩
  flc := ⟨Vector.replicate 24 none, Vector.replicate 8 0, 0, 0, []⟩
  sga := ⟨[], none, [], none⟩
  kna := ⟨[], 0, [], Vector.replicate 8 1, Vector.replicate 4 .reset⟩
  cxu := ⟨.reset, [], 0, none, none⟩
  hsu := ⟨Vector.replicate 8 .reset, 0, 0, false⟩
  stb := ⟨Vector.replicate 538 0, Vector.replicate 538 0, 0⟩
  pse := ⟨[], 0, 0, 0, .running⟩
  ntu := ⟨0⟩

/-- The machine right after reset. The strap value is a DESIGN CHOICE (log 11), and so is the empty SRAM (log 8). -/
def State.reset : State where
  part := Part.powerOn 0
  sram := []
  reply := none
  freeCount := 0
  pending := []

/-! ### Updates, one for each field -/

def Part.setPartTime (p : Part) (x : Micros) : Part := { p with partTime := x }
def Part.setPtu (p : Part) (x : PassThrough) : Part := { p with ptu := x }
def Part.setCsh (p : Part) (x : ConfigShadow) : Part := { p with csh := x }
def Part.setAtk (p : Part) (x : Tracker) : Part := { p with atk := x }
def Part.setFlc (p : Part) (x : FiringList) : Part := { p with flc := x }
def Part.setSga (p : Part) (x : SegmentAnalyser) : Part := { p with sga := x }
def Part.setKna (p : Part) (x : KnockAnalyser) : Part := { p with kna := x }
def Part.setCxu (p : Part) (x : ContextUnit) : Part := { p with cxu := x }
def Part.setHsu (p : Part) (x : HistoryUnit) : Part := { p with hsu := x }
def Part.setStb (p : Part) (x : Statistics) : Part := { p with stb := x }
def Part.setPse (p : Part) (x : PostEngine) : Part := { p with pse := x }
def Part.setNtu (p : Part) (x : NoticeUnit) : Part := { p with ntu := x }

def State.setPart (s : State) (x : Part) : State := { s with part := x }
def State.setSram (s : State) (x : Memory) : State := { s with sram := x }
def State.setReply (s : State) (x : Option Reply) : State := { s with reply := x }
def State.setFreeCount (s : State) (x : Nat) : State := { s with freeCount := x }
def State.setPending (s : State) (x : List Instr) : State := { s with pending := x }

end Sys2Proof.Machine
end

