-- ==== Sys2Proof/Machine/Ops.lean ====
section
/-! DEFINITION. The named operations over words, tables, memory and time that every meaning is built from. -/

namespace Sys2Proof.Machine

/-! ### Fields of a word -/

/-- Bits `lo + len − 1 .. lo` of a word, as a number. -/
def field (w : Word) (lo len : Nat) : Nat := (w.extractLsb' lo len).toNat

/-- Byte `i` of a word: the byte at the word's address plus `i`, little-endian (00, 2.2). -/
def byteOf (w : Word) (i : Nat) : Byte := w.extractLsb' (8 * i) 8

/-- `n` placed at bit `lo` of a word. -/
def place (n lo : Nat) : Word := BitVec.ofNat 32 n <<< lo

/-- A flag placed at bit `lo` of a word. -/
def placeBit (b : Bool) (lo : Nat) : Word := place b.toNat lo

/-! ### Tables of fixed length -/

/-- Entry `i`, or `d` beyond the table. -/
def Table.read {α : Type} {n : Nat} (v : Vector α n) (i : Nat) (d : α) : α := (v[i]?).getD d

/-- The table with entry `i` replaced; unchanged when `i` lies beyond it. -/
def Table.write {α : Type} {n : Nat} (v : Vector α n) (i : Nat) (x : α) : Vector α n := v.setIfInBounds i x

/-- The table whose entry `i` is `f i`. -/
def Table.build {α : Type} (n : Nat) (f : Nat → α) : Vector α n := ⟨⟨(List.range n).map f⟩, by simp⟩

/-- The entry of cylinder `c`, numbered from 1 (00, 2.5). -/
def Table.readCyl {α : Type} {n : Nat} (v : Vector α n) (c : Nat) (d : α) : α := Table.read v (c - 1) d

/-- The table with the entry of cylinder `c` replaced. -/
def Table.writeCyl {α : Type} {n : Nat} (v : Vector α n) (c : Nat) (x : α) : Vector α n := Table.write v (c - 1) x

/-! ### Memory -/

/-- The byte at an address. -/
def Memory.read : Memory → Nat → Byte
  | [], _ => Memory.unlisted
  | (k, v) :: rest, a => if k = a then v else Memory.read rest a

/-- The memory with one byte written; writing what an unlisted address reads as removes the entry. -/
def Memory.write : Memory → Nat → Byte → Memory
  | [], a, v => if v = Memory.unlisted then [] else [(a, v)]
  | (k, w) :: rest, a, v =>
    if a < k then
      if v = Memory.unlisted then (k, w) :: rest else (a, v) :: (k, w) :: rest
    else if a = k then
      if v = Memory.unlisted then rest else (a, v) :: rest
    else (k, w) :: Memory.write rest a v

/-- The little-endian word at an address (00, 2.2). -/
def Memory.readWord (m : Memory) (a : Nat) : Word :=
  Memory.read m (a + 3) ++ Memory.read m (a + 2) ++ Memory.read m (a + 1) ++ Memory.read m a

/-- Byte lane `i` of a write: written when its enable is asserted (00, 2.2). -/
def Memory.writeLane (a : Nat) (data : Word) (enables : Enables) (i : Nat) (m : Memory) : Memory :=
  if enables.getLsbD i then Memory.write m (a + i) (byteOf data i) else m

/-- A write of the enabled bytes of a word. -/
def Memory.writeWord (m : Memory) (a : Nat) (data : Word) (enables : Enables) : Memory :=
  Memory.writeLane a data enables 3 (Memory.writeLane a data enables 2
    (Memory.writeLane a data enables 1 (Memory.writeLane a data enables 0 m)))

/-- The address of the word a byte address lies in: the bus carries words and the enables choose bytes (log 7). -/
def wordAddress (a : Addr) : Nat := a.toNat / 4 * 4

/-! ### Time -/

/-- R1: the interval from timestamp `a` to timestamp `b`. -/
def interval (a b : Stamp) : Nat := (b - a).toNat

/-- R1: timestamp `b` is later than timestamp `a`. -/
def isLater (b a : Stamp) : Bool := decide (0 < interval a b) && decide (interval a b < 2 ^ 23)

/-- Part time elapsed since an earlier part time (R2). -/
def elapsed (now since : Micros) : Nat := (now - since).toNat

/-- Whether part time has reached `since` plus `micros` (R40, R67, R93, R13). -/
def reached (now since : Micros) (micros : Nat) : Bool := decide (micros ≤ elapsed now since)

/-! ### Updates of the blocks' own fields -/

/-- The PTU with its port set. -/
def Part.setPort (p : Part) (x : Port) : Part := p.setPtu { p.ptu with port := x }

/-- The PTU with its held-cycle record set (R4). -/
def Part.setHeld (p : Part) (x : Option HeldCycle) : Part := p.setPtu { p.ptu with held := x }

/-- The PTU with its Injection Queue set (R11). -/
def Part.setQueue (p : Part) (x : List QueuedWord) : Part := p.setPtu { p.ptu with queue := x }

/-- Both Entry Latches emptied (R8, R9, R16, R17). -/
def emptyLatches (p : Part) : Part := p.setPtu { p.ptu with scheduleLatch := none, knockLatch := none }

end Sys2Proof.Machine
end

