-- ==== Sys2Proof/Machine/Settings.lean ====
section
/-! DEFINITION. The settings area (12.3): reading a configuration from the Staging Copy, its geometry (R43, R44) and
speed figures (R50), its validation (R23) and its classing (R24). -/

namespace Sys2Proof.Machine

/-! ### Reading the settings area (12.3) -/

/-- The byte setting at an offset of the page. -/
def setting8 (m : Memory) (o : Nat) : Nat := (Memory.read m o).toNat

/-- The 16-bit setting at an offset, little-endian. -/
def setting16 (m : Memory) (o : Nat) : Nat := setting8 m o + 256 * setting8 m (o + 1)

/-- The window base at an offset: bits 23..0 of its word. -/
def setting24 (m : Memory) (o : Nat) : Nat := setting16 m o + 65536 * setting8 m (o + 2)

/-- The 32-bit setting at an offset. -/
def setting32 (m : Memory) (o : Nat) : Nat := setting16 m o + 65536 * setting16 m (o + 2)

/-- The configuration that an image of the settings area spells (12.3). -/
def Settings.parse (m : Memory) : Settings where
  cylinders := setting8 m 0x040
  allotment := setting8 m 0x041
  sensorCount := setting8 m 0x042
  segOffset := setting8 m 0x043
  teeth := setting8 m 0x044
  missing := setting8 m 0x045
  gapRatio := setting8 m 0x046
  camHalf := setting8 m 0x047
  firingOrder := Table.build 8 fun i => setting8 m (0x048 + i)
  tdc := Table.build 8 fun i => setting8 m (0x050 + i)
  knockOpen := Table.build 8 fun i => setting8 m (0x058 + 2 * i)
  knockClose := Table.build 8 fun i => setting8 m (0x059 + 2 * i)
  sensorMap := Table.build 8 fun i => setting8 m (0x068 + i)
  samplePeriod := setting16 m 0x070
  tickNs := setting16 m 0x072
  bias := Table.build 4 fun i => setting16 m (0x074 + 2 * i)
  minCover := setting8 m 0x07C
  quietFloor := setting16 m 0x07E % 4096
  seed := Table.build 8 fun i => setting16 m (0x080 + 2 * i)
  toothBase := setting24 m 0x090
  toothSize := setting32 m 0x094
  scheduleBase := setting24 m 0x098
  scheduleSize := setting32 m 0x09C
  knockBase := setting24 m 0x0A0
  knockSize := setting32 m 0x0A4
  ringBase := setting24 m 0x0A8
  ringSize := setting16 m 0x0AC
  statusBase := setting24 m 0x0B0
  statisticsBase := setting24 m 0x0B4
  speedBounds := Table.build 7 fun i => setting16 m (0x0B8 + 2 * i)
  loadBounds := Table.build 3 fun i => setting16 m (0x0C8 + 2 * i)
  partialFraction := setting8 m 0x0CE
  misfireTable := Table.build 32 fun i => setting16 m (0x0D0 + 2 * i)
  lightRatio := Table.build 8 fun i => setting8 m (0x110 + i)
  heavyRatio := Table.build 8 fun i => setting8 m (0x118 + i)
  stallTime := setting16 m 0x120
  planAgeLimit := setting16 m 0x122
  knockWaitLimit := setting8 m 0x124
  patience := setting8 m 0x125
  burst := setting8 m 0x126
  stallBudget := setting8 m 0x127
  postPolicy := setting8 m 0x128
  watermark := setting16 m 0x12A
  residency := Table.build 6 fun i => setting8 m (0x12C + i)
  effects := Table.build 6 fun i => Memory.read m (0x132 + i)
  mergePolicy := setting8 m 0x138
  transientStep := setting8 m 0x139
  roughLevel := setting16 m 0x13A
  roughEnter := setting8 m 0x13C
  roughExit := setting8 m 0x13D
  flareStep := setting16 m 0x13E
  suspectCount := setting8 m 0x140
  clearCount := setting8 m 0x141
  faultCount := setting8 m 0x142
  faultRun := setting8 m 0x143
  alertCount := setting8 m 0x144
  blockCycles := setting16 m 0x146
  turbineLimit := setting16 m 0x148
  noticeEnables := BitVec.ofNat 13 (setting16 m 0x14C)
  noticeRoutes := BitVec.ofNat 13 (setting16 m 0x14E)

/-- The configuration of an all-zero image, used where a setting is asked for and there is no Active Copy (log 17). -/
def Settings.blank : Settings := Settings.parse []

/-- The Active Copy in force. -/
def Part.cfg (p : Part) : Settings := p.csh.active.getD Settings.blank

/-- The configuration that governs a cycle boundary or sync loss: the Pending Copy when one is present, and the Active
Copy otherwise (R107, R127). -/
def Part.governing (p : Part) : Settings :=
  match p.csh.pendingCopy with
  | some c => c.settings
  | none => p.cfg

/-! ### Geometry (R43, R44) -/

/-- The firing order, N places. -/
def Settings.order (g : Settings) : List Nat := g.firingOrder.toList.take g.cylinders

/-- The cylinders 1..N. -/
def Settings.cylinderList (g : Settings) : List Nat := List.range' 1 g.cylinders

/-- L: the positions of one segment. -/
def Settings.segLength (g : Settings) : Nat := 2 * g.teeth / g.cylinders

/-- S_c: cylinder c's segment start. -/
def Settings.segStart (g : Settings) (c : Nat) : Nat :=
  (Table.readCyl g.tdc c 0 + g.segOffset) % (2 * g.teeth)

/-- The measure of a position for cylinder c. -/
def Settings.measure (g : Settings) (c p : Nat) : Nat :=
  (p + 2 * g.teeth - g.segStart c) % (2 * g.teeth)

/-- A missing position is one with (p mod T) ≥ T − M_t (R23). -/
def Settings.isMissing (g : Settings) (p : Nat) : Bool := decide (g.teeth - g.missing ≤ p % g.teeth)

/-- The cylinder after each place of the firing order, the first following the last: pairs (cylinder, next). -/
def Settings.successions (g : Settings) : List (Nat × Nat) :=
  g.order.zip (g.order.drop 1 ++ g.order.take 1)

/-- The cylinder before c in the firing order, the last before the first (R46). -/
def Settings.before (g : Settings) (c : Nat) : Option Nat :=
  (g.successions.find? fun x => x.2 == c).map Prod.fst

/-! ### Speed (R50) -/

/-- The speed of `ticks` counted for a whole cycle, truncated and clamped to 0..65535. -/
def Settings.cycleRpm (g : Settings) (ticks : Nat) : Nat := min 65535 (120000000000 / (ticks * g.tickNs))

/-- Engine speed from a segment period of P ticks. -/
def Settings.segmentRpm (g : Settings) (period : Nat) : Nat := g.cycleRpm (g.cylinders * period)

/-- How many boundaries are less than or equal to a value. -/
def bandOf (bounds : List Nat) (x : Nat) : Nat := (bounds.filter fun b => decide (b ≤ x)).length

/-- The speed band of a segment period. -/
def Settings.speedBand (g : Settings) (period : Nat) : Nat := bandOf g.speedBounds.toList (g.segmentRpm period)

/-- The load band of a load (R65, R79). -/
def Settings.loadBand (g : Settings) (load : Nat) : Nat := bandOf g.loadBounds.toList load

/-! ### Policies -/

/-- The post policy of a validated configuration (12.3). -/
def Settings.policy (g : Settings) : PostPolicy :=
  match g.postPolicy with
  | 0 => .all
  | 1 => .exceptions
  | _ => .none

/-- The place of a context in the Context Table (R104). -/
def Ctx.index : Ctx → Nat
  | .als => 0
  | .launch => 1
  | .rough => 2
  | .flare => 3
  | .transient => 4
  | .resync => 5

/-- The six contexts in order. -/
def Ctx.list : List Ctx := [.als, .launch, .rough, .flare, .transient, .resync]

/-- The residency of a context. -/
def Settings.residencyOf (g : Settings) (c : Ctx) : Nat := Table.read g.residency c.index 0

/-- Bit `k` of a context's effects: 0 misfire WITHHOLD, 1 knock WITHHOLD, 2 background FREEZE (12.3). -/
def Settings.effectBit (g : Settings) (k : Nat) (c : Ctx) : Bool := (Table.read g.effects c.index 0).getLsbD k

/-! ### Validation (R23) -/

/-- Strictly ascending. -/
def ascending (xs : List Nat) : Bool := decide (xs.Pairwise (· < ·))

/-- A window as (base, size in bytes); two windows overlap when both have bytes and share one. An empty window overlaps
nothing (log 20). -/
def overlap (x y : Nat × Nat) : Bool :=
  decide (0 < x.2) && decide (0 < y.2) && decide (x.1 < y.1 + y.2) && decide (y.1 < x.1 + x.2)

/-- The base of the Configuration Page (R5). -/
def pageBase (strap : BitVec 4) : Nat := 0xF00000 + strap.toNat * 0x1000

/-- The six active windows (R5). -/
def Settings.windows (g : Settings) : List (Nat × Nat) :=
  [(g.toothBase, g.toothSize), (g.scheduleBase, g.scheduleSize), (g.knockBase, g.knockSize),
   (g.ringBase, g.ringSize * 32), (g.statusBase, 44), (g.statisticsBase, 2152)]

/-- Check 1. -/
def Settings.failsCylinders (g : Settings) : Bool :=
  !(decide (2 ≤ g.cylinders ∧ g.cylinders ≤ 8 ∧ 1 ≤ g.allotment ∧ g.allotment ≤ 3
    ∧ g.cylinders * g.allotment ≤ 24))

/-- Check 2. -/
def Settings.failsWheel (g : Settings) : Bool :=
  !(decide (12 ≤ g.teeth ∧ g.teeth ≤ 72 ∧ 1 ≤ g.missing ∧ g.missing ≤ 3 ∧ 12 ≤ g.gapRatio ∧ g.gapRatio ≤ 28
    ∧ g.camHalf ≤ 1))

/-- Check 3. -/
def Settings.failsFiring (g : Settings) : Bool :=
  decide (2 * g.teeth % g.cylinders ≠ 0)
  || !(decide g.order.Nodup && g.order.all fun c => decide (1 ≤ c ∧ c ≤ g.cylinders))
  || g.cylinderList.any (fun c => decide (2 * g.teeth ≤ Table.readCyl g.tdc c 0))
  || g.successions.any (fun x => decide (Table.readCyl g.tdc x.2 0
      ≠ (Table.readCyl g.tdc x.1 0 + 2 * g.teeth / g.cylinders) % (2 * g.teeth)))

/-- Check 4. -/
def Settings.failsSegment (g : Settings) : Bool :=
  decide (2 * g.teeth / g.cylinders ≤ g.segOffset) || g.cylinderList.any (fun c => g.isMissing (g.segStart c))

/-- The knock window of one cylinder is valid (R44). -/
def Settings.knockWindowValid (g : Settings) (c : Nat) : Bool :=
  let o := Table.readCyl g.knockOpen c 0
  let k := Table.readCyl g.knockClose c 0
  decide (o < 2 * g.teeth) && decide (k < 2 * g.teeth) && decide (g.measure c o < g.measure c k)
  && decide (g.measure c k ≤ g.segLength) && !g.isMissing o && !g.isMissing k

/-- Check 5. -/
def Settings.failsKnockWindow (g : Settings) : Bool := g.cylinderList.any fun c => !g.knockWindowValid c

/-- Check 6. -/
def Settings.failsSensor (g : Settings) : Bool :=
  !(decide (1 ≤ g.sensorCount ∧ g.sensorCount ≤ 4 ∧ 1 ≤ g.samplePeriod ∧ g.samplePeriod ≤ 4095
      ∧ 1 ≤ g.minCover ∧ g.minCover ≤ 8))
  || g.cylinderList.any (fun c => decide (g.sensorCount ≤ Table.readCyl g.sensorMap c 0))
  || g.bias.toList.any (fun b => decide (4095 < b))
  || g.cylinderList.any (fun c => decide (Table.readCyl g.seed c 0 = 0))

/-- Check 7. -/
def Settings.failsBands (g : Settings) : Bool :=
  !(ascending g.speedBounds.toList && ascending g.loadBounds.toList)
  || g.loadBounds.toList.any (fun l => decide (511 < l))
  || g.misfireTable.toList.any (fun t => decide (t < 1 ∨ 32767 < t))
  || decide (g.partialFraction < 1 ∨ 7 < g.partialFraction)
  || (List.range 8).any (fun b => decide (Table.read g.lightRatio b 0 = 0
      ∨ Table.read g.heavyRatio b 0 < Table.read g.lightRatio b 0))

/-- Check 8; `page` is the base of the Configuration Page. -/
def Settings.failsWindows (page : Nat) (g : Settings) : Bool :=
  [g.toothBase, g.scheduleBase, g.knockBase, g.statusBase, g.statisticsBase].any (fun b => decide (b % 4 ≠ 0))
  || g.windows.any (fun w => decide (0x1000000 < w.1 + w.2))
  || decide (g.toothSize < 4) || decide (g.scheduleSize = 0 ∨ g.scheduleSize % 8 ≠ 0)
  || decide (g.knockSize < 12 ∨ g.knockSize % 4 ≠ 0)
  || !decide (((page, 0x1000) :: g.windows).Pairwise (fun x y => overlap x y = false))

/-- Check 9. -/
def Settings.failsRing (g : Settings) : Bool :=
  !([4, 8, 16, 32, 64, 128, 256].contains g.ringSize) || decide (g.ringBase % 4 ≠ 0)
  || decide (g.watermark < 1 ∨ g.ringSize < g.watermark) || decide (2 < g.postPolicy)

/-- Check 10. -/
def Settings.failsTiming (g : Settings) : Bool :=
  !(decide (25 ≤ g.tickNs ∧ g.tickNs ≤ 1000 ∧ 20 ≤ g.stallTime ∧ g.stallTime ≤ 500
    ∧ 10 ≤ g.planAgeLimit ∧ g.planAgeLimit ≤ 2000 ∧ 1 ≤ g.knockWaitLimit ∧ g.knockWaitLimit ≤ 50
    ∧ 1 ≤ g.patience ∧ g.patience ≤ 255 ∧ 1 ≤ g.burst ∧ g.burst ≤ 8 ∧ g.stallBudget ≤ 64))

/-- Check 11. -/
def Settings.failsContext (g : Settings) : Bool :=
  g.residency.toList.any (fun r => decide (15 < r)) || g.effects.toList.any (fun e => decide (7 < e.toNat))
  || !(decide (g.mergePolicy ≤ 1 ∧ 5 ≤ g.transientStep ∧ g.transientStep ≤ 200
    ∧ 1 ≤ g.roughLevel ∧ g.roughLevel ≤ 32767 ∧ 1 ≤ g.roughEnter ∧ g.roughEnter ≤ 8 ∧ g.roughExit < g.roughEnter
    ∧ 50 ≤ g.flareStep ∧ g.flareStep ≤ 2000))

/-- Check 12. -/
def Settings.failsHealth (g : Settings) : Bool :=
  !(decide (g.clearCount < g.suspectCount ∧ g.suspectCount < g.faultCount ∧ g.faultCount ≤ 16
    ∧ 2 ≤ g.faultRun ∧ g.faultRun ≤ 16 ∧ 1 ≤ g.alertCount ∧ g.alertCount ≤ 16
    ∧ 50 ≤ g.blockCycles ∧ g.blockCycles ≤ 1000 ∧ 1 ≤ g.turbineLimit
    ∧ g.turbineLimit ≤ g.blockCycles * g.cylinders))

/-- R23: the first check that fails, in the order of the table. -/
def Settings.validate (page : Nat) (g : Settings) : Option Check :=
  if g.failsCylinders then some .cylinders
  else if g.failsWheel then some .wheel
  else if g.failsFiring then some .firing
  else if g.failsSegment then some .segment
  else if g.failsKnockWindow then some .knockWindow
  else if g.failsSensor then some .sensor
  else if g.failsBands then some .bands
  else if g.failsWindows page then some .windows
  else if g.failsRing then some .ring
  else if g.failsTiming then some .timing
  else if g.failsContext then some .context
  else if g.failsHealth then some .health
  else none

/-- The reason code of Status Block word 2 (12.5). -/
def Check.code : Check → Nat
  | .cylinders => 1
  | .wheel => 2
  | .firing => 3
  | .segment => 4
  | .knockWindow => 5
  | .sensor => 6
  | .bands => 7
  | .windows => 8
  | .ring => 9
  | .timing => 10
  | .context => 11
  | .health => 12

/-! ### Classing (R24) -/

/-- The entries of cylinders 1..n of a table: those above N are not compared. -/
def firstCylinders {k : Nat} (n : Nat) (v : Vector Nat k) : List Nat := v.toList.take n

/-- The layout settings agree. -/
def sameLayout (g h : Settings) : Bool :=
  decide (g.toothBase = h.toothBase ∧ g.toothSize = h.toothSize ∧ g.scheduleBase = h.scheduleBase
    ∧ g.scheduleSize = h.scheduleSize ∧ g.knockBase = h.knockBase ∧ g.knockSize = h.knockSize
    ∧ g.ringBase = h.ringBase ∧ g.ringSize = h.ringSize ∧ g.statusBase = h.statusBase
    ∧ g.statisticsBase = h.statisticsBase)

/-- The geometry settings agree. -/
def sameGeometry (g h : Settings) : Bool :=
  decide (g.cylinders = h.cylinders ∧ g.allotment = h.allotment ∧ g.teeth = h.teeth ∧ g.missing = h.missing
    ∧ g.gapRatio = h.gapRatio ∧ g.camHalf = h.camHalf ∧ g.order = h.order
    ∧ firstCylinders g.cylinders g.tdc = firstCylinders g.cylinders h.tdc ∧ g.segOffset = h.segOffset
    ∧ firstCylinders g.cylinders g.knockOpen = firstCylinders g.cylinders h.knockOpen
    ∧ firstCylinders g.cylinders g.knockClose = firstCylinders g.cylinders h.knockClose
    ∧ g.sensorCount = h.sensorCount
    ∧ firstCylinders g.cylinders g.sensorMap = firstCylinders g.cylinders h.sensorMap
    ∧ g.samplePeriod = h.samplePeriod ∧ g.tickNs = h.tickNs)

/-- The tuning settings agree. -/
def sameTuning (g h : Settings) : Bool :=
  decide (g.bias = h.bias ∧ g.minCover = h.minCover ∧ g.quietFloor = h.quietFloor
    ∧ firstCylinders g.cylinders g.seed = firstCylinders g.cylinders h.seed
    ∧ g.speedBounds = h.speedBounds ∧ g.loadBounds = h.loadBounds ∧ g.partialFraction = h.partialFraction
    ∧ g.misfireTable = h.misfireTable ∧ g.lightRatio = h.lightRatio ∧ g.heavyRatio = h.heavyRatio)
  && decide (g.stallTime = h.stallTime ∧ g.planAgeLimit = h.planAgeLimit ∧ g.knockWaitLimit = h.knockWaitLimit
    ∧ g.patience = h.patience ∧ g.burst = h.burst ∧ g.stallBudget = h.stallBudget ∧ g.postPolicy = h.postPolicy
    ∧ g.watermark = h.watermark ∧ g.residency = h.residency ∧ g.effects = h.effects
    ∧ g.mergePolicy = h.mergePolicy ∧ g.transientStep = h.transientStep)
  && decide (g.roughLevel = h.roughLevel ∧ g.roughEnter = h.roughEnter ∧ g.roughExit = h.roughExit
    ∧ g.flareStep = h.flareStep ∧ g.suspectCount = h.suspectCount ∧ g.clearCount = h.clearCount
    ∧ g.faultCount = h.faultCount ∧ g.faultRun = h.faultRun ∧ g.alertCount = h.alertCount
    ∧ g.blockCycles = h.blockCycles ∧ g.turbineLimit = h.turbineLimit ∧ g.noticeEnables = h.noticeEnables
    ∧ g.noticeRoutes = h.noticeRoutes)

/-- R24: the class of a validated configuration against the Active Copy. -/
def classify (active : Option Settings) (g : Settings) : ApplyClass :=
  match active with
  | none => .layout
  | some h =>
    if !sameLayout h g then .layout
    else if !sameGeometry h g then .geometry
    else if !sameTuning h g then .tuning
    else .identical

end Sys2Proof.Machine
end

