-- ==== Sys2Proof/Machine/Flags.lean ====
section
/-! DEFINITION. The notice flags and the notice lines (R149, R150). -/

namespace Sys2Proof.Machine

/-- The number of a notice (12.4). -/
def Notice.index : Notice → Nat
  | .watermark => 0
  | .postStopped => 1
  | .verdictDropped => 2
  | .cylSuspect => 3
  | .cylFault => 4
  | .knockAlert => 5
  | .turbineRate => 6
  | .sensorFault => 7
  | .syncLost => 8
  | .configResult => 9
  | .stallBudget => 10
  | .counterHalf => 11
  | .scheduleRefused => 12

/-- The mask bit of a notice. -/
def Notice.bit (n : Notice) : BitVec 13 := 1#13 <<< n.index

/-- R149: a set; a flag already set stays set. -/
def setNotice (n : Notice) (p : Part) : Part := p.setNtu { flags := p.ntu.flags ||| n.bit }

/-- R149: a Notice Clear; every flag whose mask bit is 1 is cleared. -/
def clearNotices (mask : BitVec 13) (p : Part) : Part := p.setNtu { flags := p.ntu.flags &&& ~~~mask }

/-- A notice's flag. -/
def Part.noticeSet (p : Part) (n : Notice) : Bool := p.ntu.flags.getLsbD n.index

/-- The notices routed to a line (12.3: route 0 is line A, 1 is line B). -/
def Settings.routedTo (g : Settings) : Line → BitVec 13
  | .a => ~~~g.noticeRoutes
  | .b => g.noticeRoutes

/-- R150: a line is asserted while a notice is set, enabled in the Active Copy and routed to it; with no Active Copy both
are deasserted. The level is this function of the state, so it follows at once (log 18). -/
def Part.lineAsserted (p : Part) (l : Line) : Bool :=
  match p.csh.active with
  | none => false
  | some g => decide (p.ntu.flags &&& g.noticeEnables &&& g.routedTo l ≠ 0)

end Sys2Proof.Machine
end

