-- ==== Sys2Proof/Machine/Statistics.lean ====
section
/-! DEFINITION. The Statistics Banks: counting with saturation (R132), class counters (R133), engine counters (R134)
and the three actions of the Statistics Command (R135, R136, R137). -/

namespace Sys2Proof.Machine

/-- The index of an engine counter (R134). -/
def EngineCounter.index : EngineCounter → Nat
  | .teethTaken => 0
  | .cyclesSynced => 1
  | .syncLossesGap => 2
  | .syncLossesCam => 3
  | .stalls => 4
  | .schedulesTaken => 5
  | .revisions => 6
  | .refusedCheck => 7
  | .refusedOrder => 8
  | .refusedRange => 9
  | .refusedLate => 10
  | .refusedNoSlot => 11
  | .recordsDecided => 12
  | .abandonedSync => 13
  | .abandonedStale => 14
  | .abandonedConfigOrReset => 15
  | .framesCompleted => 16
  | .framesTruncated => 17
  | .framesEvicted => 18
  | .orphanSampleWords => 19
  | .verdictsPosted => 20
  | .verdictsDropped => 21
  | .forcedInjections => 22
  | .consumerCountErrors => 23
  | .misfireUnavailable => 24
  | .knockUnavailable => 25

/-- The kind number of a class counter (R133). -/
def ClassKind.index : ClassKind → Nat
  | .firings => 0
  | .misfire => 1
  | .weak => 2
  | .knockEvals => 3
  | .knockLight => 4
  | .knockHeavy => 5
  | .withheld => 6
  | .intended => 7

/-- Live counter `k` (R131). -/
def Part.liveCounter (p : Part) (k : Nat) : Word := Table.read p.stb.live k 0

/-- The Live Bank with one counter set. -/
def setLive (k : Nat) (v : Word) (p : Part) : Part := p.setStb { p.stb with live := Table.write p.stb.live k v }

/-- R132: one increment of a live counter; it stays at 2^32 − 1, and reaching 2^31 sets COUNTER_HALF. -/
def increment (k : Nat) (p : Part) : Part :=
  let v := p.liveCounter k
  if v = 0xFFFFFFFF then p
  else if v = 0x7FFFFFFF then setNotice .counterHalf (setLive k (v + 1) p)
  else setLive k (v + 1) p

/-- R134: one report of an engine counter. -/
def report (c : EngineCounter) (p : Part) : Part := increment (512 + c.index) p

/-- R131: the number of the class counter of a cylinder, a speed band and a kind. -/
def classCounter (cylinder band : Nat) (kind : ClassKind) : Nat := ((cylinder - 1) * 8 + band) * 8 + kind.index

/-- A misfire class judged from a measurement: NONE, PARTIAL or MISFIRE. -/
def MisfireClass.judged : MisfireClass → Bool
  | .none | .weak | .misfire => true
  | .intended | .unavailable => false

/-- A knock class judged from a measurement: NONE, LIGHT or HEAVY. -/
def KnockClass.judged : KnockClass → Bool
  | .none | .light | .heavy => true
  | .skipped | .unavailable | .sensorFault => false

/-- R133: the kinds a decided record increments. -/
def countedKinds (d : Decided) : List ClassKind :=
  (if d.misfireClass.judged && !d.misfireWithheld then [.firings] else [])
  ++ (if d.misfireClass = .misfire ∧ d.misfireWithheld = false then [.misfire] else [])
  ++ (if d.misfireClass = .weak ∧ d.misfireWithheld = false then [.weak] else [])
  ++ (if d.knockClass.judged && !d.knockWithheld then [.knockEvals] else [])
  ++ (if d.knockClass = .light ∧ d.knockWithheld = false then [.knockLight] else [])
  ++ (if d.knockClass = .heavy ∧ d.knockWithheld = false then [.knockHeavy] else [])
  ++ (if d.misfireWithheld || d.knockWithheld then [.withheld] else [])
  ++ (if d.misfireClass = .intended then [.intended] else [])

/-- R133: a decided record counted in the Live Bank. -/
def countRecord (d : Decided) (p : Part) : Part :=
  (countedKinds d).foldl (fun p k => increment (classCounter d.record.cylinder d.speedBand k) p) p

/-- R135: Snapshot. -/
def takeSnapshot (p : Part) : Part :=
  p.setStb { p.stb with snapshot := p.stb.live, generation := p.stb.generation + 1 }

/-- R136: Clear. -/
def clearLive (p : Part) : Part := p.setStb { p.stb with live := Vector.replicate 538 0 }

/-- R137: Snapshot-and-Clear, one action. -/
def snapshotAndClearLive (p : Part) : Part :=
  p.setStb { live := Vector.replicate 538 0, snapshot := p.stb.live, generation := p.stb.generation + 1 }

end Sys2Proof.Machine
end

