-- ==== Sys2Proof/Machine/Posting.lean ====
section
/-! DEFINITION. The Post Engine (chapter 10): verdicts (R141), the Post Queue (R142), moves into the Injection Queue
(R143), publications (R144), the consumer count (R145) and the post state (R146). -/

namespace Sys2Proof.Machine

/-- The ring load: assigned − consumer, mod 65536 (R140). -/
def Part.ringLoad (p : Part) : Nat := (p.pse.assigned - p.pse.consumer).toNat

/-- The occupancy: published − consumer, mod 65536 (R140). -/
def Part.occupancy (p : Part) : Nat := (p.pse.published - p.pse.consumer).toNat

/-! ### Codes (12.4) -/

def MisfireClass.code : MisfireClass → Nat
  | .none => 0
  | .weak => 1
  | .misfire => 2
  | .intended => 3
  | .unavailable => 4

def KnockClass.code : KnockClass → Nat
  | .none => 0
  | .light => 1
  | .heavy => 2
  | .skipped => 3
  | .unavailable => 4
  | .sensorFault => 5

def FuelState.code : FuelState → Nat
  | .normal => 0
  | .enrich => 1
  | .cut => 2

def IgnitionState.code : IgnitionState → Nat
  | .normal => 0
  | .retard => 1
  | .cut => 2

def Health.code : Health → Nat
  | .healthy => 0
  | .suspect => 1
  | .faulted => 2

/-- What the HSU keeps of a cylinder. -/
def Part.cylinderHistory (p : Part) (c : Nat) : CylinderHistory := Table.readCyl p.hsu.cylinders c .reset

/-! ### The verdict (R141, 12.4) -/

/-- The verdict of a decided record, with the health, alert and turbine flags as the HSU holds them now. -/
def buildVerdict (d : Decided) (p : Part) : Verdict where
  w0 := place d.record.seq.toNat 0 ||| place d.record.cylinder 16 ||| place d.record.cycleTag.toNat 24
  w1 := place d.misfireClass.code 0 ||| place d.knockClass.code 3 ||| placeBit d.misfireWithheld 6
    ||| placeBit d.knockWithheld 7 ||| place (d.record.contexts.getD 0).toNat 8 ||| place d.speedBand 14
    ||| place d.loadBand 17 ||| placeBit d.record.roughness.isSome 19 ||| placeBit d.record.intensity.isSome 20
    ||| placeBit d.record.ratio.isSome 21
  w2 := place (BitVec.ofInt 16 (d.record.roughness.getD 0)).toNat 0 ||| place (d.record.ratio.getD 0) 16
    ||| place (p.cylinderHistory d.record.cylinder).health.code 24
    ||| placeBit (p.cylinderHistory d.record.cylinder).alert 26 ||| placeBit p.hsu.exceeded 27
  w3 := place (d.record.period.getD 0) 0
  w4 := place (d.record.intensity.getD 0) 0 ||| place (d.record.coverage.getD 0) 16
    ||| place (d.record.clipped.getD 0) 24
  w5 := d.record.cycleNumber.getD 0
  w6 := place d.record.spark.toNat 0 ||| place d.record.load 8 ||| place d.record.fuel.code 17
    ||| place d.record.ignition.code 19
  w7 := d.decisionTime

/-- The eight words of a verdict, word 0 first. -/
def Verdict.words (v : Verdict) : List Word := [v.w0, v.w1, v.w2, v.w3, v.w4, v.w5, v.w6, v.w7]

/-- R141: whether the post policy posts a decided record. Withheld flags are not considered. -/
def isPosted (policy : PostPolicy) (d : Decided) : Bool :=
  match policy with
  | .all => true
  | .exceptions =>
    decide (d.misfireClass = .misfire ∨ d.misfireClass = .weak ∨ d.misfireClass = .unavailable)
    || decide (d.knockClass = .light ∨ d.knockClass = .heavy ∨ d.knockClass = .unavailable
      ∨ d.knockClass = .sensorFault)
  | .none => false

/-! ### Moves (R143) -/

/-- The three conditions of a move. -/
def canMove (p : Part) : Bool :=
  decide (p.pse.postState = .running) && decide (p.ptu.queue.length + 8 ≤ Config.queueCapacity)
  && decide (p.ringLoad < p.cfg.ringSize)

/-- The address of word `w` of ring slot `slot`. -/
def ringAddress (g : Settings) (slot w : Nat) : Addr := BitVec.ofNat 24 (g.ringBase + slot * 32 + w * 4)

/-- The eight queued words of a verdict for a slot: every word publishes, word 7 alone is the record end. -/
def queuedVerdict (g : Settings) (slot : Nat) (now : Micros) (v : Verdict) : List QueuedWord :=
  v.words.mapIdx fun w x => ⟨ringAddress g slot w, x, true, decide (w = 7), now⟩

/-- One move of the oldest verdict. -/
def moveVerdict (v : Verdict) (rest : List Verdict) (p : Part) : Part :=
  (p.setQueue (p.ptu.queue
      ++ queuedVerdict p.cfg (p.pse.assigned.toNat % p.cfg.ringSize) p.partTime v)).setPse
    { p.pse with postQueue := rest, assigned := p.pse.assigned + 1 }

/-- The move repeated until a condition fails or the Post Queue is empty; `fuel` bounds the moves. -/
def moveLoop : Nat → Part → Part
  | 0, p => p
  | fuel + 1, p =>
    match p.pse.postQueue with
    | [] => p
    | v :: rest => if canMove p then moveLoop fuel (moveVerdict v rest p) else p

/-- R143: the move test. -/
def moveTest (p : Part) : Part := moveLoop p.pse.postQueue.length p

/-! ### Offering, publishing, consuming -/

/-- R142: a verdict offered to the Post Queue. -/
def offerVerdict (v : Verdict) (p : Part) : Part :=
  if p.pse.postQueue.length < Config.postCapacity then
    moveTest (p.setPse { p.pse with postQueue := p.pse.postQueue ++ [v] })
  else setNotice .verdictDropped (report .verdictsDropped p)

/-- R141: step 7 of the decision. -/
def postVerdict (d : Decided) (p : Part) : Part :=
  if isPosted p.cfg.policy d then offerVerdict (buildVerdict d p) p else p

/-- R144: a publication reported by the PTU. -/
def publication (p : Part) : Part :=
  let p := report .verdictsPosted (p.setPse { p.pse with published := p.pse.published + 1 })
  if p.occupancy = p.cfg.watermark then setNotice .watermark p else p

/-- R145: a Consumer Count. -/
def takeConsumerCount (v : BitVec 16) (p : Part) : Part :=
  if (v - p.pse.consumer).toNat ≤ p.occupancy then moveTest (p.setPse { p.pse with consumer := v })
  else report .consumerCountErrors p

/-- The Injection Queue holds a word with the publishes mark (R146). -/
def Part.publishing (p : Part) : Bool := p.ptu.queue.any (·.publishes)

/-- The post state enters STOPPED (R146). -/
def enterStopped (p : Part) : Part := setNotice .postStopped (p.setPse { p.pse with postState := .stopped })

/-- R146: Post Stop. -/
def takePostStop (p : Part) : Part :=
  match p.pse.postState with
  | .running => if p.publishing then p.setPse { p.pse with postState := .stopping } else enterStopped p
  | .stopping => p
  | .stopped => p

/-- R146: Post Resume. -/
def takePostResume (p : Part) : Part :=
  match p.pse.postState with
  | .running => p
  | .stopping => moveTest (p.setPse { p.pse with postState := .running })
  | .stopped => moveTest (p.setPse { p.pse with postState := .running })

/-- R12, R146: the PTU's report that the queue holds no word with the publishes mark, made when it holds none. -/
def reportNoPublishing (p : Part) : Part :=
  if p.publishing then p
  else
    match p.pse.postState with
    | .stopping => enterStopped p
    | .running => p
    | .stopped => p

/-- `n` reports of Verdicts Dropped, for verdicts discarded with the Post Queue (R147). -/
def reportDropped : Nat → Part → Part
  | 0, p => p
  | n + 1, p => reportDropped n (report .verdictsDropped p)

/-- R147: the Post Queue discarded; each verdict is one Verdicts Dropped and no notice is set. -/
def discardPostQueue (p : Part) : Part :=
  let p' := reportDropped p.pse.postQueue.length p
  p'.setPse { p'.pse with postQueue := [] }

end Sys2Proof.Machine
end

