-- ==== Sys2Proof/Machine/History.lean ====
section
/-! DEFINITION. The History Unit (chapter 8): history entries (R119, R120), misfire run (R121), health (R122, R123),
knock alert (R124), the handling of a decided record (R125), release (R126) and the Turbine Rate Block (R127, R128). -/

namespace Sys2Proof.Machine

/-- The HSU with one cylinder's history set. -/
def setCylinder (c : Nat) (h : CylinderHistory) (p : Part) : Part :=
  p.setHsu { p.hsu with cylinders := Table.writeCyl p.hsu.cylinders c h }

/-- R119: the misfire outcome. -/
def misfireOutcome (d : Decided) : Option MisfireClass :=
  if d.misfireClass.judged && !d.misfireWithheld then some d.misfireClass else none

/-- R119: the knock outcome. -/
def knockOutcome (d : Decided) : Option KnockClass :=
  if d.knockClass.judged && !d.knockWithheld then some d.knockClass else none

/-- R118: the misfire count of a ring. -/
def misfireCount (ring : List HistoryEntry) : Nat := (ring.filter fun e => decide (e.misfire = some .misfire)).length

/-- R118: the heavy count of a ring. -/
def heavyCount (ring : List HistoryEntry) : Nat := (ring.filter fun e => decide (e.knock = some .heavy)).length

/-- R120: an entry appended; the oldest leaves a ring that then holds 17. -/
def appendEntry (ring : List HistoryEntry) (e : HistoryEntry) : List HistoryEntry :=
  let ring' := ring ++ [e]
  if Config.historyCapacity < ring'.length then ring'.drop 1 else ring'

/-- R121: the misfire run after an entry's misfire outcome. -/
def nextRun (run : Nat) (o : Option MisfireClass) : Nat :=
  match o with
  | some .misfire => min 255 (run + 1)
  | some _ => 0
  | none => run

/-- R122: one step of the health state. -/
def healthStep (g : Settings) (h : Health) (count run : Nat) : Health :=
  match h with
  | .faulted => .faulted
  | .healthy =>
    if g.faultCount ≤ count ∨ g.faultRun ≤ run then .faulted
    else if g.suspectCount ≤ count then .suspect else .healthy
  | .suspect =>
    if g.faultCount ≤ count ∨ g.faultRun ≤ run then .faulted
    else if count ≤ g.clearCount then .healthy else .suspect

/-- R122: the notice a health step sets. -/
def healthNotice (before after : Health) (p : Part) : Part :=
  match before, after with
  | .healthy, .faulted => setNotice .cylFault p
  | .suspect, .faulted => setNotice .cylFault p
  | .healthy, .suspect => setNotice .cylSuspect p
  | .healthy, .healthy => p
  | .suspect, .healthy => p
  | .suspect, .suspect => p
  | .faulted, _ => p

/-- R124: the knock-alert flag after an entry. -/
def alertStep (g : Settings) (alert : Bool) (heavy : Nat) : Bool :=
  if alert then decide (1 ≤ heavy) else decide (g.alertCount ≤ heavy)

/-- R124: the notice an alert step sets. -/
def alertNotice (before after : Bool) (p : Part) : Part :=
  if !before && after then setNotice .knockAlert p else p

/-- R121 to R124 for one appended entry: the cylinder's history after it. -/
def cylinderStep (g : Settings) (h : CylinderHistory) (e : HistoryEntry) : CylinderHistory :=
  let ring := appendEntry h.ring e
  let run := nextRun h.run e.misfire
  { ring := ring, run := run, health := healthStep g h.health (misfireCount ring) run,
    alert := alertStep g h.alert (heavyCount ring) }

/-- R128: a present MISFIRE outcome counted in the Turbine Rate Block. -/
def countTurbine (o : Option MisfireClass) (p : Part) : Part :=
  if o = some .misfire then p.setHsu { p.hsu with blockMisfires := min 65535 (p.hsu.blockMisfires + 1) } else p

/-- R125: the handling of a decided record. -/
def historyTake (d : Decided) (p : Part) : Part :=
  if misfireOutcome d = none ∧ knockOutcome d = none then p
  else
    let c := d.record.cylinder
    let before := p.cylinderHistory c
    let after := cylinderStep p.cfg before ⟨misfireOutcome d, knockOutcome d⟩
    countTurbine (misfireOutcome d)
      (alertNotice before.alert after.alert (healthNotice before.health after.health (setCylinder c after p)))

/-- R126: Cylinder Release; bit c − 1 of the mask names cylinder c. -/
def releaseCylinders (mask : Byte) (p : Part) : Part :=
  p.setHsu { p.hsu with
    cylinders := Table.build 8 fun i =>
      if mask.getLsbD i then .reset else Table.read p.hsu.cylinders i .reset }

/-- R127: the Turbine Rate Block at a cycle boundary, under the configuration that governs the boundary. -/
def turbineBoundary (p : Part) : Part :=
  let g := p.governing
  let n := p.hsu.blockCycles + 1
  if g.blockCycles ≤ n then
    let full := decide (g.turbineLimit ≤ p.hsu.blockMisfires)
    let p := p.setHsu { p.hsu with blockCycles := 0, blockMisfires := 0, exceeded := full }
    if full then setNotice .turbineRate p else p
  else p.setHsu { p.hsu with blockCycles := n }

/-- R128: a sync loss discards the partial block; the exceeded flag stays. -/
def turbineSyncLoss (p : Part) : Part := p.setHsu { p.hsu with blockCycles := 0, blockMisfires := 0 }

/-- R129: the HSU at its reset values. -/
def resetHistory (p : Part) : Part := p.setHsu ⟨Vector.replicate 8 .reset, 0, 0, false⟩

end Sys2Proof.Machine
end

