-- ==== Sys2Proof/Machine/Decision.lean ====
section
/-! DEFINITION. The core of the Firing List Controller: its slots (R52, R54), the merging of effects (R116), the misfire
classification (R78, R79), readiness and decision (R64, R65), abandonment (R66), and the two parts of the Knock Analyser
that decisions and abandonments reach (R94, R101). -/

namespace Sys2Proof.Machine

/-! ### Slots -/

/-- The record a slot holds. -/
def Part.slot (p : Part) (i : Nat) : Option Record := Table.read p.flc.slots i none

/-- The FLC with the contents of one slot set. -/
def setSlot (i : Nat) (r : Option Record) (p : Part) : Part :=
  p.setFlc { p.flc with slots := Table.write p.flc.slots i r }

/-- The records held with their slots, oldest taken first. -/
def Part.records (p : Part) : List (Nat × Record) :=
  p.flc.order.filterMap fun i => (p.slot i).map fun r => (i, r)

/-- The first record in the taking order that satisfies a test. -/
def Part.findRecord (p : Part) (test : Record → Bool) : Option (Nat × Record) :=
  p.records.find? fun x => test x.2

/-- k_c: the record count of a cylinder. -/
def Part.recordCount (p : Part) (c : Nat) : Nat := Table.readCyl p.flc.counts c 0

/-- U for given counts and allotment: the sum over the cylinders of k_c − min(k_c, A). -/
def reserveOf (allotment : Nat) (counts : Vector Nat 8) : Nat :=
  (counts.toList.map fun k => k - min k allotment).sum

/-- R54: the counts changed and U recomputed. -/
def setCounts (counts : Vector Nat 8) (p : Part) : Part :=
  p.setFlc { p.flc with counts := counts, reserveInUse := reserveOf p.cfg.allotment counts }

/-- The shared reserve R = 24 − N × A. -/
def Settings.reserve (g : Settings) : Nat := Config.slotCount - g.cylinders * g.allotment

/-- R54: a record leaves the list: its slot is FREE, its cylinder's count falls, it leaves the taking order. -/
def leaveList (i : Nat) (c : Nat) (p : Part) : Part :=
  let p := setSlot i none p
  let p := p.setFlc { p.flc with order := p.flc.order.filter fun j => j != i }
  setCounts (Table.writeCyl p.flc.counts c (p.recordCount c - 1)) p

/-! ### Effects (R116) -/

/-- Membership of a context in a record's set. -/
def inSet (set : BitVec 6) (c : Ctx) : Bool := set.getLsbD c.index

/-- R116: bit `k` of the effects merged over a context set; an empty set gives COUNT and UPDATE. -/
def mergedEffect (g : Settings) (set : BitVec 6) (k : Nat) : Bool :=
  let members := Ctx.list.filter (inSet set)
  if members.isEmpty then false
  else if g.mergePolicy = 0 then members.any (g.effectBit k) else members.all (g.effectBit k)

/-! ### Misfire classification (R78, R79) -/

/-- A firing cut on purpose. -/
def Record.isCut (r : Record) : Bool := decide (r.fuel = .cut ∨ r.ignition = .cut)

/-- R78: the misfire threshold of a speed band and a load band. -/
def Settings.misfireThreshold (g : Settings) (b l : Nat) : Nat := Table.read g.misfireTable (4 * b + l) 0

/-- R78: the class of a record whose figure is absent. -/
def classWithoutFigure (r : Record) : MisfireClass := if r.isCut then .intended else .unavailable

/-- R78: the class of a record with figure M, under the bands of R79. -/
def classWithFigure (g : Settings) (r : Record) (m : Int) : MisfireClass :=
  let tm := g.misfireThreshold (g.speedBand (r.period.getD 0)) (g.loadBand r.load)
  let tp := tm * g.partialFraction / 8
  if r.isCut then .intended
  else if (tm : Int) ≤ m then .misfire
  else if (tp : Int) ≤ m then .weak
  else .none

/-! ### Readiness and decision (R64, R65) -/

/-- R64: a SETTLING record with both halves final. -/
def Record.ready (r : Record) : Bool := decide (r.state = .settling) && r.misfire.isSome && r.knock.isSome

/-- The slot of the first record of a cylinder in the taking order. -/
def Part.firstOf (p : Part) (c : Nat) : Option Nat :=
  (p.findRecord fun r => r.cylinder == c).map Prod.fst

/-- The first record in the taking order, among the selected cylinders, that is ready and first of its cylinder. -/
def nextReady (sel : Nat → Bool) (p : Part) : Option (Nat × Record) :=
  p.records.find? fun x => sel x.2.cylinder && x.2.ready && p.firstOf x.2.cylinder == some x.1

/-- R65, steps 1 to 3: the decided record. -/
def decidedOf (r : Record) (p : Part) : Decided :=
  let g := p.cfg
  let set := r.contexts.getD 0
  let mc := r.misfire.getD .unavailable
  let kc := r.knock.getD .unavailable
  { record := r
    misfireClass := mc
    knockClass := kc
    misfireWithheld := mergedEffect g set 0 && mc.judged
    knockWithheld := mergedEffect g set 1 && kc.judged
    freezeBackground := mergedEffect g set 2
    speedBand := g.speedBand (r.period.getD 0)
    loadBand := g.loadBand r.load
    decisionTime := p.partTime }

/-- The knock reference of a cylinder. -/
def Part.reference (p : Part) (c : Nat) : Nat := Table.readCyl p.kna.refs c 1

/-- A sensor's health. -/
def Part.sensor (p : Part) (s : Nat) : Sensor := Table.read p.kna.sensors s .reset

/-- SensorMap[c]. -/
def Settings.sensorOf (g : Settings) (c : Nat) : Nat := Table.readCyl g.sensorMap c 0

/-- R101: a sixteenth of the distance, truncated toward zero, clamped to 1..65535. -/
def nextReference (ref intensity : Nat) : Nat :=
  min 65535 (max 1 ((ref : Int) + ((intensity : Int) - ref).tdiv 16).toNat)

/-- R101: the reference of the record's cylinder learns from a quiet firing. -/
def learnReference (d : Decided) (p : Part) : Part :=
  let c := d.record.cylinder
  if d.knockClass = .none ∧ d.knockWithheld = false ∧ (p.sensor (p.cfg.sensorOf c)).state = .ok
      ∧ d.freezeBackground = false then
    p.setKna { p.kna with
      refs := Table.writeCyl p.kna.refs c (nextReference (p.reference c) (d.record.intensity.getD 0)) }
  else p

/-- R65, step 8. -/
def reportDecision (d : Decided) (p : Part) : Part :=
  let p := report .recordsDecided p
  let p := if d.misfireClass = .unavailable then report .misfireUnavailable p else p
  if d.knockClass = .unavailable ∨ d.knockClass = .sensorFault then report .knockUnavailable p else p

/-- R65, steps 1 to 9, for the record in a slot. -/
def decideRecord (i : Nat) (r : Record) (p : Part) : Part :=
  let d := decidedOf r p
  leaveList i r.cylinder
    (reportDecision d (postVerdict d (learnReference d (countRecord d (historyTake d p)))))

/-- R64: decisions made one after another until no selected record is ready and first of its cylinder; `fuel` bounds
them. -/
def decideLoop (sel : Nat → Bool) : Nat → Part → Part
  | 0, p => p
  | fuel + 1, p =>
    match nextReady sel p with
    | none => p
    | some (i, r) => decideLoop sel fuel (decideRecord i r p)

/-- R64: the readiness test for one cylinder. -/
def testReady (c : Nat) (p : Part) : Part := decideLoop (fun x => x == c) Config.slotCount p

/-- R64: the readiness test where one event leaves records of several cylinders ready: the taking order across the whole
list (log 16). -/
def testReadyAll (p : Part) : Part := decideLoop (fun _ => true) Config.slotCount p

/-! ### Abandonment (R66, R94) -/

/-- R94: a record's pending evaluation removed from the Knock Wait List. -/
def withdrawEval (i : Nat) (seq : BitVec 16) (p : Part) : Part :=
  p.setKna { p.kna with waitList := p.kna.waitList.filter fun e => !(e.slot == i && e.seq == seq) }

/-- The engine counter of an abandonment (R66). -/
def AbandonReason.counter : AbandonReason → EngineCounter
  | .stale => .abandonedStale
  | .sync => .abandonedSync
  | .reset => .abandonedConfigOrReset
  | .config => .abandonedConfigOrReset

/-- R66: the record in a slot is abandoned. -/
def abandon (reason : AbandonReason) (i : Nat) (p : Part) : Part :=
  match p.slot i with
  | none => p
  | some r =>
    let p := if r.closeTime.isSome && r.knock.isNone then withdrawEval i r.seq p else p
    let p := leaveList i r.cylinder (report reason.counter p)
    match reason with
    | .stale => testReady r.cylinder p
    | .sync => testReady r.cylinder p
    | .reset => p
    | .config => p

/-- R69: every undecided record abandoned, in the taking order. -/
def abandonAll (reason : AbandonReason) (p : Part) : Part :=
  p.flc.order.foldl (fun p i => abandon reason i p) p

end Sys2Proof.Machine
end

