-- ==== Sys2Proof/Machine/Operands.lean ====
section
/-! DEFINITION. The operand formats of the tap windows and the command area (12.1, 12.2), and the check byte (R56). -/

namespace Sys2Proof.Machine

/-! ### Tooth entry -/

/-- Bits 23..0 of a tooth entry: the capture timestamp. -/
def toothStamp (w : Word) : Stamp := w.extractLsb' 0 24

/-- Bit 24 of a tooth entry: the cam-marker flag. -/
def toothCam (w : Word) : Bool := w.getLsbD 24

/-! ### Schedule entry -/

/-- The check-byte generator below x^8 (R56). -/
def crcPoly : Byte := 0x2F

/-- One advance: shifted toward the most significant bit, combined with the generator when the discarded bit was 1. -/
def crcAdvance (r : Byte) : Byte := if r.msb then (r <<< 1) ^^^ crcPoly else r <<< 1

/-- One byte combined and advanced eight times. -/
def crcByte (r b : Byte) : Byte :=
  crcAdvance (crcAdvance (crcAdvance (crcAdvance (crcAdvance (crcAdvance (crcAdvance (crcAdvance (r ^^^ b))))))))

/-- R56: the check byte over bytes in address order. -/
def checkByte (bytes : List Byte) : Byte := bytes.foldl crcByte 0xFF

/-- A committed schedule entry: the latched word and the commit word (R8). -/
structure ScheduleEntry where
  first : Word
  commit : Word
  deriving DecidableEq, Repr

/-- Bytes 0..6 of an entry. -/
def entryBytes (e : ScheduleEntry) : List Byte :=
  [byteOf e.first 0, byteOf e.first 1, byteOf e.first 2, byteOf e.first 3,
   byteOf e.commit 0, byteOf e.commit 1, byteOf e.commit 2]

/-- The check byte agrees (R55, check 2). -/
def entryCheckOk (e : ScheduleEntry) : Bool := checkByte (entryBytes e) == byteOf e.commit 3

/-- Byte 0: the cylinder. -/
def entryCylinder (e : ScheduleEntry) : Nat := field e.first 0 8

/-- Byte 1: the cycle tag. -/
def entryTag (e : ScheduleEntry) : Byte := byteOf e.first 1

/-- Byte 2: the spark angle. -/
def entrySpark (e : ScheduleEntry) : Byte := byteOf e.first 2

/-- Byte 3: the fuel state, absent for an undefined code. -/
def entryFuel (e : ScheduleEntry) : Option FuelState :=
  match field e.first 24 8 with
  | 0 => some .normal
  | 1 => some .enrich
  | 2 => some .cut
  | _ => none

/-- Bytes 4..5: the load. -/
def entryLoad (e : ScheduleEntry) : Nat := field e.commit 0 16

/-- Byte 6, bits 1..0: the ignition state, absent for an undefined code. -/
def entryIgnition (e : ScheduleEntry) : Option IgnitionState :=
  match field e.commit 16 2 with
  | 0 => some .normal
  | 1 => some .retard
  | 2 => some .cut
  | _ => none

/-- Byte 6, bit 2: the ALS flag. -/
def entryAls (e : ScheduleEntry) : Bool := e.commit.getLsbD 18

/-- Byte 6, bit 3: the LAUNCH flag. -/
def entryLaunch (e : ScheduleEntry) : Bool := e.commit.getLsbD 19

/-! ### Knock header and samples -/

/-- Bits 23..0 of the timestamp word. -/
def headerStart (w : Word) : Stamp := w.extractLsb' 0 24

/-- Bits 7..0 of the descriptor: the sample pairs. -/
def headerPairs (w : Word) : Nat := field w 0 8

/-- Bits 11..8 of the descriptor: the sensor. -/
def headerSensor (w : Word) : Nat := field w 8 4

/-- The two samples of a sample word, the earlier first. -/
def wordSamples (w : Word) : List Nat := [field w 0 12, field w 16 12]

/-! ### Command words -/

/-- Bits 15..0: a generation tag or a consumer value. -/
def commandTag (w : Word) : BitVec 16 := w.extractLsb' 0 16

/-- Bits 12..0: a notice mask. -/
def commandNotices (w : Word) : BitVec 13 := w.extractLsb' 0 13

/-- Bits 7..0: a code or a cylinder mask. -/
def commandCode (w : Word) : Byte := w.extractLsb' 0 8

end Sys2Proof.Machine
end

