-- ==== Sys2Proof/Machine/Knock.lean ====
section
/-! DEFINITION. The Knock Analyser (chapter 6): frames (R86 to R90), window fixes and the moments of evaluation (R91 to
R93), evaluation (R95 to R97), sensor health (R98, R99), references (R100) and the reset of its state (R102); and the
Firing List Controller's taking of a knock report (R63). -/

namespace Sys2Proof.Machine

/-! ### Placing samples in ECU time (R90) -/

/-- The sample time of sample `j`. -/
def sampleTime (g : Settings) (f : Frame) (j : Nat) : Stamp := f.start + BitVec.ofNat 24 (j * g.samplePeriod)

/-- The end of a frame: the time at which its next sample would have fallen. -/
def frameEnd (g : Settings) (f : Frame) : Stamp := sampleTime g f f.samples.length

/-- A frame reaches a time: the time is not later than the frame's end. -/
def frameReaches (g : Settings) (f : Frame) (t : Stamp) : Bool := !isLater t (frameEnd g f)

/-- A sample time lies in the window [open, close). -/
def inWindow (opn cls t : Stamp) : Bool := decide (interval opn t < interval opn cls)

/-- A frame has a sample at a time: the time is a whole number of sample periods, fewer than its samples, after its
start. -/
def hasSampleAt (g : Settings) (f : Frame) (t : Stamp) : Bool :=
  decide (interval f.start t < f.samples.length * g.samplePeriod) && decide (interval f.start t % g.samplePeriod = 0)

/-- Frame `b`, committed after frame `a`, is later-started than it. -/
def laterStarted (b a : Frame) : Bool := !isLater a.start b.start

/-- Of the frames with a sample at a time, the later-started one supplies it; frames are listed in commit order
(log 23). -/
def supplier (g : Settings) (fs : List Frame) (t : Stamp) : Option Frame :=
  (fs.filter fun f => hasSampleAt g f t).foldl
    (fun best f =>
      match best with
      | none => some f
      | some a => if laterStarted f a then some f else some a) none

/-- R95, step 2: the used samples of a window over the frames of one sensor. -/
def usedSamples (g : Settings) (fs : List Frame) (opn cls : Stamp) : List Nat :=
  fs.flatMap fun f =>
    (f.samples.zipIdx).filterMap fun x =>
      let t := sampleTime g f x.2
      if inWindow opn cls t && ((supplier g fs t).map (·.commit) == some f.commit) then some x.1 else none

/-! ### Knock reports (R63) -/

/-- What a knock report carries beside the record it names (R63). -/
structure KnockReport where
  cls : KnockClass
  intensity : Option Nat
  coverage : Nat
  clipped : Nat
  ratio : Option Nat
  deriving DecidableEq, Repr

/-- A record with its knock half made final by a report. -/
def Record.withKnock (r : Record) (k : KnockReport) : Record :=
  { r with knock := some k.cls, intensity := k.intensity, coverage := some k.coverage, clipped := some k.clipped,
           ratio := k.ratio }

/-- R63: the FLC takes a knock report. -/
def takeKnockReport (i : Nat) (seq : BitVec 16) (k : KnockReport) (p : Part) : Part :=
  match p.slot i with
  | none => p
  | some r =>
    if r.seq = seq ∧ r.knock = none then
      let p := setSlot i (some (r.withKnock k)) p
      if r.state = .settling then testReady r.cylinder p else p
    else p

/-! ### Sensor health (R98, R99) -/

/-- A run counter after a window: one more, saturating at 255, or 0. -/
def nextCount (hit : Bool) (n : Nat) : Nat := if hit then min 255 (n + 1) else 0

/-- R98, R99: a sensor's health after a covered window. -/
def sensorStep (x : Sensor) (quiet clip : Bool) : Sensor :=
  let q := nextCount quiet x.quietRun
  let c := nextCount clip x.clipRun
  let n := nextCount (!quiet && !clip) x.cleanRun
  let st :=
    if c = 8 ∧ x.clipRun = 7 ∧ x.state ≠ .clipped then SensorState.clipped
    else if q = 8 ∧ x.quietRun = 7 ∧ x.state ≠ .quiet then SensorState.quiet
    else if n = 8 ∧ x.cleanRun = 7 ∧ x.state ≠ .ok then SensorState.ok
    else x.state
  ⟨st, q, c, n⟩

/-- R99: entering QUIET or CLIPPED sets SENSOR_FAULT. -/
def updateSensor (s : Nat) (quiet clip : Bool) (p : Part) : Part :=
  let x := p.sensor s
  let y := sensorStep x quiet clip
  let p := p.setKna { p.kna with sensors := Table.write p.kna.sensors s y }
  if y.state ≠ x.state ∧ y.state ≠ .ok then setNotice .sensorFault p else p

/-! ### Evaluation (R95, R96, R97) -/

/-- R95, step 1: the expected count. -/
def expectedCount (g : Settings) (e : PendingEval) : Nat := interval e.openTime e.closeTime / g.samplePeriod

/-- R95, step 4: the coverage. -/
def coverageOf (expected used : Nat) : Nat := if expected = 0 then 0 else min 255 (used * 256 / expected)

/-- R95, step 5: the window is uncovered. -/
def uncovered (g : Settings) (expected used : Nat) : Bool :=
  decide (expected = 0) || decide (used * 8 < expected * g.minCover)

/-- R96, step 1: the clipped count. -/
def clippedCount (used : List Nat) : Nat := (used.filter fun s => decide (s = 0 ∨ s = 4095)).length

/-- |a − b|. -/
def distance (a b : Nat) : Nat := (a - b) + (b - a)

/-- R96, step 3: the intensity. -/
def intensityOf (bias : Nat) (used : List Nat) : Nat := (used.map fun s => distance s bias).sum / used.length

/-- R97, step 4: the speed band of an evaluation: the record's own period, else the tracker's last, else 0. -/
def evaluationBand (e : PendingEval) (p : Part) : Nat :=
  match (p.slot e.slot).bind fun r => if r.seq = e.seq then r.period else none with
  | some n => p.cfg.speedBand n
  | none =>
    match p.atk.lastPeriod with
    | some n => p.cfg.speedBand n
    | none => 0

/-- R97, step 5. -/
def knockClassOf (g : Settings) (band ratio : Nat) : KnockClass :=
  if Table.read g.heavyRatio band 0 ≤ ratio then .heavy
  else if Table.read g.lightRatio band 0 ≤ ratio then .light
  else .none

/-- R97, steps 3 to 5, for a covered window after the sensor's update. -/
def judgeCovered (e : PendingEval) (intensity coverage clipped : Nat) (p : Part) : KnockReport :=
  if (p.sensor e.sensor).state ≠ .ok then ⟨.sensorFault, some intensity, coverage, clipped, none⟩
  else
    let ratio := min 255 (intensity * 16 / p.reference e.cylinder)
    ⟨knockClassOf p.cfg (evaluationBand e p) ratio, some intensity, coverage, clipped, some ratio⟩

/-- R95 to R97: one evaluation, with its knock report. -/
def evaluate (e : PendingEval) (p : Part) : Part :=
  let g := p.cfg
  let used := usedSamples g (p.kna.frames.filter fun f => f.sensor == e.sensor) e.openTime e.closeTime
  let expected := expectedCount g e
  let coverage := coverageOf expected used.length
  let clipped := clippedCount used
  if uncovered g expected used.length then
    takeKnockReport e.slot e.seq ⟨.unavailable, none, coverage, min 255 clipped, none⟩ p
  else
    let intensity := intensityOf (Table.read g.bias e.sensor 0) used
    let p := updateSensor e.sensor (decide (intensity < g.quietFloor)) (decide (0 < clipped)) p
    takeKnockReport e.slot e.seq (judgeCovered e intensity coverage (min 255 clipped) p) p

/-- Pending evaluations removed from the list and evaluated, in the order of the list, each completed before the next
(R92, R93). -/
def evaluateEach (es : List PendingEval) (p : Part) : Part :=
  es.foldl (fun p e => evaluate e (withdrawEval e.slot e.seq p)) p

/-- R92: a frame closure. -/
def frameClosure (f : Frame) (p : Part) : Part :=
  evaluateEach (p.kna.waitList.filter fun e => e.sensor == f.sensor && frameReaches p.cfg f e.closeTime) p

/-- R93: a pending evaluation's Knock Wait has expired. -/
def knockWaitDue (p : Part) (e : PendingEval) : Bool := reached p.partTime e.fixTime (p.cfg.knockWaitLimit * 1000)

/-- R93: the pending evaluations whose Knock Wait has expired are evaluated with the frames held. -/
def expireKnockWaits (p : Part) : Part := evaluateEach (p.kna.waitList.filter (knockWaitDue p)) p

/-- R91: the KNA takes a window fix announced for the record in a slot. The open time of a record whose window is fixed
is present; the close time stands in for it in a state no run reaches (log 17). -/
def windowFix (i : Nat) (r : Record) (cls : Stamp) (p : Part) : Part :=
  if r.isCut then takeKnockReport i r.seq ⟨.skipped, none, 0, 0, none⟩ p
  else
    let e : PendingEval :=
      ⟨i, r.seq, r.cylinder, p.cfg.sensorOf r.cylinder, r.openTime.getD cls, cls, p.partTime⟩
    if p.kna.frames.any fun f => f.sensor == e.sensor && decide (f.state ≠ .filling) && frameReaches p.cfg f cls then
      evaluate e p
    else p.setKna { p.kna with waitList := p.kna.waitList ++ [e] }

/-! ### Frames (R86 to R89) -/

/-- The Frame Store. -/
def setFrames (fs : List Frame) (p : Part) : Part := p.setKna { p.kna with frames := fs }

/-- The FILLING frame. -/
def Part.filling (p : Part) : Option Frame := p.kna.frames.find? fun f => decide (f.state = .filling)

/-- The store with its FILLING frame replaced. -/
def replaceFilling (x : Frame) (fs : List Frame) : List Frame :=
  fs.map fun f => if f.state = .filling then x else f

/-- R86, R87, step 1: a FILLING frame becomes TRUNCATED; it is reported and its closure is made. -/
def truncateFilling (p : Part) : Part :=
  match p.filling with
  | none => p
  | some f =>
    let x := { f with state := .truncated }
    frameClosure x (report .framesTruncated (setFrames (replaceFilling x p.kna.frames) p))

/-- R88: the frame of greatest age for a new start time; of equal ages, the one committed first. -/
def oldestFrame (start : Stamp) (fs : List Frame) : Option Frame :=
  fs.foldl (fun best f =>
    match best with
    | none => some f
    | some a => if interval a.start start < interval f.start start then some f else some a) none

/-- R88: eviction. -/
def evictFrame (start : Stamp) (p : Part) : Part :=
  match oldestFrame start p.kna.frames with
  | none => p
  | some f => report .framesEvicted (setFrames (p.kna.frames.erase f) p)

/-- R86, step 2: a place for the new frame. -/
def makeRoom (start : Stamp) (p : Part) : Part :=
  if p.kna.frames.length < Config.frameCapacity then p else evictFrame start p

/-- R87: a header refusal. -/
def headerRefusal (p : Part) : Part := report .framesTruncated (truncateFilling p)

/-- R86: a committed header, made of its timestamp word and its descriptor. -/
def committedHeader (stamp desc : Word) (p : Part) : Part :=
  if headerSensor desc < p.cfg.sensorCount ∧ 1 ≤ headerPairs desc ∧ headerPairs desc ≤ 128 then
    let p := makeRoom (headerStart stamp) (truncateFilling p)
    p.setKna { p.kna with
      frames := p.kna.frames
        ++ [⟨headerSensor desc, headerStart stamp, headerPairs desc, [], .filling, p.kna.commitIndex⟩]
      commitIndex := p.kna.commitIndex + 1 }
  else headerRefusal p

/-- R89: a sample word. -/
def sampleWord (w : Word) (p : Part) : Part :=
  match p.filling with
  | none => report .orphanSampleWords p
  | some f =>
    let x := { f with samples := f.samples ++ wordSamples w }
    if x.samples.length = 2 * f.pairs then
      let x := { x with state := .complete }
      frameClosure x (report .framesCompleted (setFrames (replaceFilling x p.kna.frames) p))
    else setFrames (replaceFilling x p.kna.frames) p

/-! ### Resets (R100, R102) -/

/-- R100: every reference at its seed; those of cylinders above N at 1. -/
def seedReferences (g : Settings) : Vector Nat 8 :=
  Table.build 8 fun i => if i < g.cylinders then Table.read g.seed i 1 else 1

/-- R102: the store and the Knock Wait List emptied, references at their seeds, sensors OK; the commit index stays. -/
def resetKnock (p : Part) : Part :=
  p.setKna { frames := [], commitIndex := p.kna.commitIndex, waitList := [], refs := seedReferences p.cfg,
             sensors := Vector.replicate 4 .reset }

end Sys2Proof.Machine
end

