-- ==== Sys2Proof/Machine/Context.lean ====
section
/-! DEFINITION. The Context Unit (chapter 7): declared causes (R105), load steps (R106), the cycle evaluation (R107 to
R111), context entries (R112, R61), sync losses (R113) and resets (R114). -/

namespace Sys2Proof.Machine

/-- The entry of a context. -/
def ContextTable.get (t : ContextTable) : Ctx → CtxEntry
  | .als => t.als
  | .launch => t.launch
  | .rough => t.rough
  | .flare => t.flare
  | .transient => t.transient
  | .resync => t.resync

/-- The table with every entry replaced by a function of it. -/
def ContextTable.map (t : ContextTable) (f : Ctx → CtxEntry → CtxEntry) : ContextTable where
  als := f .als t.als
  launch := f .launch t.launch
  rough := f .rough t.rough
  flare := f .flare t.flare
  transient := f .transient t.transient
  resync := f .resync t.resync

/-- The table with one entry set. -/
def ContextTable.set (t : ContextTable) (c : Ctx) (e : CtxEntry) : ContextTable :=
  t.map fun x old => if x = c then e else old

/-- The CXU with its table set. -/
def setTable (t : ContextTable) (p : Part) : Part := p.setCxu { p.cxu with table := t }

/-- The bit of a context in a context set (12.4). -/
def Ctx.bit (c : Ctx) : BitVec 6 := 1#6 <<< c.index

/-- R104: the active set, the contexts ACTIVE or HOLDING. -/
def ContextTable.activeSet (t : ContextTable) : BitVec 6 :=
  (Ctx.list.filter fun c => decide ((t.get c).state ≠ .idle)).foldl (fun s c => s ||| c.bit) 0

/-- The MEASURING record; at most one in the list (4.3). -/
def Part.measuring (p : Part) : Option (Nat × Record) := p.findRecord fun r => decide (r.state = .measuring)

/-- R61: a context entry reported to the FLC joins the set of the MEASURING record. -/
def joinMeasuring (c : Ctx) (p : Part) : Part :=
  match p.measuring with
  | none => p
  | some (i, r) => setSlot i (some { r with contexts := r.contexts.map (· ||| c.bit) }) p

/-! ### Declared causes -/

/-- R105: a flagged entry marks a context and puts it in ACTIVE at once; from IDLE the entry is reported. -/
def declareCause (c : Ctx) (p : Part) : Part :=
  let before := p.cxu.table.get c
  let p := setTable (p.cxu.table.set c ⟨.active, 0, true⟩) p
  if before.state = .idle then joinMeasuring c p else p

/-- R106: the load differs from the last taken load by at least TransientStep. -/
def loadStep (g : Settings) (last : Option Nat) (load : Nat) : Bool :=
  match last with
  | none => false
  | some l => decide (g.transientStep ≤ distance load l)

/-- R106: the load step and the last taken load. -/
def takeLoad (load : Nat) (p : Part) : Part :=
  let t := p.cxu.table
  let t' := if loadStep p.cfg p.cxu.lastLoad load then t.set .transient { t.transient with mark := true } else t
  p.setCxu { p.cxu with table := t', lastLoad := some load }

/-- R58: a taken entry announced to the CXU. -/
def announceEntry (als launch : Bool) (load : Nat) (p : Part) : Part :=
  let p := if als then declareCause .als p else p
  let p := if launch then declareCause .launch p else p
  takeLoad load p

/-! ### The cycle evaluation -/

/-- R108: the ended cycle is rough. -/
def roughCycle (g : Settings) (ms : List Int) : Bool :=
  let large := ms.filter fun m => decide (g.roughLevel ≤ m.natAbs)
  decide (2 ≤ large.length) && large.any fun m => decide (m < 0)

/-- R108, step 1: a flag appended to the rough-history shift record, which keeps eight. -/
def appendFlag (fs : List Bool) (f : Bool) : List Bool :=
  let fs' := fs ++ [f]
  if 8 < fs'.length then fs'.drop 1 else fs'

/-- R108, step 3: the ROUGH cause. -/
def roughCause (g : Settings) (st : CtxState) (count : Nat) : Bool :=
  match st with
  | .idle => decide (g.roughEnter ≤ count)
  | .holding => decide (g.roughEnter ≤ count)
  | .active => decide (g.roughExit < count)

/-- R109: the FLARE cause. -/
def flareCause (g : Settings) (r : CycleResult) : Bool :=
  match r.speed, r.previous with
  | some a, some b => decide (b + g.flareStep ≤ a)
  | _, _ => false

/-- R111: one step of a context's state machine. -/
def ctxStep (residency : Nat) (e : CtxEntry) : CtxEntry :=
  match e.state with
  | .idle => if e.mark then { e with state := .active, remaining := 0 } else e
  | .active =>
    if e.mark then e
    else if residency = 0 then { e with state := .idle, remaining := 0 }
    else { e with state := .holding, remaining := residency }
  | .holding =>
    if e.mark then { e with state := .active, remaining := 0 }
    else if e.remaining ≤ 1 then { e with state := .idle, remaining := 0 }
    else { e with remaining := e.remaining - 1 }

/-- R108 to R110: the table with the marks of the inferred contexts written. -/
def writeMarks (rough flare resync : Bool) (t : ContextTable) : ContextTable :=
  { t with rough := { t.rough with mark := rough }, flare := { t.flare with mark := flare },
           resync := { t.resync with mark := resync } }

/-- R112: the contexts that passed from IDLE to ACTIVE, in the order of the table. -/
def enteredContexts (before after : ContextTable) : List Ctx :=
  Ctx.list.filter fun c => decide ((before.get c).state = .idle) && decide ((after.get c).state = .active)

/-- R107, step 3: the cycle evaluation. -/
def evaluateCycle (g : Settings) (r : CycleResult) (p : Part) : Part :=
  let history := appendFlag p.cxu.roughHistory (roughCycle g r.roughness)
  let count := (history.filter id).length
  let marked := writeMarks (roughCause g p.cxu.table.rough.state count) (flareCause g r)
    (decide (0 < p.cxu.resyncCount)) p.cxu.table
  let stepped := marked.map fun c e => ctxStep (g.residencyOf c) e
  let p := p.setCxu { p.cxu with roughHistory := history, resyncCount := p.cxu.resyncCount - 1, table := stepped }
  let p := (enteredContexts marked stepped).foldl (fun p c => joinMeasuring c p) p
  setTable (p.cxu.table.map fun _ e => { e with mark := false }) p

/-- The CXU with its held boundary input set. -/
def setHeldInput (h : Option HeldInput) (p : Part) : Part := p.setCxu { p.cxu with heldInput := h }

/-- R107: the cycle boundary event taken as an input. -/
def takeBoundaryInput (n : BitVec 32) (p : Part) : Part :=
  match p.cxu.heldInput with
  | some ⟨k, some r, g⟩ =>
    if k = n then evaluateCycle g r (setHeldInput none p) else setHeldInput (some ⟨n, none, p.governing⟩) p
  | some ⟨_, none, _⟩ => setHeldInput (some ⟨n, none, p.governing⟩) p
  | none => setHeldInput (some ⟨n, none, p.governing⟩) p

/-- R107: the cycle result taken as an input. -/
def takeResultInput (n : BitVec 32) (r : CycleResult) (p : Part) : Part :=
  match p.cxu.heldInput with
  | some ⟨k, none, g⟩ =>
    if k = n then evaluateCycle g r (setHeldInput none p) else setHeldInput (some ⟨n, some r, p.governing⟩) p
  | some ⟨_, some _, _⟩ => setHeldInput (some ⟨n, some r, p.governing⟩) p
  | none => setHeldInput (some ⟨n, some r, p.governing⟩) p

/-! ### Synchronisation and resets -/

/-- R110: SYNC_GAINED. -/
def contextSyncGained (p : Part) : Part := p.setCxu { p.cxu with resyncCount := 2 }

/-- R113: a sync loss. -/
def contextSyncLoss (p : Part) : Part :=
  p.setCxu { p.cxu with
    table := { p.cxu.table with rough := .reset, flare := .reset, transient := .reset, resync := .reset }
    roughHistory := []
    resyncCount := 0
    heldInput := none }

/-- R114: the CXU at its reset values. -/
def resetContexts (p : Part) : Part := p.setCxu ⟨.reset, [], 0, none, none⟩

end Sys2Proof.Machine
end

