-- ==== Sys2Proof/Machine/FiringList.lean ====
section
/-! DEFINITION. The Firing List Controller: schedule entries (R54 to R58), segment boundaries (R59), knock window edges
(R60), M reports (R62), plan age (R67) and sync losses (R68). -/

namespace Sys2Proof.Machine

/-! ### Schedule entries -/

/-- The refusals of a delivery, in the order of their checks (R55). -/
inductive EntryRefusal where
  | order | check | range | late | noSlot
  deriving DecidableEq, Repr

/-- The engine counter of a refusal (R55). -/
def EntryRefusal.counter : EntryRefusal → EngineCounter
  | .order => .refusedOrder
  | .check => .refusedCheck
  | .range => .refusedRange
  | .late => .refusedLate
  | .noSlot => .refusedNoSlot

/-- R55: the action on a refusal. -/
def refuseEntry (x : EntryRefusal) (p : Part) : Part := setNotice .scheduleRefused (report x.counter p)

/-- The undecided record of an entry's cylinder that has its cycle tag. -/
def Part.matching (p : Part) (e : ScheduleEntry) : Option (Nat × Record) :=
  p.findRecord fun r => r.cylinder == entryCylinder e && r.cycleTag == entryTag e

/-- R54: the slot pool rule opens a record for a cylinder. -/
def poolOpens (p : Part) (c : Nat) : Bool :=
  decide (p.recordCount c < p.cfg.allotment) || decide (p.flc.reserveInUse < p.cfg.reserve)

/-- R55, check 3: an entry's fields are in range. -/
def entryInRange (g : Settings) (e : ScheduleEntry) : Bool :=
  decide (1 ≤ entryCylinder e) && decide (entryCylinder e ≤ g.cylinders) && (entryFuel e).isSome
  && (entryIgnition e).isSome && decide (entryLoad e ≤ 511)

/-- R55: the first check that a committed entry fails. -/
def entryRefusal (e : ScheduleEntry) (p : Part) : Option EntryRefusal :=
  if !entryCheckOk e then some .check
  else if !entryInRange p.cfg e then some .range
  else
    match p.matching e with
    | some (_, r) => if r.state = .planned then none else some .late
    | none => if poolOpens p (entryCylinder e) then none else some .noSlot

/-- The record an entry opens (R56). -/
def newRecord (e : ScheduleEntry) (seq : BitVec 16) (now : Micros) : Record where
  seq := seq
  cylinder := entryCylinder e
  cycleTag := entryTag e
  spark := entrySpark e
  fuel := (entryFuel e).getD .normal
  ignition := (entryIgnition e).getD .normal
  load := entryLoad e
  als := entryAls e
  launch := entryLaunch e
  takenTime := now
  state := .planned
  cycleNumber := none
  hasNeighbour := false
  period := none
  openTime := none
  closeTime := none
  contexts := none
  misfire := none
  roughness := none
  knock := none
  intensity := none
  coverage := none
  clipped := none
  ratio := none

/-- R57: a record revised by an entry. -/
def Record.revised (r : Record) (e : ScheduleEntry) : Record :=
  { r with spark := entrySpark e, fuel := (entryFuel e).getD .normal, ignition := (entryIgnition e).getD .normal,
           load := entryLoad e, als := entryAls e, launch := entryLaunch e }

/-- R54: the lowest-numbered FREE slot. -/
def Part.freeSlot (p : Part) : Option Nat := (List.range Config.slotCount).find? fun i => (p.slot i).isNone

/-- R56: a new record opened. -/
def openRecord (e : ScheduleEntry) (p : Part) : Part :=
  match p.freeSlot with
  | none => p
  | some i =>
    let c := entryCylinder e
    let p := setSlot i (some (newRecord e p.flc.nextSeq p.partTime)) p
    let p := setCounts (Table.writeCyl p.flc.counts c (p.recordCount c + 1)) p
    p.setFlc { p.flc with nextSeq := p.flc.nextSeq + 1, order := p.flc.order ++ [i] }

/-- R55 to R58: a committed entry. -/
def takeEntry (e : ScheduleEntry) (p : Part) : Part :=
  match entryRefusal e p with
  | some x => refuseEntry x p
  | none =>
    let p :=
      match p.matching e with
      | some (i, r) => report .revisions (report .schedulesTaken (setSlot i (some (r.revised e)) p))
      | none => report .schedulesTaken (openRecord e p)
    announceEntry (entryAls e) (entryLaunch e) (entryLoad e) p

/-! ### Segment boundaries -/

/-- The segment boundary event (R46). -/
structure SegmentBoundary where
  starting : Nat
  ending : Option Nat
  stamp : Stamp
  cycleNumber : BitVec 32
  period : Option Nat
  deriving DecidableEq, Repr

/-- The MEASURING record of a cylinder. -/
def Part.measuringOf (p : Part) (c : Nat) : Option (Nat × Record) :=
  p.findRecord fun r => r.cylinder == c && decide (r.state = .measuring)

/-- R59, step 1: the record at its segment end. -/
def Record.ended (r : Record) (period : Nat) : Record :=
  { r with
    period := some period
    state := .settling
    misfire := if r.hasNeighbour then r.misfire else some (classWithoutFigure r) }

/-- R59, step 1: segment end. -/
def segmentEnd (c period : Nat) (p : Part) : Part :=
  match p.measuringOf c with
  | none => p
  | some (i, r) => testReady c (setSlot i (some (r.ended period)) p)

/-- R59, step 2: segment start. -/
def segmentStart (b : SegmentBoundary) (p : Part) : Part :=
  match p.findRecord fun r => r.cylinder == b.starting && decide (r.state = .planned) with
  | none => p
  | some (i, r) =>
    setSlot i (some { r with
      cycleNumber := some b.cycleNumber
      hasNeighbour := b.period.isSome
      contexts := some p.cxu.table.activeSet
      state := .measuring }) p

/-- R59: the FLC takes a segment boundary. -/
def firingBoundary (b : SegmentBoundary) (p : Part) : Part :=
  let p :=
    match b.ending, b.period with
    | some c, some n => segmentEnd c n p
    | _, _ => p
  segmentStart b p

/-! ### Knock window edges (R60) -/

/-- Knock open. -/
def knockOpenEdge (c : Nat) (t : Stamp) (p : Part) : Part :=
  match p.measuringOf c with
  | none => p
  | some (i, r) => setSlot i (some { r with openTime := some t }) p

/-- Knock close: the window is fixed and announced to the KNA. -/
def knockCloseEdge (c : Nat) (t : Stamp) (p : Part) : Part :=
  match p.measuringOf c with
  | none => p
  | some (i, r) => windowFix i r t (setSlot i (some { r with closeTime := some t }) p)

/-! ### M reports (R62) -/

/-- R62: the FLC takes an M report. -/
def takeMReport (c : Nat) (n : BitVec 32) (m : Int) (p : Part) : Part :=
  match p.findRecord fun r => r.cylinder == c && decide (r.state = .settling) && r.cycleNumber == some n
      && r.misfire.isNone with
  | none => p
  | some (i, r) =>
    testReady c (setSlot i (some { r with roughness := some m, misfire := some (classWithFigure p.cfg r m) }) p)

/-! ### Plan age (R67) -/

/-- A PLANNED record's plan age has expired. -/
def planAgeDue (p : Part) (r : Record) : Bool :=
  decide (r.state = .planned) && reached p.partTime r.takenTime (p.cfg.planAgeLimit * 1000)

/-- The slots of the records whose plan age has expired, in the taking order. -/
def Part.staleSlots (p : Part) : List Nat := (p.records.filter fun x => planAgeDue p x.2).map Prod.fst

/-- R67: the records whose plan age has expired are abandoned STALE, in the taking order. -/
def expirePlanAges (p : Part) : Part := p.staleSlots.foldl (fun p i => abandon .stale i p) p

/-! ### Sync losses (R68) -/

/-- R68, step 2: a SETTLING record's misfire half made final with M absent. -/
def Record.lost (r : Record) : Record :=
  if r.state = .settling ∧ r.misfire = none then { r with misfire := some (classWithoutFigure r) } else r

/-- R68, steps 1 to 3, for a loss of reason GAP, CAM or STALL. -/
def firingSyncLoss (p : Part) : Part :=
  let p :=
    match p.measuring with
    | none => p
    | some (i, _) => abandon .sync i p
  let p := p.records.foldl (fun p x => setSlot x.1 (some x.2.lost) p) p
  testReadyAll p

end Sys2Proof.Machine
end

