-- ==== Sys2Proof/Machine/Segment.lean ====
section
/-! DEFINITION. The Segment Analyser (chapter 5): closing segments (R73, R74), the roughness figure (R75, R76), the cycle
result (R81, R82) and sync losses (R83). -/

namespace Sys2Proof.Machine

/-- R75: the roughness figure of the middle of three periods. -/
def roughnessFigure (before period after : Nat) : Int :=
  let mean : Nat := (before + after) / 2
  let d : Int := (period : Int) - (mean : Int)
  max (-32768) (min 32767 ((d * 65536).tdiv period))

/-- R74: a closed segment appended; a sequence of three loses its oldest entry first. -/
def appendSegment (xs : List SegmentEntry) (e : SegmentEntry) : List SegmentEntry :=
  (if 3 ≤ xs.length then xs.drop 1 else xs) ++ [e]

/-- R73, step 2: the sequence with the figure of its middle entry, and that entry, when one is due. -/
def middleFigure (xs : List SegmentEntry) : Option (List SegmentEntry × SegmentEntry × Int) :=
  match xs with
  | [a, b, c] =>
    match b.roughness with
    | some _ => none
    | none =>
      let m := roughnessFigure a.period b.period c.period
      some ([a, { b with roughness := some m }, c], b, m)
  | _ => none

/-- R74: the open segment closed with its period. -/
def closeSegment (period : Nat) (p : Part) : Part :=
  match p.sga.openSegment with
  | none => p
  | some (c, n) => p.setSga { p.sga with sequence := appendSegment p.sga.sequence ⟨c, n, period, none⟩ }

/-- R73, step 2, and R76: the figure computed, added to the roughness list and reported. -/
def computeFigure (p : Part) : Part :=
  match middleFigure p.sga.sequence with
  | none => p
  | some (xs, b, m) =>
    takeMReport b.cylinder b.cycleNumber m
      (p.setSga { p.sga with sequence := xs, roughness := p.sga.roughness ++ [m] })

/-- R73: the SGA takes a segment boundary. -/
def analyseBoundary (b : SegmentBoundary) (p : Part) : Part :=
  let p :=
    match b.ending, b.period with
    | some _, some n => computeFigure (closeSegment n p)
    | _, _ => p
  p.setSga { p.sga with openSegment := some (b.starting, b.cycleNumber) }

/-- R82: the cycle result computed and handed to the CXU at a cycle boundary. -/
def handCycleResult (n : BitVec 32) (period : Option Nat) (p : Part) : Part :=
  let speed := period.map p.cfg.cycleRpm
  let r : CycleResult := ⟨p.sga.roughness, speed, p.sga.prevSpeed⟩
  let p := takeResultInput n r p
  p.setSga { p.sga with prevSpeed := speed, roughness := [] }

/-- R83: a sync loss. -/
def segmentSyncLoss (p : Part) : Part := p.setSga ⟨[], none, [], none⟩

end Sys2Proof.Machine
end

