-- ==== Sys2Proof/Machine/Sync.lean ====
section
/-! DEFINITION. Result reports (R21), a Pending Copy taking effect (R26), stalls (R40) and sync losses (R41) with the
responses of every block they are announced to (R49). -/

namespace Sys2Proof.Machine

/-- R21: a result report. -/
def resultReport (gen : BitVec 16) (result : ApplyResult) (reason : Option Check) (p : Part) : Part :=
  setNotice .configResult
    (p.setCsh { p.csh with lastGen := gen, lastResult := result, lastReason := reason })

/-! ### The tracker's own changes -/

/-- R40, step 3: the items that become absent or clear in STOPPED. -/
def Tracker.stop (t : Tracker) : Tracker :=
  { t with sync := .stopped, lastTooth := none, lastInterval := none, refGap := none, boundarySeen := false,
           segAcc := none, cycAcc := none, lastPeriod := none, stallStart := none }

/-- R41, step 1: the state a loss of each reason leaves. -/
def Tracker.lose (t : Tracker) (reason : LossReason) : Tracker :=
  match reason with
  | .gap => { t with sync := .seeking, boundarySeen := false, segAcc := none, cycAcc := none }
  | .cam => { t with sync := .halfSync, boundarySeen := false, segAcc := none, cycAcc := none }
  | .stall => t.stop
  | .config => t.stop
  | .reset => t.stop
  | .never => t

/-- R41, step 4: the ATK counts GAP and CAM losses. -/
def reportLoss (reason : LossReason) (p : Part) : Part :=
  match reason with
  | .gap => report .syncLossesGap p
  | .cam => report .syncLossesCam p
  | .stall => p
  | .config => p
  | .reset => p
  | .never => p

/-- R41, steps 1 to 4. -/
def trackerLoss (reason : LossReason) (p : Part) : Part :=
  reportLoss reason
    (setNotice .syncLost (p.setAtk { p.atk.lose reason with lastLoss := reason }))

/-- R68: the FLC acts on GAP, CAM and STALL losses alone. -/
def firingLoss (reason : LossReason) (p : Part) : Part :=
  match reason with
  | .gap => firingSyncLoss p
  | .cam => firingSyncLoss p
  | .stall => firingSyncLoss p
  | .config => p
  | .reset => p
  | .never => p

/-- R41, step 5, but for the CSH: the FLC (R68), SGA (R83), CXU (R113) and HSU (R128) take the loss (log 14). -/
def announceLoss (reason : LossReason) (p : Part) : Part :=
  turbineSyncLoss (contextSyncLoss (segmentSyncLoss (firingLoss reason p)))

/-! ### Stalls (R40) -/

/-- The stall timer has expired: the tracker is not STOPPED and part time has reached its start plus Stall Time. -/
def stallDue (p : Part) : Bool :=
  decide (p.atk.sync ≠ .stopped) &&
    match p.csh.active, p.atk.stallStart with
    | some g, some t => reached p.partTime t (g.stallTime * 1000)
    | _, _ => false

/-- R40, the action, given how a sync loss is taken. -/
def stallWith (loss : LossReason → Part → Part) (p : Part) : Part :=
  let wasMeasuring := decide (p.atk.sync = .halfSync ∨ p.atk.sync = .synced)
  let p := report .stalls p
  let p := if wasMeasuring then loss .stall p else p
  p.setAtk p.atk.stop

/-! ### A Pending Copy taking effect (R26) -/

/-- The tuning class announced to the blocks: an expiry that a new limit has already reached occurs now (R40, R93, R67),
and the PSE makes its move test (R143) (log 15). No Pending Copy is present when it is called. -/
def announceTuning (p : Part) : Part :=
  let p := if stallDue p then stallWith (fun r q => announceLoss r (trackerLoss r q)) p else p
  moveTest (expirePlanAges (expireKnockWaits p))

/-- R26: the Pending Copy, if any, takes effect. -/
def pendingTakesEffect (p : Part) : Part :=
  match p.csh.pendingCopy with
  | none => p
  | some c =>
    announceTuning (resultReport c.generation .active none
      (p.setCsh { p.csh with active := some c.settings, activeGen := c.generation, pendingCopy := none }))

/-- R26: the CSH's response to a sync loss of each reason. -/
def shadowLoss (reason : LossReason) (p : Part) : Part :=
  match reason with
  | .gap => pendingTakesEffect p
  | .cam => pendingTakesEffect p
  | .stall => pendingTakesEffect p
  | .reset => pendingTakesEffect p
  | .config => p
  | .never => p

/-- R41: a sync loss. The CSH takes it first, so every other response is made under the configuration that governs the
loss (R26, R68). -/
def syncLoss (reason : LossReason) (p : Part) : Part :=
  announceLoss reason (shadowLoss reason (trackerLoss reason p))

/-- R40: the action of a stall. -/
def takeStall (p : Part) : Part := stallWith syncLoss p

end Sys2Proof.Machine
end

