-- ==== Sys2Proof/Machine/Tracking.lean ====
section
/-! DEFINITION. The Angle Tracker (chapter 3): tooth entries (R32), the gap test (R34), the sync states (R35 to R39) and
the angle events (R45 to R49). -/

namespace Sys2Proof.Machine

/-! ### Angle events -/

/-- R47: the cycle boundary, emitted to the CSH, CXU, SGA and HSU (log 14). -/
def cycleBoundary (p : Part) : Part :=
  let n := p.atk.engineCycle + 1
  let period := p.atk.cycAcc
  let p := report .cyclesSynced (p.setAtk { p.atk with engineCycle := n, cycAcc := some 0 })
  turbineBoundary (handCycleResult n period (takeBoundaryInput n (pendingTakesEffect p)))

/-- R46: the segment boundary that starts cylinder c, emitted to the FLC, then the SGA; that order is the model's choice (log 14). -/
def segmentBoundary (c : Nat) (t : Stamp) (p : Part) : Part :=
  let g := p.cfg
  let b : SegmentBoundary :=
    { starting := c
      ending := if p.atk.boundarySeen then g.before c else none
      stamp := t
      cycleNumber := p.atk.engineCycle
      period := p.atk.segAcc }
  let p := p.setAtk { p.atk with
    lastPeriod := match p.atk.segAcc with
      | some n => some n
      | none => p.atk.lastPeriod
    segAcc := some 0
    boundarySeen := true }
  analyseBoundary b (firingBoundary b p)

/-- R48: the knock close events of a cycle position. -/
def emitCloses (q : Nat) (t : Stamp) (p : Part) : Part :=
  (p.cfg.cylinderList.filter fun c => Table.readCyl p.cfg.knockClose c 0 == q).foldl
    (fun p c => knockCloseEdge c t p) p

/-- R48: the knock open events of a cycle position. -/
def emitOpens (q : Nat) (t : Stamp) (p : Part) : Part :=
  (p.cfg.cylinderList.filter fun c => Table.readCyl p.cfg.knockOpen c 0 == q).foldl
    (fun p c => knockOpenEdge c t p) p

/-- The cylinder whose segment starts at a cycle position (R43). -/
def Settings.startingAt (g : Settings) (q : Nat) : Option Nat :=
  g.cylinderList.find? fun c => g.segStart c == q

/-- The cycle position is the cycle boundary: the segment start of the first cylinder in the firing order (R43). -/
def Settings.isCycleBoundary (g : Settings) (q : Nat) : Bool :=
  match g.order with
  | [] => false
  | c :: _ => g.segStart c == q

/-- R33: the cycle position. -/
def Part.cyclePosition (p : Part) : Nat := (if p.atk.revHalf then p.cfg.teeth else 0) + p.atk.revPos

/-- R45: the angle events of a tooth, in their order. -/
def emitEvents (t : Stamp) (p : Part) : Part :=
  let q := p.cyclePosition
  let p := if p.atk.boundarySeen then emitCloses q t p else p
  let p := if p.cfg.isCycleBoundary q then cycleBoundary p else p
  let p :=
    match p.cfg.startingAt q with
    | some c => segmentBoundary c t p
    | none => p
  if p.atk.boundarySeen then emitOpens q t p else p

/-! ### Sync states -/

/-- R38: the marker of the tooth fixes the revolution half; SYNC_GAINED reaches the CXU (R49, R110). -/
def gainSync (p : Part) : Part :=
  contextSyncGained (p.setAtk { p.atk with
    revHalf := decide (p.cfg.camHalf = 1), sync := .synced, boundarySeen := false, segAcc := none, cycAcc := none })

/-- R35: the first tooth in STOPPED. -/
def firstTooth (t : Stamp) (p : Part) : Part :=
  report .teethTaken
    (p.setAtk { p.atk with lastTooth := some t, stallStart := some p.partTime, sync := .seeking })

/-- R34: the gap test of an interval. -/
def isGap (g : Settings) (prev : Option Nat) (i : Nat) : Bool :=
  match prev with
  | none => false
  | some k => decide (g.gapRatio * k ≤ i * 8)

/-- An accumulator with an interval added, saturating (R46, R47). -/
def accumulate (cap : Nat) (acc : Option Nat) (i : Nat) : Option Nat := acc.map fun a => min cap (a + i)

/-- R36: a tooth in SEEKING. -/
def seekTooth (gap cam : Bool) (p : Part) : Part :=
  match gap, p.atk.refGap with
  | false, none => p
  | false, some k => p.setAtk { p.atk with refGap := some (min 255 (k + 1)) }
  | true, none => p.setAtk { p.atk with refGap := some 0 }
  | true, some k =>
    if min 255 (k + 1) = p.cfg.teeth - p.cfg.missing then
      let p := p.setAtk { p.atk with sync := .halfSync, revPos := 0, refGap := none }
      if cam then gainSync p else p
    else p.setAtk { p.atk with refGap := some 0 }

/-- The outcomes of the revolution check (R37). -/
inductive RevCheck where
  | advance | wrap | earlyGap | missingGap
  deriving DecidableEq, Repr

/-- R37: the revolution check. -/
def revCheck (g : Settings) (pos : Nat) (gap : Bool) : RevCheck :=
  if pos < g.teeth - g.missing - 1 then (if gap then .earlyGap else .advance)
  else if gap then .wrap else .missingGap

/-- R38, R39: after a revolution check that a tooth survives. -/
def afterCheck (cam : Bool) (t : Stamp) (p : Part) : Part :=
  match p.atk.sync with
  | .halfSync => if cam then gainSync p else p
  | .synced =>
    if cam && !(p.atk.revHalf == decide (p.cfg.camHalf = 1)) then syncLoss .cam p else emitEvents t p
  | .stopped => p
  | .seeking => p

/-- R37: a tooth in HALF_SYNC or SYNCED. -/
def checkTooth (gap cam : Bool) (t : Stamp) (p : Part) : Part :=
  match revCheck p.cfg p.atk.revPos gap with
  | .advance => afterCheck cam t (p.setAtk { p.atk with revPos := p.atk.revPos + 1 })
  | .wrap =>
    afterCheck cam t (p.setAtk { p.atk with
      revPos := 0
      revHalf := if p.atk.sync = .synced then !p.atk.revHalf else p.atk.revHalf })
  | .earlyGap => syncLoss .gap (p.setAtk { p.atk with refGap := some 0 })
  | .missingGap => syncLoss .gap (p.setAtk { p.atk with refGap := none })

/-- R32, R34: a tooth taken with its interval. -/
def takenTooth (t : Stamp) (i : Nat) (cam : Bool) (p : Part) : Part :=
  let gap := isGap p.cfg p.atk.lastInterval i
  let st := p.atk.sync
  let p := report .teethTaken (p.setAtk { p.atk with
    lastTooth := some t
    lastInterval := some i
    stallStart := some p.partTime
    segAcc := if st = .synced then accumulate (2 ^ 24 - 1) p.atk.segAcc i else p.atk.segAcc
    cycAcc := if st = .synced then accumulate (2 ^ 32 - 1) p.atk.cycAcc i else p.atk.cycAcc })
  match st with
  | .seeking => seekTooth gap cam p
  | .halfSync => checkTooth gap cam t p
  | .synced => checkTooth gap cam t p
  | .stopped => p

/-- R32: a tooth entry taken or ignored. -/
def takeToothEntry (w : Word) (p : Part) : Part :=
  let t := toothStamp w
  match p.atk.sync with
  | .stopped => firstTooth t p
  | .seeking | .halfSync | .synced =>
    match p.atk.lastTooth with
    | none => p
    | some last => if isLater t last then takenTooth t (interval last t) (toothCam w) p else p

end Sys2Proof.Machine
end

