-- ==== Sys2Proof/Machine/Shadow.lean ====
section
/-! DEFINITION. The Configuration Shadow (chapter 2): settings writes (R19), command words (R20), Apply (R22 to R26),
Disengage (R27, R28) and Analysis Reset (R29), with every block's response to what the CSH announces (R16, R42, R69, R84,
R102, R114, R129, R139, R147). -/

namespace Sys2Proof.Machine

/-- R19: a write in the settings area updates the enabled bytes of the Staging Copy. -/
def writeStaging (offset : Nat) (data : Word) (enables : Enables) (p : Part) : Part :=
  p.setCsh { p.csh with staging := Memory.writeWord p.csh.staging offset data enables }

/-- R25, R26, R27: a Pending Copy present is discarded and reported SUPERSEDED. -/
def supersedePending (p : Part) : Part :=
  match p.csh.pendingCopy with
  | none => p
  | some c => resultReport c.generation .superseded none (p.setCsh { p.csh with pendingCopy := none })

/-! ### What the CSH announces -/

/-- R147, R12, R16: a layout-class Apply in the PSE and the Injection Queue: the Post Queue is discarded, the three counts
are 0, the publishes marks are cleared (which the PTU reports, R12), and the move test is made. -/
def layoutPosting (p : Part) : Part :=
  let p := discardPostQueue p
  let p := p.setPse { p.pse with assigned := 0, published := 0, consumer := 0 }
  let p := p.setQueue (p.ptu.queue.map fun q => { q with publishes := false })
  moveTest (reportNoPublishing p)

/-- The analysis blocks at a layout-class or geometry-class Apply taking effect in MONITORING: latches emptied (R16),
every record abandoned CONFIG (R69), KNA reset (R102), sync loss CONFIG (R42), CXU and HSU reset (R114, R129) (log 14). -/
def restartGeometry (p : Part) : Part :=
  resetHistory (resetContexts (syncLoss .config (resetKnock (abandonAll .config (emptyLatches p)))))

/-- R25, step 5: the class announced; `first` says that the mode was TRANSPARENT. -/
def announceClass (cls : ApplyClass) (first : Bool) (p : Part) : Part :=
  match cls with
  | .layout => layoutPosting (if first then resetKnock p else restartGeometry p)
  | .geometry => restartGeometry p
  | .tuning => announceTuning p
  | .identical => moveTest p

/-- R25: a configuration takes effect as its Apply is taken. -/
def applyNow (cls : ApplyClass) (g : Settings) (tag : BitVec 16) (p : Part) : Part :=
  let p := supersedePending p
  let p := p.setCsh { p.csh with active := some g, activeGen := tag }
  let p := resultReport tag .active none p
  let first := decide (p.csh.mode = .transparent)
  let p := if first then p.setCsh { p.csh with mode := .monitoring } else p
  announceClass cls first p

/-- R26: a tuning-class configuration becomes pending. -/
def applyPending (g : Settings) (tag : BitVec 16) (p : Part) : Part :=
  let p := supersedePending p
  resultReport tag .pending none (p.setCsh { p.csh with pendingCopy := some ⟨g, tag⟩ })

/-- R22, steps 3 to 5: the copy validated, classed and put in force. -/
def applyCopy (g : Settings) (tag : BitVec 16) (p : Part) : Part :=
  match g.validate (pageBase p.ptu.strap) with
  | some reason => resultReport tag .refused (some reason) p
  | none =>
    match classify p.csh.active g with
    | .tuning => if p.atk.sync = .synced then applyPending g tag p else applyNow .tuning g tag p
    | .layout => applyNow .layout g tag p
    | .geometry => applyNow .geometry g tag p
    | .identical => applyNow .identical g tag p

/-- R22: an Apply command word. -/
def takeApply (data : Word) (p : Part) : Part :=
  let tag := commandTag data
  if tag = 0 then p
  else
    match p.csh.mode with
    | .disengaging => resultReport tag .busy none p
    | .transparent => applyCopy (Settings.parse p.csh.staging) tag p
    | .monitoring => applyCopy (Settings.parse p.csh.staging) tag p

/-- R29: Analysis Reset, the blocks in the order the rule names them (log 14). -/
def takeAnalysisReset (p : Part) : Part :=
  resetHistory (resetContexts (resetKnock (abandonAll .reset (syncLoss .reset p))))

/-- R28: the end of Disengage; the PSE's counts and post state as R147 says. -/
def finishDisengage (p : Part) : Part :=
  (p.setCsh { p.csh with mode := .transparent, active := none, activeGen := 0 }).setPse ⟨[], 0, 0, 0, .running⟩

/-- R28: the end of Disengage, when in DISENGAGING the Injection Queue is empty. -/
def endIfDrained (p : Part) : Part :=
  if p.csh.mode = .disengaging ∧ p.ptu.queue = [] then finishDisengage p else p

/-- R27: Disengage taken in MONITORING. -/
def takeDisengage (p : Part) : Part :=
  let p := emptyLatches (p.setCsh { p.csh with mode := .disengaging })
  let p := supersedePending p
  let p := resetHistory (resetContexts (resetKnock (abandonAll .reset (syncLoss .reset p))))
  endIfDrained (discardPostQueue p)

/-! ### Command words (R20, 12.2) -/

/-- A Post Control word; an undefined code is ignored. -/
def takePostControl (data : Word) (p : Part) : Part :=
  match (commandCode data).toNat with
  | 1 => takePostStop p
  | 2 => takePostResume p
  | _ => p

/-- A Statistics Command word; an undefined code is ignored. -/
def takeStatisticsCommand (data : Word) (p : Part) : Part :=
  match (commandCode data).toNat with
  | 1 => takeSnapshot p
  | 2 => clearLive p
  | 3 => snapshotAndClearLive p
  | _ => p

/-- R20: the commands taken in MONITORING and DISENGAGING alike. -/
def takeCommon (offset : Nat) (data : Word) (p : Part) : Part :=
  match offset with
  | 0x04 => clearNotices (commandNotices data) p
  | 0x08 => takeConsumerCount (commandTag data) p
  | 0x0C => takePostControl data p
  | 0x10 => takeStatisticsCommand data p
  | 0x14 => releaseCylinders (commandCode data) p
  | _ => p

/-- R20: a command word, by its offset and the mode at that moment. -/
def takeCommand (offset : Nat) (data : Word) (p : Part) : Part :=
  if offset = 0x00 then takeApply data p
  else
    match p.csh.mode with
    | .transparent => p
    | .monitoring =>
      if offset = 0x18 then takeAnalysisReset p
      else if offset = 0x1C then takeDisengage p
      else takeCommon offset data p
    | .disengaging => takeCommon offset data p

/-- R19, R20: a processor write in the Configuration Page. -/
def takePageWrite (offset : Nat) (data : Word) (enables : Enables) (p : Part) : Part :=
  if offset < 0x40 then (if enables = fullWord then takeCommand offset data p else p)
  else writeStaging offset data enables p

end Sys2Proof.Machine
end

