-- ==== Sys2Proof/Machine/PassThroughUnit.lean ====
section
/-! DEFINITION. The Pass-Through Unit (chapter 1): window matching (R5), delivery (R6, R7), Entry Latches (R8, R9),
refresh (R10), the live words of the Status Block and Statistics Window (12.5, R138), completions (R12), the Downstream
Arbiter (R13, R14, R15) and ECU reset (R17). -/

namespace Sys2Proof.Machine

/-! ### Windows (R5) -/

/-- A byte address lies in `size` bytes from `base`. -/
def within (a base size : Nat) : Bool := decide (base ≤ a) && decide (a < base + size)

/-- The active window of a configuration that an address falls in. -/
def Settings.activeWindow (g : Settings) (a : Nat) : Option Window :=
  if within a g.toothBase g.toothSize then some .tooth
  else if within a g.scheduleBase g.scheduleSize then some .schedule
  else if within a g.knockBase g.knockSize then some .knock
  else if within a g.ringBase (g.ringSize * 32) then some .verdictRing
  else if within a g.statusBase 44 then some .statusBlock
  else if within a g.statisticsBase 2152 then some .statistics
  else none

/-- R5: the window a byte address falls in; the six active windows exist outside TRANSPARENT alone. -/
def Part.windowOf (p : Part) (a : Addr) : Option Window :=
  if within a.toNat (pageBase p.ptu.strap) 0x1000 then some .configPage
  else
    match p.csh.mode, p.csh.active with
    | .transparent, _ => none
    | .monitoring, some g => g.activeWindow a.toNat
    | .disengaging, some g => g.activeWindow a.toNat
    | .monitoring, none => none
    | .disengaging, none => none

/-- The address lies in the Status Block or the Statistics Window. -/
def Part.isLive (p : Part) (a : Addr) : Bool :=
  match p.windowOf a with
  | some .statusBlock => true
  | some .statistics => true
  | some .configPage => false
  | some .tooth => false
  | some .schedule => false
  | some .knock => false
  | some .verdictRing => false
  | none => false

/-! ### Live words (12.5, R138) -/

def Mode.code : Mode → Nat
  | .transparent => 0
  | .monitoring => 1
  | .disengaging => 2

def SyncState.code : SyncState → Nat
  | .stopped => 0
  | .seeking => 1
  | .halfSync => 2
  | .synced => 3

def PostState.code : PostState → Nat
  | .running => 0
  | .stopping => 1
  | .stopped => 2

def ApplyResult.code : ApplyResult → Nat
  | .never => 0
  | .refused => 1
  | .pending => 2
  | .active => 3
  | .superseded => 4
  | .busy => 5

def LossReason.code : LossReason → Nat
  | .never => 0
  | .gap => 1
  | .cam => 2
  | .stall => 3
  | .config => 4
  | .reset => 5

def SensorState.code : SensorState → Nat
  | .ok => 0
  | .quiet => 1
  | .clipped => 2

def CtxState.code : CtxState → Nat
  | .idle => 0
  | .active => 1
  | .holding => 2

/-- Fields placed at their bits, combined. -/
def fields (xs : List Word) : Word := xs.foldl (· ||| ·) 0

/-- A sensor's state as the Status Block reports it: OK at or above the sensor count (R103). -/
def Part.reportedSensor (p : Part) (s : Nat) : SensorState :=
  if s < p.cfg.sensorCount then (p.sensor s).state else .ok

/-- A cylinder's health as the Status Block reports it: HEALTHY above N (R130). -/
def Part.reportedHealth (p : Part) (c : Nat) : Health :=
  if c ≤ p.cfg.cylinders then (p.cylinderHistory c).health else .healthy

/-- The records held (R71). -/
def Part.occupied (p : Part) : Nat := p.flc.order.length

/-- R51: the speed of the last segment, 0 when it is absent. -/
def Part.reportedRpm (p : Part) : Nat :=
  match p.atk.lastPeriod with
  | some n => p.cfg.segmentRpm n
  | none => 0

/-- R51: the band of that speed, 0 when the period is absent. -/
def Part.reportedBand (p : Part) : Nat :=
  match p.atk.lastPeriod with
  | some n => p.cfg.speedBand n
  | none => 0

/-- The present value of Status Block word k (10.4, 12.5). -/
def statusWord (k : Nat) (p : Part) : Word :=
  match k with
  | 0 => fields [place p.csh.mode.code 0, placeBit p.csh.pendingCopy.isSome 2, place p.atk.sync.code 4,
      place p.pse.postState.code 8]
  | 1 => fields [place p.csh.activeGen.toNat 0, place p.csh.lastGen.toNat 16]
  | 2 => fields [place p.csh.lastResult.code 0, place ((p.csh.lastReason.map Check.code).getD 0) 4,
      place p.atk.lastLoss.code 8, place p.stb.generation.toNat 16]
  | 3 => fields [place p.ntu.flags.toNat 0]
  | 4 => fields [place p.pse.published.toNat 0, place p.pse.consumer.toNat 16]
  | 5 => fields [place p.pse.postQueue.length 0, place p.ptu.queue.length 8, place p.occupied 16,
      place (p.cfg.reserve - p.flc.reserveInUse) 24]
  | 6 => fields ([1, 2, 3, 4, 5, 6, 7, 8].map (fun c => place (p.reportedHealth c).code (2 * c - 2))
      ++ [1, 2, 3, 4, 5, 6, 7, 8].map (fun c => placeBit (p.cylinderHistory c).alert (15 + c))
      ++ [placeBit p.hsu.exceeded 24])
  | 7 => fields ([0, 1, 2, 3].map (fun s => place (p.reportedSensor s).code (2 * s))
      ++ Ctx.list.map (fun c => place (p.cxu.table.get c).state.code (8 + 2 * c.index)))
  | 8 => fields [place p.reportedRpm 0, place p.reportedBand 16]
  | 9 => p.atk.engineCycle
  | 10 => p.partTime
  | _ => 0

/-- Word k of the Statistics Window (R138). -/
def statisticsWord (k : Nat) (p : Part) : Word := Table.read p.stb.snapshot k 0

/-- R10: the present value of the live word that a read addresses; absent when the address is in no live window. -/
def capture (a : Addr) (p : Part) : Option Word :=
  match p.windowOf a with
  | some .statusBlock => some (statusWord ((wordAddress a - p.cfg.statusBase) / 4) p)
  | some .statistics => some (statisticsWord ((wordAddress a - p.cfg.statisticsBase) / 4) p)
  | some .configPage => none
  | some .tooth => none
  | some .schedule => none
  | some .knock => none
  | some .verdictRing => none
  | none => none

/-! ### Entry Latches (R8, R9) -/

/-- R8, R9: an Entry Latch gives its word when it holds the word before a commit address. -/
def latchedFor (latch : Option Latched) (a : Nat) : Option Word :=
  match latch with
  | none => none
  | some x => if x.address + 4 = a then some x.word else none

/-- R8: a full-word write at a Schedule Window address. -/
def takeScheduleWrite (a : Nat) (data : Word) (p : Part) : Part :=
  if (a - p.cfg.scheduleBase) % 8 = 0 then p.setPtu { p.ptu with scheduleLatch := some ⟨a, data⟩ }
  else
    let held := latchedFor p.ptu.scheduleLatch a
    let p := p.setPtu { p.ptu with scheduleLatch := none }
    match held with
    | some w => takeEntry ⟨w, data⟩ p
    | none => refuseEntry .order p

/-- R9: a full-word write at a Knock Window address. -/
def takeKnockWrite (a : Nat) (data : Word) (p : Part) : Part :=
  let offset := a - p.cfg.knockBase
  if offset = 0 then p.setPtu { p.ptu with knockLatch := some ⟨a, data⟩ }
  else if offset = 4 then
    let held := latchedFor p.ptu.knockLatch a
    let p := p.setPtu { p.ptu with knockLatch := none }
    match held with
    | some w => committedHeader w data p
    | none => headerRefusal p
  else sampleWord data p

/-! ### Delivery (R6, R7) -/

/-- R6, R7: a write in the Tooth Window. -/
def deliverTooth (c : Cycle) (p : Part) : Part :=
  if p.csh.mode = .monitoring ∧ c.enables = fullWord then takeToothEntry c.data p else p

/-- R6, R7: a write in the Schedule Window; a partial-word write empties its latch. -/
def deliverSchedule (c : Cycle) (p : Part) : Part :=
  if p.csh.mode = .monitoring then
    if c.enables = fullWord then takeScheduleWrite (wordAddress c.address) c.data p
    else p.setPtu { p.ptu with scheduleLatch := none }
  else p

/-- R6, R7: a write in the Knock Window; a partial-word write empties its latch. -/
def deliverKnock (c : Cycle) (p : Part) : Part :=
  if p.csh.mode = .monitoring then
    if c.enables = fullWord then takeKnockWrite (wordAddress c.address) c.data p
    else p.setPtu { p.ptu with knockLatch := none }
  else p

/-- R6, R7: the content of a forwarded write delivered to the block that owns its window. -/
def deliver (c : Cycle) (p : Part) : Part :=
  match p.windowOf c.address with
  | some .configPage => takePageWrite (wordAddress c.address - pageBase p.ptu.strap) c.data c.enables p
  | some .tooth => deliverTooth c p
  | some .schedule => deliverSchedule c p
  | some .knock => deliverKnock c p
  | some .verdictRing => p
  | some .statusBlock => p
  | some .statistics => p
  | none => p

/-! ### The Downstream Arbiter (R13, R14, R15) -/

/-- R15: the budget left. -/
def Part.budgetLeft (p : Part) : Nat := p.cfg.stallBudget - p.ptu.forcedCount

/-- R13: the head word has waited at least Injection Patience. -/
def Part.headImpatient (p : Part) : Bool :=
  match p.ptu.queue with
  | [] => false
  | q :: _ => reached p.partTime q.entered p.cfg.patience

/-- R13, last row: a forced injection is due ahead of a waiting processor cycle. -/
def Part.forces (p : Part) : Bool := p.headImpatient && decide (0 < p.budgetLeft)

/-- R13, R10: a processor cycle is granted. A read classified live that still lies in a live window is refreshed: its
word is captured and its refresh write begins. Any other cycle is released, and a write is delivered. -/
def release (h : HeldCycle) (p : Part) : Part :=
  match (if !h.cycle.write && h.live then capture h.cycle.address p else none) with
  | some v => (p.setHeld (some { h with reason := .refresh })).setPort (.refreshing (wordAddress h.cycle.address) v)
  | none =>
    let p := (p.setHeld none).setPort (.forwarding h.cycle true)
    if h.cycle.write then deliver h.cycle p else p

/-- R13: the arbiter's decision. Nothing is decided while the port is busy. -/
def arbitrate (p : Part) : Part :=
  if p.ptu.port ≠ .free then p
  else
    match p.ptu.held with
    | none => if p.ptu.queue = [] then p else p.setPort (.injecting none)
    | some h =>
      if p.forces then (p.setHeld (some { h with reason := .forced })).setPort (.injecting (some 0))
      else release h p

/-- R4, R13: a processor cycle arrives. -/
def arrive (c : Cycle) (p : Part) : Part :=
  arbitrate (p.setHeld (some ⟨c, .injectionBusy, !c.write && p.isLive c.address⟩))

/-! ### Completions -/

/-- R14, R15: a forced word counted; the increment that makes the budget left 0 sets STALL_BUDGET. -/
def countForced (p : Part) : Part :=
  let before := p.budgetLeft
  let p := report .forcedInjections (p.setPtu { p.ptu with forcedCount := p.ptu.forcedCount + 1 })
  if 0 < before ∧ p.budgetLeft = 0 then setNotice .stallBudget p else p

/-- R12: the word at the head leaves the queue, and what its marks report: its publication, the move test (log 12), then
the report that no publishing word is left (R146), then the report that the queue is empty (R28). The spec orders the last
two nowhere; this order is the model's choice (log 30), and it sets POST_STOPPED before the end of Disengage in a part
that is STOPPING. -/
def wordLeaves (q : QueuedWord) (rest : List QueuedWord) (p : Part) : Part :=
  let p := p.setQueue rest
  let p := if q.publishes && q.recordEnd then publication p else p
  endIfDrained (reportNoPublishing (moveTest p))

/-- R14, step 3: a forced burst goes on, with `n` words written. -/
def burstGoesOn (n : Nat) (p : Part) : Bool :=
  decide (n < p.cfg.burst) && decide (0 < p.budgetLeft) && decide (p.ptu.queue ≠ [])

/-- The cycle that a forced burst runs ahead of; absent when an ECU reset has dropped it, which ends the burst (R14). -/
def Part.forcedCycle (p : Part) : Option HeldCycle :=
  match p.ptu.held with
  | some h => if h.reason = .forced then some h else none
  | none => none

/-- R14: after a forced word the burst goes on, or ends and the held cycle is granted whatever the state of the queue;
with the cycle dropped the arbiter decides by R13. -/
def afterForced (n : Nat) (p : Part) : Part :=
  match p.forcedCycle with
  | some h => if burstGoesOn n p then p.setPort (.injecting (some n)) else release h p
  | none => arbitrate p

/-- R12, R14: the injected word in progress completes, in the part. A forced word is counted, with the test against
STALL_BUDGET (R14, R15), before it leaves the queue (R12, R28): the manual orders the two nowhere and this order is the
model's choice (log 31). A forced word that also ends Disengage is judged under the Active Copy still present. -/
def injectedComplete (burst : Option Nat) (q : QueuedWord) (rest : List QueuedWord) (p : Part) : Part :=
  let p := p.setPort .free
  match burst with
  | none => arbitrate (wordLeaves q rest p)
  | some n => afterForced (n + 1) (wordLeaves q rest (countForced p))

/-! ### The whole state: the SRAM and the upstream port -/

/-- R12: the SRAM completes the injected word in progress. -/
def completeInjected (s : State) : State :=
  match s.part.ptu.port, s.part.ptu.queue with
  | .injecting burst, q :: rest =>
    (s.setSram (Memory.writeWord s.sram (wordAddress q.address) q.data fullWord)).setPart
      (injectedComplete burst q rest s.part)
  | .injecting _, [] => s.setPart (arbitrate (s.part.setPort .free))
  | .free, _ => s
  | .forwarding _ _, _ => s
  | .refreshing _ _, _ => s

/-- The SRAM after a forwarded cycle completes in it. -/
def sramAfter (m : Memory) (c : Cycle) : Memory :=
  if c.write then Memory.writeWord m (wordAddress c.address) c.data c.enables else m

/-- The held read whose refresh write is in progress; absent when an ECU reset has dropped it (R17). -/
def Part.heldRead (p : Part) : Option HeldCycle :=
  match p.ptu.held with
  | some h => if h.reason = .refresh then some h else none
  | none => none

/-- R3, R10: the SRAM completes the forwarded cycle or the refresh write in progress. -/
def completeForwarded (s : State) : State :=
  match s.part.ptu.port with
  | .forwarding c ready =>
    let s := s.setSram (sramAfter s.sram c)
    let s := if ready then s.setReply (some ⟨c, Memory.readWord s.sram (wordAddress c.address)⟩) else s
    s.setPart (arbitrate (s.part.setPort .free))
  | .refreshing a v =>
    let s := s.setSram (Memory.writeWord s.sram a v fullWord)
    match s.part.heldRead with
    | some h => s.setPart ((s.part.setHeld none).setPort (.forwarding h.cycle true))
    | none => s.setPart (arbitrate (s.part.setPort .free))
  | .free => s
  | .injecting _ => s

/-- A processor cycle has been presented and has not completed upstream. -/
def Part.upstreamBusy (p : Part) : Bool :=
  p.ptu.held.isSome ||
    match p.ptu.port with
    | .forwarding _ ready => ready
    | .free => false
    | .refreshing _ _ => false
    | .injecting _ => false

/-- The downstream cycle in progress completes; on a free port the arbiter decides. -/
def completeOne (s : State) : State :=
  match s.part.ptu.port with
  | .injecting _ => completeInjected s
  | .forwarding _ _ => completeForwarded s
  | .refreshing _ _ => completeForwarded s
  | .free => s.setPart (arbitrate s.part)

/-- The processor presents a new cycle only after the previous cycle's ready (1.1), so a cycle presented shows that the
previous one has completed: the completions it still lacks are made first (log 5). `fuel` bounds them. -/
def settleUpstream : Nat → State → State
  | 0, s => s
  | fuel + 1, s => if s.part.upstreamBusy then settleUpstream fuel (completeOne s) else s

/-- At most an orphaned cycle, an injected word, a burst of 8, a refresh write and the cycle itself stand between a
presented cycle and its completion. -/
def settleFuel : Nat := 16

/-- R3: the processor presents a cycle. -/
def present (c : Cycle) (s : State) : State :=
  let s := settleUpstream settleFuel s
  if s.part.upstreamBusy then s else s.setPart (arrive c s.part)

/-! ### ECU reset (R17) -/

/-- R17, step 1: a released cycle in progress completes at the SRAM without its ready. -/
def orphanPort (x : Port) : Port :=
  match x with
  | .forwarding c _ => .forwarding c false
  | .free => .free
  | .refreshing a v => .refreshing a v
  | .injecting b => .injecting b

/-- R17: ECU reset. -/
def ecuReset (p : Part) : Part :=
  arbitrate (emptyLatches ((p.setHeld none).setPort (orphanPort p.ptu.port)))

/-! ### Power-on reset (R18) -/

/-- A byte lane that a cut-off write was writing holds a free byte (log 10). -/
def freeLane (a : Nat) (enables : Enables) (n : Nat) (i : Nat) (m : Memory) : Memory :=
  if enables.getLsbD i then Memory.write m (a + i) (Config.freeByte (n + i)) else m

/-- The bytes that a write cut off by power-on reset was writing hold free bytes. -/
def freeWord (m : Memory) (a : Nat) (enables : Enables) (n : Nat) : Memory :=
  freeLane a enables n 3 (freeLane a enables n 2 (freeLane a enables n 1 (freeLane a enables n 0 m)))

/-- The SRAM after power-on reset cuts off what the port was doing. -/
def sramCutOff (s : State) : Memory :=
  match s.part.ptu.port, s.part.ptu.queue with
  | .forwarding c _, _ => if c.write then freeWord s.sram (wordAddress c.address) c.enables s.freeCount else s.sram
  | .refreshing a _, _ => freeWord s.sram a fullWord s.freeCount
  | .injecting _, q :: _ => freeWord s.sram (wordAddress q.address) fullWord s.freeCount
  | .injecting _, [] => s.sram
  | .free, _ => s.sram

/-- R18: power-on reset. A processor cycle already held, or in progress downstream, is dropped and never answered: the
model's choice (log 29), since R18 speaks only of a cycle presented during the reset. The queue of commands is the
sender's and stays, so a cycle presented during the reset arrives after it. -/
def powerOn (strap : BitVec 4) (s : State) : State where
  part := Part.powerOn strap
  sram := sramCutOff s
  reply := none
  freeCount := s.freeCount + 4
  pending := s.pending

end Sys2Proof.Machine
end

