-- ==== Sys2Proof/Machine/Bus.lean ====
section
/-! DEFINITION. Meanings of the resets, of the plain bus cycles, of the SRAM's completions and of the reports that follow
them: POWER_ON_RESET to REFRESH_READ, DOWNSTREAM_CYCLE_COMPLETE to END_OF_DISENGAGE. -/

namespace Sys2Proof.Machine

/-- The three outcomes, over this machine. -/
abbrev Result := Host.Outcome State Fault Refusal

/-- An event in the part, after which the arbiter decides if the port is free (R13). -/
def event (f : Part → Part) (s : State) : State := s.setPart (arbitrate (f s.part))

/-- POWER_ON_RESET (R18). -/
def execPowerOnReset (strap : BitVec 4) (s : State) : Result := .next (powerOn strap s)

/-- ECU_RESET (R17). -/
def execEcuReset (s : State) : Result := .next (s.setPart (ecuReset s.part))

/-- FORWARD_CYCLE (R3, R4, R6, R13). -/
def execForwardCycle (address : Addr) (data : Word) (enables : Enables) (write : Bool) (s : State) : Result :=
  .next (present ⟨address, data, enables, write⟩ s)

/-- PARTIAL_WORD_WRITE (R7). -/
def execPartialWordWrite (address : Addr) (data : Word) (enables : Enables) (s : State) : Result :=
  .next (present ⟨address, data, enables, true⟩ s)

/-- REFRESH_READ (R10). -/
def execRefreshRead (address : Addr) (enables : Enables) (s : State) : Result :=
  .next (present ⟨address, 0, enables, false⟩ s)

/-- DOWNSTREAM_CYCLE_COMPLETE (R3, R10, R13). -/
def execDownstreamCycleComplete (s : State) : Result := .next (completeForwarded s)

/-- INJECTED_WORD_COMPLETE (R12, R14, R15, R143, R144). -/
def execInjectedWordComplete (s : State) : Result := .next (completeInjected s)

/-- POST_STOPPED_ENTRY (R146). -/
def execPostStoppedEntry (s : State) : Result := .next (event reportNoPublishing s)

/-- END_OF_DISENGAGE (R28). -/
def execEndOfDisengage (s : State) : Result := .next (event endIfDrained s)

end Sys2Proof.Machine
end

