-- ==== Sys2Proof/Machine/Commands.lean ====
section
/-! DEFINITION. Meanings of the processor writes into the Configuration Page: SETTINGS_WRITE and the command words,
APPLY to DISENGAGE. Each is the processor cycle that carries it (R20: the CSH takes it as soon as it is forwarded). -/

namespace Sys2Proof.Machine

/-- A write at an offset of the Configuration Page (R5). -/
def pageCycle (strap : BitVec 4) (offset : Nat) (data : Word) (enables : Enables) : Cycle :=
  ⟨BitVec.ofNat 24 (pageBase strap + offset), data, enables, true⟩

/-- The processor presents a write at an offset of the Configuration Page. -/
def presentPage (offset : Nat) (data : Word) (enables : Enables) (s : State) : State :=
  present (pageCycle s.part.ptu.strap offset data enables) s

/-- The data of a command word from its code and the bits above it, which are ignored (12, 12.2). -/
def codedWord (upper : BitVec 24) (code : Byte) : Word := upper ++ code

/-- SETTINGS_WRITE (R19). -/
def execSettingsWrite (offset : BitVec 12) (data : Word) (enables : Enables) (s : State) : Result :=
  .next (presentPage offset.toNat data enables s)

/-- APPLY (R22). -/
def execApply (data : Word) (s : State) : Result := .next (presentPage 0x00 data fullWord s)

/-- NOTICE_CLEAR (R149). -/
def execNoticeClear (data : Word) (s : State) : Result := .next (presentPage 0x04 data fullWord s)

/-- CONSUMER_COUNT (R145). -/
def execConsumerCount (data : Word) (s : State) : Result := .next (presentPage 0x08 data fullWord s)

/-- POST_STOP (R146). -/
def execPostStop (upper : BitVec 24) (s : State) : Result :=
  .next (presentPage 0x0C (codedWord upper 1) fullWord s)

/-- POST_RESUME (R146). -/
def execPostResume (upper : BitVec 24) (s : State) : Result :=
  .next (presentPage 0x0C (codedWord upper 2) fullWord s)

/-- SNAPSHOT (R135). -/
def execSnapshot (upper : BitVec 24) (s : State) : Result :=
  .next (presentPage 0x10 (codedWord upper 1) fullWord s)

/-- CLEAR (R136). -/
def execClear (upper : BitVec 24) (s : State) : Result :=
  .next (presentPage 0x10 (codedWord upper 2) fullWord s)

/-- SNAPSHOT_AND_CLEAR (R137). -/
def execSnapshotAndClear (upper : BitVec 24) (s : State) : Result :=
  .next (presentPage 0x10 (codedWord upper 3) fullWord s)

/-- CYLINDER_RELEASE (R126). -/
def execCylinderRelease (data : Word) (s : State) : Result := .next (presentPage 0x14 data fullWord s)

/-- ANALYSIS_RESET (R29). -/
def execAnalysisReset (data : Word) (s : State) : Result := .next (presentPage 0x18 data fullWord s)

/-- DISENGAGE (R27). -/
def execDisengage (data : Word) (s : State) : Result := .next (presentPage 0x1C data fullWord s)

end Sys2Proof.Machine
end

