-- ==== Sys2Proof/Machine/Taps.lean ====
section
/-! DEFINITION. Meanings of the full-word writes meant for the Tooth, Schedule and Knock Windows. Each is the processor
cycle that carries it; the match set decides what it is (R5, R6; log 4). -/

namespace Sys2Proof.Machine

/-- A full-word processor write. -/
def fullWrite (address : Addr) (data : Word) : Cycle := ⟨address, data, fullWord, true⟩

/-- TOOTH_ENTRY (R32 to R49). -/
def execToothEntry (address : Addr) (data : Word) (s : State) : Result := .next (present (fullWrite address data) s)

/-- SCHEDULE_FIRST_WORD (R8). -/
def execScheduleFirstWord (address : Addr) (data : Word) (s : State) : Result :=
  .next (present (fullWrite address data) s)

/-- SCHEDULE_COMMIT (R8, R55 to R58). -/
def execScheduleCommit (address : Addr) (data : Word) (s : State) : Result :=
  .next (present (fullWrite address data) s)

/-- KNOCK_HEADER_TIMESTAMP (R9). -/
def execKnockHeaderTimestamp (address : Addr) (data : Word) (s : State) : Result :=
  .next (present (fullWrite address data) s)

/-- KNOCK_HEADER_COMMIT (R9, R86, R87). -/
def execKnockHeaderCommit (address : Addr) (data : Word) (s : State) : Result :=
  .next (present (fullWrite address data) s)

/-- KNOCK_SAMPLE_WORD (R89). -/
def execKnockSampleWord (address : Addr) (data : Word) (s : State) : Result :=
  .next (present (fullWrite address data) s)

end Sys2Proof.Machine
end

