-- ==== Sys2Proof/Machine/Timers.lean ====
section
/-! DEFINITION. Meanings of the part's own timers: INTERVAL_BOUNDARY, STALL, KNOCK_WAIT_EXPIRY and PLAN_AGE_EXPIRY. An
expiry whose defining condition does not hold does not occur, so its command has no effect (log 3). -/

namespace Sys2Proof.Machine

/-- R2, R15: part time is at a 1 ms interval boundary. -/
def atBoundary (p : Part) : Bool := decide (p.partTime.toNat % 1000 = 0)

/-- R15: at an interval boundary the forced-injection budget counter returns to 0. -/
def takeInterval (p : Part) : Part := if atBoundary p then p.setPtu { p.ptu with forcedCount := 0 } else p

/-- R40: a stall, when the stall timer has expired. -/
def stallIfDue (p : Part) : Part := if stallDue p then takeStall p else p

/-- INTERVAL_BOUNDARY (R15). -/
def execIntervalBoundary (s : State) : Result := .next (event takeInterval s)

/-- STALL (R40). -/
def execStall (s : State) : Result := .next (event stallIfDue s)

/-- KNOCK_WAIT_EXPIRY (R93). -/
def execKnockWaitExpiry (s : State) : Result := .next (event expireKnockWaits s)

/-- PLAN_AGE_EXPIRY (R67). -/
def execPlanAgeExpiry (s : State) : Result := .next (event expirePlanAges s)

end Sys2Proof.Machine
end

