-- ==== Sys2Proof/Machine/Dispatch.lean ====
section
/-! DEFINITION. The meaning of every command: one arm for each constructor of Instr. -/

namespace Sys2Proof.Machine

def exec (i : Instr) (s : State) : Host.Outcome State Fault Refusal :=
  match i with
  | .powerOnReset strap => Sys2Proof.Machine.execPowerOnReset strap s
  | .ecuReset => Sys2Proof.Machine.execEcuReset s
  | .forwardCycle address data enables write => Sys2Proof.Machine.execForwardCycle address data enables write s
  | .partialWordWrite address data enables => Sys2Proof.Machine.execPartialWordWrite address data enables s
  | .refreshRead address enables => Sys2Proof.Machine.execRefreshRead address enables s
  | .downstreamCycleComplete => Sys2Proof.Machine.execDownstreamCycleComplete s
  | .injectedWordComplete => Sys2Proof.Machine.execInjectedWordComplete s
  | .postStoppedEntry => Sys2Proof.Machine.execPostStoppedEntry s
  | .endOfDisengage => Sys2Proof.Machine.execEndOfDisengage s
  | .intervalBoundary => Sys2Proof.Machine.execIntervalBoundary s
  | .settingsWrite offset data enables => Sys2Proof.Machine.execSettingsWrite offset data enables s
  | .apply data => Sys2Proof.Machine.execApply data s
  | .noticeClear data => Sys2Proof.Machine.execNoticeClear data s
  | .consumerCount data => Sys2Proof.Machine.execConsumerCount data s
  | .postStop upper => Sys2Proof.Machine.execPostStop upper s
  | .postResume upper => Sys2Proof.Machine.execPostResume upper s
  | .snapshot upper => Sys2Proof.Machine.execSnapshot upper s
  | .clear upper => Sys2Proof.Machine.execClear upper s
  | .snapshotAndClear upper => Sys2Proof.Machine.execSnapshotAndClear upper s
  | .cylinderRelease data => Sys2Proof.Machine.execCylinderRelease data s
  | .analysisReset data => Sys2Proof.Machine.execAnalysisReset data s
  | .disengage data => Sys2Proof.Machine.execDisengage data s
  | .toothEntry address data => Sys2Proof.Machine.execToothEntry address data s
  | .stall => Sys2Proof.Machine.execStall s
  | .scheduleFirstWord address data => Sys2Proof.Machine.execScheduleFirstWord address data s
  | .scheduleCommit address data => Sys2Proof.Machine.execScheduleCommit address data s
  | .knockHeaderTimestamp address data => Sys2Proof.Machine.execKnockHeaderTimestamp address data s
  | .knockHeaderCommit address data => Sys2Proof.Machine.execKnockHeaderCommit address data s
  | .knockSampleWord address data => Sys2Proof.Machine.execKnockSampleWord address data s
  | .knockWaitExpiry => Sys2Proof.Machine.execKnockWaitExpiry s
  | .planAgeExpiry => Sys2Proof.Machine.execPlanAgeExpiry s

end Sys2Proof.Machine
end

