-- ==== Sys2Proof/Machine/Time.lean ====
section
/-! DEFINITION. One microsecond of part time (R2) and the timers that it makes due. -/

namespace Sys2Proof.Machine

/-- The expiries that are due, each as its command (R15, R40, R93, R67). -/
def dueExpiries (p : Part) : List Instr :=
  (if atBoundary p then [.intervalBoundary] else [])
  ++ (if stallDue p then [.stall] else [])
  ++ (if p.kna.waitList.any (knockWaitDue p) then [.knockWaitExpiry] else [])
  ++ (if p.staleSlots.isEmpty then [] else [.planAgeExpiry])

/-- One arrangement of a list, chosen by a number; a list of at most one command has one arrangement. -/
def arrange : Nat → Nat → List Instr → List Instr
  | 0, _, xs => xs
  | _ + 1, _, [] => []
  | _ + 1, _, [x] => [x]
  | fuel + 1, n, x :: y :: rest =>
    let xs := x :: y :: rest
    (xs[n % xs.length]?).toList ++ arrange fuel (n / xs.length) (xs.eraseIdx (n % xs.length))

/-- Part time advances by one microsecond (R2). -/
def advanceTime (p : Part) : Part := p.setPartTime (p.partTime + 1)

/-- A step that finds no command waiting: one microsecond passes, and the timers it makes due put their commands into
the queue, in an order the manual leaves open (log 1, log 2). -/
def tick (s : State) : State :=
  let p := advanceTime s.part
  let due := dueExpiries p
  (s.setPart p).setPending (arrange due.length (Config.expiryOrder p.partTime) due)

end Sys2Proof.Machine
end

