-- ==== Sys2Proof/Safety.lean ====
section
/-! DEFINITION. What holds of every state the CT-8 can be in: the invariants that the manual states of its stores. With them the
condition under which a processor cycle is granted as it arrives. Statements use them; `exec` does not read them. -/

namespace Sys2Proof.Machine

/-- A frame as R85 and R89 allow it: at most 128 declared pairs, whole pairs of samples up to the declared number, so at
most 256 samples, each 0..4095, and room left while it is FILLING. -/
def Frame.fits (f : Frame) : Prop :=
  f.pairs ≤ 128 ∧ f.samples.length % 2 = 0 ∧ f.samples.length ≤ 2 * f.pairs
  ∧ (f.state = .filling → f.samples.length < 2 * f.pairs) ∧ ∀ x ∈ f.samples, x < 4096

/-- The Frame Store as R85 allows it: at most six frames, each as R85 and R89 allow it. -/
def framesFit (fs : List Frame) : Prop := fs.length ≤ Config.frameCapacity ∧ ∀ f ∈ fs, f.fits

/-- What these stores hold is never more than the manual allows: the Injection Queue (1.5), the Post Queue (R140), the
Frame Store and each frame's sample list (R85, R89), the Cylinder History rings (R118), the Segment Sequence (R72), the
rough-history shift record (R104). -/
def Part.withinBounds (p : Part) : Prop :=
  p.ptu.queue.length ≤ Config.queueCapacity
  ∧ p.pse.postQueue.length ≤ Config.postCapacity
  ∧ framesFit p.kna.frames
  ∧ (∀ c, (p.cylinderHistory c).ring.length ≤ Config.historyCapacity)
  ∧ p.sga.sequence.length ≤ 3
  ∧ p.cxu.roughHistory.length ≤ 8

/-- The taking order lists each slot that holds a record once, and no other slot (R52). -/
def Part.listAgrees (p : Part) : Prop :=
  p.flc.order.Nodup ∧ ∀ i, i ∈ p.flc.order ↔ (p.slot i).isSome = true

/-- The modes' table of 2.3, and R22, R25 to R27: a configuration is in force exactly outside TRANSPARENT, a Pending Copy
exists in MONITORING alone, and each has passed validation. -/
def Part.modesAgree (p : Part) : Prop :=
  (p.csh.mode = .transparent ↔ p.csh.active = none)
  ∧ (p.csh.pendingCopy ≠ none → p.csh.mode = .monitoring)
  ∧ (∀ g, p.csh.active = some g → g.validate (pageBase p.ptu.strap) = none)
  ∧ (∀ c, p.csh.pendingCopy = some c → c.settings.validate (pageBase p.ptu.strap) = none)

/-- Both memories are in the canonical form. -/
def State.memoriesWf (s : State) : Prop := Memory.wf s.sram ∧ Memory.wf s.part.csh.staging

/-- A state of a safe run. -/
def State.safe (s : State) : Prop :=
  s.part.withinBounds ∧ s.part.listAgrees ∧ s.part.modesAgree ∧ s.memoriesWf

/-- R13: a processor cycle that arrives now is granted at once: the port is free, no cycle is held and no forced
injection is due. -/
abbrev Part.grantsAtOnce (p : Part) : Prop := p.ptu.port = .free ∧ p.ptu.held = none ∧ p.forces = false

end Sys2Proof.Machine
end

