-- ==== Sys2Proof/Certificates/Slice0/Obligations.lean ====
section
/-! DEFINITION. The statements for the provers: one `Obligations.<Name>` for each entry of OBLIGATIONS.json. -/

open Sys2Proof Sys2Proof.Machine

namespace Sys2Proof.Statements

/-- The part as a command word at an offset of the page leaves for the SRAM: the port carries the write. -/
def wordOut (s : State) (offset : Nat) (data : Word) : Part :=
  s.part.setPort (.forwarding (pageCycle s.part.ptu.strap offset data fullWord) true)

/-- The part as a full-word write at an address leaves for the SRAM. -/
def tapOut (s : State) (address : Addr) (data : Word) : Part :=
  s.part.setPort (.forwarding (fullWrite address data) true)

/-- A full-word write at the address is taken at once, in MONITORING, in a window. -/
abbrev tapped (w : Window) (address : Addr) (s : State) : Prop :=
  s.part.grantsAtOnce ∧ s.part.csh.mode = .monitoring ∧ s.part.windowOf address = some w

/-- The arbiter has nothing to decide: the port is busy, or nothing waits for it (R13). -/
abbrev arbiterQuiet (p : Part) : Prop := p.ptu.port ≠ .free ∨ (p.ptu.held = none ∧ p.ptu.queue = [])

/-- The command may carry a full-word Statistics Command to the part, or resets it: the rows that may lower a live
counter (R132). -/
def mayClear (strap : BitVec 4) : Instr → Prop
  | .powerOnReset _ => True
  | .clear _ => True
  | .snapshotAndClear _ => True
  | .forwardCycle a _ e w => w = true ∧ e = fullWord ∧ wordAddress a = pageBase strap + 0x10
  | .partialWordWrite a _ e => e = fullWord ∧ wordAddress a = pageBase strap + 0x10
  | .settingsWrite o _ e => e = fullWord ∧ o.toNat / 4 * 4 = 0x10
  | .toothEntry a _ => wordAddress a = pageBase strap + 0x10
  | .scheduleFirstWord a _ => wordAddress a = pageBase strap + 0x10
  | .scheduleCommit a _ => wordAddress a = pageBase strap + 0x10
  | .knockHeaderTimestamp a _ => wordAddress a = pageBase strap + 0x10
  | .knockHeaderCommit a _ => wordAddress a = pageBase strap + 0x10
  | .knockSampleWord a _ => wordAddress a = pageBase strap + 0x10
  | _ => False

/-- The tracker after a taken tooth of timestamp `t` at interval `i` in HALF_SYNC or SEEKING, before the rule of the
state (R32, R34). -/
def toothTaken (p : Part) (t : Stamp) (i : Nat) : Tracker :=
  { p.atk with lastTooth := some t, lastInterval := some i, stallStart := some p.partTime }

/-- The processor cycle that a row carries; absent for a row that is no processor cycle. -/
def cycleOf (strap : BitVec 4) : Instr → Option Cycle
  | .forwardCycle a d e w => some ⟨a, d, e, w⟩
  | .partialWordWrite a d e => some ⟨a, d, e, true⟩
  | .refreshRead a e => some ⟨a, 0, e, false⟩
  | .settingsWrite o d e => some (pageCycle strap o.toNat d e)
  | .apply d => some (pageCycle strap 0x00 d fullWord)
  | .noticeClear d => some (pageCycle strap 0x04 d fullWord)
  | .consumerCount d => some (pageCycle strap 0x08 d fullWord)
  | .postStop u => some (pageCycle strap 0x0C (u ++ 1#8) fullWord)
  | .postResume u => some (pageCycle strap 0x0C (u ++ 2#8) fullWord)
  | .snapshot u => some (pageCycle strap 0x10 (u ++ 1#8) fullWord)
  | .clear u => some (pageCycle strap 0x10 (u ++ 2#8) fullWord)
  | .snapshotAndClear u => some (pageCycle strap 0x10 (u ++ 3#8) fullWord)
  | .cylinderRelease d => some (pageCycle strap 0x14 d fullWord)
  | .analysisReset d => some (pageCycle strap 0x18 d fullWord)
  | .disengage d => some (pageCycle strap 0x1C d fullWord)
  | .toothEntry a d => some (fullWrite a d)
  | .scheduleFirstWord a d => some (fullWrite a d)
  | .scheduleCommit a d => some (fullWrite a d)
  | .knockHeaderTimestamp a d => some (fullWrite a d)
  | .knockHeaderCommit a d => some (fullWrite a d)
  | .knockSampleWord a d => some (fullWrite a d)
  | _ => none

/-- The tracker after a taken tooth in SYNCED, before its revolution check: the interval is added to both accumulators that
are present, saturating (R32, R34, R46, R47). -/
def syncedTooth (p : Part) (t : Stamp) (i : Nat) : Tracker :=
  { toothTaken p t i with
    segAcc := p.atk.segAcc.map fun n => min (2 ^ 24 - 1) (n + i)
    cycAcc := p.atk.cycAcc.map fun n => min (2 ^ 32 - 1) (n + i) }

/-- The tracker after a sync loss of a reason: the state and the items that R41 and R40 step 3 name, and the reason. -/
def lostTracker (r : LossReason) (t : Tracker) : Tracker :=
  let x := { t with boundarySeen := false, segAcc := none, cycAcc := none, lastLoss := r }
  match r with
  | .gap => { x with sync := .seeking }
  | .cam => { x with sync := .halfSync }
  | .stall | .config | .reset => { x with
      sync := .stopped, lastTooth := none, lastInterval := none, refGap := none, lastPeriod := none, stallStart := none }
  | .never => { t with lastLoss := r }

/-- The part as a sync loss is announced: the tracker has lost, SYNC_LOST is set, and a GAP or CAM loss is counted (R41,
steps 1 to 4). -/
def lossReported (r : LossReason) (p : Part) : Part :=
  let q := (p.setAtk (lostTracker r p.atk)).setNtu ⟨p.ntu.flags ||| 0x100⟩
  match r with
  | .gap => increment 514 q
  | .cam => increment 515 q
  | .stall | .config | .reset | .never => q

/-- The record in slot `i` is the first in the taking order that passes a test. -/
def firstRecord (p : Part) (test : Record → Prop) (i : Nat) (r : Record) : Prop :=
  ∃ xs ys, p.records = xs ++ (i, r) :: ys ∧ test r ∧ ∀ x ∈ xs, ¬ test x.2

/-- The Firing List after a loss of reason GAP, CAM or STALL: the MEASURING record is gone; each SETTLING record has its
misfire half final, with M absent where the loss makes it so; those with a knock half still open and the PLANNED ones
are kept; the rest are decided, until no record that is first of its cylinder is ready (R64, R68). -/
def listAfterLoss (p q : Part) : Prop :=
  let final := fun r : Record => if r.state = .settling ∧ r.misfire = none
    then { r with misfire := some (if r.fuel = .cut ∨ r.ignition = .cut then .intended else .unavailable) } else r
  (∀ i r, p.measuring = some (i, r) → q.slot i = none)
  ∧ (∀ i r, p.slot i = some r → (r.state = .planned ∨ r.state = .settling ∧ r.knock = none) → q.slot i = some (final r))
  ∧ (∀ i x, q.slot i = some x → ∃ r, p.slot i = some r ∧ x = final r)
  ∧ ∀ c i r, firstRecord q (fun x => x.cylinder = c) i r → r.ready = false

/-- What a sync loss of reason GAP, CAM or STALL makes of a part with no Pending Copy. The loss is reported and announced;
SYNC_LOST is set; the Firing List responds as `listAfterLoss` says; the Segment Analyser is empty; the inferred contexts
are IDLE, the rough history, the resync count and the held boundary input are cleared, and ALS, LAUNCH and the last load are
kept; the partial turbine block is discarded and its result kept (R41, R68, R83, R113, R128). -/
def lossTaken (r : LossReason) (p q : Part) : Prop :=
  q = announceLoss r (lossReported r p)
  ∧ q.atk = lostTracker r p.atk
  ∧ q.noticeSet .syncLost = true
  ∧ (p.listAgrees → listAfterLoss p q)
  ∧ q.sga = ⟨[], none, [], none⟩
  ∧ (∀ c, c = .rough ∨ c = .flare ∨ c = .transient ∨ c = .resync → q.cxu.table.get c = ⟨.idle, 0, false⟩)
  ∧ q.cxu.table.als = p.cxu.table.als ∧ q.cxu.table.launch = p.cxu.table.launch
  ∧ q.cxu.roughHistory = [] ∧ q.cxu.resyncCount = 0 ∧ q.cxu.heldInput = none ∧ q.cxu.lastLoad = p.cxu.lastLoad
  ∧ q.hsu.blockCycles = 0 ∧ q.hsu.blockMisfires = 0 ∧ q.hsu.exceeded = p.hsu.exceeded
  ∧ q.csh = p.csh ∧ q.partTime = p.partTime ∧ q.ptu = { p.ptu with queue := q.ptu.queue }

/-- The part with a Pending Copy put in force: the Active Copy and its generation, the pending flag cleared, and a report of
ACTIVE, which sets CONFIG_RESULT (R21, R26). -/
def pendingInForce (c : PendingCopy) (p : Part) : Part :=
  (p.setCsh { p.csh with
    active := some c.settings, activeGen := c.generation, pendingCopy := none
    lastGen := c.generation, lastResult := .active, lastReason := none }).setNtu ⟨p.ntu.flags ||| 0x200⟩

/-- No pending evaluation and no PLANNED record has reached the limit that a configuration gives it (R67, R93). -/
def noWaitDue (g : Settings) (p : Part) : Prop :=
  (∀ e ∈ p.kna.waitList, (p.partTime - e.fixTime).toNat < g.knockWaitLimit * 1000)
  ∧ ∀ x ∈ p.records, x.2.state = .planned → (p.partTime - x.2.takenTime).toNat < g.planAgeLimit * 1000

/-- The stall timer has not reached the stall time of a configuration (R40). -/
def noStallDue (g : Settings) (p : Part) : Prop :=
  ∀ x, p.atk.stallStart = some x → (p.partTime - x).toNat < g.stallTime * 1000

/-- Frame `b` is later-started than frame `a` (R90). -/
abbrev startedLater (b a : Frame) : Prop :=
  isLater b.start a.start = true
  ∨ isLater b.start a.start = false ∧ isLater a.start b.start = false ∧ a.commit.toNat < b.commit.toNat

/-- A decided record increments the class counter of kind `k` (R133). -/
abbrev counted (d : Decided) (k : Nat) : Prop :=
  k = 0 ∧ (d.misfireClass = .none ∨ d.misfireClass = .weak ∨ d.misfireClass = .misfire) ∧ d.misfireWithheld = false
  ∨ k = 1 ∧ d.misfireClass = .misfire ∧ d.misfireWithheld = false
  ∨ k = 2 ∧ d.misfireClass = .weak ∧ d.misfireWithheld = false
  ∨ k = 3 ∧ (d.knockClass = .none ∨ d.knockClass = .light ∨ d.knockClass = .heavy) ∧ d.knockWithheld = false
  ∨ k = 4 ∧ d.knockClass = .light ∧ d.knockWithheld = false
  ∨ k = 5 ∧ d.knockClass = .heavy ∧ d.knockWithheld = false
  ∨ k = 6 ∧ (d.misfireWithheld = true ∨ d.knockWithheld = true)
  ∨ k = 7 ∧ d.misfireClass = .intended

/-- A knock evaluation taken off the Knock Wait List and made (R92, R93). -/
def evaluatedOff (p : Part) (e : PendingEval) : Part :=
  evaluate e (p.setKna { p.kna with
    waitList := p.kna.waitList.filter fun x => !(x.slot == e.slot && x.seq == e.seq) })

/-- What a taken entry of commit word `d` gives the Context Unit: a flagged context is ACTIVE with remaining 0 and its mark
set, the load is the last taken load, and a load step marks TRANSIENT (R58, R105, R106). -/
def causesTaken (d : Word) (p : Part) (u : ContextUnit) : Prop :=
  ∃ m, u = { p.cxu with
      table := { p.cxu.table with
        als := if d.getLsbD 18 then ⟨.active, 0, true⟩ else p.cxu.table.als
        launch := if d.getLsbD 19 then ⟨.active, 0, true⟩ else p.cxu.table.launch
        transient := { p.cxu.table.transient with mark := m } }
      lastLoad := some (field d 0 16) }
    ∧ (m = true ↔ p.cxu.table.transient.mark = true ∨ ∃ l, p.cxu.lastLoad = some l
        ∧ (p.cfg.transientStep : Int) ≤ |((field d 0 16 : Nat) : Int) - l|)

/-- The contexts that a taken entry of commit word `d` puts from IDLE into ACTIVE: ALS is bit 0, LAUNCH bit 1 (R105,
12.4). -/
def contextsEntered (d : Word) (p : Part) : BitVec 6 :=
  (if d.getLsbD 18 = true ∧ p.cxu.table.als.state = .idle then 1#6 else 0#6)
    ||| (if d.getLsbD 19 = true ∧ p.cxu.table.launch.state = .idle then 2#6 else 0#6)

/-- The slots but slot `i` after a taken entry: the MEASURING record's set grows by the contexts entered, and every other
slot is kept (R61, R105). -/
def otherSlotsAfterEntry (i : Nat) (d : Word) (s t : State) : Prop :=
  (∀ j r, s.part.measuring = some (j, r) →
    t.part.slot j = some { r with contexts := r.contexts.map fun x => x ||| contextsEntered d s.part })
  ∧ ∀ j, j ≠ i → (∀ r, s.part.measuring ≠ some (j, r)) → t.part.slot j = s.part.slot j

/-- A cycle that no block takes: in no window; a read outside the two live windows; a write in a window of the part's own
words; a write in an entry window in DISENGAGING (R3, R6). -/
def forwardedOnly (y : Cycle) (p : Part) : Prop :=
  p.windowOf y.address = none
  ∨ y.write = false ∧ p.windowOf y.address ≠ some .statusBlock ∧ p.windowOf y.address ≠ some .statistics
  ∨ y.write = true ∧ (p.windowOf y.address = some .verdictRing ∨ p.windowOf y.address = some .statusBlock
      ∨ p.windowOf y.address = some .statistics)
  ∨ y.write = true ∧ p.csh.mode = .disengaging ∧ (p.windowOf y.address = some .tooth
      ∨ p.windowOf y.address = some .schedule ∨ p.windowOf y.address = some .knock)

/-- The configuration that governs a cycle boundary: the Pending Copy when one is present, else the Active Copy (R26). -/
def governs (p : Part) : Settings :=
  match p.csh.pendingCopy with
  | some c => c.settings
  | none => p.cfg

/-- The cause mark with which a context takes its state step, given the rough count (R105, R106, R108, R109, R110). -/
def markFound (g : Settings) (r : CycleResult) (count : Nat) (p : Part) : Ctx → Bool
  | .als => p.cxu.table.als.mark
  | .launch => p.cxu.table.launch.mark
  | .rough => if p.cxu.table.rough.state = .active then decide (g.roughExit < count) else decide (g.roughEnter ≤ count)
  | .flare =>
    match r.speed, r.previous with
    | some ended, some previous => decide ((g.flareStep : Int) ≤ (ended : Int) - previous)
    | _, _ => false
  | .transient => p.cxu.table.transient.mark
  | .resync => decide (0 < p.cxu.resyncCount)

/-- A closed frame takes each pending evaluation of its sensor that it reaches, in the order of the list (R92). -/
def closureMade (f : Frame) (p : Part) : Part :=
  (p.kna.waitList.filter fun e => e.sensor == f.sensor && !isLater e.closeTime
    (f.start + BitVec.ofNat 24 (f.samples.length * p.cfg.samplePeriod))).foldl evaluatedOff p

/-- The Frame Store of a part with a new FILLING frame, of a descriptor and a timestamp word, appended under the commit
index (R86). -/
def frameBegun (w d : Word) (p : Part) : Part :=
  p.setKna { p.kna with
    frames := p.kna.frames ++ [⟨field d 8 4, w.extractLsb' 0 24, field d 0 8, [], .filling, p.kna.commitIndex⟩]
    commitIndex := p.kna.commitIndex + 1 }

/-- The record in slot `i` is ready and first of its cylinder (R64). -/
def decisionDue (p : Part) (i : Nat) (r : Record) : Prop :=
  r.ready = true ∧ firstRecord p (fun x => x.cylinder = r.cylinder) i r

/-- A taken tooth is a gap tooth (R34). -/
def gapTooth (p : Part) (i : Nat) : Prop := ∃ k, p.atk.lastInterval = some k ∧ p.cfg.gapRatio * k ≤ i * 8

end Sys2Proof.Statements

open Sys2Proof.Statements

/-! ### The queue and part time -/

/-- The command at the front of the queue is the one a step runs, on the state with the queue's rest (log 1). -/
def Obligations.StepRunsFrontCommand : Prop :=
  ∀ (s : State) (c : Instr) (rest : List Instr), s.pending = c :: rest → step s = exec c (s.setPending rest)

/-- With no command waiting one microsecond passes, nothing else changes, and the queue holds each of the part's own
expiries that is due, once (R2, R15, R40, R93, R67). That a step lets time pass on an empty queue is the model's choice
(log 1, log 2). -/
def Obligations.EmptyQueueLetsOneMicrosecondPass : Prop :=
  ∀ s : State, s.pending = [] → ∃ t, step s = .next t
    ∧ t.part = s.part.setPartTime (s.part.partTime + 1)
    ∧ t.sram = s.sram ∧ t.reply = s.reply ∧ t.freeCount = s.freeCount
    ∧ t.pending.Nodup
    ∧ (.intervalBoundary ∈ t.pending ↔ (s.part.partTime + 1).toNat % 1000 = 0)
    ∧ (.stall ∈ t.pending ↔ s.part.atk.sync ≠ .stopped ∧ ∃ g start, s.part.csh.active = some g
        ∧ s.part.atk.stallStart = some start ∧ g.stallTime * 1000 ≤ (s.part.partTime + 1 - start).toNat)
    ∧ (.knockWaitExpiry ∈ t.pending ↔ ∃ e ∈ s.part.kna.waitList,
        s.part.cfg.knockWaitLimit * 1000 ≤ (s.part.partTime + 1 - e.fixTime).toNat)
    ∧ (.planAgeExpiry ∈ t.pending ↔ ∃ x ∈ s.part.records, x.2.state = .planned
        ∧ s.part.cfg.planAgeLimit * 1000 ≤ (s.part.partTime + 1 - x.2.takenTime).toNat)
    ∧ ∀ c ∈ t.pending, c = .intervalBoundary ∨ c = .stall ∨ c = .knockWaitExpiry ∨ c = .planAgeExpiry

/-- Intervals and the order of ECU timestamps; every configuration that passes validation has a tick period of 25 to
1000 ns (R1). -/
def Obligations.TimestampIntervalAndOrder : Prop :=
  (∀ a b : Stamp, (interval a b : Int) = ((b.toNat : Int) - a.toNat) % 2 ^ 24)
  ∧ (∀ a b : Stamp, isLater b a = true ↔ 0 < interval a b ∧ interval a b < 2 ^ 23)
  ∧ ∀ (g : Settings) (page : Nat), g.validate page = none → 25 ≤ g.tickNs ∧ g.tickNs ≤ 1000

/-! ### Resets -/

/-- Power-on reset completes with every block at its power-on value and the strap inputs sampled; the SRAM keeps its
bytes where no write was in progress (log 10) (R2, R18, R30, R33, R52, R72, R85, R104, R118, R131, R140, R149). -/
def Obligations.PowerOnResetState : Prop :=
  ∀ (strap : BitVec 4) (s : State), ∃ t, exec (.powerOnReset strap) s = .next t
    ∧ t.part.partTime = 0
    ∧ t.part.ptu = ⟨strap, none, none, [], 0, none, .free⟩
    ∧ (∀ o, Memory.read t.part.csh.staging o = 0)
    ∧ t.part.csh.pendingCopy = none ∧ t.part.csh.active = none ∧ t.part.csh.mode = .transparent
    ∧ t.part.csh.activeGen = 0 ∧ t.part.csh.lastGen = 0 ∧ t.part.csh.lastResult = .never
    ∧ t.part.csh.lastReason = none
    ∧ t.part.atk = ⟨.stopped, none, none, none, 0, false, false, none, none, none, 0, none, .never⟩
    ∧ (∀ i, t.part.slot i = none) ∧ (∀ c, t.part.recordCount c = 0) ∧ t.part.flc.reserveInUse = 0
    ∧ t.part.flc.nextSeq = 0 ∧ t.part.flc.order = []
    ∧ t.part.sga = ⟨[], none, [], none⟩
    ∧ t.part.kna.frames = [] ∧ t.part.kna.commitIndex = 0 ∧ t.part.kna.waitList = []
    ∧ (∀ c, t.part.reference c = 1) ∧ (∀ x, t.part.sensor x = ⟨.ok, 0, 0, 0⟩)
    ∧ (∀ c, t.part.cxu.table.get c = ⟨.idle, 0, false⟩) ∧ t.part.cxu.roughHistory = []
    ∧ t.part.cxu.resyncCount = 0 ∧ t.part.cxu.lastLoad = none ∧ t.part.cxu.heldInput = none
    ∧ (∀ c, t.part.cylinderHistory c = ⟨[], 0, .healthy, false⟩)
    ∧ t.part.hsu.blockCycles = 0 ∧ t.part.hsu.blockMisfires = 0 ∧ t.part.hsu.exceeded = false
    ∧ (∀ k, t.part.liveCounter k = 0) ∧ (∀ k, statisticsWord k t.part = 0) ∧ t.part.stb.generation = 0
    ∧ t.part.pse = ⟨[], 0, 0, 0, .running⟩
    ∧ t.part.ntu.flags = 0
    ∧ t.pending = s.pending
    ∧ (s.part.ptu.port = .free → t.sram = s.sram)

/-- The state right after reset is the power-on state with strap 0 (the model's choice, log 11), an SRAM that lists nothing
(the model's choice, log 8) and no command waiting, and it satisfies every invariant (R18). -/
def Obligations.ResetStateIsPoweredOnAndSafe : Prop :=
  State.reset.part = Part.powerOn 0 ∧ State.reset.sram = [] ∧ State.reset.pending = [] ∧ State.reset.safe

/-- ECU reset: the held cycle is dropped and both Entry Latches are emptied; a cycle in progress goes on without its
ready, an injected word or a refresh write goes on; the arbiter injects queued words unforced on a free port; every
other block, the SRAM, the queue, the budget counter and the strap are kept (R17). -/
def Obligations.EcuResetDropsHeldCycleOnly : Prop :=
  ∀ s : State, ∃ x, exec .ecuReset s = .next (s.setPart (s.part.setPtu { s.part.ptu with
      held := none, scheduleLatch := none, knockLatch := none, port := x }))
    ∧ (∀ c r, s.part.ptu.port = .forwarding c r → x = .forwarding c false)
    ∧ (∀ a v, s.part.ptu.port = .refreshing a v → x = .refreshing a v)
    ∧ (∀ b, s.part.ptu.port = .injecting b → x = .injecting b)
    ∧ (s.part.ptu.port = .free → s.part.ptu.queue = [] → x = .free)
    ∧ (s.part.ptu.port = .free → s.part.ptu.queue ≠ [] → x = .injecting none)

/-! ### The bus -/

/-- Whatever row carries it, a processor cycle that arrives while an injected word is being written is held with reason
INJECTION_BUSY and its classification, and nothing else changes: its effect waits for its grant (R4, R13). When that
word completes and a forced injection is due, the cycle stays held with reason FORCED (R13, R14). When none is due, a
read that was classified live and still is begins its refresh; any other cycle is forwarded and, a write, its content
is delivered, on the part as the word left it (R6, R10, R13). The content of a full-word write in the command area is
the command word of its offset (R19, R20). That an address that is not a multiple of 4 stands for the word that holds
it is the model's choice (log 7). -/
def Obligations.CycleIsHeldWhileWordIsInjected : Prop :=
  (∀ (c : Instr) (y : Cycle) (b : Option Nat) (s : State), cycleOf s.part.ptu.strap c = some y →
    s.part.ptu.port = .injecting b → s.part.ptu.held = none →
    exec c s = .next (s.setPart (s.part.setHeld (some ⟨y, .injectionBusy, !y.write && s.part.isLive y.address⟩))))
  ∧ (∀ (q : QueuedWord) (rest : List QueuedWord) (h : HeldCycle) (s : State), s.part.ptu.port = .injecting none →
    s.part.ptu.queue = q :: rest → s.part.ptu.held = some h →
    let p := wordLeaves q rest (s.part.setPort .free)
    ∃ t, exec .injectedWordComplete s = .next t
      ∧ (p.forces = true → t.part = (p.setHeld (some { h with reason := .forced })).setPort (.injecting (some 0)))
      ∧ (p.forces = false → h.cycle.write = false → (h.live = false ∨ capture h.cycle.address p = none) →
          t.part = (p.setHeld none).setPort (.forwarding h.cycle true))
      ∧ (∀ v, p.forces = false → h.cycle.write = false → h.live = true → capture h.cycle.address p = some v →
          t.part = (p.setHeld (some { h with reason := .refresh })).setPort (.refreshing (wordAddress h.cycle.address) v))
      ∧ (p.forces = false → h.cycle.write = true →
          t.part = deliver h.cycle ((p.setHeld none).setPort (.forwarding h.cycle true)))
      ∧ t.reply = s.reply ∧ t.freeCount = s.freeCount ∧ t.pending = s.pending)
  ∧ ∀ (o : Nat) (d : Word) (p : Part), o < 0x40 → o % 4 = 0 →
      deliver (pageCycle p.ptu.strap o d fullWord) p = takeCommand o d p

/-- Whatever row carries it, a processor cycle that no block takes, granted as it arrives, is forwarded with the
address, data, enables and sense presented, and nothing else changes: in no window, a write in the Verdict Ring or a
live window, a write in an entry window in DISENGAGING, a read outside the live windows (R3, R6, R13). The SRAM
completes a forwarded cycle with nothing else waiting: a write stores its enabled bytes and no other byte changes; the
port is free; the cycle completes to the processor with the SRAM's word, or, orphaned by an ECU reset, without a reply
(R3, R17). That the enables alone choose bytes of the addressed word, and that the reply shows all four, are the
model's choices (log 7, log 9, log 25). -/
def Obligations.OrdinaryCycleIsForwardedAndCompletes : Prop :=
  (∀ (c : Instr) (y : Cycle) (s : State), cycleOf s.part.ptu.strap c = some y → s.part.grantsAtOnce →
    forwardedOnly y s.part → exec c s = .next (s.setPart (s.part.setPort (.forwarding y true))))
  ∧ ∀ (c : Cycle) (ready : Bool) (s : State), Memory.wf s.sram → s.part.ptu.port = .forwarding c ready →
    s.part.ptu.held = none → s.part.ptu.queue = [] →
    ∃ t, exec .downstreamCycleComplete s = .next t
      ∧ t.part = s.part.setPort .free
      ∧ t.reply = (if ready then some ⟨c, Memory.readWord t.sram (wordAddress c.address)⟩ else s.reply)
      ∧ t.freeCount = s.freeCount ∧ t.pending = s.pending
      ∧ ∀ b, Memory.read t.sram b =
          if c.write = true ∧ wordAddress c.address ≤ b ∧ b < wordAddress c.address + 4
              ∧ c.enables.getLsbD (b - wordAddress c.address) = true
          then byteOf c.data (b - wordAddress c.address) else Memory.read s.sram b

/-- A partial-word write is forwarded unchanged. In the settings area its enabled bytes reach the Staging Copy; in the
Schedule or Knock Window, in MONITORING, it empties that window's Entry Latch; elsewhere it does nothing more (R7). That an
address that is not a multiple of 4 stands for the word that holds it is the model's choice (log 7). -/
def Obligations.PartialWordWriteByWindow : Prop :=
  ∀ (a : Addr) (d : Word) (e : Enables) (s : State), s.part.grantsAtOnce → e ≠ fullWord →
    ∃ p', exec (.partialWordWrite a d e) s = .next (s.setPart p')
      ∧ (let q := s.part.setPort (.forwarding ⟨a, d, e, true⟩ true)
         match s.part.windowOf a with
         | some .configPage =>
           if wordAddress a - pageBase s.part.ptu.strap < 0x40 then p' = q
           else p' = q.setCsh { q.csh with
             staging := Memory.writeWord q.csh.staging (wordAddress a - pageBase s.part.ptu.strap) d e }
         | some .schedule =>
           if s.part.csh.mode = .monitoring then p' = q.setPtu { q.ptu with scheduleLatch := none } else p' = q
         | some .knock =>
           if s.part.csh.mode = .monitoring then p' = q.setPtu { q.ptu with knockLatch := none } else p' = q
         | _ => p' = q)

/-- A refresh read granted as it arrives captures the word's present value and begins its refresh write, with reason
REFRESH, and nothing else changes (R4, R10). The refresh write and the read then complete with no other downstream cycle
between them, and the processor receives the captured value (R10). That an address that is not a multiple of 4 stands for
the word that holds it is the model's choice (log 7). -/
def Obligations.RefreshReadReturnsCapturedWord : Prop :=
  ∀ (a : Addr) (e : Enables) (v : Word) (s : State), Memory.wf s.sram → s.part.grantsAtOnce →
    (s.part.windowOf a = some .statusBlock ∧ v = statusWord ((wordAddress a - s.part.cfg.statusBase) / 4) s.part
      ∨ s.part.windowOf a = some .statistics
        ∧ v = Table.read s.part.stb.snapshot ((wordAddress a - s.part.cfg.statisticsBase) / 4) 0) →
    let t := s.setPart ((s.part.setHeld (some ⟨⟨a, 0, e, false⟩, .refresh, true⟩)).setPort
      (.refreshing (wordAddress a) v))
    exec (.refreshRead a e) s = .next t
    ∧ ∃ u w, exec .downstreamCycleComplete t = .next u ∧ exec .downstreamCycleComplete u = .next w
      ∧ u.part = s.part.setPort (.forwarding ⟨a, 0, e, false⟩ true) ∧ u.reply = s.reply
      ∧ w.reply = some ⟨⟨a, 0, e, false⟩, v⟩
      ∧ ∀ b, ¬ (wordAddress a ≤ b ∧ b < wordAddress a + 4) → Memory.read w.sram b = Memory.read s.sram b

/-- The arbiter's table: what a free port is given to (R13). -/
def Obligations.ArbiterTable : Prop :=
  ∀ p : Part, p.ptu.port = .free →
    (p.ptu.held = none → p.ptu.queue = [] → arbitrate p = p)
    ∧ (p.ptu.held = none → p.ptu.queue ≠ [] → arbitrate p = p.setPort (.injecting none))
    ∧ (∀ h, p.ptu.held = some h → p.ptu.queue = [] → arbitrate p = release h p)
    ∧ (∀ h q rest, p.ptu.held = some h → p.ptu.queue = q :: rest →
        ((p.partTime - q.entered).toNat < p.cfg.patience ∨ p.cfg.stallBudget ≤ p.ptu.forcedCount) →
        arbitrate p = release h p)
    ∧ (∀ h q rest, p.ptu.held = some h → p.ptu.queue = q :: rest →
        p.cfg.patience ≤ (p.partTime - q.entered).toNat → p.ptu.forcedCount < p.cfg.stallBudget →
        arbitrate p = (p.setHeld (some { h with reason := .forced })).setPort (.injecting (some 0)))

/-- An unforced injected word completes, in every mode and post state, with no cycle held and no verdict to move: its
word is in the SRAM and no other byte changes; it leaves the queue; a record end that publishes adds one to the
published count and to Verdicts Posted, and sets WATERMARK when it brings the occupancy to Watermark (R12, R144). When
no publishing word is left while STOPPING, the post state enters STOPPED and POST_STOPPED is set (R12, R146). When the
queue becomes empty in DISENGAGING, Disengage ends: TRANSPARENT, no configuration in force, the three counts 0 and
RUNNING (R11, R28, R147). No other notice is set but COUNTER_HALF (R132). With verdicts waiting, in RUNNING and outside
DISENGAGING, a word that leaves calls for the move test, after its publication (R143, R144; that order is log 12); what
is so left decides the port (R13). That POST_STOPPED is set where one word ends both STOPPING and DISENGAGING is the
model's choice (log 30), and so is that an address of a queued word selects by its upper bits alone (log 7). -/
def Obligations.UnforcedWordCompletes : Prop :=
  (∀ (q : QueuedWord) (rest : List QueuedWord) (s : State), Memory.wf s.sram →
    s.part.ptu.port = .injecting none → s.part.ptu.queue = q :: rest → s.part.ptu.held = none →
    (s.part.pse.postQueue = [] ∨ s.part.pse.postState ≠ .running) →
    let publishes := q.publishes = true ∧ q.recordEnd = true
    let stops := s.part.pse.postState = .stopping ∧ ∀ x ∈ rest, x.publishes = false
    let ends := s.part.csh.mode = .disengaging ∧ rest = []
    ∃ t, exec .injectedWordComplete s = .next t
      ∧ (∀ b, Memory.read t.sram b =
          if wordAddress q.address ≤ b ∧ b < wordAddress q.address + 4
          then byteOf q.data (b - wordAddress q.address) else Memory.read s.sram b)
      ∧ t.part.ptu = { s.part.ptu with queue := rest, port := if rest = [] then .free else .injecting none }
      ∧ (publishes → t.part.stb = (increment 532 s.part).stb)
      ∧ (¬ publishes → t.part.stb = s.part.stb)
      ∧ (ends → t.part.csh = { s.part.csh with mode := .transparent, active := none, activeGen := 0 }
          ∧ t.part.pse = ⟨[], 0, 0, 0, .running⟩)
      ∧ (¬ ends → t.part.csh = s.part.csh ∧ t.part.pse.postQueue = s.part.pse.postQueue
          ∧ t.part.pse.assigned = s.part.pse.assigned ∧ t.part.pse.consumer = s.part.pse.consumer
          ∧ (publishes → t.part.pse.published = s.part.pse.published + 1)
          ∧ (¬ publishes → t.part.pse.published = s.part.pse.published)
          ∧ (stops → t.part.pse.postState = .stopped)
          ∧ (¬ stops → t.part.pse.postState = s.part.pse.postState))
      ∧ (t.part.noticeSet .postStopped = true ↔ s.part.noticeSet .postStopped = true ∨ stops)
      ∧ (t.part.noticeSet .watermark = true ↔ s.part.noticeSet .watermark = true ∨ publishes
          ∧ (s.part.pse.published + 1 - s.part.pse.consumer).toNat = s.part.cfg.watermark)
      ∧ (∀ n, n ≠ .postStopped → n ≠ .watermark → n ≠ .counterHalf → t.part.noticeSet n = s.part.noticeSet n)
      ∧ t.part.partTime = s.part.partTime ∧ t.part.atk = s.part.atk ∧ t.part.flc = s.part.flc ∧ t.part.sga = s.part.sga
      ∧ t.part.kna = s.part.kna ∧ t.part.cxu = s.part.cxu ∧ t.part.hsu = s.part.hsu ∧ t.reply = s.reply)
  ∧ (∀ (q : QueuedWord) (rest : List QueuedWord) (s : State), Memory.wf s.sram →
    s.part.ptu.port = .injecting none → s.part.ptu.queue = q :: rest →
    ∃ t, exec .injectedWordComplete s = .next t
      ∧ t.part = arbitrate (wordLeaves q rest (s.part.setPort .free))
      ∧ (∀ b, Memory.read t.sram b =
          if wordAddress q.address ≤ b ∧ b < wordAddress q.address + 4
          then byteOf q.data (b - wordAddress q.address) else Memory.read s.sram b)
      ∧ t.reply = s.reply ∧ t.freeCount = s.freeCount ∧ t.pending = s.pending)
  ∧ (∀ (q : QueuedWord) (rest : List QueuedWord) (p : Part), p.pse.postState = .running → p.csh.mode ≠ .disengaging →
    (q.publishes = true ∧ q.recordEnd = true → wordLeaves q rest p = moveTest (publication (p.setQueue rest)))
    ∧ (¬ (q.publishes = true ∧ q.recordEnd = true) → wordLeaves q rest p = moveTest (p.setQueue rest)))
  ∧ ∀ p : Part,
    publication p = ((p.setPse { p.pse with published := p.pse.published + 1 }).setStb (increment 532 p).stb).setNtu
      (if (p.pse.published + 1 - p.pse.consumer).toNat = p.cfg.watermark then setNotice .watermark (increment 532 p)
        else increment 532 p).ntu

/-- A forced word completes: it is in the SRAM and no other byte changes; it is counted, then it leaves the queue with
what its marks report, and the burst goes on or ends with one word more written (R12, R14). That it is counted before
it leaves, so that STALL_BUDGET is judged under the configuration then in force, is the model's choice (log 31). The
count is this: the budget counter and Forced Injections each rise by one, and STALL_BUDGET is set exactly by the
increment that makes the budget left 0 (R14, R15). After the word, with `n` words written, the burst goes on while
fewer than Burst are written, budget is left and the queue holds a word; else the held cycle is granted whatever the
state of the queue. With the cycle dropped by an ECU reset the ordinary table decides (R14). At an interval boundary
the budget counter returns to 0 and nothing else changes; a command that comes when part time is at no boundary has no
effect (R15; log 3). -/
def Obligations.ForcedBurstAndBudgetInterval : Prop :=
  (∀ (n : Nat) (q : QueuedWord) (rest : List QueuedWord) (s : State), Memory.wf s.sram →
    s.part.ptu.port = .injecting (some n) → s.part.ptu.queue = q :: rest →
    ∃ t, exec .injectedWordComplete s = .next t
      ∧ t.part = afterForced (n + 1) (wordLeaves q rest (countForced (s.part.setPort .free)))
      ∧ (∀ b, Memory.read t.sram b =
          if wordAddress q.address ≤ b ∧ b < wordAddress q.address + 4
          then byteOf q.data (b - wordAddress q.address) else Memory.read s.sram b)
      ∧ t.reply = s.reply ∧ t.freeCount = s.freeCount ∧ t.pending = s.pending)
  ∧ (∀ p : Part, (countForced p).ptu = { p.ptu with forcedCount := p.ptu.forcedCount + 1 }
    ∧ (countForced p).stb = (increment 534 p).stb
    ∧ ((countForced p).noticeSet .stallBudget = true ↔ p.noticeSet .stallBudget = true
        ∨ p.cfg.stallBudget = p.ptu.forcedCount + 1))
  ∧ (∀ (n : Nat) (p : Part),
    (∀ h, p.ptu.held = some h → h.reason = .forced → n < p.cfg.burst → p.ptu.forcedCount < p.cfg.stallBudget →
      p.ptu.queue ≠ [] → afterForced n p = p.setPort (.injecting (some n)))
    ∧ (∀ h, p.ptu.held = some h → h.reason = .forced →
        (p.cfg.burst ≤ n ∨ p.cfg.stallBudget ≤ p.ptu.forcedCount ∨ p.ptu.queue = []) →
        afterForced n p = release h p)
    ∧ (p.ptu.held = none → afterForced n p = arbitrate p))
  ∧ ∀ s : State, arbiterQuiet s.part →
    (s.part.partTime.toNat % 1000 = 0 →
      exec .intervalBoundary s = .next (s.setPart (s.part.setPtu { s.part.ptu with forcedCount := 0 })))
    ∧ (s.part.partTime.toNat % 1000 ≠ 0 → exec .intervalBoundary s = .next s)

/-! ### The Configuration Shadow -/

/-- A settings write updates the enabled bytes of the Staging Copy, unchecked, in every mode, and changes nothing else of
the part but the port (R19). That an offset that is not a multiple of 4 stands for the word that holds it is the model's
choice (log 7). -/
def Obligations.SettingsWriteUpdatesEnabledBytes : Prop :=
  ∀ (o : BitVec 12) (d : Word) (e : Enables) (s : State), s.part.grantsAtOnce → Memory.wf s.part.csh.staging →
    0x40 ≤ o.toNat →
    ∃ m, exec (.settingsWrite o d e) s = .next (s.setPart
        ((s.part.setPort (.forwarding (pageCycle s.part.ptu.strap o.toNat d e) true)).setCsh
          { s.part.csh with staging := m }))
      ∧ Memory.wf m
      ∧ ∀ b, Memory.read m b =
          if o.toNat / 4 * 4 ≤ b ∧ b < o.toNat / 4 * 4 + 4 ∧ e.getLsbD (b - o.toNat / 4 * 4) = true
          then byteOf d (b - o.toNat / 4 * 4) else Memory.read s.part.csh.staging b

/-- An Apply granted as it arrives is taken as it is forwarded (R20). On every part, so also where the Apply waited behind an
injected word: tag 0 is ignored; in DISENGAGING it is BUSY; a copy that fails a check is REFUSED with the first check failed.
Each report sets CONFIG_RESULT, and nothing else changes (R21, R22). -/
def Obligations.ApplyIgnoredBusyOrRefused : Prop :=
  (∀ (d : Word) (s : State), s.part.grantsAtOnce →
    exec (.apply d) s = .next (s.setPart (takeCommand 0x00 d (wordOut s 0 d))))
  ∧ ∀ (d : Word) (p : Part),
    (d.extractLsb' 0 16 = 0 → takeCommand 0x00 d p = p)
    ∧ (d.extractLsb' 0 16 ≠ 0 → p.csh.mode = .disengaging →
        takeCommand 0x00 d p = (p.setCsh { p.csh with
          lastGen := d.extractLsb' 0 16, lastResult := .busy, lastReason := none }).setNtu ⟨p.ntu.flags ||| 0x200⟩)
    ∧ (∀ r, d.extractLsb' 0 16 ≠ 0 → p.csh.mode ≠ .disengaging →
        (Settings.parse p.csh.staging).validate (pageBase p.ptu.strap) = some r →
        takeCommand 0x00 d p = (p.setCsh { p.csh with
          lastGen := d.extractLsb' 0 16, lastResult := .refused, lastReason := some r }).setNtu
            ⟨p.ntu.flags ||| 0x200⟩)

/-- A successful Apply in TRANSPARENT: MONITORING, the copy in force under its tag, ACTIVE reported, references at their
seeds, the Verdict Ring's counts 0 (R22, R25, R100, R147). -/
def Obligations.FirstApplyBringsMonitoring : Prop :=
  ∀ (d : Word) (s : State), s.part.grantsAtOnce → s.part.modesAgree → d.extractLsb' 0 16 ≠ 0 →
    s.part.csh.mode = .transparent →
    (Settings.parse s.part.csh.staging).validate (pageBase s.part.ptu.strap) = none →
    ∃ t, exec (.apply d) s = .next t
      ∧ t.part.csh = { s.part.csh with
          mode := .monitoring, active := some (Settings.parse s.part.csh.staging)
          activeGen := d.extractLsb' 0 16, lastGen := d.extractLsb' 0 16, lastResult := .active, lastReason := none }
      ∧ t.part.noticeSet .configResult = true
      ∧ (∀ c, 1 ≤ c → c ≤ (Settings.parse s.part.csh.staging).cylinders →
          t.part.reference c = Table.readCyl (Settings.parse s.part.csh.staging).seed c 1)
      ∧ t.part.kna.frames = [] ∧ t.part.kna.waitList = []
      ∧ t.part.pse.postQueue = [] ∧ t.part.pse.assigned = 0 ∧ t.part.pse.published = 0 ∧ t.part.pse.consumer = 0
      ∧ t.part.atk = s.part.atk ∧ t.part.flc = s.part.flc ∧ t.part.sga = s.part.sga ∧ t.part.cxu = s.part.cxu
      ∧ t.part.hsu = s.part.hsu ∧ t.part.partTime = s.part.partTime ∧ t.sram = s.sram

/-- A tuning-class Apply taken while SYNCED, on every part: the copy is pending under its tag, PENDING is reported, and the
configuration in force and its generation stay (R22, R24, R26). A Pending Copy present before it is discarded and reported
SUPERSEDED first, so that the report that stands is PENDING (R21, R26). A Pending Copy takes effect at the next cycle
boundary, or at a sync loss of reason GAP, CAM, STALL or RESET: it is in force under its tag, ACTIVE is reported, and each
expiry that its limits have reached occurs now, then the move test (R26, R40, R67, R93, R143; several expiries in the order
of log 15, the model's choice). The boundary is then the boundary of a part in which that copy is already in force, and the
loss is announced to blocks that read it (R26). -/
def Obligations.TuningApplyWhileSyncedPends : Prop :=
  (∀ (d : Word) (g : Settings) (p : Part), d.extractLsb' 0 16 ≠ 0 →
    p.csh.mode = .monitoring → p.atk.sync = .synced → p.csh.active = some g →
    (Settings.parse p.csh.staging).validate (pageBase p.ptu.strap) = none →
    sameLayout g (Settings.parse p.csh.staging) = true →
    sameGeometry g (Settings.parse p.csh.staging) = true →
    sameTuning g (Settings.parse p.csh.staging) = false →
    let q := supersedePending p
    takeCommand 0x00 d p = (q.setCsh { q.csh with
      pendingCopy := some ⟨Settings.parse p.csh.staging, d.extractLsb' 0 16⟩
      lastGen := d.extractLsb' 0 16, lastResult := .pending, lastReason := none }).setNtu ⟨q.ntu.flags ||| 0x200⟩
    ∧ takeCommand 0x00 d p = (p.setCsh { p.csh with
      pendingCopy := some ⟨Settings.parse p.csh.staging, d.extractLsb' 0 16⟩
      lastGen := d.extractLsb' 0 16, lastResult := .pending, lastReason := none }).setNtu ⟨p.ntu.flags ||| 0x200⟩)
  ∧ ∀ p : Part, (p.csh.pendingCopy = none → supersedePending p = p)
    ∧ ∀ c, p.csh.pendingCopy = some c → supersedePending p = (p.setCsh { p.csh with
        pendingCopy := none, lastGen := c.generation, lastResult := .superseded, lastReason := none }).setNtu
          ⟨p.ntu.flags ||| 0x200⟩
  ∧ ∀ (c : PendingCopy) (p : Part), p.csh.pendingCopy = some c →
    pendingTakesEffect p
        = moveTest (expirePlanAges (expireKnockWaits (stallIfDue (pendingInForce c p))))
    ∧ (noWaitDue c.settings p → noStallDue c.settings p → pendingTakesEffect p = moveTest (pendingInForce c p))
    ∧ (cycleBoundary p).csh = (pendingInForce c p).csh
    ∧ (noWaitDue c.settings p → noStallDue c.settings p →
        cycleBoundary p = cycleBoundary (moveTest (pendingInForce c p)))
    ∧ ∀ r, r = .gap ∨ r = .cam ∨ r = .stall ∨ r = .reset →
        syncLoss r p = announceLoss r (pendingTakesEffect (lossReported r p))
        ∧ (syncLoss r p).csh = (pendingInForce c p).csh

/-- An Apply that takes effect at once in MONITORING, on every part with its list in agreement: a Pending Copy is
discarded, the copy is in force under its tag, ACTIVE is reported (R25). Identical, it is followed by the move test
alone (R25, R143). Tuning while the tracker is not SYNCED, the same, when nothing is due under the new limits; in
SEEKING a stall that is due occurs at once (R25, R40). Geometry-class: latches emptied, every record gone, the tracker
stopped by a loss CONFIG, the Knock Analyser at the new seeds, the Context and History Units reset, the posting kept
(R16, R42, R69, R102, R114, R129, R147). Layout-class: the same, with the publishes marks cleared, the Post Queue
discarded, the counts 0 and the post state kept, but that STOPPING ends (R12, R16, R146, R147). -/
def Obligations.ApplyTakesEffectInMonitoring : Prop :=
  ∀ (d : Word) (g : Settings) (p : Part), p.listAgrees → d.extractLsb' 0 16 ≠ 0 →
    p.csh.mode = .monitoring → p.csh.active = some g →
    (Settings.parse p.csh.staging).validate (pageBase p.ptu.strap) = none →
    let h := Settings.parse p.csh.staging
    let inForce := { p.csh with
      pendingCopy := none, active := some h, activeGen := d.extractLsb' 0 16
      lastGen := d.extractLsb' 0 16, lastResult := .active, lastReason := none }
    let q := (p.setCsh inForce).setNtu ⟨p.ntu.flags ||| 0x200⟩
    let t := takeCommand 0x00 d p
    let off := { p.atk with
      sync := .stopped, lastTooth := none, lastInterval := none, refGap := none, boundarySeen := false
      segAcc := none, cycAcc := none, lastPeriod := none, stallStart := none }
    let stalled := ∃ x, p.atk.stallStart = some x ∧ h.stallTime * 1000 ≤ (p.partTime - x).toNat
    let nothingElseDue := (∀ e ∈ p.kna.waitList, (p.partTime - e.fixTime).toNat < h.knockWaitLimit * 1000)
      ∧ ∀ x ∈ p.records, x.2.state = .planned → (p.partTime - x.2.takenTime).toNat < h.planAgeLimit * 1000
    let restarted := t.csh = inForce ∧ t.noticeSet .configResult = true ∧ t.noticeSet .syncLost = true
      ∧ t.atk = { off with lastLoss := .config }
      ∧ t.flc.order = [] ∧ (∀ i, t.slot i = none) ∧ t.flc.nextSeq = p.flc.nextSeq
      ∧ t.sga = ⟨[], none, [], none⟩
      ∧ t.kna.frames = [] ∧ t.kna.waitList = [] ∧ t.kna.commitIndex = p.kna.commitIndex
      ∧ (∀ c, 1 ≤ c → c ≤ h.cylinders → t.reference c = Table.readCyl h.seed c 1) ∧ (∀ x, t.sensor x = ⟨.ok, 0, 0, 0⟩)
      ∧ (∀ c, t.cxu.table.get c = ⟨.idle, 0, false⟩) ∧ t.cxu.lastLoad = none ∧ t.cxu.roughHistory = []
      ∧ (∀ c, t.cylinderHistory c = ⟨[], 0, .healthy, false⟩) ∧ t.hsu.exceeded = false
      ∧ t.stb.snapshot = p.stb.snapshot ∧ t.partTime = p.partTime
    (sameLayout g h = true → sameGeometry g h = true → sameTuning g h = true → t = moveTest q)
    ∧ (sameLayout g h = true → sameGeometry g h = true → sameTuning g h = false → p.atk.sync ≠ .synced → nothingElseDue →
        ((p.atk.sync = .stopped ∨ ¬ stalled) → t = moveTest q)
        ∧ (p.atk.sync = .seeking → stalled → t = moveTest ((increment 516 q).setAtk off)))
    ∧ (sameLayout g h = true → sameGeometry g h = false → restarted ∧ t.pse = p.pse
        ∧ t.ptu = { p.ptu with scheduleLatch := none, knockLatch := none })
    ∧ (sameLayout g h = false → restarted
        ∧ t.pse = ⟨[], 0, 0, 0, if p.pse.postState = .stopping then .stopped else p.pse.postState⟩
        ∧ (p.pse.postState = .stopping → t.noticeSet .postStopped = true)
        ∧ t.ptu = { p.ptu with
            scheduleLatch := none, knockLatch := none, queue := p.ptu.queue.map fun x => { x with publishes := false } })

/-- Analysis Reset in MONITORING with no Pending Copy: the tracker stops with a loss of reason RESET, every record leaves
the list, the analysis blocks start again, and the configuration, the posting, the PTU and the Snapshot Bank are kept
(R29, R42, R69, R83, R102, R114, R129). -/
def Obligations.AnalysisResetRestartsJudgement : Prop :=
  ∀ (d : Word) (s : State), s.part.grantsAtOnce → s.part.listAgrees → s.part.csh.mode = .monitoring →
    s.part.csh.pendingCopy = none →
    ∃ t, exec (.analysisReset d) s = .next t
      ∧ t.part.atk = { s.part.atk with
          sync := .stopped, lastTooth := none, lastInterval := none, refGap := none, boundarySeen := false
          segAcc := none, cycAcc := none, lastPeriod := none, stallStart := none, lastLoss := .reset }
      ∧ t.part.noticeSet .syncLost = true
      ∧ t.part.flc.order = [] ∧ (∀ i, t.part.slot i = none) ∧ t.part.flc.nextSeq = s.part.flc.nextSeq
      ∧ t.part.sga = ⟨[], none, [], none⟩
      ∧ t.part.kna.frames = [] ∧ t.part.kna.waitList = [] ∧ t.part.kna.commitIndex = s.part.kna.commitIndex
      ∧ (∀ c, 1 ≤ c → c ≤ s.part.cfg.cylinders → c ≤ 8 → t.part.reference c = Table.readCyl s.part.cfg.seed c 1)
      ∧ (∀ x, t.part.sensor x = ⟨.ok, 0, 0, 0⟩)
      ∧ (∀ c, t.part.cxu.table.get c = ⟨.idle, 0, false⟩) ∧ t.part.cxu.lastLoad = none
      ∧ (∀ c, t.part.cylinderHistory c = ⟨[], 0, .healthy, false⟩) ∧ t.part.hsu.exceeded = false
      ∧ t.part.csh = s.part.csh ∧ t.part.pse = s.part.pse ∧ t.part.ptu = (wordOut s 0x18 d).ptu
      ∧ t.part.stb.snapshot = s.part.stb.snapshot ∧ t.part.partTime = s.part.partTime ∧ t.sram = s.sram

/-- A Disengage granted as it arrives is taken as it is forwarded (R20). On every part, so also where it waited behind
an injected word: outside MONITORING it changes nothing (R20); in MONITORING records are abandoned, the Post Queue is
discarded, the latches are emptied, and a Pending Copy is discarded and reported SUPERSEDED; the Knock Analyser is
emptied with its references at their seeds and its sensors OK, and the Segment Analyser, the Context Unit and the
History Unit are at their reset values (R83, R84, R102, R114, R129). With queued words left the mode is DISENGAGING and
the configuration stays in force; with none, the end of Disengage follows at once: TRANSPARENT, no configuration in
force, the Verdict Ring's counts 0 and RUNNING (R27, R28, R147). The command END_OF_DISENGAGE makes that end in
DISENGAGING with an empty queue, a state that no run reaches, since the step that empties the queue ends Disengage (log
13); in every other state it changes nothing (R28; log 3). -/
def Obligations.DisengageAndItsEnd : Prop :=
  (∀ (d : Word) (s : State), s.part.grantsAtOnce →
    exec (.disengage d) s = .next (s.setPart (takeCommand 0x1C d (wordOut s 0x1C d))))
  ∧ (∀ (d : Word) (p : Part), p.csh.mode ≠ .monitoring → takeCommand 0x1C d p = p)
  ∧ (∀ (d : Word) (p : Part), p.listAgrees → p.csh.mode = .monitoring →
    let t := takeCommand 0x1C d p
    let leaving := match p.csh.pendingCopy with
      | none => { p.csh with mode := .disengaging }
      | some c => { p.csh with
          mode := .disengaging, pendingCopy := none
          lastGen := c.generation, lastResult := .superseded, lastReason := none }
    t.flc.order = [] ∧ (∀ i, t.slot i = none) ∧ t.pse.postQueue = []
    ∧ t.atk.sync = .stopped ∧ t.atk.lastLoss = .reset ∧ t.noticeSet .syncLost = true
    ∧ (p.csh.pendingCopy ≠ none → t.noticeSet .configResult = true)
    ∧ t.sga = ⟨[], none, [], none⟩
    ∧ t.kna.frames = [] ∧ t.kna.waitList = [] ∧ t.kna.commitIndex = p.kna.commitIndex
    ∧ (∀ c, 1 ≤ c → c ≤ p.cfg.cylinders → c ≤ 8 → t.reference c = Table.readCyl p.cfg.seed c 1)
    ∧ (∀ x, t.sensor x = ⟨.ok, 0, 0, 0⟩)
    ∧ (∀ c, t.cxu.table.get c = ⟨.idle, 0, false⟩) ∧ t.cxu.roughHistory = [] ∧ t.cxu.resyncCount = 0
    ∧ t.cxu.heldInput = none ∧ t.cxu.lastLoad = none
    ∧ (∀ c, t.cylinderHistory c = ⟨[], 0, .healthy, false⟩)
    ∧ t.hsu.blockCycles = 0 ∧ t.hsu.blockMisfires = 0 ∧ t.hsu.exceeded = false
    ∧ t.stb.snapshot = p.stb.snapshot ∧ t.partTime = p.partTime
    ∧ t.ptu = { p.ptu with scheduleLatch := none, knockLatch := none }
    ∧ (p.ptu.queue ≠ [] → t.csh = leaving ∧ t.pse = { p.pse with postQueue := [] })
    ∧ (p.ptu.queue = [] → t.csh = { leaving with mode := .transparent, active := none, activeGen := 0 }
        ∧ t.pse = ⟨[], 0, 0, 0, .running⟩))
  ∧ ∀ s : State, arbiterQuiet s.part →
    (s.part.csh.mode = .disengaging → s.part.ptu.queue = [] →
      exec .endOfDisengage s = .next (s.setPart ((s.part.setCsh { s.part.csh with
        mode := .transparent, active := none, activeGen := 0 }).setPse ⟨[], 0, 0, 0, .running⟩)))
    ∧ (¬ (s.part.csh.mode = .disengaging ∧ s.part.ptu.queue = []) → exec .endOfDisengage s = .next s)

/-! ### Notices -/

/-- Notice Clear outside TRANSPARENT clears the flags whose mask bit is 1 and leaves the rest; in TRANSPARENT it is
ignored; a set leaves every other flag as it stands (R20, R149). -/
def Obligations.NoticeClearAndSet : Prop :=
  (∀ (d : Word) (s : State), s.part.grantsAtOnce →
    (s.part.csh.mode ≠ .transparent →
      exec (.noticeClear d) s = .next (s.setPart ((wordOut s 4 d).setNtu
        ⟨s.part.ntu.flags &&& ~~~(d.extractLsb' 0 13)⟩)))
    ∧ (s.part.csh.mode = .transparent → exec (.noticeClear d) s = .next (s.setPart (wordOut s 4 d))))
  ∧ ∀ (n m : Notice) (p : Part),
      (setNotice n p).noticeSet m = (decide (m = n) || p.noticeSet m)

/-- A line is asserted while some notice is set, enabled in the Active Copy and routed to it; with no Active Copy both
lines are deasserted (R150). -/
def Obligations.LinesFollowFlagsEnablesAndRoutes : Prop :=
  ∀ p : Part,
    (p.csh.active = none → p.lineAsserted .a = false ∧ p.lineAsserted .b = false)
    ∧ ∀ g, p.csh.active = some g →
      (p.lineAsserted .a = true ↔ ∃ n : Notice, p.noticeSet n = true
        ∧ g.noticeEnables.getLsbD n.index = true ∧ g.noticeRoutes.getLsbD n.index = false)
      ∧ (p.lineAsserted .b = true ↔ ∃ n : Notice, p.noticeSet n = true
        ∧ g.noticeEnables.getLsbD n.index = true ∧ g.noticeRoutes.getLsbD n.index = true)

/-! ### The Post Engine -/

/-- A Consumer Count outside TRANSPARENT: accepted, with the move test after it, when its distance from the consumer count
is at most the occupancy; otherwise counted as one Consumer Count Error and nothing else (R145). -/
def Obligations.ConsumerCountAcceptedOrRefused : Prop :=
  ∀ (d : Word) (s : State), s.part.grantsAtOnce → s.part.csh.mode ≠ .transparent →
    ((d.extractLsb' 0 16 - s.part.pse.consumer).toNat ≤ (s.part.pse.published - s.part.pse.consumer).toNat →
      exec (.consumerCount d) s = .next (s.setPart (moveTest ((wordOut s 8 d).setPse
        { s.part.pse with consumer := d.extractLsb' 0 16 }))))
    ∧ (¬ (d.extractLsb' 0 16 - s.part.pse.consumer).toNat ≤ (s.part.pse.published - s.part.pse.consumer).toNat →
      exec (.consumerCount d) s = .next (s.setPart (increment 535 (wordOut s 8 d))))

/-- A Post Stop and a Post Resume granted as they arrive are taken as they are forwarded (R20). The table of post states, on
every part outside TRANSPARENT, so also where the command waited behind an injected word: Post Stop in RUNNING gives STOPPING
while a publishing word is queued and STOPPED otherwise; Post Resume gives RUNNING and the move test; each entry into STOPPED
sets POST_STOPPED, and Post Resume sets no notice of its own (R146). The command POST_STOPPED_ENTRY enters STOPPED from
STOPPING with no publishing word left, a state that no run reaches, since the step that takes the last one enters STOPPED
(log 13); that it changes nothing outside STOPPING is the model's reading (log 3). -/
def Obligations.PostControlTable : Prop :=
  (∀ (u : BitVec 24) (s : State), s.part.grantsAtOnce →
    exec (.postStop u) s = .next (s.setPart (takeCommand 0x0C (u ++ 1#8) (wordOut s 0xC (u ++ 1#8))))
    ∧ exec (.postResume u) s = .next (s.setPart (takeCommand 0x0C (u ++ 2#8) (wordOut s 0xC (u ++ 2#8)))))
  ∧ (∀ (u : BitVec 24) (p : Part),
    (p.csh.mode = .transparent → takeCommand 0x0C (u ++ 1#8) p = p ∧ takeCommand 0x0C (u ++ 2#8) p = p)
    ∧ (p.csh.mode ≠ .transparent →
      (p.pse.postState = .running → (∃ q ∈ p.ptu.queue, q.publishes = true) →
        takeCommand 0x0C (u ++ 1#8) p = p.setPse { p.pse with postState := .stopping })
      ∧ (p.pse.postState = .running → (∀ q ∈ p.ptu.queue, q.publishes = false) →
        takeCommand 0x0C (u ++ 1#8) p = (p.setPse { p.pse with postState := .stopped }).setNtu ⟨p.ntu.flags ||| 2⟩)
      ∧ (p.pse.postState ≠ .running → takeCommand 0x0C (u ++ 1#8) p = p)
      ∧ (p.pse.postState = .running → takeCommand 0x0C (u ++ 2#8) p = p)
      ∧ (p.pse.postState ≠ .running →
        takeCommand 0x0C (u ++ 2#8) p = moveTest (p.setPse { p.pse with postState := .running }))))
  ∧ ∀ s : State, arbiterQuiet s.part →
    (s.part.pse.postState = .stopping → (∀ q ∈ s.part.ptu.queue, q.publishes = false) →
      exec .postStoppedEntry s = .next (s.setPart ((s.part.setPse
        { s.part.pse with postState := .stopped }).setNtu ⟨s.part.ntu.flags ||| 2⟩)))
    ∧ (s.part.pse.postState ≠ .stopping → exec .postStoppedEntry s = .next s)

/-- The fields of a verdict, each at its bits: the record's identity, its classes by their codes, its withheld and presence
flags, context set and bands; M with its sign, the ratio, and the cylinder's health, alert and turbine flags as the History
Unit holds them; its period; intensity, coverage and clipped count; its engine cycle number; spark angle, load, fuel and
ignition states; its decision time. An absent field reads 0 (R141, 12.4). -/
def Obligations.VerdictFields : Prop :=
  ∀ (d : Decided) (p : Part), d.record.cylinder < 16 → d.speedBand < 8 → d.loadBand < 4 →
    d.record.period.getD 0 < 2 ^ 24 → -32768 ≤ d.record.roughness.getD 0 → d.record.roughness.getD 0 ≤ 32767 →
    d.record.ratio.getD 0 < 256 → d.record.intensity.getD 0 < 2 ^ 16 → d.record.coverage.getD 0 < 256 →
    d.record.clipped.getD 0 < 256 → d.record.load < 512 →
    let v := buildVerdict d p
    [MisfireClass.none, .weak, .misfire, .intended, .unavailable].map MisfireClass.code = [0, 1, 2, 3, 4]
    ∧ [KnockClass.none, .light, .heavy, .skipped, .unavailable, .sensorFault].map KnockClass.code = [0, 1, 2, 3, 4, 5]
    ∧ [Health.healthy, .suspect, .faulted].map Health.code = [0, 1, 2]
    ∧ [FuelState.normal, .enrich, .cut].map FuelState.code = [0, 1, 2]
    ∧ [IgnitionState.normal, .retard, .cut].map IgnitionState.code = [0, 1, 2]
    ∧ field v.w0 0 16 = d.record.seq.toNat ∧ field v.w0 16 4 = d.record.cylinder
    ∧ byteOf v.w0 3 = d.record.cycleTag
    ∧ field v.w1 0 3 = d.misfireClass.code ∧ field v.w1 3 3 = d.knockClass.code
    ∧ v.w1.getLsbD 6 = d.misfireWithheld ∧ v.w1.getLsbD 7 = d.knockWithheld
    ∧ v.w1.extractLsb' 8 6 = d.record.contexts.getD 0
    ∧ field v.w1 14 3 = d.speedBand ∧ field v.w1 17 2 = d.loadBand
    ∧ v.w1.getLsbD 19 = d.record.roughness.isSome ∧ v.w1.getLsbD 20 = d.record.intensity.isSome
    ∧ v.w1.getLsbD 21 = d.record.ratio.isSome
    ∧ (v.w2.extractLsb' 0 16).toInt = d.record.roughness.getD 0 ∧ field v.w2 16 8 = d.record.ratio.getD 0
    ∧ field v.w2 24 2 = (p.cylinderHistory d.record.cylinder).health.code
    ∧ v.w2.getLsbD 26 = (p.cylinderHistory d.record.cylinder).alert ∧ v.w2.getLsbD 27 = p.hsu.exceeded
    ∧ field v.w3 0 24 = d.record.period.getD 0
    ∧ field v.w4 0 16 = d.record.intensity.getD 0 ∧ field v.w4 16 8 = d.record.coverage.getD 0
    ∧ field v.w4 24 8 = d.record.clipped.getD 0
    ∧ v.w5 = d.record.cycleNumber.getD 0
    ∧ byteOf v.w6 0 = d.record.spark ∧ field v.w6 8 9 = d.record.load ∧ field v.w6 17 2 = d.record.fuel.code
    ∧ field v.w6 19 2 = d.record.ignition.code
    ∧ v.w7 = d.decisionTime

/-- A verdict offered: appended to a Post Queue of fewer than 16, with the move test after it, or dropped, counted and
noticed (R142). -/
def Obligations.VerdictOfferedOrDropped : Prop :=
  ∀ (v : Verdict) (p : Part),
    (p.pse.postQueue.length < 16 →
      offerVerdict v p = moveTest (p.setPse { p.pse with postQueue := p.pse.postQueue ++ [v] }))
    ∧ (p.pse.postQueue.length = 16 →
      (offerVerdict v p).pse = p.pse ∧ (offerVerdict v p).ptu = p.ptu
      ∧ (offerVerdict v p).stb = (increment 533 p).stb
      ∧ (offerVerdict v p).noticeSet .verdictDropped = true)

/-- The move test moves nothing when a condition fails; when all hold it appends the oldest verdict's eight words, word 0
first, at their ring addresses, every word publishing and word 7 alone the record end, and counts it assigned; and it
repeats the move until a condition fails or no verdict is left (R143). -/
def Obligations.MoveTestFillsTheRing : Prop :=
  (∀ p : Part, (p.pse.postState ≠ .running ∨ 32 < p.ptu.queue.length + 8
      ∨ p.cfg.ringSize ≤ (p.pse.assigned - p.pse.consumer).toNat ∨ p.pse.postQueue = []) → moveTest p = p)
  ∧ (∀ (p : Part) (v : Verdict) (rest : List Verdict), p.pse.postQueue = v :: rest → p.pse.postState = .running →
      p.ptu.queue.length + 8 ≤ 32 → (p.pse.assigned - p.pse.consumer).toNat < p.cfg.ringSize →
      moveTest p = moveTest ((p.setQueue (p.ptu.queue ++ v.words.mapIdx fun w x =>
          ⟨BitVec.ofNat 24 (p.cfg.ringBase + p.pse.assigned.toNat % p.cfg.ringSize * 32 + w * 4), x, true,
            decide (w = 7), p.partTime⟩)).setPse
        { p.pse with postQueue := rest, assigned := p.pse.assigned + 1 }))
  ∧ ∀ p : Part, canMove (moveTest p) = false ∨ (moveTest p).pse.postQueue = []

/-! ### The Statistics Banks -/

/-- Outside TRANSPARENT: Snapshot copies all 538 live counters and increments the snapshot generation (R135); Clear sets
every live counter to 0 (R136); Snapshot-and-Clear does both in one action (R137). Each leaves everything else. -/
def Obligations.StatisticsCommands : Prop :=
  ∀ (u : BitVec 24) (s : State), s.part.grantsAtOnce → s.part.csh.mode ≠ .transparent →
    exec (.snapshot u) s = .next (s.setPart ((wordOut s 0x10 (u ++ 1#8)).setStb
      { live := s.part.stb.live, snapshot := s.part.stb.live, generation := s.part.stb.generation + 1 }))
    ∧ exec (.clear u) s = .next (s.setPart ((wordOut s 0x10 (u ++ 2#8)).setStb
      { live := Vector.replicate 538 0, snapshot := s.part.stb.snapshot, generation := s.part.stb.generation }))
    ∧ exec (.snapshotAndClear u) s = .next (s.setPart ((wordOut s 0x10 (u ++ 3#8)).setStb
      { live := Vector.replicate 538 0, snapshot := s.part.stb.live, generation := s.part.stb.generation + 1 }))

/-- One increment: one more unless saturated, COUNTER_HALF on reaching 2^31 and at no other value, and no other counter
and no other block changes (R132). -/
def Obligations.IncrementSaturatesAndNoticesHalf : Prop :=
  ∀ (k : Nat) (p : Part), k < 538 →
    ((increment k p).liveCounter k).toNat = min (2 ^ 32 - 1) ((p.liveCounter k).toNat + 1)
    ∧ (∀ j, j ≠ k → (increment k p).liveCounter j = p.liveCounter j)
    ∧ (increment k p).ntu = (if (p.liveCounter k).toNat = 2 ^ 31 - 1 then setNotice .counterHalf p else p).ntu
    ∧ increment k p = (p.setStb (increment k p).stb).setNtu (increment k p).ntu
    ∧ (increment k p).stb.snapshot = p.stb.snapshot ∧ (increment k p).stb.generation = p.stb.generation

/-- No live counter falls in any command but a Clear, a Snapshot-and-Clear or a power-on reset (R132). The premise that
no cycle is held leaves out the step that releases an earlier Clear. -/
def Obligations.LiveCountersNeverFall : Prop :=
  ∀ (c : Instr) (s t : State), s.part.ptu.held = none → ¬ mayClear s.part.ptu.strap c → exec c s = .next t →
    ∀ k, (s.part.liveCounter k).toNat ≤ (t.part.liveCounter k).toNat

/-! ### The History Unit -/

/-- Cylinder Release outside TRANSPARENT: each cylinder of the mask is emptied, its run 0, HEALTHY and its alert clear;
every other cylinder, the Turbine Rate Block and every other block stay (R126). -/
def Obligations.CylinderReleaseByMask : Prop :=
  ∀ (d : Word) (s : State), s.part.grantsAtOnce → s.part.csh.mode ≠ .transparent →
    ∃ h, exec (.cylinderRelease d) s = .next (s.setPart ((wordOut s 0x14 d).setHsu { s.part.hsu with cylinders := h }))
      ∧ ∀ c, 1 ≤ c → c ≤ 8 → Table.readCyl h c .reset =
          if d.getLsbD (c - 1) = true then ⟨[], 0, .healthy, false⟩ else s.part.cylinderHistory c

/-- The two outcomes of a decided record, and no entry when both are absent (R119); an appended entry is the ring's newest,
with the oldest leaving a ring that then holds 17 (R120); the misfire run (R121); the health step (R122); the knock
alert (R124). The handling of a decided record makes each of these steps for its cylinder and no other, with the
misfires and the HEAVY knocks of the ring counted; it sets CYL_FAULT, CYL_SUSPECT and KNOCK_ALERT as the states are entered,
counts a MISFIRE in the Turbine Rate Block, and changes nothing else (R118, R122, R124, R125, R128). -/
def Obligations.HistoryEntrySteps : Prop :=
  (∀ (d : Decided) (p : Part),
    (misfireOutcome d = if (d.misfireClass = .none ∨ d.misfireClass = .weak ∨ d.misfireClass = .misfire)
        ∧ d.misfireWithheld = false then some d.misfireClass else none)
    ∧ (knockOutcome d = if (d.knockClass = .none ∨ d.knockClass = .light ∨ d.knockClass = .heavy)
        ∧ d.knockWithheld = false then some d.knockClass else none)
    ∧ (misfireOutcome d = none → knockOutcome d = none → historyTake d p = p))
  ∧ (∀ (ring : List HistoryEntry) (e : HistoryEntry), ring.length < 16 → appendEntry ring e = ring ++ [e])
  ∧ (∀ (x : HistoryEntry) (ring : List HistoryEntry) (e : HistoryEntry), ring.length = 15 →
      appendEntry (x :: ring) e = ring ++ [e])
  ∧ (∀ run, nextRun run (some .misfire) = min 255 (run + 1) ∧ nextRun run (some .none) = 0
      ∧ nextRun run (some .weak) = 0 ∧ nextRun run none = run)
  ∧ (∀ (g : Settings) (count run : Nat), healthStep g .faulted count run = .faulted)
  ∧ (∀ (g : Settings) (h : Health) (count run : Nat), h ≠ .faulted →
      (g.faultCount ≤ count ∨ g.faultRun ≤ run → healthStep g h count run = .faulted)
      ∧ (¬ (g.faultCount ≤ count ∨ g.faultRun ≤ run) →
          (h = .healthy → healthStep g h count run = if g.suspectCount ≤ count then .suspect else .healthy)
          ∧ (h = .suspect → healthStep g h count run = if count ≤ g.clearCount then .healthy else .suspect)))
  ∧ (∀ (g : Settings) (heavy : Nat),
      alertStep g false heavy = decide (g.alertCount ≤ heavy) ∧ alertStep g true heavy = decide (1 ≤ heavy))
  ∧ ∀ (d : Decided) (p : Part), (misfireOutcome d ≠ none ∨ knockOutcome d ≠ none) →
      1 ≤ d.record.cylinder → d.record.cylinder ≤ 8 →
      let h := p.cylinderHistory d.record.cylinder
      let ring := appendEntry h.ring ⟨misfireOutcome d, knockOutcome d⟩
      let run := nextRun h.run (misfireOutcome d)
      let health := healthStep p.cfg h.health (ring.filter fun e => decide (e.misfire = some .misfire)).length run
      let alert := alertStep p.cfg h.alert (ring.filter fun e => decide (e.knock = some .heavy)).length
      let q := historyTake d p
      q = (p.setHsu q.hsu).setNtu q.ntu
      ∧ q.cylinderHistory d.record.cylinder = ⟨ring, run, health, alert⟩
      ∧ (∀ c, 1 ≤ c → c ≠ d.record.cylinder → q.cylinderHistory c = p.cylinderHistory c)
      ∧ q.hsu.blockMisfires = (if misfireOutcome d = some .misfire then min 65535 (p.hsu.blockMisfires + 1)
          else p.hsu.blockMisfires)
      ∧ q.hsu.blockCycles = p.hsu.blockCycles ∧ q.hsu.exceeded = p.hsu.exceeded
      ∧ (q.noticeSet .cylFault = true ↔ p.noticeSet .cylFault = true ∨ h.health ≠ .faulted ∧ health = .faulted)
      ∧ (q.noticeSet .cylSuspect = true ↔ p.noticeSet .cylSuspect = true ∨ h.health = .healthy ∧ health = .suspect)
      ∧ (q.noticeSet .knockAlert = true ↔ p.noticeSet .knockAlert = true ∨ h.alert = false ∧ alert = true)
      ∧ ∀ n, n ≠ .cylFault → n ≠ .cylSuspect → n ≠ .knockAlert → q.noticeSet n = p.noticeSet n

/-! ### The Angle Tracker -/

/-- The first tooth in STOPPED is taken whatever its timestamp and its cam flag: the timestamp is held, the stall timer
starts, the tracker is SEEKING, one Teeth Taken is counted, and nothing else changes (R32, R35). In any other state a
tooth that is not later than the last is ignored (R32). -/
def Obligations.FirstToothIsTakenAndOldToothIgnored : Prop :=
  ∀ (a : Addr) (d : Word) (s : State), tapped .tooth a s →
    (s.part.atk.sync = .stopped →
      exec (.toothEntry a d) s = .next (s.setPart (increment 512 ((tapOut s a d).setAtk { s.part.atk with
        lastTooth := some (d.extractLsb' 0 24), stallStart := some s.part.partTime, sync := .seeking }))))
    ∧ ∀ last, s.part.atk.sync ≠ .stopped → s.part.atk.lastTooth = some last →
        (d.extractLsb' 0 24 - last = 0 ∨ 2 ^ 23 ≤ (d.extractLsb' 0 24 - last).toNat) →
        exec (.toothEntry a d) s = .next (s.setPart (tapOut s a d))

/-- The table of SEEKING: what a taken tooth does to the reference gap, by the gap test; the confirming gap tooth gives
HALF_SYNC at position 0, and with a cam marker SYNCED on the same tooth, the revolution half at CamHalf and the resync count
set (R32, R34, R36, R38, R110). -/
def Obligations.SeekingToothTable : Prop :=
  ∀ (a : Addr) (d : Word) (last : Stamp) (s : State), tapped .tooth a s → s.part.atk.sync = .seeking →
    s.part.atk.lastTooth = some last → 0 < (d.extractLsb' 0 24 - last).toNat →
    (d.extractLsb' 0 24 - last).toNat < 2 ^ 23 →
    let i := (d.extractLsb' 0 24 - last).toNat
    let k := toothTaken s.part (d.extractLsb' 0 24) i
    let answer := fun x : Tracker => exec (.toothEntry a d) s
      = .next (s.setPart ((increment 512 (tapOut s a d)).setAtk x))
    (¬ gapTooth s.part i → s.part.atk.refGap = none → answer k)
    ∧ (∀ n, ¬ gapTooth s.part i → s.part.atk.refGap = some n → answer { k with refGap := some (min 255 (n + 1)) })
    ∧ (gapTooth s.part i → s.part.atk.refGap = none → answer { k with refGap := some 0 })
    ∧ (∀ n, gapTooth s.part i → s.part.atk.refGap = some n → min 255 (n + 1) ≠ s.part.cfg.teeth - s.part.cfg.missing →
        answer { k with refGap := some 0 })
    ∧ (∀ n, gapTooth s.part i → s.part.atk.refGap = some n → min 255 (n + 1) = s.part.cfg.teeth - s.part.cfg.missing →
        (d.getLsbD 24 = false → answer { k with sync := .halfSync, revPos := 0, refGap := none })
        ∧ (d.getLsbD 24 = true →
          exec (.toothEntry a d) s = .next (s.setPart (((increment 512 (tapOut s a d)).setAtk { k with
            sync := .synced, revPos := 0, refGap := none, revHalf := decide (s.part.cfg.camHalf = 1)
            boundarySeen := false, segAcc := none, cycAcc := none }).setCxu { s.part.cxu with resyncCount := 2 }))))

/-- In HALF_SYNC a tooth that survives the revolution check, a plain tooth before the last position or the gap tooth expected
after it, advances the revolution position, to 0 at the gap tooth; with a cam marker it also fixes the revolution half at
CamHalf, gives SYNCED and sets the resync count (R32, R37, R38, R110). -/
def Obligations.HalfSyncToothAdvancesOrSyncs : Prop :=
  ∀ (a : Addr) (d : Word) (last : Stamp) (pos : Nat) (s : State), tapped .tooth a s → s.part.atk.sync = .halfSync →
    s.part.atk.lastTooth = some last → 0 < (d.extractLsb' 0 24 - last).toNat →
    (d.extractLsb' 0 24 - last).toNat < 2 ^ 23 →
    let i := (d.extractLsb' 0 24 - last).toNat
    (¬ gapTooth s.part i ∧ s.part.atk.revPos < s.part.cfg.teeth - s.part.cfg.missing - 1 ∧ pos = s.part.atk.revPos + 1
      ∨ gapTooth s.part i ∧ s.part.atk.revPos = s.part.cfg.teeth - s.part.cfg.missing - 1 ∧ pos = 0) →
    let k := { toothTaken s.part (d.extractLsb' 0 24) i with revPos := pos }
    (d.getLsbD 24 = false →
      exec (.toothEntry a d) s = .next (s.setPart ((increment 512 (tapOut s a d)).setAtk k)))
    ∧ (d.getLsbD 24 = true →
      exec (.toothEntry a d) s = .next (s.setPart (((increment 512 (tapOut s a d)).setAtk { k with
        sync := .synced, revHalf := decide (s.part.cfg.camHalf = 1), boundarySeen := false
        segAcc := none, cycAcc := none }).setCxu { s.part.cxu with resyncCount := 2 })))

/-- An early gap or a missing gap in HALF_SYNC or SYNCED gives a sync loss GAP: SEEKING, with this tooth as the reference gap
after an early gap and none after a missing one, the reason set, the loss counted, and the responses of the other blocks to
the loss (R37, R41, R68, R83, R113, R128). With a Pending Copy the loss is the one that puts it into effect (R26). -/
def Obligations.EarlyOrMissingGapLosesSync : Prop :=
  ∀ (a : Addr) (d : Word) (last : Stamp) (ref : Option Nat) (s : State), tapped .tooth a s →
    (s.part.atk.sync = .halfSync ∨ s.part.atk.sync = .synced) →
    s.part.atk.lastTooth = some last → 0 < (d.extractLsb' 0 24 - last).toNat →
    (d.extractLsb' 0 24 - last).toNat < 2 ^ 23 →
    let i := (d.extractLsb' 0 24 - last).toNat
    (gapTooth s.part i ∧ s.part.atk.revPos < s.part.cfg.teeth - s.part.cfg.missing - 1 ∧ ref = some 0
      ∨ ¬ gapTooth s.part i ∧ s.part.atk.revPos = s.part.cfg.teeth - s.part.cfg.missing - 1 ∧ ref = none) →
    let p := (increment 512 (tapOut s a d)).setAtk { toothTaken s.part (d.extractLsb' 0 24) i with refGap := ref }
    exec (.toothEntry a d) s = .next (s.setPart (syncLoss .gap p))
    ∧ (s.part.csh.pendingCopy = none → lossTaken .gap p (syncLoss .gap p))

/-- In SYNCED a tooth that survives the revolution check advances the cycle position, the half changing at the expected
gap tooth, and adds its interval to both accumulators. Without a cam marker, or with one in the revolution of CamHalf,
it goes on to the angle events of its position (R32, R37, R39, R45, R46, R47). With a marker in the other revolution it
gives a sync loss CAM: HALF_SYNC with the revolution position kept, no angle event, the loss counted, and the responses
of the other blocks to the loss (R39, R41, R68, R83, R113, R128). With a Pending Copy the loss is the one that puts it
into effect (R26). -/
def Obligations.SyncedToothTable : Prop :=
  ∀ (a : Addr) (d : Word) (last : Stamp) (pos : Nat) (half : Bool) (s : State), tapped .tooth a s →
    s.part.atk.sync = .synced → s.part.atk.lastTooth = some last → 0 < (d.extractLsb' 0 24 - last).toNat →
    (d.extractLsb' 0 24 - last).toNat < 2 ^ 23 →
    let i := (d.extractLsb' 0 24 - last).toNat
    (¬ gapTooth s.part i ∧ s.part.atk.revPos < s.part.cfg.teeth - s.part.cfg.missing - 1 ∧ pos = s.part.atk.revPos + 1
        ∧ half = s.part.atk.revHalf
      ∨ gapTooth s.part i ∧ s.part.atk.revPos = s.part.cfg.teeth - s.part.cfg.missing - 1 ∧ pos = 0
        ∧ half = !s.part.atk.revHalf) →
    let k := { syncedTooth s.part (d.extractLsb' 0 24) i with revPos := pos, revHalf := half }
    ((d.getLsbD 24 = false ∨ half = decide (s.part.cfg.camHalf = 1)) →
      exec (.toothEntry a d) s
        = .next (s.setPart (emitEvents (d.extractLsb' 0 24) ((increment 512 (tapOut s a d)).setAtk k))))
    ∧ (d.getLsbD 24 = true → half ≠ decide (s.part.cfg.camHalf = 1) →
      let p := (increment 512 (tapOut s a d)).setAtk k
      exec (.toothEntry a d) s = .next (s.setPart (syncLoss .cam p))
      ∧ (s.part.csh.pendingCopy = none → lossTaken .cam p (syncLoss .cam p)))

/-- The angle events of a tooth's cycle position, with no Pending Copy and a firing order over the cylinders 1..N: none at a
position that is no segment start and no window edge; elsewhere the knock closes, then at the segment start of a cylinder
its segment boundary, after the cycle boundary when that cylinder is first in the firing order, then the knock opens. Knock
edges are emitted only while the boundary-since-sync flag is set, which the segment boundary sets (R43, R44, R45). -/
def Obligations.AngleEventsInTheirOrder : Prop :=
  ∀ (t : Stamp) (p : Part), p.csh.pendingCopy = none → (∀ c ∈ p.cfg.order, 1 ≤ c ∧ c ≤ p.cfg.cylinders) →
    let g := p.cfg
    let q := (if p.atk.revHalf then g.teeth else 0) + p.atk.revPos
    let start := fun c => (Table.readCyl g.tdc c 0 + g.segOffset) % (2 * g.teeth)
    let edges := fun (at' : Vector Nat 8) => (List.range' 1 g.cylinders).filter fun c => Table.readCyl at' c 0 == q
    let closes := (edges g.knockClose).foldl (fun p c => knockCloseEdge c t p)
    let opens := (edges g.knockOpen).foldl (fun p c => knockOpenEdge c t p)
    let closed := if p.atk.boundarySeen then closes p else p
    ((∀ c, 1 ≤ c → c ≤ g.cylinders → start c ≠ q) →
      emitEvents t p = if p.atk.boundarySeen then opens closed else p)
    ∧ (∀ c, 1 ≤ c → c ≤ g.cylinders → start c = q →
        (∀ x, 1 ≤ x → x ≤ g.cylinders → start x = q → x = c) →
        (g.order.head? = some c → emitEvents t p = opens (segmentBoundary c t (cycleBoundary closed)))
        ∧ (g.order.head? ≠ some c → emitEvents t p = opens (segmentBoundary c t closed)))

/-- What the events of a segment do. The segment boundary carries its fields to the FLC and to the Segment Analyser,
whose open segment it becomes; that the FLC takes it first is the model's choice, since the two may take it in either
order (R45, R76; log 14); the accumulator starts at 0, the period it held is the last period, the boundary flag is set
(R46, R73). In the FLC the MEASURING record of the ending cylinder takes the period and is SETTLING, its misfire half
final when it has no previous neighbour, and, when no record is ready by that, nothing is decided; then the first
PLANNED record of the starting cylinder is bound and MEASURING (R59). A knock open sets the open time of the cylinder's
MEASURING record; a knock close sets its close time, and gives SKIPPED for a cut firing; otherwise the evaluation at
once, when a closed frame of its sensor reaches the close time, or else a pending evaluation last in the Knock Wait
List. Without a MEASURING record an edge does nothing (R60, R63, R91). -/
def Obligations.SegmentBoundaryAndKnockEdges : Prop :=
  (∀ (c : Nat) (t : Stamp) (p : Part),
    let b : SegmentBoundary :=
      ⟨c, if p.atk.boundarySeen then p.cfg.before c else none, t, p.atk.engineCycle, p.atk.segAcc⟩
    let k := { p.atk with
      lastPeriod := if p.atk.segAcc.isSome then p.atk.segAcc else p.atk.lastPeriod
      segAcc := some 0, boundarySeen := true }
    segmentBoundary c t p = analyseBoundary b (segmentStart b
        (match b.ending, b.period with
          | some e, some n => segmentEnd e n (p.setAtk k)
          | _, _ => p.setAtk k))
    ∧ (segmentBoundary c t p).atk = k ∧ (segmentBoundary c t p).sga.openSegment = some (c, p.atk.engineCycle))
  ∧ (∀ (e n : Nat) (p : Part),
    ((∀ x ∈ p.records, ¬ (x.2.cylinder = e ∧ x.2.state = .measuring)) → segmentEnd e n p = p)
    ∧ ∀ i r, firstRecord p (fun r => r.cylinder = e ∧ r.state = .measuring) i r → (∀ x ∈ p.records, x.2.ready = false) →
        (r.knock = none ∨ r.hasNeighbour = true ∧ r.misfire = none) →
        segmentEnd e n p = p.setFlc { p.flc with slots := Table.write p.flc.slots i (some { r with
          period := some n, state := .settling
          misfire := if r.hasNeighbour then r.misfire
            else some (if r.fuel = .cut ∨ r.ignition = .cut then .intended else .unavailable) }) })
  ∧ (∀ (b : SegmentBoundary) (p : Part),
    ((∀ x ∈ p.records, ¬ (x.2.cylinder = b.starting ∧ x.2.state = .planned)) → segmentStart b p = p)
    ∧ (∀ c : Ctx, p.cxu.table.activeSet.getLsbD c.index = true ↔ (p.cxu.table.get c).state ≠ .idle)
    ∧ ∀ i r, firstRecord p (fun r => r.cylinder = b.starting ∧ r.state = .planned) i r →
        segmentStart b p = p.setFlc { p.flc with slots := Table.write p.flc.slots i (some { r with
          cycleNumber := some b.cycleNumber, hasNeighbour := b.period.isSome
          contexts := some p.cxu.table.activeSet, state := .measuring }) })
  ∧ ∀ (c : Nat) (t : Stamp) (p : Part),
    ((∀ x ∈ p.records, ¬ (x.2.cylinder = c ∧ x.2.state = .measuring)) →
      knockOpenEdge c t p = p ∧ knockCloseEdge c t p = p)
    ∧ ∀ i r, firstRecord p (fun r => r.cylinder = c ∧ r.state = .measuring) i r →
      knockOpenEdge c t p
        = p.setFlc { p.flc with slots := Table.write p.flc.slots i (some { r with openTime := some t }) }
      ∧ ((r.fuel = .cut ∨ r.ignition = .cut) → r.knock = none →
          knockCloseEdge c t p = p.setFlc { p.flc with slots := Table.write p.flc.slots i (some { r with
            closeTime := some t, knock := some .skipped, intensity := none, coverage := some 0, clipped := some 0
            ratio := none }) })
      ∧ ∀ o, ¬ (r.fuel = .cut ∨ r.ignition = .cut) → r.openTime = some o →
          let sensor := Table.readCyl p.cfg.sensorMap c 0
          let e : PendingEval := ⟨i, r.seq, c, sensor, o, t, p.partTime⟩
          let fixed := p.setFlc { p.flc with
            slots := Table.write p.flc.slots i (some { r with closeTime := some t }) }
          let reached := ∃ f ∈ p.kna.frames, f.sensor = sensor ∧ f.state ≠ .filling
            ∧ isLater t (f.start + BitVec.ofNat 24 (f.samples.length * p.cfg.samplePeriod)) = false
          (reached → knockCloseEdge c t p = evaluate e fixed)
          ∧ (¬ reached → knockCloseEdge c t p = fixed.setKna { p.kna with waitList := p.kna.waitList ++ [e] })

/-- A stall that is due: in SEEKING the tracker stops, one Stall is counted and nothing else changes; in HALF_SYNC and
SYNCED one Stall is counted and a sync loss STALL is made, with the tracker STOPPED and the responses of the other blocks
(R41, R68, R83, R113, R128), after which the arbiter decides. With a Pending Copy the loss is the one that puts it into
effect (R26). A stall that is not due changes nothing (R40, R41; log 3). -/
def Obligations.StallStopsTheTracker : Prop :=
  ∀ (g : Settings) (start : Micros) (s : State), arbiterQuiet s.part → s.part.csh.active = some g →
    s.part.atk.stallStart = some start →
    let off := { s.part.atk with
      sync := .stopped, lastTooth := none, lastInterval := none, refGap := none, boundarySeen := false
      segAcc := none, cycAcc := none, lastPeriod := none, stallStart := none }
    (s.part.atk.sync = .seeking → g.stallTime * 1000 ≤ (s.part.partTime - start).toNat →
      exec .stall s = .next (s.setPart ((increment 516 s.part).setAtk off)))
    ∧ (s.part.atk.sync = .halfSync ∨ s.part.atk.sync = .synced →
        g.stallTime * 1000 ≤ (s.part.partTime - start).toNat →
        let p := increment 516 s.part
        exec .stall s = .next (s.setPart (arbitrate (syncLoss .stall p)))
        ∧ (s.part.csh.pendingCopy = none → lossTaken .stall p (syncLoss .stall p)))
    ∧ ((s.part.partTime - start).toNat < g.stallTime * 1000 → exec .stall s = .next s)

/-- A cycle boundary, with no boundary input held and with no expiry due under a Pending Copy: the engine cycle counter rises
by one, the cycle accumulator starts at 0, one Cycles Synced is counted; the cycle result goes to the Context Unit, which
makes its cycle evaluation; the roughness list is empty and the ended cycle's speed is the previous speed (R47, R82, R107).
The Turbine Rate Block advances, and what it and a Pending Copy's report set is all that the notices gain beside COUNTER_HALF
(R26, R127, R132). The advance counts the boundary; a complete block sets or clears the exceeded flag, sets TURBINE_RATE when
it is exceeded, and starts from 0, under the Pending Copy when one is present (R127). -/
def Obligations.CycleBoundaryStartsACycle : Prop :=
  (∀ p : Part, (∀ c, p.csh.pendingCopy = some c → noWaitDue c.settings p ∧ noStallDue c.settings p) →
    p.cxu.heldInput = none →
    let b := cycleBoundary p
    let speed := p.atk.cycAcc.map fun n => min 65535 (120000000000 / (n * (governs p).tickNs))
    let evaluated := evaluateCycle (governs p) ⟨p.sga.roughness, speed, p.sga.prevSpeed⟩ p
    let q := match p.csh.pendingCopy with
      | some c => pendingInForce c p
      | none => p
    b.atk = { p.atk with engineCycle := p.atk.engineCycle + 1, cycAcc := some 0 }
    ∧ b.stb = (increment 513 p).stb
    ∧ b.cxu = evaluated.cxu ∧ b.flc = evaluated.flc
    ∧ b.sga = { p.sga with roughness := [], prevSpeed := speed }
    ∧ b.hsu = (turbineBoundary p).hsu
    ∧ b.ntu = (turbineBoundary (increment 513 q)).ntu
    ∧ b.csh = q.csh ∧ b.kna = p.kna ∧ b.partTime = p.partTime
    ∧ (p.csh.pendingCopy = none → b.ptu = p.ptu ∧ b.pse = p.pse)
    ∧ (p.csh.pendingCopy ≠ none → b.ptu = (moveTest q).ptu ∧ b.pse = (moveTest q).pse))
  ∧ ∀ p : Part,
    (p.hsu.blockCycles + 1 < (governs p).blockCycles →
      turbineBoundary p = p.setHsu { p.hsu with blockCycles := p.hsu.blockCycles + 1 })
    ∧ ((governs p).blockCycles ≤ p.hsu.blockCycles + 1 → (governs p).turbineLimit ≤ p.hsu.blockMisfires →
      turbineBoundary p = (p.setHsu { p.hsu with blockCycles := 0, blockMisfires := 0, exceeded := true }).setNtu
        ⟨p.ntu.flags ||| 0x40⟩)
    ∧ ((governs p).blockCycles ≤ p.hsu.blockCycles + 1 → ¬ (governs p).turbineLimit ≤ p.hsu.blockMisfires →
      turbineBoundary p = p.setHsu { p.hsu with blockCycles := 0, blockMisfires := 0, exceeded := false })

/-- Engine speed, cycle mean speed and speed band (R50). -/
def Obligations.EngineSpeedAndBand : Prop :=
  ∀ (g : Settings) (period : Nat),
    g.segmentRpm period = min 65535 (120000000000 / (g.cylinders * period * g.tickNs))
    ∧ g.cycleRpm period = min 65535 (120000000000 / (period * g.tickNs))
    ∧ g.speedBand period = (g.speedBounds.toList.filter fun b => decide (b ≤ g.segmentRpm period)).length
    ∧ g.speedBand period ≤ 7

/-! ### The Open Firing List -/

/-- A schedule first word and a knock timestamp word each load their Entry Latch with the word and its address, whatever
the latch held, and change nothing else (R8, R9). A commit that finds the latch empty, or holding the word of another entry,
is a refusal ORDER: counted and noticed, the latch emptied, nothing else changed (R8, R55). That an address that is not a
multiple of 4 stands for the word that holds it is the model's choice (log 7). -/
def Obligations.EntryLatchesAndOrderRefusal : Prop :=
  ∀ (a : Addr) (d : Word) (s : State),
    (tapped .schedule a s → (wordAddress a - s.part.cfg.scheduleBase) % 8 = 0 →
      exec (.scheduleFirstWord a d) s = .next (s.setPart ((tapOut s a d).setPtu
        { (tapOut s a d).ptu with scheduleLatch := some ⟨wordAddress a, d⟩ })))
    ∧ (tapped .knock a s → wordAddress a = s.part.cfg.knockBase →
      exec (.knockHeaderTimestamp a d) s = .next (s.setPart ((tapOut s a d).setPtu
        { (tapOut s a d).ptu with knockLatch := some ⟨wordAddress a, d⟩ })))
    ∧ (tapped .schedule a s → (wordAddress a - s.part.cfg.scheduleBase) % 8 ≠ 0 →
      (∀ x, s.part.ptu.scheduleLatch = some x → x.address + 4 ≠ wordAddress a) →
      exec (.scheduleCommit a d) s = .next (s.setPart (setNotice .scheduleRefused (increment 520
        ((tapOut s a d).setPtu { (tapOut s a d).ptu with scheduleLatch := none })))))

/-- A commit whose entry passes every check is taken, whatever its ALS and LAUNCH flags. With no record of its cylinder and
tag it opens one in the lowest FREE slot: last in the taking order, with the next sequence number and the entry's fields,
PLANNED; the cylinder's count rises; Schedules Taken is counted (R8, R54, R55, R56). With such a record PLANNED it revises
it: spark, fuel, ignition, load and flags are the entry's, and its slot, number, taken time and place stay; Schedules Taken
and Revisions are counted (R57, R58). Either way the Context Unit takes the flags and the load, a context so entered joins
the MEASURING record's set, and every other slot and block is kept (R58, R61, R105, R106). That an address that is not a
multiple of 4 stands for the word that holds it is the model's choice (log 7). -/
def Obligations.CommitOpensOrRevisesARecord : Prop :=
  ∀ (a : Addr) (w d : Word) (f : FuelState) (g : IgnitionState) (i : Nat) (s : State),
    tapped .schedule a s → (wordAddress a - s.part.cfg.scheduleBase) % 8 ≠ 0 →
    s.part.ptu.scheduleLatch = some ⟨wordAddress a - 4, w⟩ → 4 ≤ wordAddress a →
    entryCheckOk ⟨w, d⟩ = true → entryFuel ⟨w, d⟩ = some f → entryIgnition ⟨w, d⟩ = some g →
    1 ≤ field w 0 8 → field w 0 8 ≤ s.part.cfg.cylinders → field d 0 16 ≤ 511 →
    let named := fun r : Record => r.cylinder = field w 0 8 ∧ r.cycleTag = byteOf w 1
    let taken := fun t : State => causesTaken d s.part t.part.cxu ∧ otherSlotsAfterEntry i d s t
      ∧ t.part.ptu = { (tapOut s a d).ptu with scheduleLatch := none }
      ∧ t.part.csh = s.part.csh ∧ t.part.atk = s.part.atk ∧ t.part.sga = s.part.sga ∧ t.part.kna = s.part.kna
      ∧ t.part.hsu = s.part.hsu ∧ t.part.pse = s.part.pse ∧ t.part.partTime = s.part.partTime ∧ t.sram = s.sram
    ((∀ x ∈ s.part.records, ¬ named x.2) →
      (s.part.recordCount (field w 0 8) < s.part.cfg.allotment
        ∨ s.part.flc.reserveInUse < 24 - s.part.cfg.cylinders * s.part.cfg.allotment) →
      i < 24 → s.part.slot i = none → (∀ j, j < i → s.part.slot j ≠ none) →
      ∃ t, exec (.scheduleCommit a d) s = .next t ∧ taken t
        ∧ t.part.slot i = some
            { seq := s.part.flc.nextSeq, cylinder := field w 0 8, cycleTag := byteOf w 1, spark := byteOf w 2, fuel := f
              ignition := g, load := field d 0 16, als := d.getLsbD 18, launch := d.getLsbD 19
              takenTime := s.part.partTime, state := .planned, cycleNumber := none, hasNeighbour := false, period := none
              openTime := none, closeTime := none, contexts := none, misfire := none, roughness := none, knock := none
              intensity := none, coverage := none, clipped := none, ratio := none }
        ∧ t.part.flc.order = s.part.flc.order ++ [i] ∧ t.part.flc.nextSeq = s.part.flc.nextSeq + 1
        ∧ t.part.flc.counts = Table.writeCyl s.part.flc.counts (field w 0 8) (s.part.recordCount (field w 0 8) + 1)
        ∧ t.part.flc.reserveInUse
            = (t.part.flc.counts.toList.map fun k => k - min k s.part.cfg.allotment).sum
        ∧ t.part.stb = (increment 517 s.part).stb)
    ∧ (∀ r, firstRecord s.part named i r → r.state = .planned →
      ∃ t, exec (.scheduleCommit a d) s = .next t ∧ taken t
        ∧ t.part.slot i = some { r with
            spark := byteOf w 2, fuel := f, ignition := g, load := field d 0 16, als := d.getLsbD 18
            launch := d.getLsbD 19 }
        ∧ t.part.flc.order = s.part.flc.order ∧ t.part.flc.nextSeq = s.part.flc.nextSeq
        ∧ t.part.flc.counts = s.part.flc.counts ∧ t.part.flc.reserveInUse = s.part.flc.reserveInUse
        ∧ t.part.stb = (increment 518 (increment 517 s.part)).stb)

/-- The order of the checks of a committed entry: the first that fails gives the refusal (R55). A commit that is refused
counts one of its own counter and sets SCHEDULE_REFUSED; its latch is emptied; the Open Firing List, the Context Unit and
every other block are kept (R8, R55). That an address that is not a multiple of 4 stands for the word that holds it is the
model's choice (log 7). -/
def Obligations.EntryChecksInOrder : Prop :=
  (∀ (a : Addr) (w d : Word) (x : EntryRefusal) (s : State), tapped .schedule a s →
    (wordAddress a - s.part.cfg.scheduleBase) % 8 ≠ 0 → s.part.ptu.scheduleLatch = some ⟨wordAddress a - 4, w⟩ →
    4 ≤ wordAddress a → entryRefusal ⟨w, d⟩ s.part = some x →
    ∃ k, (x = .check ∧ k = 519 ∨ x = .range ∧ k = 521 ∨ x = .late ∧ k = 522 ∨ x = .noSlot ∧ k = 523)
      ∧ exec (.scheduleCommit a d) s = .next (s.setPart (setNotice .scheduleRefused (increment k
          ((tapOut s a d).setPtu { (tapOut s a d).ptu with scheduleLatch := none })))))
  ∧ ∀ (e : ScheduleEntry) (p : Part),
    (checkByte (entryBytes e) ≠ byteOf e.commit 3 → entryRefusal e p = some .check)
    ∧ (checkByte (entryBytes e) = byteOf e.commit 3 →
        (entryCylinder e < 1 ∨ p.cfg.cylinders < entryCylinder e ∨ entryFuel e = none ∨ entryIgnition e = none
          ∨ 511 < entryLoad e) → entryRefusal e p = some .range)
    ∧ (checkByte (entryBytes e) = byteOf e.commit 3 → entryInRange p.cfg e = true →
        (∀ i r, p.matching e = some (i, r) → r.state ≠ .planned → entryRefusal e p = some .late)
        ∧ (∀ i r, p.matching e = some (i, r) → r.state = .planned → entryRefusal e p = none)
        ∧ (p.matching e = none → p.recordCount (entryCylinder e) < p.cfg.allotment → entryRefusal e p = none)
        ∧ (p.matching e = none → ¬ p.recordCount (entryCylinder e) < p.cfg.allotment →
            (p.flc.reserveInUse < 24 - p.cfg.cylinders * p.cfg.allotment → entryRefusal e p = none)
            ∧ (¬ p.flc.reserveInUse < 24 - p.cfg.cylinders * p.cfg.allotment → entryRefusal e p = some .noSlot)))

/-- A plan age expiry with no record ready: every PLANNED record whose age has expired leaves the list, and every other
stays in its place and order. Each record so abandoned counts one Abandoned STALE, frees its slot and lowers its
cylinder's count by one, and the reserve in use follows the counts (R54, R66, R67). That one command takes every record
due is the model's reading (log 21). -/
def Obligations.PlanAgeExpiryAbandonsStale : Prop :=
  ∀ s : State, s.part.listAgrees → (s.part.ptu.port ≠ .free ∨ s.part.ptu.held = none) →
    (∀ x ∈ s.part.records, x.2.ready = false) →
    let stale := s.part.records.filter fun x => decide (x.2.state = .planned
      ∧ s.part.cfg.planAgeLimit * 1000 ≤ (s.part.partTime - x.2.takenTime).toNat)
    let counted := stale.foldl (fun p _ => increment 526 p) s.part
    ∃ t, exec .planAgeExpiry s = .next t
      ∧ t.part.flc.order = s.part.flc.order.filter (fun i => decide (¬ ∃ r, s.part.slot i = some r
          ∧ r.state = .planned ∧ s.part.cfg.planAgeLimit * 1000 ≤ (s.part.partTime - r.takenTime).toNat))
      ∧ (∀ i, i ∈ t.part.flc.order → t.part.slot i = s.part.slot i)
      ∧ (∀ i, i ∉ t.part.flc.order → t.part.slot i = none)
      ∧ t.part.stb = counted.stb ∧ t.part.ntu = counted.ntu
      ∧ t.part.flc.counts = stale.foldl (fun k x =>
          Table.writeCyl k x.2.cylinder (Table.readCyl k x.2.cylinder 0 - 1)) s.part.flc.counts
      ∧ (stale ≠ [] → t.part.flc.reserveInUse
          = (t.part.flc.counts.toList.map fun k => k - min k s.part.cfg.allotment).sum)
      ∧ (stale = [] → t.part.flc = s.part.flc)
      ∧ t.part.flc.nextSeq = s.part.flc.nextSeq ∧ t.part.hsu = s.part.hsu ∧ t.part.pse = s.part.pse
      ∧ t.part.atk = s.part.atk ∧ t.part.sga = s.part.sga ∧ t.part.cxu = s.part.cxu ∧ t.sram = s.sram

/-- A decision fixes the record's bands and its decision time, hands it to the History Unit, the Statistics Banks, the
Knock Analyser and the Post Engine in this order, and is reported (R65). The Statistics Banks increment the counters of
its cylinder and band whose condition holds (R133); the post policy posts every record, the exceptions or none (R141);
Records Decided, and for an absent judgement Misfire Unavailable and Knock Unavailable, are counted (R65, R134). A
decided record leaves the list: its slot is FREE, its cylinder's count falls by one, the reserve in use follows the
counts, it leaves the taking order, and every other slot keeps its record (R54, R65). The readiness test of a cylinder
decides its first record if that is ready, then tests the new first, until it is not ready or none remains. Over the
whole list the records that are ready and first of their cylinders are decided one after another in the taking order
(R64); that the list is looked through again after each is the model's reading (log 16). -/
def Obligations.DecisionFreesTheSlot : Prop :=
  (∀ (i : Nat) (r : Record) (p : Part), p.slot i = some r →
    let q := decideRecord i r p
    let d := decidedOf r p
    q = leaveList i r.cylinder (reportDecision d (postVerdict d (learnReference d (countRecord d (historyTake d p)))))
    ∧ d.record = r ∧ d.decisionTime = p.partTime ∧ d.speedBand = p.cfg.speedBand (r.period.getD 0)
    ∧ d.loadBand = (p.cfg.loadBounds.toList.filter fun b => decide (b ≤ r.load)).length
    ∧ (∀ m, r.misfire = some m → d.misfireClass = m) ∧ (∀ k, r.knock = some k → d.knockClass = k)
    ∧ q.slot i = none ∧ (∀ j, j ≠ i → q.slot j = p.slot j)
    ∧ q.flc.order = p.flc.order.filter (fun j => decide (j ≠ i))
    ∧ q.flc.counts = Table.writeCyl p.flc.counts r.cylinder (p.recordCount r.cylinder - 1)
    ∧ q.flc.reserveInUse = (q.flc.counts.toList.map fun k => k - min k p.cfg.allotment).sum
    ∧ q.flc.nextSeq = p.flc.nextSeq ∧ q.csh = p.csh ∧ q.atk = p.atk ∧ q.cxu = p.cxu ∧ q.sga = p.sga)
  ∧ (∀ r : Record, r.ready = true ↔ r.state = .settling ∧ r.misfire ≠ none ∧ r.knock ≠ none)
  ∧ (∀ (c : Nat) (p : Part), p.listAgrees →
    ((∀ i r, r.cylinder = c → ¬ decisionDue p i r) → testReady c p = p)
    ∧ (∀ i r, r.cylinder = c → decisionDue p i r → testReady c p = testReady c (decideRecord i r p))
    ∧ ∀ i r, r.cylinder = c → ¬ decisionDue (testReady c p) i r)
  ∧ (∀ p : Part, p.listAgrees →
    ((∀ i r, ¬ decisionDue p i r) → testReadyAll p = p)
    ∧ (∀ xs i r ys, p.records = xs ++ (i, r) :: ys → decisionDue p i r → (∀ x ∈ xs, ¬ decisionDue p x.1 x.2) →
        testReadyAll p = testReadyAll (decideRecord i r p))
    ∧ ∀ i r, ¬ decisionDue (testReadyAll p) i r)
  ∧ ∀ (d : Decided) (p : Part),
    countRecord d p = ([0, 1, 2, 3, 4, 5, 6, 7].filter fun k => decide (counted d k)).foldl
        (fun p k => increment (((d.record.cylinder - 1) * 8 + d.speedBand) * 8 + k) p) p
    ∧ (let posted := offerVerdict (buildVerdict d p) p
       let exception := (d.misfireClass = .misfire ∨ d.misfireClass = .weak ∨ d.misfireClass = .unavailable)
         ∨ d.knockClass = .light ∨ d.knockClass = .heavy ∨ d.knockClass = .unavailable ∨ d.knockClass = .sensorFault
       (p.cfg.postPolicy = 0 → postVerdict d p = posted)
       ∧ (p.cfg.postPolicy = 1 → (exception → postVerdict d p = posted) ∧ (¬ exception → postVerdict d p = p))
       ∧ (p.cfg.postPolicy = 2 → postVerdict d p = p))
    ∧ (let once := fun (c : Prop) [Decidable c] (k : Nat) (p : Part) => if c then increment k p else p
       reportDecision d p = once (d.knockClass = .unavailable ∨ d.knockClass = .sensorFault) 537
         (once (d.misfireClass = .unavailable) 536 (increment 524 p)))

/-! ### The Segment Analyser -/

/-- The roughness figure of the middle of three segments: the difference from the truncated mean of its neighbours,
times 65536, divided by its own period toward zero, clamped; computed once, for a middle entry with both neighbours
(R75). A segment boundary with an ending cylinder and a period closes the open segment into the Segment Sequence with
that period, the oldest of three entries leaving, and opens the starting cylinder's; one without them, the first after
SYNC_GAINED, opens alone (R73, R74). A figure so computed stands in its entry, joins the roughness list and is reported
by cylinder and engine cycle number (R73, R76). The report gives M, and the class of the classification, to the first
SETTLING record of that cylinder and cycle whose misfire half is open, which is then tested; with no such record it
changes nothing (R62, R64). -/
def Obligations.RoughnessFigure : Prop :=
  (∀ a b c : Nat, roughnessFigure a b c
      = max (-32768) (min 32767 ((((b : Int) - ((a + c) / 2 : Nat)) * 65536).tdiv b)))
  ∧ roughnessFigure 50000 49000 50001 = -1337
  ∧ (∀ x y z : SegmentEntry, y.roughness = none → middleFigure [x, y, z]
      = some ([x, { y with roughness := some (roughnessFigure x.period y.period z.period) }, z], y,
          roughnessFigure x.period y.period z.period))
  ∧ (∀ x y z : SegmentEntry, y.roughness ≠ none → middleFigure [x, y, z] = none)
  ∧ (∀ xs : List SegmentEntry, xs.length ≠ 3 → middleFigure xs = none)
  ∧ (∀ (b : SegmentBoundary) (p : Part),
    ((b.ending = none ∨ b.period = none) →
      analyseBoundary b p = p.setSga { p.sga with openSegment := some (b.starting, b.cycleNumber) })
    ∧ ∀ e n c k, b.ending = some e → b.period = some n → p.sga.openSegment = some (c, k) →
      let closed := (if p.sga.sequence.length < 3 then p.sga.sequence else p.sga.sequence.drop 1) ++ [⟨c, k, n, none⟩]
      (middleFigure closed = none → analyseBoundary b p
        = p.setSga { p.sga with sequence := closed, openSegment := some (b.starting, b.cycleNumber) })
      ∧ ∀ xs y m, middleFigure closed = some (xs, y, m) →
        let q := takeMReport y.cylinder y.cycleNumber m
          (p.setSga { p.sga with sequence := xs, roughness := p.sga.roughness ++ [m] })
        let opened := { p.sga with
          sequence := xs, roughness := p.sga.roughness ++ [m], openSegment := some (b.starting, b.cycleNumber) }
        analyseBoundary b p = q.setSga opened ∧ q.atk = p.atk ∧ q.cxu = p.cxu ∧ q.csh = p.csh)
  ∧ ∀ (c : Nat) (n : BitVec 32) (m : Int) (p : Part),
    let isOpen := fun r : Record => r.cylinder = c ∧ r.state = .settling ∧ r.cycleNumber = some n ∧ r.misfire = none
    ((∀ x ∈ p.records, ¬ isOpen x.2) → takeMReport c n m p = p)
    ∧ ∀ i r, firstRecord p isOpen i r → takeMReport c n m p
        = testReady c (p.setFlc { p.flc with slots := Table.write p.flc.slots i (some { r with
            roughness := some m, misfire := some (classWithFigure p.cfg r m) }) })

/-- The misfire classification: INTENDED, UNAVAILABLE, MISFIRE, PARTIAL, NONE, by the first row that holds (R78). -/
def Obligations.MisfireClassification : Prop :=
  ∀ (g : Settings) (r : Record) (m : Int),
    let tm := Table.read g.misfireTable (4 * g.speedBand (r.period.getD 0) + g.loadBand r.load) 0
    let tp := tm * g.partialFraction / 8
    ((r.fuel = .cut ∨ r.ignition = .cut) →
      classWithFigure g r m = .intended ∧ classWithoutFigure r = .intended)
    ∧ (¬ (r.fuel = .cut ∨ r.ignition = .cut) →
      classWithoutFigure r = .unavailable
      ∧ ((tm : Int) ≤ m → classWithFigure g r m = .misfire)
      ∧ (m < tm → (tp : Int) ≤ m → classWithFigure g r m = .weak)
      ∧ (m < tm → m < tp → classWithFigure g r m = .none))

/-! ### The Knock Analyser -/

/-- A header commit, whose latch is emptied in every case. A FILLING frame is first TRUNCATED with the samples it holds,
counted as one Frames Truncated, and closed, with the evaluations that its closure makes (R86, R92). Then, in range, with
room, a FILLING frame begins with the latched start time and the next commit number; with six frames held, the frame of
greatest age before the new start time, the earlier committed of two, is evicted and counted first (R86, R88). Out of range,
or with the latch empty, it is a refusal, counted as one further Frames Truncated, and no frame begins (R9, R87). That an
address that is not a multiple of 4 stands for the word that holds it is the model's choice (log 7). -/
def Obligations.HeaderCommitBeginsFrameOrIsRefused : Prop :=
  (∀ (a : Addr) (d : Word) (s : State), tapped .knock a s → wordAddress a = s.part.cfg.knockBase + 4 →
    let out := (tapOut s a d).setPtu { (tapOut s a d).ptu with knockLatch := none }
    let q := truncateFilling out
    let inRange := field d 8 4 < s.part.cfg.sensorCount ∧ 1 ≤ field d 0 8 ∧ field d 0 8 ≤ 128
    (∀ w, s.part.ptu.knockLatch = some ⟨s.part.cfg.knockBase, w⟩ → inRange →
      (s.part.kna.frames.length < 6 → exec (.knockHeaderCommit a d) s = .next (s.setPart (frameBegun w d q)))
      ∧ ∀ xs e ys, s.part.kna.frames.length = 6 → q.kna.frames = xs ++ e :: ys →
          let age := fun f : Frame => (w.extractLsb' 0 24 - f.start).toNat
          (∀ f ∈ xs, age f < age e) → (∀ f ∈ ys, age f ≤ age e) →
          exec (.knockHeaderCommit a d) s = .next (s.setPart (frameBegun w d (increment 530
            (q.setKna { q.kna with frames := xs ++ ys })))))
    ∧ (∀ w, s.part.ptu.knockLatch = some ⟨s.part.cfg.knockBase, w⟩ → ¬ inRange →
        exec (.knockHeaderCommit a d) s = .next (s.setPart (increment 529 q)))
    ∧ (s.part.ptu.knockLatch = none → exec (.knockHeaderCommit a d) s = .next (s.setPart (increment 529 q))))
  ∧ ∀ p : Part,
    ((∀ f ∈ p.kna.frames, f.state ≠ .filling) → truncateFilling p = p)
    ∧ ∀ xs f ys, p.kna.frames = xs ++ f :: ys → f.state = .filling → (∀ x ∈ xs ++ ys, x.state ≠ .filling) →
      truncateFilling p = closureMade { f with state := .truncated } (increment 529
        (p.setKna { p.kna with frames := xs ++ { f with state := .truncated } :: ys }))
      ∧ (truncateFilling p).kna.frames = xs ++ { f with state := .truncated } :: ys
      ∧ (truncateFilling p).kna.commitIndex = p.kna.commitIndex

/-- A sample word with a FILLING frame appends its two samples, the low one first; one that brings the list to twice
the declared pairs makes the frame COMPLETE and counts it, and its closure takes each pending evaluation of its sensor
whose close time it reaches off the Knock Wait List and makes it, in the order of the list (R92). With no FILLING frame
the word is counted as an orphan (R89). That an address that is not a multiple of 4 stands for the word that holds it
is the model's choice (log 7). -/
def Obligations.SampleWordFillsOrIsOrphan : Prop :=
  ∀ (a : Addr) (d : Word) (s : State), tapped .knock a s → s.part.cfg.knockBase + 8 ≤ wordAddress a →
    ((∀ f ∈ s.part.kna.frames, f.state ≠ .filling) →
      exec (.knockSampleWord a d) s = .next (s.setPart (increment 531 (tapOut s a d))))
    ∧ ∀ (fs : List Frame) (f : Frame), s.part.kna.frames = fs ++ [f] → (∀ x ∈ fs, x.state ≠ .filling) →
      f.state = .filling →
      (f.samples.length + 2 ≠ 2 * f.pairs →
        exec (.knockSampleWord a d) s = .next (s.setPart ((tapOut s a d).setKna { s.part.kna with
          frames := fs ++ [{ f with samples := f.samples ++ [field d 0 12, field d 16 12] }] })))
      ∧ (f.samples.length + 2 = 2 * f.pairs →
        let x := { f with samples := f.samples ++ [field d 0 12, field d 16 12], state := .complete }
        exec (.knockSampleWord a d) s = .next (s.setPart (closureMade x
          (increment 528 ((tapOut s a d).setKna { s.part.kna with frames := fs ++ [x] })))))

/-- A Knock Wait expiry removes the pending evaluations whose wait has expired, each named by its slot and sequence
number, in whatever state the frames are, and leaves the others in their order; each is made before the next (R93). One
whose sensor has no frame gives a MEASURING record class UNAVAILABLE with coverage and clipped count 0, intensity and
ratio absent, and leaves the sensor's health (R63, R95, R97). That one command takes every evaluation due is the
model's reading (log 21). -/
def Obligations.KnockWaitExpiryTakesTheDue : Prop :=
  ∀ s : State, (s.part.ptu.port ≠ .free ∨ s.part.ptu.held = none) →
    let due := fun e : PendingEval => s.part.cfg.knockWaitLimit * 1000 ≤ (s.part.partTime - e.fixTime).toNat
    ∃ t, exec .knockWaitExpiry s = .next t
      ∧ t.part = arbitrate ((s.part.kna.waitList.filter fun e => decide (due e)).foldl evaluatedOff s.part)
      ∧ t.part.kna.frames = s.part.kna.frames
      ∧ t.part.kna.waitList = s.part.kna.waitList.filter (fun e =>
          decide (∀ x ∈ s.part.kna.waitList, due x → ¬ (x.slot = e.slot ∧ x.seq = e.seq)))
      ∧ ∀ (e : PendingEval) (r : Record), s.part.kna.waitList = [e] → due e → 1 ≤ s.part.cfg.minCover →
          (∀ f ∈ s.part.kna.frames, f.sensor ≠ e.sensor) → s.part.slot e.slot = some r → r.seq = e.seq →
          r.knock = none → r.state = .measuring →
          t.part.slot e.slot = some { r with
              knock := some .unavailable, intensity := none, coverage := some 0, clipped := some 0, ratio := none }
            ∧ t.part.kna.sensors = s.part.kna.sensors

/-- The used samples of a window: each sample of a frame whose time lies in the window, where no later-started frame
has a sample at that time (R90, R95). They are stated for frames in commit order among which `startedLater` is
transitive, as it is of any two; which of three or more supplies a time otherwise is the model's choice (log 23). What
an evaluation makes of them: coverage, clipped count, UNAVAILABLE when uncovered; else the intensity, the sensor's
update, SENSOR_FAULT from a sensor not OK, and HEAVY, LIGHT or NONE by the ratio against the band's thresholds (R95,
R96, R97). The report reaches the record that it names while its knock half is open, and a SETTLING record is then
tested (R63). The update of a sensor, which sets SENSOR_FAULT on entering QUIET or CLIPPED, and the run counters and
the state that it gives (R98, R99). The reference learns a sixteenth of the distance, truncated toward zero and
clamped, from a record judged NONE, not withheld, with its sensor OK and the background not frozen; otherwise nothing
changes (R101). -/
def Obligations.SensorHealthAndReference : Prop :=
  (∀ (g : Settings) (fs : List Frame) (opn cls : Stamp), 1 ≤ g.samplePeriod →
    (∀ f ∈ fs, f.samples.length * g.samplePeriod < 2 ^ 24) →
    fs.Pairwise (fun a b => a.commit.toNat < b.commit.toNat) →
    (∀ a ∈ fs, ∀ b ∈ fs, ∀ c ∈ fs, startedLater b a → startedLater c b → startedLater c a) →
    let time := fun (f : Frame) (j : Nat) => f.start + BitVec.ofNat 24 (j * g.samplePeriod)
    usedSamples g fs opn cls = fs.flatMap fun f => f.samples.zipIdx.filterMap fun x =>
      if (time f x.2 - opn).toNat < (cls - opn).toNat
          ∧ ∀ b ∈ fs, ∀ j, j < b.samples.length → time b j = time f x.2 → ¬ startedLater b f
      then some x.1 else none)
  ∧ (∀ (e : PendingEval) (p : Part),
    let used := usedSamples p.cfg (p.kna.frames.filter fun f => f.sensor == e.sensor) e.openTime e.closeTime
    let expected := (e.closeTime - e.openTime).toNat / p.cfg.samplePeriod
    let coverage := if expected = 0 then 0 else min 255 (used.length * 256 / expected)
    let clipped := (used.filter fun x => decide (x = 0 ∨ x = 4095)).length
    let bias := Table.read p.cfg.bias e.sensor 0
    let i := (used.map fun x : Nat => ((x : Int) - bias).natAbs).sum / used.length
    let ratio := min 255 (i * 16 / p.reference e.cylinder)
    let band := match (p.slot e.slot).bind fun r => if r.seq = e.seq then r.period else none with
      | some n => p.cfg.speedBand n
      | none => p.atk.lastPeriod.elim 0 p.cfg.speedBand
    let heavy := Table.read p.cfg.heavyRatio band 0
    let light := Table.read p.cfg.lightRatio band 0
    let q := updateSensor e.sensor (decide (i < p.cfg.quietFloor)) (decide (0 < clipped)) p
    let reported := fun (c : KnockClass) (i ratio : Option Nat) (p : Part) =>
      takeKnockReport e.slot e.seq ⟨c, i, coverage, min 255 clipped, ratio⟩ p
    let uncovered := expected = 0 ∨ used.length * 8 < expected * p.cfg.minCover
    (uncovered → evaluate e p = reported .unavailable none none p)
    ∧ (¬ uncovered → (q.sensor e.sensor).state ≠ .ok → evaluate e p = reported .sensorFault (some i) none q)
    ∧ (¬ uncovered → (q.sensor e.sensor).state = .ok →
        (heavy ≤ ratio → evaluate e p = reported .heavy (some i) (some ratio) q)
        ∧ (ratio < heavy → light ≤ ratio → evaluate e p = reported .light (some i) (some ratio) q)
        ∧ (ratio < heavy → ratio < light → evaluate e p = reported .none (some i) (some ratio) q)))
  ∧ (∀ (i : Nat) (seq : BitVec 16) (k : KnockReport) (p : Part),
    ((∀ r, p.slot i = some r → r.seq ≠ seq ∨ r.knock ≠ none) → takeKnockReport i seq k p = p)
    ∧ ∀ r, p.slot i = some r → r.seq = seq → r.knock = none →
        let q := p.setFlc { p.flc with slots := Table.write p.flc.slots i (some { r with
          knock := some k.cls, intensity := k.intensity, coverage := some k.coverage, clipped := some k.clipped
          ratio := k.ratio }) }
        takeKnockReport i seq k p = if r.state = .settling then testReady r.cylinder q else q)
  ∧ (∀ (x : Nat) (quiet clip : Bool) (p : Part), x < 4 →
    let y := sensorStep (p.sensor x) quiet clip
    let q := updateSensor x quiet clip p
    q = (p.setKna { p.kna with sensors := Table.write p.kna.sensors x y }).setNtu q.ntu
    ∧ q.sensor x = y
    ∧ (q.noticeSet .sensorFault = true ↔ p.noticeSet .sensorFault = true
        ∨ y.state ≠ (p.sensor x).state ∧ (y.state = .quiet ∨ y.state = .clipped))
    ∧ ∀ n, n ≠ .sensorFault → q.noticeSet n = p.noticeSet n)
  ∧ (∀ (x : Sensor) (quiet clip : Bool),
    (sensorStep x quiet clip).quietRun = (if quiet then min 255 (x.quietRun + 1) else 0)
    ∧ (sensorStep x quiet clip).clipRun = (if clip then min 255 (x.clipRun + 1) else 0)
    ∧ (sensorStep x quiet clip).cleanRun = (if !quiet && !clip then min 255 (x.cleanRun + 1) else 0)
    ∧ (sensorStep x quiet clip).state
        = (if clip = true ∧ x.clipRun = 7 ∧ x.state ≠ .clipped then .clipped
           else if quiet = true ∧ x.quietRun = 7 ∧ x.state ≠ .quiet then .quiet
           else if quiet = false ∧ clip = false ∧ x.cleanRun = 7 ∧ x.state ≠ .ok then .ok
           else x.state))
  ∧ ∀ (d : Decided) (p : Part),
    let c := d.record.cylinder
    let teach := d.knockClass = .none ∧ d.knockWithheld = false ∧ (p.sensor (p.cfg.sensorOf c)).state = .ok
      ∧ d.freezeBackground = false
    (teach → learnReference d p = p.setKna { p.kna with refs := Table.writeCyl p.kna.refs c (min 65535 (max 1
      ((p.reference c : Int) + (((d.record.intensity.getD 0 : Nat) : Int) - p.reference c).tdiv 16).toNat)) })
    ∧ (¬ teach → learnReference d p = p)

/-! ### The Context Unit -/

/-- A flagged entry: the context's mark is set, it is ACTIVE with remaining 0, and a passage from IDLE joins the
MEASURING record's set (R61, R105, R112). One step of a context's state machine (R111). A cycle evaluation appends the
ended cycle's rough flag, of which eight are kept; marks ROUGH, FLARE and RESYNC by their causes; lowers the resync
count by one; steps all six contexts; the contexts that so pass from IDLE to ACTIVE join the MEASURING record's set;
every mark is cleared (R61, R107, R108, R109, R110, R112). Of a boundary's two inputs the first is held with the
configuration that governs it, and the second of the same cycle number clears it and makes the evaluation under that
configuration; one of another number replaces it (R107). -/
def Obligations.ContextStateMachine : Prop :=
  (∀ (c : Ctx) (p : Part),
    (declareCause c p).cxu = { p.cxu with table := p.cxu.table.set c ⟨.active, 0, true⟩ }
    ∧ ((p.cxu.table.get c).state ≠ .idle → (declareCause c p).flc = p.flc)
    ∧ ((p.cxu.table.get c).state = .idle → p.measuring = none → (declareCause c p).flc = p.flc)
    ∧ ((p.cxu.table.get c).state = .idle → ∀ i r, p.measuring = some (i, r) →
        (declareCause c p).flc = { p.flc with
          slots := Table.write p.flc.slots i (some { r with contexts := r.contexts.map (fun x => x ||| c.bit) }) }))
  ∧ (∀ (g : Settings) (r : CycleResult) (p : Part),
    let q := evaluateCycle g r p
    let large := r.roughness.filter fun m => decide (g.roughLevel ≤ m.natAbs)
    let history := p.cxu.roughHistory ++ [decide (2 ≤ large.length ∧ ∃ m ∈ large, m < 0)]
    let kept := if history.length ≤ 8 then history else history.drop 1
    let mark := markFound g r (kept.count true) p
    q = (p.setCxu q.cxu).setFlc q.flc
    ∧ q.cxu.roughHistory = kept ∧ q.cxu.resyncCount = p.cxu.resyncCount - 1
    ∧ q.cxu.lastLoad = p.cxu.lastLoad ∧ q.cxu.heldInput = p.cxu.heldInput
    ∧ (∀ c : Ctx, q.cxu.table.get c
        = { ctxStep (g.residencyOf c) { p.cxu.table.get c with mark := mark c } with mark := false })
    ∧ (p.measuring = none → q.flc = p.flc)
    ∧ ∀ i x, p.measuring = some (i, x) → ∃ set : BitVec 6,
        (∀ c : Ctx, set.getLsbD c.index = true ↔ (p.cxu.table.get c).state = .idle ∧ mark c = true)
        ∧ q.flc = { p.flc with slots := Table.write p.flc.slots i (some { x with
            contexts := x.contexts.map fun y => y ||| set }) })
  ∧ (∀ (n : BitVec 32) (r : CycleResult) (p : Part),
    let holds := fun h : Option HeldInput => p.setCxu { p.cxu with heldInput := h }
    (p.cxu.heldInput = none →
      takeBoundaryInput n p = holds (some ⟨n, none, governs p⟩) ∧ takeResultInput n r p = holds (some ⟨n, some r, governs p⟩))
    ∧ (∀ g, p.cxu.heldInput = some ⟨n, some r, g⟩ → takeBoundaryInput n p = evaluateCycle g r (holds none))
    ∧ (∀ g, p.cxu.heldInput = some ⟨n, none, g⟩ → takeResultInput n r p = evaluateCycle g r (holds none))
    ∧ ∀ k x g, p.cxu.heldInput = some ⟨k, x, g⟩ → k ≠ n →
      takeBoundaryInput n p = holds (some ⟨n, none, governs p⟩) ∧ takeResultInput n r p = holds (some ⟨n, some r, governs p⟩))
  ∧ ∀ (r : Nat) (e : CtxEntry),
    (e.mark = true → (ctxStep r e).state = .active ∧ (e.state ≠ .active → (ctxStep r e).remaining = 0))
    ∧ (e.mark = false → e.state = .idle → ctxStep r e = e)
    ∧ (e.mark = false → e.state = .active → r = 0 → (ctxStep r e).state = .idle)
    ∧ (e.mark = false → e.state = .active → r ≠ 0 →
        (ctxStep r e).state = .holding ∧ (ctxStep r e).remaining = r)
    ∧ (e.mark = false → e.state = .holding → e.remaining ≤ 1 → (ctxStep r e).state = .idle)
    ∧ (e.mark = false → e.state = .holding → 1 < e.remaining →
        (ctxStep r e).state = .holding ∧ (ctxStep r e).remaining = e.remaining - 1)

/-- The effects of a context set merged at a decision, and the flags they give: an empty set counts and updates; ANY asks
one member, ALL asks every member; only a half judged from a measurement is withheld (R65, R116). -/
def Obligations.MergedEffectsAtDecision : Prop :=
  (∀ (g : Settings) (k : Nat), mergedEffect g 0 k = false)
  ∧ (∀ (g : Settings) (set : BitVec 6) (k : Nat), set ≠ 0 → g.mergePolicy = 0 →
      (mergedEffect g set k = true ↔ ∃ c : Ctx, set.getLsbD c.index = true ∧ g.effectBit k c = true))
  ∧ (∀ (g : Settings) (set : BitVec 6) (k : Nat), set ≠ 0 → g.mergePolicy = 1 →
      (mergedEffect g set k = true ↔ ∀ c : Ctx, set.getLsbD c.index = true → g.effectBit k c = true))
  ∧ ∀ (r : Record) (p : Part) (m : MisfireClass) (k : KnockClass), r.misfire = some m → r.knock = some k →
      (decidedOf r p).misfireWithheld = (mergedEffect p.cfg (r.contexts.getD 0) 0
        && decide (m = .none ∨ m = .weak ∨ m = .misfire))
      ∧ (decidedOf r p).knockWithheld = (mergedEffect p.cfg (r.contexts.getD 0) 1
        && decide (k = .none ∨ k = .light ∨ k = .heavy))
      ∧ (decidedOf r p).freezeBackground = mergedEffect p.cfg (r.contexts.getD 0) 2

/-! ### What a read shows -/

/-- Every field of the eleven words of the Status Block, at its bits and by its code (12.5): what the CSH (R21, R31), the ATK
(R51), the PSE, the NTU and part time (R148), the PTU and the FLC (R11, R71), the HSU (R130), the KNA (R103), the CXU (R117)
and the STB supply. -/
def Obligations.StatusBlockFields : Prop :=
  ∀ p : Part, p.withinBounds → p.flc.order.length ≤ 24 →
    [Mode.transparent, .monitoring, .disengaging].map Mode.code = [0, 1, 2]
    ∧ [SyncState.stopped, .seeking, .halfSync, .synced].map SyncState.code = [0, 1, 2, 3]
    ∧ [PostState.running, .stopping, .stopped].map PostState.code = [0, 1, 2]
    ∧ [ApplyResult.never, .refused, .pending, .active, .superseded, .busy].map ApplyResult.code = [0, 1, 2, 3, 4, 5]
    ∧ [Check.cylinders, .wheel, .firing, .segment, .knockWindow, .sensor, .bands, .windows, .ring, .timing, .context,
        .health].map Check.code = [1, 2, 3, 4, 5, 6, 7, 8, 9, 10, 11, 12]
    ∧ [LossReason.never, .gap, .cam, .stall, .config, .reset].map LossReason.code = [0, 1, 2, 3, 4, 5]
    ∧ [Health.healthy, .suspect, .faulted].map Health.code = [0, 1, 2]
    ∧ [SensorState.ok, .quiet, .clipped].map SensorState.code = [0, 1, 2]
    ∧ [CtxState.idle, .active, .holding].map CtxState.code = [0, 1, 2]
    ∧ field (statusWord 0 p) 0 2 = p.csh.mode.code ∧ (statusWord 0 p).getLsbD 2 = p.csh.pendingCopy.isSome
    ∧ field (statusWord 0 p) 4 2 = p.atk.sync.code ∧ field (statusWord 0 p) 8 2 = p.pse.postState.code
    ∧ (statusWord 1 p).extractLsb' 0 16 = p.csh.activeGen ∧ (statusWord 1 p).extractLsb' 16 16 = p.csh.lastGen
    ∧ field (statusWord 2 p) 0 3 = p.csh.lastResult.code
    ∧ field (statusWord 2 p) 4 4 = (p.csh.lastReason.map Check.code).getD 0
    ∧ field (statusWord 2 p) 8 3 = p.atk.lastLoss.code ∧ (statusWord 2 p).extractLsb' 16 16 = p.stb.generation
    ∧ (statusWord 3 p).extractLsb' 0 13 = p.ntu.flags
    ∧ (statusWord 4 p).extractLsb' 0 16 = p.pse.published ∧ (statusWord 4 p).extractLsb' 16 16 = p.pse.consumer
    ∧ field (statusWord 5 p) 0 5 = p.pse.postQueue.length ∧ field (statusWord 5 p) 8 6 = p.ptu.queue.length
    ∧ field (statusWord 5 p) 16 5 = p.flc.order.length
    ∧ field (statusWord 5 p) 24 5 = 24 - p.cfg.cylinders * p.cfg.allotment - p.flc.reserveInUse
    ∧ (∀ c, 1 ≤ c → c ≤ 8 → field (statusWord 6 p) (2 * c - 2) 2
          = (if c ≤ p.cfg.cylinders then (p.cylinderHistory c).health.code else 0)
        ∧ (statusWord 6 p).getLsbD (15 + c) = (p.cylinderHistory c).alert)
    ∧ (statusWord 6 p).getLsbD 24 = p.hsu.exceeded
    ∧ (∀ x, x < 4 → field (statusWord 7 p) (2 * x) 2 = if x < p.cfg.sensorCount then (p.sensor x).state.code else 0)
    ∧ (∀ c : Ctx, field (statusWord 7 p) (8 + 2 * c.index) 2 = (p.cxu.table.get c).state.code)
    ∧ field (statusWord 8 p) 0 16 = p.atk.lastPeriod.elim 0 p.cfg.segmentRpm
    ∧ field (statusWord 8 p) 16 3 = p.atk.lastPeriod.elim 0 p.cfg.speedBand
    ∧ statusWord 9 p = p.atk.engineCycle ∧ statusWord 10 p = p.partTime

/-! ### Invariants of every step -/

/-- The canonical form of both memories is kept by every step (00, 1.2; R19). -/
def Obligations.EveryStepKeepsMemoriesCanonical : Prop :=
  ∀ s t : State, s.memoriesWf → step s = .next t → t.memoriesWf

/-- No step overfills the Injection Queue (32 words), the Post Queue (16 verdicts), the Frame Store (6 frames), a frame's
sample list (256 samples of 12 bits, in whole pairs up to the declared number), a Cylinder History ring (16 entries), the
Segment Sequence (3 entries) or the rough-history shift record (8 flags) (R11, R74, R86, R88, R89, R108, R120, R142). -/
def Obligations.EveryStepKeepsStoresInBounds : Prop :=
  ∀ s t : State, s.part.withinBounds → step s = .next t → t.part.withinBounds

/-- Every step keeps the taking order and the slots in agreement, so at most 24 records are ever held (R52, R54). -/
def Obligations.EveryStepKeepsTakingOrderTrue : Prop :=
  ∀ s t : State, s.part.listAgrees → step s = .next t → t.part.listAgrees ∧ t.part.flc.order.length ≤ 24

/-- Every step keeps the table of modes: a configuration is in force exactly outside TRANSPARENT, a Pending Copy exists in
MONITORING alone, and each of them has passed validation for the page in force (2.3, R22, R25, R26, R27). -/
def Obligations.EveryStepKeepsConfigurationValidated : Prop :=
  ∀ s t : State, s.part.modesAgree → step s = .next t → t.part.modesAgree
end

