-- ==== Sys2Proof/Laws/State.lean ====
section
/-! SUPPORT. One lemma for each field and each update: what the update leaves and what it sets. -/

namespace Sys2Proof.Machine

@[simp] theorem Part.setPartTime_partTime (p : Part) (x : Micros) : (p.setPartTime x).partTime = x := rfl
@[simp] theorem Part.setPartTime_ptu (p : Part) (x : Micros) : (p.setPartTime x).ptu = p.ptu := rfl
@[simp] theorem Part.setPartTime_csh (p : Part) (x : Micros) : (p.setPartTime x).csh = p.csh := rfl
@[simp] theorem Part.setPartTime_atk (p : Part) (x : Micros) : (p.setPartTime x).atk = p.atk := rfl
@[simp] theorem Part.setPartTime_flc (p : Part) (x : Micros) : (p.setPartTime x).flc = p.flc := rfl
@[simp] theorem Part.setPartTime_sga (p : Part) (x : Micros) : (p.setPartTime x).sga = p.sga := rfl
@[simp] theorem Part.setPartTime_kna (p : Part) (x : Micros) : (p.setPartTime x).kna = p.kna := rfl
@[simp] theorem Part.setPartTime_cxu (p : Part) (x : Micros) : (p.setPartTime x).cxu = p.cxu := rfl
@[simp] theorem Part.setPartTime_hsu (p : Part) (x : Micros) : (p.setPartTime x).hsu = p.hsu := rfl
@[simp] theorem Part.setPartTime_stb (p : Part) (x : Micros) : (p.setPartTime x).stb = p.stb := rfl
@[simp] theorem Part.setPartTime_pse (p : Part) (x : Micros) : (p.setPartTime x).pse = p.pse := rfl
@[simp] theorem Part.setPartTime_ntu (p : Part) (x : Micros) : (p.setPartTime x).ntu = p.ntu := rfl
@[simp] theorem Part.setPtu_partTime (p : Part) (x : PassThrough) : (p.setPtu x).partTime = p.partTime := rfl
@[simp] theorem Part.setPtu_ptu (p : Part) (x : PassThrough) : (p.setPtu x).ptu = x := rfl
@[simp] theorem Part.setPtu_csh (p : Part) (x : PassThrough) : (p.setPtu x).csh = p.csh := rfl
@[simp] theorem Part.setPtu_atk (p : Part) (x : PassThrough) : (p.setPtu x).atk = p.atk := rfl
@[simp] theorem Part.setPtu_flc (p : Part) (x : PassThrough) : (p.setPtu x).flc = p.flc := rfl
@[simp] theorem Part.setPtu_sga (p : Part) (x : PassThrough) : (p.setPtu x).sga = p.sga := rfl
@[simp] theorem Part.setPtu_kna (p : Part) (x : PassThrough) : (p.setPtu x).kna = p.kna := rfl
@[simp] theorem Part.setPtu_cxu (p : Part) (x : PassThrough) : (p.setPtu x).cxu = p.cxu := rfl
@[simp] theorem Part.setPtu_hsu (p : Part) (x : PassThrough) : (p.setPtu x).hsu = p.hsu := rfl
@[simp] theorem Part.setPtu_stb (p : Part) (x : PassThrough) : (p.setPtu x).stb = p.stb := rfl
@[simp] theorem Part.setPtu_pse (p : Part) (x : PassThrough) : (p.setPtu x).pse = p.pse := rfl
@[simp] theorem Part.setPtu_ntu (p : Part) (x : PassThrough) : (p.setPtu x).ntu = p.ntu := rfl
@[simp] theorem Part.setCsh_partTime (p : Part) (x : ConfigShadow) : (p.setCsh x).partTime = p.partTime := rfl
@[simp] theorem Part.setCsh_ptu (p : Part) (x : ConfigShadow) : (p.setCsh x).ptu = p.ptu := rfl
@[simp] theorem Part.setCsh_csh (p : Part) (x : ConfigShadow) : (p.setCsh x).csh = x := rfl
@[simp] theorem Part.setCsh_atk (p : Part) (x : ConfigShadow) : (p.setCsh x).atk = p.atk := rfl
@[simp] theorem Part.setCsh_flc (p : Part) (x : ConfigShadow) : (p.setCsh x).flc = p.flc := rfl
@[simp] theorem Part.setCsh_sga (p : Part) (x : ConfigShadow) : (p.setCsh x).sga = p.sga := rfl
@[simp] theorem Part.setCsh_kna (p : Part) (x : ConfigShadow) : (p.setCsh x).kna = p.kna := rfl
@[simp] theorem Part.setCsh_cxu (p : Part) (x : ConfigShadow) : (p.setCsh x).cxu = p.cxu := rfl
@[simp] theorem Part.setCsh_hsu (p : Part) (x : ConfigShadow) : (p.setCsh x).hsu = p.hsu := rfl
@[simp] theorem Part.setCsh_stb (p : Part) (x : ConfigShadow) : (p.setCsh x).stb = p.stb := rfl
@[simp] theorem Part.setCsh_pse (p : Part) (x : ConfigShadow) : (p.setCsh x).pse = p.pse := rfl
@[simp] theorem Part.setCsh_ntu (p : Part) (x : ConfigShadow) : (p.setCsh x).ntu = p.ntu := rfl
@[simp] theorem Part.setAtk_partTime (p : Part) (x : Tracker) : (p.setAtk x).partTime = p.partTime := rfl
@[simp] theorem Part.setAtk_ptu (p : Part) (x : Tracker) : (p.setAtk x).ptu = p.ptu := rfl
@[simp] theorem Part.setAtk_csh (p : Part) (x : Tracker) : (p.setAtk x).csh = p.csh := rfl
@[simp] theorem Part.setAtk_atk (p : Part) (x : Tracker) : (p.setAtk x).atk = x := rfl
@[simp] theorem Part.setAtk_flc (p : Part) (x : Tracker) : (p.setAtk x).flc = p.flc := rfl
@[simp] theorem Part.setAtk_sga (p : Part) (x : Tracker) : (p.setAtk x).sga = p.sga := rfl
@[simp] theorem Part.setAtk_kna (p : Part) (x : Tracker) : (p.setAtk x).kna = p.kna := rfl
@[simp] theorem Part.setAtk_cxu (p : Part) (x : Tracker) : (p.setAtk x).cxu = p.cxu := rfl
@[simp] theorem Part.setAtk_hsu (p : Part) (x : Tracker) : (p.setAtk x).hsu = p.hsu := rfl
@[simp] theorem Part.setAtk_stb (p : Part) (x : Tracker) : (p.setAtk x).stb = p.stb := rfl
@[simp] theorem Part.setAtk_pse (p : Part) (x : Tracker) : (p.setAtk x).pse = p.pse := rfl
@[simp] theorem Part.setAtk_ntu (p : Part) (x : Tracker) : (p.setAtk x).ntu = p.ntu := rfl
@[simp] theorem Part.setFlc_partTime (p : Part) (x : FiringList) : (p.setFlc x).partTime = p.partTime := rfl
@[simp] theorem Part.setFlc_ptu (p : Part) (x : FiringList) : (p.setFlc x).ptu = p.ptu := rfl
@[simp] theorem Part.setFlc_csh (p : Part) (x : FiringList) : (p.setFlc x).csh = p.csh := rfl
@[simp] theorem Part.setFlc_atk (p : Part) (x : FiringList) : (p.setFlc x).atk = p.atk := rfl
@[simp] theorem Part.setFlc_flc (p : Part) (x : FiringList) : (p.setFlc x).flc = x := rfl
@[simp] theorem Part.setFlc_sga (p : Part) (x : FiringList) : (p.setFlc x).sga = p.sga := rfl
@[simp] theorem Part.setFlc_kna (p : Part) (x : FiringList) : (p.setFlc x).kna = p.kna := rfl
@[simp] theorem Part.setFlc_cxu (p : Part) (x : FiringList) : (p.setFlc x).cxu = p.cxu := rfl
@[simp] theorem Part.setFlc_hsu (p : Part) (x : FiringList) : (p.setFlc x).hsu = p.hsu := rfl
@[simp] theorem Part.setFlc_stb (p : Part) (x : FiringList) : (p.setFlc x).stb = p.stb := rfl
@[simp] theorem Part.setFlc_pse (p : Part) (x : FiringList) : (p.setFlc x).pse = p.pse := rfl
@[simp] theorem Part.setFlc_ntu (p : Part) (x : FiringList) : (p.setFlc x).ntu = p.ntu := rfl
@[simp] theorem Part.setSga_partTime (p : Part) (x : SegmentAnalyser) : (p.setSga x).partTime = p.partTime := rfl
@[simp] theorem Part.setSga_ptu (p : Part) (x : SegmentAnalyser) : (p.setSga x).ptu = p.ptu := rfl
@[simp] theorem Part.setSga_csh (p : Part) (x : SegmentAnalyser) : (p.setSga x).csh = p.csh := rfl
@[simp] theorem Part.setSga_atk (p : Part) (x : SegmentAnalyser) : (p.setSga x).atk = p.atk := rfl
@[simp] theorem Part.setSga_flc (p : Part) (x : SegmentAnalyser) : (p.setSga x).flc = p.flc := rfl
@[simp] theorem Part.setSga_sga (p : Part) (x : SegmentAnalyser) : (p.setSga x).sga = x := rfl
@[simp] theorem Part.setSga_kna (p : Part) (x : SegmentAnalyser) : (p.setSga x).kna = p.kna := rfl
@[simp] theorem Part.setSga_cxu (p : Part) (x : SegmentAnalyser) : (p.setSga x).cxu = p.cxu := rfl
@[simp] theorem Part.setSga_hsu (p : Part) (x : SegmentAnalyser) : (p.setSga x).hsu = p.hsu := rfl
@[simp] theorem Part.setSga_stb (p : Part) (x : SegmentAnalyser) : (p.setSga x).stb = p.stb := rfl
@[simp] theorem Part.setSga_pse (p : Part) (x : SegmentAnalyser) : (p.setSga x).pse = p.pse := rfl
@[simp] theorem Part.setSga_ntu (p : Part) (x : SegmentAnalyser) : (p.setSga x).ntu = p.ntu := rfl
@[simp] theorem Part.setKna_partTime (p : Part) (x : KnockAnalyser) : (p.setKna x).partTime = p.partTime := rfl
@[simp] theorem Part.setKna_ptu (p : Part) (x : KnockAnalyser) : (p.setKna x).ptu = p.ptu := rfl
@[simp] theorem Part.setKna_csh (p : Part) (x : KnockAnalyser) : (p.setKna x).csh = p.csh := rfl
@[simp] theorem Part.setKna_atk (p : Part) (x : KnockAnalyser) : (p.setKna x).atk = p.atk := rfl
@[simp] theorem Part.setKna_flc (p : Part) (x : KnockAnalyser) : (p.setKna x).flc = p.flc := rfl
@[simp] theorem Part.setKna_sga (p : Part) (x : KnockAnalyser) : (p.setKna x).sga = p.sga := rfl
@[simp] theorem Part.setKna_kna (p : Part) (x : KnockAnalyser) : (p.setKna x).kna = x := rfl
@[simp] theorem Part.setKna_cxu (p : Part) (x : KnockAnalyser) : (p.setKna x).cxu = p.cxu := rfl
@[simp] theorem Part.setKna_hsu (p : Part) (x : KnockAnalyser) : (p.setKna x).hsu = p.hsu := rfl
@[simp] theorem Part.setKna_stb (p : Part) (x : KnockAnalyser) : (p.setKna x).stb = p.stb := rfl
@[simp] theorem Part.setKna_pse (p : Part) (x : KnockAnalyser) : (p.setKna x).pse = p.pse := rfl
@[simp] theorem Part.setKna_ntu (p : Part) (x : KnockAnalyser) : (p.setKna x).ntu = p.ntu := rfl
@[simp] theorem Part.setCxu_partTime (p : Part) (x : ContextUnit) : (p.setCxu x).partTime = p.partTime := rfl
@[simp] theorem Part.setCxu_ptu (p : Part) (x : ContextUnit) : (p.setCxu x).ptu = p.ptu := rfl
@[simp] theorem Part.setCxu_csh (p : Part) (x : ContextUnit) : (p.setCxu x).csh = p.csh := rfl
@[simp] theorem Part.setCxu_atk (p : Part) (x : ContextUnit) : (p.setCxu x).atk = p.atk := rfl
@[simp] theorem Part.setCxu_flc (p : Part) (x : ContextUnit) : (p.setCxu x).flc = p.flc := rfl
@[simp] theorem Part.setCxu_sga (p : Part) (x : ContextUnit) : (p.setCxu x).sga = p.sga := rfl
@[simp] theorem Part.setCxu_kna (p : Part) (x : ContextUnit) : (p.setCxu x).kna = p.kna := rfl
@[simp] theorem Part.setCxu_cxu (p : Part) (x : ContextUnit) : (p.setCxu x).cxu = x := rfl
@[simp] theorem Part.setCxu_hsu (p : Part) (x : ContextUnit) : (p.setCxu x).hsu = p.hsu := rfl
@[simp] theorem Part.setCxu_stb (p : Part) (x : ContextUnit) : (p.setCxu x).stb = p.stb := rfl
@[simp] theorem Part.setCxu_pse (p : Part) (x : ContextUnit) : (p.setCxu x).pse = p.pse := rfl
@[simp] theorem Part.setCxu_ntu (p : Part) (x : ContextUnit) : (p.setCxu x).ntu = p.ntu := rfl
@[simp] theorem Part.setHsu_partTime (p : Part) (x : HistoryUnit) : (p.setHsu x).partTime = p.partTime := rfl
@[simp] theorem Part.setHsu_ptu (p : Part) (x : HistoryUnit) : (p.setHsu x).ptu = p.ptu := rfl
@[simp] theorem Part.setHsu_csh (p : Part) (x : HistoryUnit) : (p.setHsu x).csh = p.csh := rfl
@[simp] theorem Part.setHsu_atk (p : Part) (x : HistoryUnit) : (p.setHsu x).atk = p.atk := rfl
@[simp] theorem Part.setHsu_flc (p : Part) (x : HistoryUnit) : (p.setHsu x).flc = p.flc := rfl
@[simp] theorem Part.setHsu_sga (p : Part) (x : HistoryUnit) : (p.setHsu x).sga = p.sga := rfl
@[simp] theorem Part.setHsu_kna (p : Part) (x : HistoryUnit) : (p.setHsu x).kna = p.kna := rfl
@[simp] theorem Part.setHsu_cxu (p : Part) (x : HistoryUnit) : (p.setHsu x).cxu = p.cxu := rfl
@[simp] theorem Part.setHsu_hsu (p : Part) (x : HistoryUnit) : (p.setHsu x).hsu = x := rfl
@[simp] theorem Part.setHsu_stb (p : Part) (x : HistoryUnit) : (p.setHsu x).stb = p.stb := rfl
@[simp] theorem Part.setHsu_pse (p : Part) (x : HistoryUnit) : (p.setHsu x).pse = p.pse := rfl
@[simp] theorem Part.setHsu_ntu (p : Part) (x : HistoryUnit) : (p.setHsu x).ntu = p.ntu := rfl
@[simp] theorem Part.setStb_partTime (p : Part) (x : Statistics) : (p.setStb x).partTime = p.partTime := rfl
@[simp] theorem Part.setStb_ptu (p : Part) (x : Statistics) : (p.setStb x).ptu = p.ptu := rfl
@[simp] theorem Part.setStb_csh (p : Part) (x : Statistics) : (p.setStb x).csh = p.csh := rfl
@[simp] theorem Part.setStb_atk (p : Part) (x : Statistics) : (p.setStb x).atk = p.atk := rfl
@[simp] theorem Part.setStb_flc (p : Part) (x : Statistics) : (p.setStb x).flc = p.flc := rfl
@[simp] theorem Part.setStb_sga (p : Part) (x : Statistics) : (p.setStb x).sga = p.sga := rfl
@[simp] theorem Part.setStb_kna (p : Part) (x : Statistics) : (p.setStb x).kna = p.kna := rfl
@[simp] theorem Part.setStb_cxu (p : Part) (x : Statistics) : (p.setStb x).cxu = p.cxu := rfl
@[simp] theorem Part.setStb_hsu (p : Part) (x : Statistics) : (p.setStb x).hsu = p.hsu := rfl
@[simp] theorem Part.setStb_stb (p : Part) (x : Statistics) : (p.setStb x).stb = x := rfl
@[simp] theorem Part.setStb_pse (p : Part) (x : Statistics) : (p.setStb x).pse = p.pse := rfl
@[simp] theorem Part.setStb_ntu (p : Part) (x : Statistics) : (p.setStb x).ntu = p.ntu := rfl
@[simp] theorem Part.setPse_partTime (p : Part) (x : PostEngine) : (p.setPse x).partTime = p.partTime := rfl
@[simp] theorem Part.setPse_ptu (p : Part) (x : PostEngine) : (p.setPse x).ptu = p.ptu := rfl
@[simp] theorem Part.setPse_csh (p : Part) (x : PostEngine) : (p.setPse x).csh = p.csh := rfl
@[simp] theorem Part.setPse_atk (p : Part) (x : PostEngine) : (p.setPse x).atk = p.atk := rfl
@[simp] theorem Part.setPse_flc (p : Part) (x : PostEngine) : (p.setPse x).flc = p.flc := rfl
@[simp] theorem Part.setPse_sga (p : Part) (x : PostEngine) : (p.setPse x).sga = p.sga := rfl
@[simp] theorem Part.setPse_kna (p : Part) (x : PostEngine) : (p.setPse x).kna = p.kna := rfl
@[simp] theorem Part.setPse_cxu (p : Part) (x : PostEngine) : (p.setPse x).cxu = p.cxu := rfl
@[simp] theorem Part.setPse_hsu (p : Part) (x : PostEngine) : (p.setPse x).hsu = p.hsu := rfl
@[simp] theorem Part.setPse_stb (p : Part) (x : PostEngine) : (p.setPse x).stb = p.stb := rfl
@[simp] theorem Part.setPse_pse (p : Part) (x : PostEngine) : (p.setPse x).pse = x := rfl
@[simp] theorem Part.setPse_ntu (p : Part) (x : PostEngine) : (p.setPse x).ntu = p.ntu := rfl
@[simp] theorem Part.setNtu_partTime (p : Part) (x : NoticeUnit) : (p.setNtu x).partTime = p.partTime := rfl
@[simp] theorem Part.setNtu_ptu (p : Part) (x : NoticeUnit) : (p.setNtu x).ptu = p.ptu := rfl
@[simp] theorem Part.setNtu_csh (p : Part) (x : NoticeUnit) : (p.setNtu x).csh = p.csh := rfl
@[simp] theorem Part.setNtu_atk (p : Part) (x : NoticeUnit) : (p.setNtu x).atk = p.atk := rfl
@[simp] theorem Part.setNtu_flc (p : Part) (x : NoticeUnit) : (p.setNtu x).flc = p.flc := rfl
@[simp] theorem Part.setNtu_sga (p : Part) (x : NoticeUnit) : (p.setNtu x).sga = p.sga := rfl
@[simp] theorem Part.setNtu_kna (p : Part) (x : NoticeUnit) : (p.setNtu x).kna = p.kna := rfl
@[simp] theorem Part.setNtu_cxu (p : Part) (x : NoticeUnit) : (p.setNtu x).cxu = p.cxu := rfl
@[simp] theorem Part.setNtu_hsu (p : Part) (x : NoticeUnit) : (p.setNtu x).hsu = p.hsu := rfl
@[simp] theorem Part.setNtu_stb (p : Part) (x : NoticeUnit) : (p.setNtu x).stb = p.stb := rfl
@[simp] theorem Part.setNtu_pse (p : Part) (x : NoticeUnit) : (p.setNtu x).pse = p.pse := rfl
@[simp] theorem Part.setNtu_ntu (p : Part) (x : NoticeUnit) : (p.setNtu x).ntu = x := rfl
@[simp] theorem State.setPart_part (s : State) (x : Part) : (s.setPart x).part = x := rfl
@[simp] theorem State.setPart_sram (s : State) (x : Part) : (s.setPart x).sram = s.sram := rfl
@[simp] theorem State.setPart_reply (s : State) (x : Part) : (s.setPart x).reply = s.reply := rfl
@[simp] theorem State.setPart_freeCount (s : State) (x : Part) : (s.setPart x).freeCount = s.freeCount := rfl
@[simp] theorem State.setPart_pending (s : State) (x : Part) : (s.setPart x).pending = s.pending := rfl
@[simp] theorem State.setSram_part (s : State) (x : Memory) : (s.setSram x).part = s.part := rfl
@[simp] theorem State.setSram_sram (s : State) (x : Memory) : (s.setSram x).sram = x := rfl
@[simp] theorem State.setSram_reply (s : State) (x : Memory) : (s.setSram x).reply = s.reply := rfl
@[simp] theorem State.setSram_freeCount (s : State) (x : Memory) : (s.setSram x).freeCount = s.freeCount := rfl
@[simp] theorem State.setSram_pending (s : State) (x : Memory) : (s.setSram x).pending = s.pending := rfl
@[simp] theorem State.setReply_part (s : State) (x : Option Reply) : (s.setReply x).part = s.part := rfl
@[simp] theorem State.setReply_sram (s : State) (x : Option Reply) : (s.setReply x).sram = s.sram := rfl
@[simp] theorem State.setReply_reply (s : State) (x : Option Reply) : (s.setReply x).reply = x := rfl
@[simp] theorem State.setReply_freeCount (s : State) (x : Option Reply) : (s.setReply x).freeCount = s.freeCount := rfl
@[simp] theorem State.setReply_pending (s : State) (x : Option Reply) : (s.setReply x).pending = s.pending := rfl
@[simp] theorem State.setFreeCount_part (s : State) (x : Nat) : (s.setFreeCount x).part = s.part := rfl
@[simp] theorem State.setFreeCount_sram (s : State) (x : Nat) : (s.setFreeCount x).sram = s.sram := rfl
@[simp] theorem State.setFreeCount_reply (s : State) (x : Nat) : (s.setFreeCount x).reply = s.reply := rfl
@[simp] theorem State.setFreeCount_freeCount (s : State) (x : Nat) : (s.setFreeCount x).freeCount = x := rfl
@[simp] theorem State.setFreeCount_pending (s : State) (x : Nat) : (s.setFreeCount x).pending = s.pending := rfl
@[simp] theorem State.setPending_part (s : State) (x : List Instr) : (s.setPending x).part = s.part := rfl
@[simp] theorem State.setPending_sram (s : State) (x : List Instr) : (s.setPending x).sram = s.sram := rfl
@[simp] theorem State.setPending_reply (s : State) (x : List Instr) : (s.setPending x).reply = s.reply := rfl
@[simp] theorem State.setPending_freeCount (s : State) (x : List Instr) : (s.setPending x).freeCount = s.freeCount := rfl
@[simp] theorem State.setPending_pending (s : State) (x : List Instr) : (s.setPending x).pending = x := rfl

end Sys2Proof.Machine
end

