-- ==== Sys2Proof/Laws/Bus.lean ====
section
/-! SUPPORT. What a presented processor cycle does, said once: granted at once, refreshed, or held; and what a write in
the Configuration Page delivers. -/

namespace Sys2Proof.Machine

theorem setHeld_of_none {p : Part} (h : p.ptu.held = none) : p.setHeld none = p := by
  cases p with
  | mk t u c a f g k x y z w n =>
    cases u
    simp only [Part.setHeld, Part.setPtu] at h ⊢
    subst h
    rfl

theorem settleUpstream_idle {s : State} (n : Nat) (h : s.part.upstreamBusy = false) : settleUpstream n s = s := by
  cases n with
  | zero => rfl
  | succ n =>
    unfold settleUpstream
    rw [h]
    rfl

theorem upstreamBusy_of_grants {p : Part} (h : p.grantsAtOnce) : p.upstreamBusy = false := by
  unfold Part.upstreamBusy
  rw [h.1, h.2.1]
  rfl

theorem present_idle {s : State} (c : Cycle) (h : s.part.upstreamBusy = false) :
    present c s = s.setPart (arrive c s.part) := by
  unfold present
  rw [settleUpstream_idle _ h]
  simp [h]

/-- What happens to a cycle that is granted as it arrives. -/
theorem arrive_granted {p : Part} (c : Cycle) (h : p.grantsAtOnce) :
    arrive c p = release ⟨c, .injectionBusy, !c.write && p.isLive c.address⟩
      (p.setHeld (some ⟨c, .injectionBusy, !c.write && p.isLive c.address⟩)) := by
  have hp : ¬ (p.setHeld (some ⟨c, .injectionBusy, !c.write && p.isLive c.address⟩)).ptu.port ≠ .free := by
    intro e
    exact e h.1
  have hf : (p.setHeld (some ⟨c, .injectionBusy, !c.write && p.isLive c.address⟩)).forces = false := h.2.2
  unfold arrive arbitrate
  rw [if_neg hp]
  show (if (p.setHeld (some ⟨c, .injectionBusy, !c.write && p.isLive c.address⟩)).forces = true then _ else _) = _
  rw [hf]
  rfl

/-- A write granted at once is forwarded, and its content is delivered (R3, R6, R7). -/
theorem present_write {s : State} (a : Addr) (d : Word) (e : Enables) (h : s.part.grantsAtOnce) :
    present ⟨a, d, e, true⟩ s
      = s.setPart (deliver ⟨a, d, e, true⟩ (s.part.setPort (.forwarding ⟨a, d, e, true⟩ true))) := by
  rw [present_idle _ (upstreamBusy_of_grants h), arrive_granted _ h]
  have : ∀ x, (s.part.setHeld x).setHeld none = s.part.setHeld none := fun _ => rfl
  simp only [release, Bool.not_true, Bool.false_and, this, setHeld_of_none h.2.1]
  rfl

/-- A read outside the live windows granted at once is forwarded (R3). -/
theorem present_read {s : State} (a : Addr) (d : Word) (e : Enables) (h : s.part.grantsAtOnce)
    (hl : s.part.isLive a = false) :
    present ⟨a, d, e, false⟩ s = s.setPart (s.part.setPort (.forwarding ⟨a, d, e, false⟩ true)) := by
  rw [present_idle _ (upstreamBusy_of_grants h), arrive_granted _ h]
  have : ∀ x, (s.part.setHeld x).setHeld none = s.part.setHeld none := fun _ => rfl
  simp only [release, hl, Bool.and_false, this, setHeld_of_none h.2.1]
  rfl

theorem capture_isSome {p : Part} {a : Addr} (h : p.isLive a = true) : ∃ v, capture a p = some v := by
  unfold Part.isLive at h
  unfold capture
  split at h
  · exact ⟨_, rfl⟩
  · exact ⟨_, rfl⟩
  all_goals simp at h

/-- A refresh read granted at once: its word is captured and its refresh write begins (R10). -/
theorem present_refresh {s : State} (a : Addr) (d : Word) (e : Enables) (v : Word) (h : s.part.grantsAtOnce)
    (hl : s.part.isLive a = true) (hv : capture a s.part = some v) :
    present ⟨a, d, e, false⟩ s
      = s.setPart ((s.part.setHeld (some ⟨⟨a, d, e, false⟩, .refresh, true⟩)).setPort
          (.refreshing (wordAddress a) v)) := by
  rw [present_idle _ (upstreamBusy_of_grants h), arrive_granted _ h]
  have hc : ∀ x, capture a (s.part.setHeld x) = some v := fun _ => hv
  simp only [release, hl, hc, Bool.not_false, Bool.and_true, if_true]
  rfl

/-- A cycle that arrives while a word of the part's own, or a cycle dropped by ECU reset, has the port is held (R4, R13). -/
theorem present_held {s : State} (c : Cycle) (h : s.part.upstreamBusy = false) (hp : s.part.ptu.port ≠ .free) :
    present c s = s.setPart (s.part.setHeld
      (some ⟨c, .injectionBusy, !c.write && s.part.isLive c.address⟩)) := by
  rw [present_idle _ h]
  unfold arrive arbitrate
  rw [if_pos]
  exact hp

/-! ### The Configuration Page -/

theorem pageBase_bounds (strap : BitVec 4) : 0xF00000 ≤ pageBase strap ∧ pageBase strap + 0x1000 ≤ 2 ^ 24
    ∧ pageBase strap % 4 = 0 := by
  unfold pageBase
  have := strap.isLt
  omega

theorem pageAddress_toNat (strap : BitVec 4) (o : Nat) (h : o < 0x1000) :
    (BitVec.ofNat 24 (pageBase strap + o)).toNat = pageBase strap + o := by
  have := pageBase_bounds strap
  rw [BitVec.toNat_ofNat, Nat.mod_eq_of_lt (by omega)]

/-- The content of a write in the Configuration Page reaches the CSH with its offset, data and enables (R19). -/
theorem deliver_page (p : Part) (a : Addr) (d : Word) (e : Enables)
    (h : within a.toNat (pageBase p.ptu.strap) 0x1000 = true) :
    deliver ⟨a, d, e, true⟩ p = takePageWrite (wordAddress a - pageBase p.ptu.strap) d e p := by
  unfold deliver
  have : p.windowOf a = some .configPage := by
    unfold Part.windowOf
    rw [if_pos h]
  rw [show (⟨a, d, e, true⟩ : Cycle).address = a from rfl, this]

/-- A write at an offset of the page, granted at once. -/
theorem presentPage_eq {s : State} (o : Nat) (d : Word) (e : Enables) (ho : o < 0x1000) (h : s.part.grantsAtOnce) :
    presentPage o d e s = s.setPart (takePageWrite (o / 4 * 4) d e
      (s.part.setPort (.forwarding (pageCycle s.part.ptu.strap o d e) true))) := by
  unfold presentPage pageCycle
  rw [present_write _ _ _ h]
  have hb := pageBase_bounds s.part.ptu.strap
  have ha := pageAddress_toNat s.part.ptu.strap o ho
  rw [deliver_page]
  · have : wordAddress (BitVec.ofNat 24 (pageBase s.part.ptu.strap + o)) - pageBase s.part.ptu.strap = o / 4 * 4 := by
      unfold wordAddress
      rw [ha]
      omega
    show s.setPart (takePageWrite (wordAddress _ - pageBase s.part.ptu.strap) _ _ _) = _
    rw [this]
  · show within _ (pageBase s.part.ptu.strap) 0x1000 = true
    rw [ha]
    unfold within
    simp only [Bool.and_eq_true, decide_eq_true_eq]
    omega

/-- A command word, granted at once, is taken as it is forwarded (R20). -/
theorem presentCommand_eq {s : State} (o : Nat) (d : Word) (ho : o < 0x40) (h4 : o % 4 = 0) (h : s.part.grantsAtOnce) :
    presentPage o d fullWord s = s.setPart (takeCommand o d
      (s.part.setPort (.forwarding (pageCycle s.part.ptu.strap o d fullWord) true))) := by
  rw [presentPage_eq o d fullWord (by omega) h]
  have : o / 4 * 4 = o := by omega
  rw [this]
  unfold takePageWrite
  rw [if_pos ho, if_pos rfl]

end Sys2Proof.Machine
end

