-- ==== Sys2Proof/Laws/Kept.lean ====
section
/-! SUPPORT. `Sound p q`: the invariants of Safety pass from `p` to `q`. `Calm p q`: moreover part time and the Staging Copy
are kept and no live counter falls. `Kept p q`: moreover the port, the held cycle and the budget counter are kept. -/

namespace Sys2Proof.Machine

/-- From `p` to `q` the invariants are preserved. -/
structure Sound (p q : Part) : Prop where
  strap : q.ptu.strap = p.ptu.strap
  wf : Memory.wf p.csh.staging → Memory.wf q.csh.staging
  bounds : p.withinBounds → q.withinBounds
  list : p.listAgrees → q.listAgrees
  modes : p.modesAgree → q.modesAgree

/-- From `p` to `q` the invariants are preserved, part time and the Staging Copy are kept, and no live counter falls. -/
structure Calm (p q : Part) : Prop extends Sound p q where
  time : q.partTime = p.partTime
  staging : q.csh.staging = p.csh.staging
  live : ∀ k, (p.liveCounter k).toNat ≤ (q.liveCounter k).toNat

/-- `Calm`, and the downstream port, the held cycle and the forced-injection budget counter are kept: what the blocks
behind the PTU do. -/
structure Kept (p q : Part) : Prop extends Calm p q where
  port : q.ptu.port = p.ptu.port
  held : q.ptu.held = p.ptu.held
  forced : q.ptu.forcedCount = p.ptu.forcedCount

theorem Sound.refl (p : Part) : Sound p p := ⟨rfl, id, id, id, id⟩

theorem Sound.trans {p q r : Part} (h : Sound p q) (k : Sound q r) : Sound p r :=
  ⟨k.strap.trans h.strap, k.wf ∘ h.wf, k.bounds ∘ h.bounds, k.list ∘ h.list, k.modes ∘ h.modes⟩

theorem Calm.refl (p : Part) : Calm p p := ⟨Sound.refl p, rfl, rfl, fun _ => Nat.le_refl _⟩

theorem Calm.trans {p q r : Part} (h : Calm p q) (k : Calm q r) : Calm p r :=
  ⟨h.toSound.trans k.toSound, k.time.trans h.time, k.staging.trans h.staging,
   fun i => Nat.le_trans (h.live i) (k.live i)⟩

theorem Kept.refl (p : Part) : Kept p p := ⟨Calm.refl p, rfl, rfl, rfl⟩

theorem Kept.trans {p q r : Part} (h : Kept p q) (k : Kept q r) : Kept p r :=
  ⟨h.toCalm.trans k.toCalm, k.port.trans h.port, k.held.trans h.held, k.forced.trans h.forced⟩

theorem Kept.foldl {α : Type} {f : Part → α → Part} (h : ∀ p a, Kept p (f p a)) (l : List α) (p : Part) :
    Kept p (l.foldl f p) := by
  induction l generalizing p with
  | nil => exact Kept.refl p
  | cons a l ih => exact (h p a).trans (ih (f p a))

/-! ### Updates that touch none of it -/

theorem Kept.setAtk (p : Part) (x : Tracker) : Kept p (p.setAtk x) :=
  ⟨⟨⟨rfl, id, id, id, id⟩, rfl, rfl, fun _ => Nat.le_refl _⟩, rfl, rfl, rfl⟩

theorem Kept.setNtu (p : Part) (x : NoticeUnit) : Kept p (p.setNtu x) :=
  ⟨⟨⟨rfl, id, id, id, id⟩, rfl, rfl, fun _ => Nat.le_refl _⟩, rfl, rfl, rfl⟩

theorem Kept.setCxu (p : Part) (x : ContextUnit) (h : p.cxu.roughHistory.length ≤ 8 → x.roughHistory.length ≤ 8) :
    Kept p (p.setCxu x) :=
  ⟨⟨⟨rfl, id, fun b => ⟨b.1, b.2.1, b.2.2.1, b.2.2.2.1, b.2.2.2.2.1, h b.2.2.2.2.2⟩, id, id⟩, rfl, rfl,
   fun _ => Nat.le_refl _⟩, rfl, rfl, rfl⟩

theorem Kept.setSga (p : Part) (x : SegmentAnalyser) (h : p.sga.sequence.length ≤ 3 → x.sequence.length ≤ 3) :
    Kept p (p.setSga x) :=
  ⟨⟨⟨rfl, id, fun b => ⟨b.1, b.2.1, b.2.2.1, b.2.2.2.1, h b.2.2.2.2.1, b.2.2.2.2.2⟩, id, id⟩, rfl, rfl,
   fun _ => Nat.le_refl _⟩, rfl, rfl, rfl⟩

theorem Kept.setKna (p : Part) (x : KnockAnalyser) (h : framesFit p.kna.frames → framesFit x.frames) :
    Kept p (p.setKna x) :=
  ⟨⟨⟨rfl, id, fun b => ⟨b.1, b.2.1, h b.2.2.1, b.2.2.2⟩, id, id⟩, rfl, rfl, fun _ => Nat.le_refl _⟩, rfl, rfl, rfl⟩

theorem Kept.setHsu (p : Part) (x : HistoryUnit) (h : x.cylinders = p.hsu.cylinders) : Kept p (p.setHsu x) :=
  ⟨⟨⟨rfl, id, fun b => ⟨b.1, b.2.1, b.2.2.1, fun c => by
      have := b.2.2.2.1 c
      simp only [Part.cylinderHistory, Part.setHsu, h] at this ⊢
      exact this, b.2.2.2.2⟩, id, id⟩, rfl, rfl, fun _ => Nat.le_refl _⟩, rfl, rfl, rfl⟩

theorem Kept.setPse (p : Part) (x : PostEngine) (h : p.pse.postQueue.length ≤ 16 → x.postQueue.length ≤ 16) :
    Kept p (p.setPse x) :=
  ⟨⟨⟨rfl, id, fun b => ⟨b.1, h b.2.1, b.2.2⟩, id, id⟩, rfl, rfl, fun _ => Nat.le_refl _⟩, rfl, rfl, rfl⟩

theorem Calm.setPtu (p : Part) (x : PassThrough) (hs : x.strap = p.ptu.strap)
    (h : p.ptu.queue.length ≤ 32 → x.queue.length ≤ 32) : Calm p (p.setPtu x) :=
  ⟨⟨hs, id, fun b => ⟨h b.1, b.2⟩, id, fun m => by
      unfold Part.modesAgree at m ⊢
      rw [Part.setPtu_csh, Part.setPtu_ptu, hs]
      exact m⟩, rfl, rfl, fun _ => Nat.le_refl _⟩

theorem Kept.setFlc (p : Part) (x : FiringList)
    (h : p.listAgrees → (p.setFlc x).listAgrees) : Kept p (p.setFlc x) :=
  ⟨⟨⟨rfl, id, id, h, id⟩, rfl, rfl, fun _ => Nat.le_refl _⟩, rfl, rfl, rfl⟩

theorem Calm.setPort (p : Part) (x : Port) : Calm p (p.setPort x) := Calm.setPtu p _ rfl id

theorem Calm.setHeld (p : Part) (x : Option HeldCycle) : Calm p (p.setHeld x) := Calm.setPtu p _ rfl id

theorem Kept.emptyLatches (p : Part) : Kept p (emptyLatches p) := ⟨Calm.setPtu p _ rfl id, rfl, rfl, rfl⟩

theorem Kept.setQueue (p : Part) (x : List QueuedWord) (h : p.ptu.queue.length ≤ 32 → x.length ≤ 32) :
    Kept p (p.setQueue x) := ⟨Calm.setPtu p _ rfl h, rfl, rfl, rfl⟩

theorem Kept.setCsh (p : Part) (x : ConfigShadow) (hs : x.staging = p.csh.staging)
    (h : p.modesAgree → (p.setCsh x).modesAgree) : Kept p (p.setCsh x) :=
  ⟨⟨⟨rfl, by rw [Part.setCsh_csh, hs]; exact id, id, id, h⟩, rfl, hs, fun _ => Nat.le_refl _⟩, rfl, rfl, rfl⟩

/-! ### Notices and counters -/

theorem Kept.setNotice (n : Notice) (p : Part) : Kept p (setNotice n p) := Kept.setNtu p _

theorem Kept.clearNotices (m : BitVec 13) (p : Part) : Kept p (clearNotices m p) := Kept.setNtu p _

theorem Table.read_write {α : Type} {n : Nat} (v : Vector α n) (i j : Nat) (x d : α) :
    Table.read (Table.write v i x) j d = if i = j ∧ i < n then x else Table.read v j d := by
  unfold Table.read Table.write
  rw [Vector.getElem?_setIfInBounds]
  split
  · rename_i h
    subst h
    split
    · rename_i hlt
      simp [hlt]
    · rename_i hlt
      simp [hlt]
  · rename_i h
    simp [h]

theorem liveCounter_setLive (k j : Nat) (v : Word) (p : Part) :
    (setLive k v p).liveCounter j = if k = j ∧ k < 538 then v else p.liveCounter j :=
  Table.read_write ..

theorem liveCounter_setNotice (n : Notice) (p : Part) (j : Nat) : (setNotice n p).liveCounter j = p.liveCounter j := rfl

theorem Kept.setLive (k : Nat) (v : Word) (p : Part) (h : (p.liveCounter k).toNat ≤ v.toNat) :
    Kept p (setLive k v p) :=
  ⟨⟨⟨rfl, id, id, id, id⟩, rfl, rfl, fun j => by
    rw [liveCounter_setLive]
    split
    · rename_i e
      rw [← e.1]
      exact h
    · exact Nat.le_refl _⟩, rfl, rfl, rfl⟩

theorem Kept.increment (k : Nat) (p : Part) : Kept p (increment k p) := by
  unfold Machine.increment
  have step : p.liveCounter k ≠ 0xFFFFFFFF → Kept p (Machine.setLive k (p.liveCounter k + 1) p) := by
    intro h
    apply Kept.setLive
    bv_omega
  dsimp only
  split
  · exact Kept.refl p
  · rename_i h
    split
    · exact (step h).trans (Kept.setNotice _ _)
    · exact step h

theorem Kept.report (c : EngineCounter) (p : Part) : Kept p (report c p) := Kept.increment _ p

theorem Kept.countRecord (d : Decided) (p : Part) : Kept p (countRecord d p) :=
  Kept.foldl (fun p _ => Kept.increment _ p) _ p

theorem Kept.takeSnapshot (p : Part) : Kept p (takeSnapshot p) :=
  ⟨⟨⟨rfl, id, id, id, id⟩, rfl, rfl, fun _ => Nat.le_refl _⟩, rfl, rfl, rfl⟩

theorem Sound.clearLive (p : Part) : Sound p (clearLive p) := ⟨rfl, id, id, id, id⟩

theorem Sound.snapshotAndClearLive (p : Part) : Sound p (snapshotAndClearLive p) := ⟨rfl, id, id, id, id⟩

end Sys2Proof.Machine
end

