-- ==== Sys2Proof/Laws/KeptPosting.lean ====
section
/-! SUPPORT. The Post Engine, the History Unit and the core of the Firing List Controller keep what `Kept` names. -/

namespace Sys2Proof.Machine

/-! ### The Post Engine -/

theorem queuedVerdict_length (g : Settings) (slot : Nat) (now : Micros) (v : Verdict) :
    (queuedVerdict g slot now v).length = 8 := by
  simp [queuedVerdict, Verdict.words]

theorem Kept.moveVerdict (v : Verdict) (rest : List Verdict) (p : Part) (hm : canMove p = true)
    (hq : p.pse.postQueue = v :: rest) : Kept p (moveVerdict v rest p) := by
  have hroom : p.ptu.queue.length + 8 ≤ 32 := by
    unfold canMove at hm
    simp only [Bool.and_eq_true, decide_eq_true_eq] at hm
    exact hm.1.2
  refine (Kept.setQueue p _ (fun _ => ?_)).trans (Kept.setPse _ _ (fun h => ?_))
  · rw [List.length_append, queuedVerdict_length]
    exact hroom
  · have h' : p.pse.postQueue.length ≤ 16 := h
    rw [hq, List.length_cons] at h'
    exact Nat.le_of_succ_le h'

theorem Kept.moveLoop (n : Nat) (p : Part) : Kept p (moveLoop n p) := by
  induction n generalizing p with
  | zero => exact Kept.refl p
  | succ n ih =>
    unfold Machine.moveLoop
    split
    · exact Kept.refl p
    · rename_i v rest hq
      split
      · rename_i hm
        exact (Kept.moveVerdict v rest p hm hq).trans (ih _)
      · exact Kept.refl p

theorem Kept.moveTest (p : Part) : Kept p (moveTest p) := Kept.moveLoop _ p

theorem Kept.offerVerdict (v : Verdict) (p : Part) : Kept p (offerVerdict v p) := by
  unfold Machine.offerVerdict
  split
  · rename_i h
    refine (Kept.setPse p _ (fun _ => ?_)).trans (Kept.moveTest _)
    rw [List.length_append]
    exact h
  · exact (Kept.report _ p).trans (Kept.setNotice _ _)

theorem Kept.postVerdict (d : Decided) (p : Part) : Kept p (postVerdict d p) := by
  unfold Machine.postVerdict
  split
  · exact Kept.offerVerdict _ p
  · exact Kept.refl p

theorem Kept.publication (p : Part) : Kept p (publication p) := by
  have h : Kept p (Machine.report .verdictsPosted (p.setPse { p.pse with published := p.pse.published + 1 })) := by
    refine Kept.trans ?_ (Kept.report _ _)
    exact Kept.setPse p _ id
  unfold Machine.publication
  dsimp only
  split
  · exact h.trans (Kept.setNotice _ _)
  · exact h

theorem Kept.takeConsumerCount (v : BitVec 16) (p : Part) : Kept p (takeConsumerCount v p) := by
  unfold Machine.takeConsumerCount
  split
  · refine Kept.trans ?_ (Kept.moveTest _)
    exact Kept.setPse p _ id
  · exact Kept.report _ p

theorem Kept.enterStopped (p : Part) : Kept p (enterStopped p) := by
  refine Kept.trans ?_ (Kept.setNotice _ _)
  exact Kept.setPse p _ id

theorem Kept.takePostStop (p : Part) : Kept p (takePostStop p) := by
  unfold Machine.takePostStop
  split
  · split
    · exact Kept.setPse p _ id
    · exact Kept.enterStopped p
  · exact Kept.refl p
  · exact Kept.refl p

theorem Kept.takePostResume (p : Part) : Kept p (takePostResume p) := by
  unfold Machine.takePostResume
  split
  · exact Kept.refl p
  · refine Kept.trans ?_ (Kept.moveTest _)
    exact Kept.setPse p _ id
  · refine Kept.trans ?_ (Kept.moveTest _)
    exact Kept.setPse p _ id

theorem Kept.reportNoPublishing (p : Part) : Kept p (reportNoPublishing p) := by
  unfold Machine.reportNoPublishing
  split
  · exact Kept.refl p
  · split
    · exact Kept.enterStopped p
    · exact Kept.refl p
    · exact Kept.refl p

theorem Kept.reportDropped (n : Nat) (p : Part) : Kept p (reportDropped n p) := by
  induction n generalizing p with
  | zero => exact Kept.refl p
  | succ n ih => exact (Kept.report _ p).trans (ih _)

theorem Kept.discardPostQueue (p : Part) : Kept p (discardPostQueue p) :=
  (Kept.reportDropped _ p).trans (Kept.setPse _ _ (fun _ => Nat.zero_le _))

/-! ### The History Unit -/

theorem cylinderHistory_setCylinder (c k : Nat) (h : CylinderHistory) (p : Part) :
    (setCylinder c h p).cylinderHistory k = if c - 1 = k - 1 ∧ c - 1 < 8 then h else p.cylinderHistory k :=
  Table.read_write ..

theorem appendEntry_length (ring : List HistoryEntry) (e : HistoryEntry) (h : ring.length ≤ 16) :
    (appendEntry ring e).length ≤ 16 := by
  unfold appendEntry
  dsimp only
  have hc : Config.historyCapacity = 16 := rfl
  split
  · rw [List.length_drop, List.length_append, List.length_singleton]
    omega
  · omega

theorem Kept.setCylinder (c : Nat) (h : CylinderHistory) (p : Part)
    (hr : p.withinBounds → h.ring.length ≤ 16) : Kept p (setCylinder c h p) :=
  ⟨⟨⟨rfl, id, fun b => ⟨b.1, b.2.1, b.2.2.1, fun k => by
      rw [cylinderHistory_setCylinder]
      split
      · exact hr b
      · exact b.2.2.2.1 k, b.2.2.2.2⟩, id, id⟩, rfl, rfl, fun _ => Nat.le_refl _⟩, rfl, rfl, rfl⟩

theorem Kept.healthNotice (a b : Health) (p : Part) : Kept p (healthNotice a b p) := by
  unfold Machine.healthNotice
  split <;> first | exact Kept.refl p | exact Kept.setNotice _ p

theorem Kept.alertNotice (a b : Bool) (p : Part) : Kept p (alertNotice a b p) := by
  unfold Machine.alertNotice
  split
  · exact Kept.setNotice _ p
  · exact Kept.refl p

theorem Kept.countTurbine (o : Option MisfireClass) (p : Part) : Kept p (countTurbine o p) := by
  unfold Machine.countTurbine
  split
  · exact Kept.setHsu p _ rfl
  · exact Kept.refl p

theorem Kept.historyTake (d : Decided) (p : Part) : Kept p (historyTake d p) := by
  unfold Machine.historyTake
  split
  · exact Kept.refl p
  · refine Kept.trans ?_ (Kept.countTurbine _ _)
    refine Kept.trans ?_ (Kept.alertNotice _ _ _)
    refine Kept.trans ?_ (Kept.healthNotice _ _ _)
    exact Kept.setCylinder _ _ p fun b => appendEntry_length _ _ (b.2.2.2.1 _)

theorem Table.read_build {α : Type} (n : Nat) (f : Nat → α) (i : Nat) (d : α) :
    Table.read (Table.build n f) i d = if i < n then f i else d := by
  unfold Table.read Table.build
  by_cases h : i < n
  · simp [h]
  · simp [h]

theorem Kept.releaseCylinders (m : Byte) (p : Part) : Kept p (releaseCylinders m p) :=
  ⟨⟨⟨rfl, id, fun b => ⟨b.1, b.2.1, b.2.2.1, fun k => by
      unfold Part.cylinderHistory Table.readCyl Machine.releaseCylinders
      rw [Part.setHsu_hsu, Table.read_build]
      split
      · split
        · exact Nat.zero_le _
        · exact b.2.2.2.1 k
      · exact Nat.zero_le _, b.2.2.2.2⟩, id, id⟩, rfl, rfl, fun _ => Nat.le_refl _⟩, rfl, rfl, rfl⟩

theorem Kept.turbineBoundary (p : Part) : Kept p (turbineBoundary p) := by
  unfold Machine.turbineBoundary
  dsimp only
  split
  · split
    · refine Kept.trans ?_ (Kept.setNotice _ _)
      exact Kept.setHsu p _ rfl
    · exact Kept.setHsu p _ rfl
  · exact Kept.setHsu p _ rfl

theorem Kept.turbineSyncLoss (p : Part) : Kept p (turbineSyncLoss p) := Kept.setHsu p _ rfl

theorem Kept.resetHistory (p : Part) : Kept p (resetHistory p) :=
  ⟨⟨⟨rfl, id, fun b => ⟨b.1, b.2.1, b.2.2.1, fun k => by
      unfold Part.cylinderHistory Table.readCyl Machine.resetHistory Table.read
      rw [Part.setHsu_hsu]
      by_cases h : k - 1 < 8
      · simp [h, CylinderHistory.reset]
      · simp [h, CylinderHistory.reset], b.2.2.2.2⟩, id, id⟩, rfl, rfl, fun _ => Nat.le_refl _⟩, rfl, rfl, rfl⟩

/-! ### Slots and the taking order -/

theorem slot_setSlot (i j : Nat) (r : Option Record) (p : Part) :
    (setSlot i r p).slot j = if i = j ∧ i < 24 then r else p.slot j :=
  Table.read_write ..

theorem slot_some_lt {p : Part} {i : Nat} (h : (p.slot i).isSome = true) : i < 24 := by
  by_contra hn
  unfold Part.slot Table.read at h
  rw [Vector.getElem?_eq_none (Nat.le_of_not_lt hn)] at h
  simp at h

/-- A record in a held slot is replaced by a record: the slots held stay the same. -/
theorem slot_setSlot_isSome {p : Part} {i : Nat} (r : Record) (h : (p.slot i).isSome = true) (j : Nat) :
    ((setSlot i (some r) p).slot j).isSome = (p.slot j).isSome := by
  rw [slot_setSlot]
  split
  · rename_i e
    rw [← e.1, h]
    rfl
  · rfl

theorem Kept.setSlot {p : Part} {i : Nat} (r : Record) (h : (p.slot i).isSome = true) :
    Kept p (setSlot i (some r) p) :=
  Kept.setFlc p _ fun l => ⟨l.1, fun j => (l.2 j).trans (by rw [← slot_setSlot_isSome r h j]; rfl)⟩

theorem Kept.setCounts (x : Vector Nat 8) (p : Part) : Kept p (setCounts x p) := Kept.setFlc p _ id

/-- The records listed are the records of the slots. -/
theorem records_mem {p : Part} {x : Nat × Record} (h : x ∈ p.records) :
    x.1 ∈ p.flc.order ∧ p.slot x.1 = some x.2 := by
  unfold Part.records at h
  rw [List.mem_filterMap] at h
  obtain ⟨i, hi, e⟩ := h
  cases hs : p.slot i with
  | none => rw [hs] at e; simp at e
  | some r =>
    rw [hs] at e
    simp only [Option.map_some, Option.some.injEq] at e
    subst e
    exact ⟨hi, hs⟩

theorem findRecord_mem {p : Part} {t : Record → Bool} {x : Nat × Record} (h : p.findRecord t = some x) :
    x ∈ p.records ∧ t x.2 = true :=
  ⟨List.mem_of_find?_eq_some h, by have := List.find?_some h; simpa using this⟩

theorem findRecord_isSome {p : Part} {t : Record → Bool} {i : Nat} {r : Record} (h : p.findRecord t = some (i, r)) :
    (p.slot i).isSome = true := by
  rw [(records_mem (findRecord_mem h).1).2]
  rfl

theorem Kept.leaveList (i c : Nat) (p : Part) : Kept p (leaveList i c p) := by
  unfold Machine.leaveList
  dsimp only
  refine Kept.trans ?_ (Kept.setCounts _ _)
  have e : (Machine.setSlot i none p).setFlc { (Machine.setSlot i none p).flc with
        order := (Machine.setSlot i none p).flc.order.filter fun j => j != i }
      = p.setFlc { p.flc with
        slots := Table.write p.flc.slots i none
        order := p.flc.order.filter fun j => j != i } := rfl
  rw [e]
  refine Kept.setFlc p _ fun l => ⟨l.1.filter _, fun j => ?_⟩
  have hs : (p.setFlc { p.flc with
      slots := Table.write p.flc.slots i none
      order := p.flc.order.filter fun j => j != i }).slot j = if i = j ∧ i < 24 then none else p.slot j :=
    Table.read_write ..
  rw [hs]
  show j ∈ p.flc.order.filter (fun j => j != i) ↔ _
  rw [List.mem_filter, l.2 j]
  by_cases hij : i = j
  · subst hij
    by_cases hi : i < 24
    · simp [hi]
    · have : (p.slot i).isSome = false := by
        by_contra hn
        exact hi (slot_some_lt (p := p) (i := i) (by cases hs : p.slot i <;> simp_all))
      simp [hi, this]
  · have : j ≠ i := fun e => hij e.symm
    simp [hij, this]

/-! ### Decision and abandonment -/

theorem Kept.learnReference (d : Decided) (p : Part) : Kept p (learnReference d p) := by
  unfold Machine.learnReference
  dsimp only
  split
  · exact Kept.setKna p _ id
  · exact Kept.refl p

theorem Kept.reportDecision (d : Decided) (p : Part) : Kept p (reportDecision d p) := by
  unfold Machine.reportDecision
  dsimp only
  have h0 := Kept.report .recordsDecided p
  split
  · split
    · exact (h0.trans (Kept.report _ _)).trans (Kept.report _ _)
    · exact h0.trans (Kept.report _ _)
  · split
    · exact h0.trans (Kept.report _ _)
    · exact h0

theorem Kept.decideRecord (i : Nat) (r : Record) (p : Part) : Kept p (decideRecord i r p) := by
  unfold Machine.decideRecord
  dsimp only
  refine Kept.trans ?_ (Kept.leaveList _ _ _)
  refine Kept.trans ?_ (Kept.reportDecision _ _)
  refine Kept.trans ?_ (Kept.postVerdict _ _)
  refine Kept.trans ?_ (Kept.learnReference _ _)
  exact (Kept.historyTake _ p).trans (Kept.countRecord _ _)

theorem Kept.decideLoop (sel : Nat → Bool) (n : Nat) (p : Part) : Kept p (decideLoop sel n p) := by
  induction n generalizing p with
  | zero => exact Kept.refl p
  | succ n ih =>
    unfold Machine.decideLoop
    split
    · exact Kept.refl p
    · exact (Kept.decideRecord _ _ p).trans (ih _)

theorem Kept.testReady (c : Nat) (p : Part) : Kept p (testReady c p) := Kept.decideLoop _ _ p

theorem Kept.testReadyAll (p : Part) : Kept p (testReadyAll p) := Kept.decideLoop _ _ p

theorem Kept.withdrawEval (i : Nat) (q : BitVec 16) (p : Part) : Kept p (withdrawEval i q p) := Kept.setKna p _ id

theorem Kept.abandon (x : AbandonReason) (i : Nat) (p : Part) : Kept p (abandon x i p) := by
  unfold Machine.abandon
  split
  · exact Kept.refl p
  · rename_i r _
    dsimp only
    have h : Kept p (Machine.leaveList i r.cylinder (Machine.report x.counter
        (if (r.closeTime.isSome && r.knock.isNone) = true then Machine.withdrawEval i r.seq p else p))) := by
      refine Kept.trans ?_ (Kept.leaveList _ _ _)
      refine Kept.trans ?_ (Kept.report _ _)
      split
      · exact Kept.withdrawEval _ _ p
      · exact Kept.refl p
    split
    · exact h.trans (Kept.testReady _ _)
    · exact h.trans (Kept.testReady _ _)
    · exact h
    · exact h

theorem Kept.abandonAll (x : AbandonReason) (p : Part) : Kept p (abandonAll x p) :=
  Kept.foldl (fun p i => Kept.abandon x i p) _ p

end Sys2Proof.Machine
end

