-- ==== Sys2Proof/Laws/KeptAnalysis.lean ====
section
/-! SUPPORT. The Knock Analyser, the Context Unit, the Firing List Controller, the Segment Analyser and the Angle Tracker
keep what `Kept` names. -/

namespace Sys2Proof.Machine

/-! ### The Knock Analyser -/

theorem Kept.takeKnockReport (i : Nat) (q : BitVec 16) (k : KnockReport) (p : Part) :
    Kept p (takeKnockReport i q k p) := by
  unfold Machine.takeKnockReport
  split
  · exact Kept.refl p
  · rename_i r hr
    have hs : (p.slot i).isSome = true := by rw [hr]; rfl
    split
    · dsimp only
      split
      · exact (Kept.setSlot _ hs).trans (Kept.testReady _ _)
      · exact Kept.setSlot _ hs
    · exact Kept.refl p

theorem Kept.updateSensor (s : Nat) (a b : Bool) (p : Part) : Kept p (updateSensor s a b p) := by
  unfold Machine.updateSensor
  dsimp only
  split
  · refine Kept.trans ?_ (Kept.setNotice _ _)
    exact Kept.setKna p _ id
  · exact Kept.setKna p _ id

theorem Kept.evaluate (e : PendingEval) (p : Part) : Kept p (evaluate e p) := by
  unfold Machine.evaluate
  dsimp only
  split
  · exact Kept.takeKnockReport _ _ _ p
  · exact (Kept.updateSensor _ _ _ p).trans (Kept.takeKnockReport _ _ _ _)

theorem Kept.evaluateEach (es : List PendingEval) (p : Part) : Kept p (evaluateEach es p) :=
  Kept.foldl (fun p _ => (Kept.withdrawEval _ _ p).trans (Kept.evaluate _ _)) es p

theorem Kept.frameClosure (f : Frame) (p : Part) : Kept p (frameClosure f p) := Kept.evaluateEach _ p

theorem Kept.expireKnockWaits (p : Part) : Kept p (expireKnockWaits p) := Kept.evaluateEach _ p

theorem Kept.windowFix (i : Nat) (r : Record) (t : Stamp) (p : Part) : Kept p (windowFix i r t p) := by
  unfold Machine.windowFix
  split
  · exact Kept.takeKnockReport _ _ _ p
  · dsimp only
    split
    · exact Kept.evaluate _ p
    · exact Kept.setKna p _ id

theorem Kept.setFrames (fs : List Frame) (p : Part) (h : framesFit p.kna.frames → framesFit fs) :
    Kept p (setFrames fs p) := Kept.setKna p _ h

/-- The FILLING frame replaced by a frame that fits leaves a store that fits. -/
theorem replaceFilling_fits {x : Frame} {fs : List Frame} (h : framesFit fs) (hx : x.fits) :
    framesFit (replaceFilling x fs) := by
  refine ⟨by rw [replaceFilling, List.length_map]; exact h.1, fun f hf => ?_⟩
  obtain ⟨a, ha, e⟩ := List.mem_map.mp hf
  subst e
  split
  · exact hx
  · exact h.2 a ha

theorem filling_spec {p : Part} {f : Frame} (h : p.filling = some f) : f ∈ p.kna.frames ∧ f.state = .filling :=
  ⟨List.mem_of_find?_eq_some h, by simpa using List.find?_some h⟩

theorem wordSamples_lt (w : Word) : ∀ x ∈ wordSamples w, x < 4096 := by
  intro x hx
  simp only [wordSamples, List.mem_cons, List.not_mem_nil, or_false] at hx
  rcases hx with rfl | rfl <;> exact (BitVec.extractLsb' _ _ _).isLt

/-- A FILLING frame that fits, with one more pair of samples: it fits, COMPLETE when it is full (R89). -/
theorem Frame.fits_append {f : Frame} (h : f.fits) (hf : f.state = .filling) (w : Word) :
    let x := { f with samples := f.samples ++ wordSamples w }
    (x.samples.length = 2 * f.pairs → { x with state := .complete }.fits)
      ∧ (x.samples.length ≠ 2 * f.pairs → x.fits) := by
  have hl : (f.samples ++ wordSamples w).length = f.samples.length + 2 := by
    rw [List.length_append]; rfl
  have hb := h.2.2.2.1 hf
  have he := h.2.1
  have hm : ∀ x ∈ f.samples ++ wordSamples w, x < 4096 := fun x hx => by
    rcases List.mem_append.mp hx with hx | hx
    · exact h.2.2.2.2 x hx
    · exact wordSamples_lt w x hx
  constructor
  · intro e
    refine ⟨h.1, ?_, Nat.le_of_eq e, fun c => absurd (show FrameState.complete = .filling from c) (by decide), hm⟩
    show (f.samples ++ wordSamples w).length % 2 = 0
    omega
  · intro e
    have e' : (f.samples ++ wordSamples w).length ≠ 2 * f.pairs := e
    refine ⟨h.1, ?_, ?_, fun _ => ?_, hm⟩
    · show (f.samples ++ wordSamples w).length % 2 = 0
      omega
    · show (f.samples ++ wordSamples w).length ≤ 2 * f.pairs
      omega
    · show (f.samples ++ wordSamples w).length < 2 * f.pairs
      omega

theorem Kept.truncateFilling (p : Part) : Kept p (truncateFilling p) := by
  unfold Machine.truncateFilling
  split
  · exact Kept.refl p
  · dsimp only
    refine Kept.trans ?_ (Kept.frameClosure _ _)
    refine Kept.trans ?_ (Kept.report _ _)
    rename_i f hf
    refine Kept.setFrames _ p fun h => replaceFilling_fits h ?_
    have := h.2 f (filling_spec hf).1
    exact ⟨this.1, this.2.1, this.2.2.1, fun c => by simp at c, this.2.2.2.2⟩

theorem oldestFrame_mem_or (start : Stamp) (fs : List Frame) (b : Option Frame) (f : Frame)
    (h : fs.foldl (fun best f =>
      match best with
      | none => some f
      | some a => if interval a.start start < interval f.start start then some f else some a) b = some f) :
    b = some f ∨ f ∈ fs := by
  induction fs generalizing b with
  | nil => exact Or.inl h
  | cons g fs ih =>
    rw [List.foldl_cons] at h
    rcases ih _ h with h | h
    · cases b with
      | none =>
        simp only [Option.some.injEq] at h
        exact Or.inr (by rw [h]; exact List.mem_cons_self ..)
      | some a =>
        dsimp only at h
        split at h
        · simp only [Option.some.injEq] at h
          exact Or.inr (by rw [h]; exact List.mem_cons_self ..)
        · exact Or.inl h
    · exact Or.inr (List.mem_cons_of_mem _ h)

/-- The frame that leaves a store is one of the store (R88). -/
theorem oldestFrame_mem {start : Stamp} {fs : List Frame} {f : Frame} (h : oldestFrame start fs = some f) : f ∈ fs := by
  rcases oldestFrame_mem_or start fs none f h with h | h
  · simp at h
  · exact h

theorem Kept.evictFrame (start : Stamp) (p : Part) : Kept p (evictFrame start p) := by
  unfold Machine.evictFrame
  split
  · exact Kept.refl p
  · refine Kept.trans ?_ (Kept.report _ _)
    exact Kept.setFrames _ p fun h => ⟨Nat.le_trans List.length_erase_le h.1, fun f hf => h.2 f (List.mem_of_mem_erase hf)⟩

theorem Kept.makeRoom (start : Stamp) (p : Part) : Kept p (makeRoom start p) := by
  unfold Machine.makeRoom
  split
  · exact Kept.refl p
  · exact Kept.evictFrame _ p

theorem oldestFrame_isSome_of (start : Stamp) (fs : List Frame) (a : Frame) :
    (fs.foldl (fun best f =>
      match best with
      | none => some f
      | some a => if interval a.start start < interval f.start start then some f else some a) (some a)).isSome = true := by
  induction fs generalizing a with
  | nil => rfl
  | cons g fs ih =>
    rw [List.foldl_cons]
    dsimp only
    split
    · exact ih g
    · exact ih a

theorem oldestFrame_isSome (start : Stamp) (fs : List Frame) (h : fs ≠ []) : (oldestFrame start fs).isSome = true := by
  cases fs with
  | nil => exact absurd rfl h
  | cons g fs => exact oldestFrame_isSome_of start fs g

theorem increment_kna (k : Nat) (p : Part) : (increment k p).kna = p.kna := by
  unfold increment
  dsimp only
  split
  · rfl
  · split <;> rfl

theorem report_kna (c : EngineCounter) (p : Part) : (report c p).kna = p.kna := increment_kna _ p

/-- After room is made the store holds fewer than six frames (R86, step 2). -/
theorem makeRoom_length (start : Stamp) (p : Part) (h : p.kna.frames.length ≤ 6) :
    (makeRoom start p).kna.frames.length ≤ 5 := by
  have hc : Config.frameCapacity = 6 := rfl
  unfold makeRoom
  split
  · omega
  · rename_i hfull
    unfold evictFrame
    have hne : p.kna.frames ≠ [] := fun e => hfull (by rw [e, hc]; decide)
    have hs := oldestFrame_isSome start _ hne
    split
    · rename_i e
      rw [e] at hs
      simp at hs
    · rename_i f e
      rw [report_kna]
      show (p.kna.frames.erase f).length ≤ 5
      rw [List.length_erase_of_mem (oldestFrame_mem e)]
      omega

theorem Kept.headerRefusal (p : Part) : Kept p (headerRefusal p) := (Kept.truncateFilling p).trans (Kept.report _ _)

theorem Kept.committedHeader (a d : Word) (p : Part) : Kept p (committedHeader a d p) := by
  unfold Machine.committedHeader
  split
  · rename_i hd
    dsimp only
    have h1 := Kept.truncateFilling p
    have h2 := Kept.makeRoom (headerStart a) (Machine.truncateFilling p)
    have h12 := h1.trans h2
    refine ⟨⟨⟨h12.strap, h12.wf, fun b => ?_, h12.list, h12.modes⟩, h12.time, h12.staging, h12.live⟩, h12.port, h12.held,
      h12.forced⟩
    have b1 := h1.bounds b
    have b2 := h2.bounds b1
    refine ⟨b2.1, b2.2.1, ?_, b2.2.2.2⟩
    constructor
    · show ((Machine.makeRoom (headerStart a) (Machine.truncateFilling p)).kna.frames ++ [_]).length ≤ 6
      rw [List.length_append, List.length_singleton]
      have := makeRoom_length (headerStart a) (Machine.truncateFilling p) b1.2.2.1.1
      omega
    · intro f hf
      rcases List.mem_append.mp hf with hf | hf
      · exact b2.2.2.1.2 f hf
      · rw [List.mem_singleton] at hf
        subst hf
        exact ⟨hd.2.2, rfl, Nat.zero_le _, fun _ => Nat.mul_pos (by decide) hd.2.1,
          fun _ h => by cases h⟩
  · exact Kept.headerRefusal p

theorem Kept.sampleWord (w : Word) (p : Part) : Kept p (sampleWord w p) := by
  unfold Machine.sampleWord
  split
  · exact Kept.report _ p
  · dsimp only
    rename_i f hf
    obtain ⟨hm, hs⟩ := filling_spec hf
    split
    · rename_i e
      refine Kept.trans ?_ (Kept.frameClosure _ _)
      refine Kept.trans ?_ (Kept.report _ _)
      exact Kept.setFrames _ p fun h => replaceFilling_fits h ((Frame.fits_append (h.2 f hm) hs w).1 e)
    · rename_i e
      exact Kept.setFrames _ p fun h => replaceFilling_fits h ((Frame.fits_append (h.2 f hm) hs w).2 e)

theorem Kept.resetKnock (p : Part) : Kept p (resetKnock p) :=
  Kept.setKna p _ fun _ => ⟨Nat.zero_le _, fun _ h => by cases h⟩

/-! ### The Context Unit -/

theorem Kept.setTable (t : ContextTable) (p : Part) : Kept p (setTable t p) := Kept.setCxu p _ id

theorem measuring_isSome {p : Part} {i : Nat} {r : Record} (h : p.measuring = some (i, r)) :
    (p.slot i).isSome = true := findRecord_isSome h

theorem Kept.joinMeasuring (c : Ctx) (p : Part) : Kept p (joinMeasuring c p) := by
  unfold Machine.joinMeasuring
  split
  · exact Kept.refl p
  · rename_i i r h
    exact Kept.setSlot _ (measuring_isSome h)

theorem Kept.declareCause (c : Ctx) (p : Part) : Kept p (declareCause c p) := by
  unfold Machine.declareCause
  dsimp only
  split
  · exact (Kept.setTable _ p).trans (Kept.joinMeasuring _ _)
  · exact Kept.setTable _ p

theorem Kept.takeLoad (n : Nat) (p : Part) : Kept p (takeLoad n p) := Kept.setCxu p _ id

theorem Kept.announceEntry (a l : Bool) (n : Nat) (p : Part) : Kept p (announceEntry a l n p) := by
  unfold Machine.announceEntry
  dsimp only
  refine Kept.trans ?_ (Kept.takeLoad _ _)
  have h1 : Kept p (if a = true then Machine.declareCause .als p else p) := by
    split
    · exact Kept.declareCause _ p
    · exact Kept.refl p
  split
  · exact h1.trans (Kept.declareCause _ _)
  · exact h1

theorem appendFlag_length (fs : List Bool) (f : Bool) (h : fs.length ≤ 8) : (appendFlag fs f).length ≤ 8 := by
  unfold appendFlag
  dsimp only
  split
  · rw [List.length_drop, List.length_append, List.length_singleton]
    omega
  · omega

theorem Kept.evaluateCycle (g : Settings) (r : CycleResult) (p : Part) : Kept p (evaluateCycle g r p) := by
  unfold Machine.evaluateCycle
  dsimp only
  refine Kept.trans ?_ (Kept.setTable _ _)
  refine Kept.trans ?_ (Kept.foldl (fun p c => Kept.joinMeasuring c p) _ _)
  exact Kept.setCxu p _ fun h => appendFlag_length _ _ h

theorem Kept.setHeldInput (h : Option HeldInput) (p : Part) : Kept p (setHeldInput h p) := Kept.setCxu p _ id

theorem Kept.takeBoundaryInput (n : BitVec 32) (p : Part) : Kept p (takeBoundaryInput n p) := by
  unfold Machine.takeBoundaryInput
  split
  · split
    · exact (Kept.setHeldInput _ p).trans (Kept.evaluateCycle _ _ _)
    · exact Kept.setHeldInput _ p
  · exact Kept.setHeldInput _ p
  · exact Kept.setHeldInput _ p

theorem Kept.takeResultInput (n : BitVec 32) (r : CycleResult) (p : Part) : Kept p (takeResultInput n r p) := by
  unfold Machine.takeResultInput
  split
  · split
    · exact (Kept.setHeldInput _ p).trans (Kept.evaluateCycle _ _ _)
    · exact Kept.setHeldInput _ p
  · exact Kept.setHeldInput _ p
  · exact Kept.setHeldInput _ p

theorem Kept.contextSyncGained (p : Part) : Kept p (contextSyncGained p) := Kept.setCxu p _ id

theorem Kept.contextSyncLoss (p : Part) : Kept p (contextSyncLoss p) := Kept.setCxu p _ fun _ => Nat.zero_le _

theorem Kept.resetContexts (p : Part) : Kept p (resetContexts p) := Kept.setCxu p _ fun _ => Nat.zero_le _

/-! ### The Firing List Controller -/

theorem Kept.refuseEntry (x : EntryRefusal) (p : Part) : Kept p (refuseEntry x p) :=
  (Kept.report _ p).trans (Kept.setNotice _ _)

theorem freeSlot_spec {p : Part} {i : Nat} (h : p.freeSlot = some i) : i < 24 ∧ p.slot i = none := by
  have hm := List.mem_of_find?_eq_some h
  have ht := List.find?_some h
  have hc : Config.slotCount = 24 := rfl
  rw [List.mem_range, hc] at hm
  exact ⟨hm, by simpa using ht⟩

theorem Kept.openRecord (e : ScheduleEntry) (p : Part) : Kept p (openRecord e p) := by
  unfold Machine.openRecord
  split
  · exact Kept.refl p
  · rename_i i hi
    obtain ⟨hlt, hnone⟩ := freeSlot_spec hi
    dsimp only
    refine ⟨⟨⟨rfl, id, id, fun l => ?_, id⟩, rfl, rfl, fun _ => Nat.le_refl _⟩, rfl, rfl, rfl⟩
    have hni : i ∉ p.flc.order := fun hm => by
      have := (l.2 i).mp hm
      rw [hnone] at this
      simp at this
    constructor
    · show (p.flc.order ++ [i]).Nodup
      exact List.nodup_append.mpr ⟨l.1, List.nodup_singleton _, by
        intro a ha b hb
        rw [List.mem_singleton] at hb
        subst hb
        exact fun e => hni (e ▸ ha)⟩
    · intro j
      show j ∈ p.flc.order ++ [i] ↔ ((Machine.setSlot i (some _) p).slot j).isSome = true
      rw [slot_setSlot, List.mem_append, List.mem_singleton, l.2 j]
      by_cases hij : i = j
      · subst hij
        simp [hlt]
      · have : j ≠ i := fun e => hij e.symm
        simp [hij, this]

theorem Kept.takeEntry (e : ScheduleEntry) (p : Part) : Kept p (takeEntry e p) := by
  unfold Machine.takeEntry
  split
  · exact Kept.refuseEntry _ p
  · dsimp only
    refine Kept.trans ?_ (Kept.announceEntry _ _ _ _)
    split
    · rename_i i r h
      refine Kept.trans ?_ (Kept.report _ _)
      refine Kept.trans ?_ (Kept.report _ _)
      exact Kept.setSlot _ (findRecord_isSome h)
    · exact (Kept.openRecord e p).trans (Kept.report _ _)

theorem Kept.segmentEnd (c n : Nat) (p : Part) : Kept p (segmentEnd c n p) := by
  unfold Machine.segmentEnd
  split
  · exact Kept.refl p
  · rename_i i r h
    exact (Kept.setSlot _ (findRecord_isSome h)).trans (Kept.testReady _ _)

theorem Kept.segmentStart (b : SegmentBoundary) (p : Part) : Kept p (segmentStart b p) := by
  unfold Machine.segmentStart
  split
  · exact Kept.refl p
  · rename_i i r h
    exact Kept.setSlot _ (findRecord_isSome h)

theorem Kept.firingBoundary (b : SegmentBoundary) (p : Part) : Kept p (firingBoundary b p) := by
  unfold Machine.firingBoundary
  dsimp only
  refine Kept.trans ?_ (Kept.segmentStart _ _)
  split
  · exact Kept.segmentEnd _ _ p
  · exact Kept.refl p

theorem Kept.knockOpenEdge (c : Nat) (t : Stamp) (p : Part) : Kept p (knockOpenEdge c t p) := by
  unfold Machine.knockOpenEdge
  split
  · exact Kept.refl p
  · rename_i i r h
    exact Kept.setSlot _ (findRecord_isSome h)

theorem Kept.knockCloseEdge (c : Nat) (t : Stamp) (p : Part) : Kept p (knockCloseEdge c t p) := by
  unfold Machine.knockCloseEdge
  split
  · exact Kept.refl p
  · rename_i i r h
    exact (Kept.setSlot _ (findRecord_isSome h)).trans (Kept.windowFix _ _ _ _)

theorem Kept.takeMReport (c : Nat) (n : BitVec 32) (m : Int) (p : Part) : Kept p (takeMReport c n m p) := by
  unfold Machine.takeMReport
  split
  · exact Kept.refl p
  · rename_i i r h
    exact (Kept.setSlot _ (findRecord_isSome h)).trans (Kept.testReady _ _)

theorem Kept.expirePlanAges (p : Part) : Kept p (expirePlanAges p) :=
  Kept.foldl (fun p i => Kept.abandon _ i p) _ p

theorem Kept.replaceRecords (l : List (Nat × Record)) (p : Part) (h : ∀ x ∈ l, (p.slot x.1).isSome = true) :
    Kept p (l.foldl (fun p x => Machine.setSlot x.1 (some x.2.lost) p) p) := by
  induction l generalizing p with
  | nil => exact Kept.refl p
  | cons x l ih =>
    rw [List.foldl_cons]
    have hx := h x (List.mem_cons_self ..)
    refine (Kept.setSlot _ hx).trans (ih _ fun y hy => ?_)
    rw [slot_setSlot_isSome _ hx]
    exact h y (List.mem_cons_of_mem _ hy)

theorem Kept.firingSyncLoss (p : Part) : Kept p (firingSyncLoss p) := by
  unfold Machine.firingSyncLoss
  dsimp only
  refine Kept.trans ?_ (Kept.testReadyAll _)
  refine Kept.trans ?_ (Kept.replaceRecords _ _ ?_)
  · split
    · exact Kept.refl p
    · exact Kept.abandon _ _ p
  · intro x hx
    rw [(records_mem hx).2]
    rfl

/-! ### The Segment Analyser -/

theorem appendSegment_length (xs : List SegmentEntry) (e : SegmentEntry) (h : xs.length ≤ 3) :
    (appendSegment xs e).length ≤ 3 := by
  unfold appendSegment
  rw [List.length_append, List.length_singleton]
  split
  · rw [List.length_drop]
    omega
  · omega

theorem Kept.closeSegment (n : Nat) (p : Part) : Kept p (closeSegment n p) := by
  unfold Machine.closeSegment
  split
  · exact Kept.refl p
  · exact Kept.setSga p _ fun h => appendSegment_length _ _ h

theorem middleFigure_length {xs ys : List SegmentEntry} {b : SegmentEntry} {m : Int}
    (h : middleFigure xs = some (ys, b, m)) : ys.length = 3 := by
  unfold middleFigure at h
  split at h
  · split at h
    · simp at h
    · simp only [Option.some.injEq, Prod.mk.injEq] at h
      rw [← h.1]
      rfl
  · simp at h

theorem Kept.computeFigure (p : Part) : Kept p (computeFigure p) := by
  unfold Machine.computeFigure
  split
  · exact Kept.refl p
  · rename_i xs b m h
    refine Kept.trans ?_ (Kept.takeMReport _ _ _ _)
    exact Kept.setSga p _ fun _ => Nat.le_of_eq (middleFigure_length h)

theorem Kept.analyseBoundary (b : SegmentBoundary) (p : Part) : Kept p (analyseBoundary b p) := by
  unfold Machine.analyseBoundary
  dsimp only
  refine Kept.trans ?_ (Kept.setSga _ _ id)
  split
  · exact (Kept.closeSegment _ p).trans (Kept.computeFigure _)
  · exact Kept.refl p

theorem Kept.handCycleResult (n : BitVec 32) (c : Option Nat) (p : Part) : Kept p (handCycleResult n c p) := by
  unfold Machine.handCycleResult
  dsimp only
  exact (Kept.takeResultInput _ _ p).trans (Kept.setSga _ _ id)

theorem Kept.segmentSyncLoss (p : Part) : Kept p (segmentSyncLoss p) := Kept.setSga p _ fun _ => Nat.zero_le _

/-! ### Sync losses, stalls and the Pending Copy -/

theorem Kept.resultReport (g : BitVec 16) (r : ApplyResult) (c : Option Check) (p : Part) :
    Kept p (resultReport g r c p) := by
  unfold Machine.resultReport
  refine Kept.trans ?_ (Kept.setNotice _ _)
  exact Kept.setCsh p _ rfl id

theorem Kept.reportLoss (x : LossReason) (p : Part) : Kept p (reportLoss x p) := by
  unfold Machine.reportLoss
  split <;> first | exact Kept.report _ p | exact Kept.refl p

theorem Kept.trackerLoss (x : LossReason) (p : Part) : Kept p (trackerLoss x p) := by
  unfold Machine.trackerLoss
  refine Kept.trans ?_ (Kept.reportLoss _ _)
  exact (Kept.setAtk p _).trans (Kept.setNotice _ _)

theorem Kept.firingLoss (x : LossReason) (p : Part) : Kept p (firingLoss x p) := by
  unfold Machine.firingLoss
  split <;> first | exact Kept.firingSyncLoss p | exact Kept.refl p

theorem Kept.announceLoss (x : LossReason) (p : Part) : Kept p (announceLoss x p) := by
  unfold Machine.announceLoss
  refine Kept.trans ?_ (Kept.turbineSyncLoss _)
  refine Kept.trans ?_ (Kept.contextSyncLoss _)
  exact (Kept.firingLoss x p).trans (Kept.segmentSyncLoss _)

theorem Kept.stallWith {loss : LossReason → Part → Part} (h : ∀ x p, Kept p (loss x p)) (p : Part) :
    Kept p (stallWith loss p) := by
  unfold Machine.stallWith
  dsimp only
  refine Kept.trans ?_ (Kept.setAtk _ _)
  split
  · exact (Kept.report _ p).trans (h _ _)
  · exact Kept.report _ p

theorem Kept.announceTuning (p : Part) : Kept p (announceTuning p) := by
  unfold Machine.announceTuning
  dsimp only
  refine Kept.trans ?_ (Kept.moveTest _)
  refine Kept.trans ?_ (Kept.expirePlanAges _)
  refine Kept.trans ?_ (Kept.expireKnockWaits _)
  split
  · exact Kept.stallWith (fun x p => (Kept.trackerLoss x p).trans (Kept.announceLoss x _)) p
  · exact Kept.refl p

/-- A Pending Copy that takes effect leaves the modes in agreement. -/
theorem pendingTakesEffect_modes {p : Part} {c : PendingCopy} (h : p.csh.pendingCopy = some c)
    (m : p.modesAgree) :
    (p.setCsh { p.csh with
      active := some c.settings
      activeGen := c.generation
      pendingCopy := none }).modesAgree := by
  have hm : p.csh.mode = .monitoring := m.2.1 (by rw [h]; simp)
  refine ⟨?_, fun e => absurd rfl e, ?_, fun _ e => by simp at e⟩
  · show p.csh.mode = .transparent ↔ some c.settings = none
    rw [hm]
    simp
  · intro g hg
    have : c.settings = g := by simpa using hg
    rw [← this]
    exact m.2.2.2 c h

theorem Kept.pendingTakesEffect (p : Part) : Kept p (pendingTakesEffect p) := by
  unfold Machine.pendingTakesEffect
  split
  · exact Kept.refl p
  · rename_i c h
    refine Kept.trans ?_ (Kept.announceTuning _)
    refine Kept.trans ?_ (Kept.resultReport _ _ _ _)
    exact Kept.setCsh p _ rfl (pendingTakesEffect_modes h)

theorem Kept.shadowLoss (x : LossReason) (p : Part) : Kept p (shadowLoss x p) := by
  unfold Machine.shadowLoss
  split <;> first | exact Kept.pendingTakesEffect p | exact Kept.refl p

theorem Kept.syncLoss (x : LossReason) (p : Part) : Kept p (syncLoss x p) :=
  ((Kept.trackerLoss x p).trans (Kept.shadowLoss x _)).trans (Kept.announceLoss x _)

theorem Kept.takeStall (p : Part) : Kept p (takeStall p) := Kept.stallWith Kept.syncLoss p

/-! ### The Angle Tracker -/

theorem Kept.cycleBoundary (p : Part) : Kept p (cycleBoundary p) := by
  unfold Machine.cycleBoundary
  dsimp only
  refine Kept.trans ?_ (Kept.turbineBoundary _)
  refine Kept.trans ?_ (Kept.handCycleResult _ _ _)
  refine Kept.trans ?_ (Kept.takeBoundaryInput _ _)
  refine Kept.trans ?_ (Kept.pendingTakesEffect _)
  exact (Kept.setAtk p _).trans (Kept.report _ _)

theorem Kept.segmentBoundary (c : Nat) (t : Stamp) (p : Part) : Kept p (segmentBoundary c t p) := by
  unfold Machine.segmentBoundary
  dsimp only
  refine Kept.trans ?_ (Kept.analyseBoundary _ _)
  refine Kept.trans ?_ (Kept.firingBoundary _ _)
  exact Kept.setAtk p _

theorem Kept.emitCloses (q : Nat) (t : Stamp) (p : Part) : Kept p (emitCloses q t p) :=
  Kept.foldl (fun p c => Kept.knockCloseEdge c t p) _ p

theorem Kept.emitOpens (q : Nat) (t : Stamp) (p : Part) : Kept p (emitOpens q t p) :=
  Kept.foldl (fun p c => Kept.knockOpenEdge c t p) _ p

theorem Kept.ite {c : Prop} [Decidable c] {p q r : Part} (h : Kept p q) (k : Kept p r) :
    Kept p (if c then q else r) := by
  split
  · exact h
  · exact k

theorem Kept.emitEvents (t : Stamp) (p : Part) : Kept p (emitEvents t p) := by
  unfold Machine.emitEvents
  dsimp only
  have h1 : Kept p (if p.atk.boundarySeen = true then Machine.emitCloses p.cyclePosition t p else p) :=
    Kept.ite (Kept.emitCloses _ _ p) (Kept.refl p)
  generalize (if p.atk.boundarySeen = true then Machine.emitCloses p.cyclePosition t p else p) = p1 at h1 ⊢
  have h2 : Kept p (if p1.cfg.isCycleBoundary p.cyclePosition = true then Machine.cycleBoundary p1 else p1) :=
    Kept.ite (h1.trans (Kept.cycleBoundary _)) h1
  generalize (if p1.cfg.isCycleBoundary p.cyclePosition = true then Machine.cycleBoundary p1 else p1) = p2 at h2 ⊢
  have h3 : Kept p (match p2.cfg.startingAt p.cyclePosition with
      | some c => Machine.segmentBoundary c t p2
      | none => p2) := by
    split
    · exact h2.trans (Kept.segmentBoundary _ _ _)
    · exact h2
  exact Kept.ite (h3.trans (Kept.emitOpens _ _ _)) h3

theorem Kept.gainSync (p : Part) : Kept p (gainSync p) := (Kept.setAtk p _).trans (Kept.contextSyncGained _)

theorem Kept.firstTooth (t : Stamp) (p : Part) : Kept p (firstTooth t p) := (Kept.setAtk p _).trans (Kept.report _ _)

theorem Kept.seekTooth (g c : Bool) (p : Part) : Kept p (seekTooth g c p) := by
  unfold Machine.seekTooth
  split
  · exact Kept.refl p
  · exact Kept.setAtk p _
  · exact Kept.setAtk p _
  · dsimp only
    split
    · split
      · exact (Kept.setAtk p _).trans (Kept.gainSync _)
      · exact Kept.setAtk p _
    · exact Kept.setAtk p _

theorem Kept.afterCheck (c : Bool) (t : Stamp) (p : Part) : Kept p (afterCheck c t p) := by
  unfold Machine.afterCheck
  split
  · exact Kept.ite (Kept.gainSync p) (Kept.refl p)
  · exact Kept.ite (Kept.syncLoss _ p) (Kept.emitEvents _ p)
  · exact Kept.refl p
  · exact Kept.refl p

theorem Kept.checkTooth (g c : Bool) (t : Stamp) (p : Part) : Kept p (checkTooth g c t p) := by
  unfold Machine.checkTooth
  split
  · exact (Kept.setAtk p _).trans (Kept.afterCheck _ _ _)
  · exact (Kept.setAtk p _).trans (Kept.afterCheck _ _ _)
  · exact (Kept.setAtk p _).trans (Kept.syncLoss _ _)
  · exact (Kept.setAtk p _).trans (Kept.syncLoss _ _)

theorem Kept.takenTooth (t : Stamp) (i : Nat) (c : Bool) (p : Part) : Kept p (takenTooth t i c p) := by
  unfold Machine.takenTooth
  dsimp only
  split
  · refine Kept.trans ?_ (Kept.seekTooth _ _ _)
    exact (Kept.setAtk p _).trans (Kept.report _ _)
  · refine Kept.trans ?_ (Kept.checkTooth _ _ _ _)
    exact (Kept.setAtk p _).trans (Kept.report _ _)
  · refine Kept.trans ?_ (Kept.checkTooth _ _ _ _)
    exact (Kept.setAtk p _).trans (Kept.report _ _)
  · exact (Kept.setAtk p _).trans (Kept.report _ _)

theorem Kept.takeToothEntry (w : Word) (p : Part) : Kept p (takeToothEntry w p) := by
  unfold Machine.takeToothEntry
  dsimp only
  have h : Kept p (match p.atk.lastTooth with
      | none => p
      | some last => if isLater (toothStamp w) last = true then
          Machine.takenTooth (toothStamp w) (interval last (toothStamp w)) (toothCam w) p else p) := by
    split
    · exact Kept.refl p
    · exact Kept.ite (Kept.takenTooth _ _ _ p) (Kept.refl p)
  split
  · exact Kept.firstTooth _ p
  · exact h
  · exact h
  · exact h

end Sys2Proof.Machine
end

