-- ==== Sys2Proof/Laws/Settled.lean ====
section
/-! SUPPORT. `Quiet p q`: the CSH, part time and the PTU but for its queue are kept, and a FREE slot stays FREE: what the
blocks behind the PTU do while no Pending Copy takes effect. `Settled p q`: moreover the tracker, the Context Unit and the
Segment Analyser are kept: what the Firing List and the Knock Analyser do. -/

namespace Sys2Proof.Machine

/-- The CSH, part time and the PTU but for its queue are kept, and a FREE slot stays FREE. -/
structure Quiet (p q : Part) : Prop where
  csh : q.csh = p.csh
  time : q.partTime = p.partTime
  ptu : q.ptu = { p.ptu with queue := q.ptu.queue }
  free : ∀ i, p.slot i = none → q.slot i = none

/-- `Quiet`, and the tracker, the Context Unit and the Segment Analyser are kept. -/
structure Settled (p q : Part) : Prop extends Quiet p q where
  atk : q.atk = p.atk
  cxu : q.cxu = p.cxu
  sga : q.sga = p.sga

theorem Quiet.refl (p : Part) : Quiet p p := ⟨rfl, rfl, rfl, fun _ h => h⟩

theorem Quiet.trans {p q r : Part} (h : Quiet p q) (k : Quiet q r) : Quiet p r :=
  ⟨k.csh.trans h.csh, k.time.trans h.time, by rw [k.ptu, h.ptu], fun i x => k.free i (h.free i x)⟩

theorem Settled.refl (p : Part) : Settled p p := ⟨Quiet.refl p, rfl, rfl, rfl⟩

theorem Settled.trans {p q r : Part} (h : Settled p q) (k : Settled q r) : Settled p r :=
  ⟨h.toQuiet.trans k.toQuiet, k.atk.trans h.atk, k.cxu.trans h.cxu, k.sga.trans h.sga⟩

theorem Settled.foldl {α : Type} {f : Part → α → Part} (h : ∀ p a, Settled p (f p a)) (l : List α) (p : Part) :
    Settled p (l.foldl f p) := by
  induction l generalizing p with
  | nil => exact Settled.refl p
  | cons a l ih => exact (h p a).trans (ih (f p a))

theorem Quiet.foldl {α : Type} {f : Part → α → Part} (h : ∀ p a, Quiet p (f p a)) (l : List α) (p : Part) :
    Quiet p (l.foldl f p) := by
  induction l generalizing p with
  | nil => exact Quiet.refl p
  | cons a l ih => exact (h p a).trans (ih (f p a))

theorem Settled.ite {c : Prop} [Decidable c] {p q r : Part} (h : Settled p q) (k : Settled p r) :
    Settled p (if c then q else r) := by
  split
  · exact h
  · exact k

theorem Quiet.ite {c : Prop} [Decidable c] {p q r : Part} (h : Quiet p q) (k : Quiet p r) :
    Quiet p (if c then q else r) := by
  split
  · exact h
  · exact k

/-! ### Updates of one block -/

theorem Settled.setNtu (p : Part) (x : NoticeUnit) : Settled p (p.setNtu x) :=
  ⟨⟨rfl, rfl, rfl, fun _ h => h⟩, rfl, rfl, rfl⟩

theorem Settled.setStb (p : Part) (x : Statistics) : Settled p (p.setStb x) :=
  ⟨⟨rfl, rfl, rfl, fun _ h => h⟩, rfl, rfl, rfl⟩

theorem Settled.setPse (p : Part) (x : PostEngine) : Settled p (p.setPse x) :=
  ⟨⟨rfl, rfl, rfl, fun _ h => h⟩, rfl, rfl, rfl⟩

theorem Settled.setHsu (p : Part) (x : HistoryUnit) : Settled p (p.setHsu x) :=
  ⟨⟨rfl, rfl, rfl, fun _ h => h⟩, rfl, rfl, rfl⟩

theorem Settled.setKna (p : Part) (x : KnockAnalyser) : Settled p (p.setKna x) :=
  ⟨⟨rfl, rfl, rfl, fun _ h => h⟩, rfl, rfl, rfl⟩

theorem Settled.setQueue (p : Part) (x : List QueuedWord) : Settled p (p.setQueue x) :=
  ⟨⟨rfl, rfl, rfl, fun _ h => h⟩, rfl, rfl, rfl⟩

theorem Quiet.setAtk (p : Part) (x : Tracker) : Quiet p (p.setAtk x) := ⟨rfl, rfl, rfl, fun _ h => h⟩

theorem Quiet.setCxu (p : Part) (x : ContextUnit) : Quiet p (p.setCxu x) := ⟨rfl, rfl, rfl, fun _ h => h⟩

theorem Quiet.setSga (p : Part) (x : SegmentAnalyser) : Quiet p (p.setSga x) := ⟨rfl, rfl, rfl, fun _ h => h⟩

theorem Settled.setFlc (p : Part) (x : FiringList)
    (h : ∀ i, p.slot i = none → (p.setFlc x).slot i = none) : Settled p (p.setFlc x) :=
  ⟨⟨rfl, rfl, rfl, h⟩, rfl, rfl, rfl⟩

/-- A slot that is held is given a record, or freed. -/
theorem Settled.setSlot {p : Part} {i : Nat} (r : Option Record) (h : (p.slot i).isSome = true ∨ r = none) :
    Settled p (setSlot i r p) := by
  refine Settled.setFlc p _ fun j hj => ?_
  show (Machine.setSlot i r p).slot j = none
  rw [slot_setSlot]
  split
  · rename_i e
    rcases h with h | h
    · rw [e.1, hj] at h
      cases h
    · exact h
  · exact hj

/-! ### Notices, counters, posting, history -/

theorem Settled.setNotice (n : Notice) (p : Part) : Settled p (setNotice n p) := Settled.setNtu p _

theorem Settled.increment (k : Nat) (p : Part) : Settled p (increment k p) := by
  unfold Machine.increment
  dsimp only
  split
  · exact Settled.refl p
  · split
    · exact (Settled.setStb p _).trans (Settled.setNotice _ _)
    · exact Settled.setStb p _

theorem Settled.report (c : EngineCounter) (p : Part) : Settled p (report c p) := Settled.increment _ p

theorem Settled.moveLoop (n : Nat) (p : Part) : Settled p (moveLoop n p) := by
  induction n generalizing p with
  | zero => exact Settled.refl p
  | succ n ih =>
    unfold Machine.moveLoop
    split
    · exact Settled.refl p
    · refine Settled.ite ?_ (Settled.refl p)
      exact ((Settled.setQueue p _).trans (Settled.setPse _ _)).trans (ih _)

theorem Settled.moveTest (p : Part) : Settled p (moveTest p) := Settled.moveLoop _ p

theorem Settled.offerVerdict (v : Verdict) (p : Part) : Settled p (offerVerdict v p) :=
  Settled.ite ((Settled.setPse p _).trans (Settled.moveTest _)) ((Settled.report _ p).trans (Settled.setNotice _ _))

theorem Settled.postVerdict (d : Decided) (p : Part) : Settled p (postVerdict d p) :=
  Settled.ite (Settled.offerVerdict _ p) (Settled.refl p)

theorem Settled.healthNotice (a b : Health) (p : Part) : Settled p (healthNotice a b p) := by
  unfold Machine.healthNotice
  split <;> first | exact Settled.setNotice _ p | exact Settled.refl p

theorem Settled.alertNotice (a b : Bool) (p : Part) : Settled p (alertNotice a b p) :=
  Settled.ite (Settled.setNotice _ p) (Settled.refl p)

theorem Settled.countTurbine (o : Option MisfireClass) (p : Part) : Settled p (countTurbine o p) :=
  Settled.ite (Settled.setHsu p _) (Settled.refl p)

theorem Settled.historyTake (d : Decided) (p : Part) : Settled p (historyTake d p) := by
  unfold Machine.historyTake
  refine Settled.ite (Settled.refl p) ?_
  dsimp only
  exact (((Settled.setHsu p _).trans (Settled.healthNotice _ _ _)).trans (Settled.alertNotice _ _ _)).trans
    (Settled.countTurbine _ _)

theorem Settled.turbineBoundary (p : Part) : Settled p (turbineBoundary p) := by
  unfold Machine.turbineBoundary
  dsimp only
  refine Settled.ite (Settled.ite ?_ ?_) ?_
  · exact (Settled.setHsu p _).trans (Settled.setNotice _ _)
  · exact Settled.setHsu p _
  · exact Settled.setHsu p _

theorem Settled.turbineSyncLoss (p : Part) : Settled p (turbineSyncLoss p) := Settled.setHsu p _

/-! ### Decisions and abandonments -/

theorem Settled.leaveList (i c : Nat) (p : Part) : Settled p (leaveList i c p) :=
  Settled.setFlc p _ (Settled.setSlot (p := p) (i := i) none (Or.inr rfl)).free

theorem Settled.countRecord (d : Decided) (p : Part) : Settled p (countRecord d p) :=
  Settled.foldl (fun p _ => Settled.increment _ p) _ p

theorem Settled.learnReference (d : Decided) (p : Part) : Settled p (learnReference d p) :=
  Settled.ite (Settled.setKna p _) (Settled.refl p)

theorem Settled.reportDecision (d : Decided) (p : Part) : Settled p (reportDecision d p) := by
  unfold Machine.reportDecision
  dsimp only
  have h : Settled p (if d.misfireClass = .unavailable then Machine.report .misfireUnavailable
      (Machine.report .recordsDecided p) else Machine.report .recordsDecided p) :=
    Settled.ite ((Settled.report _ p).trans (Settled.report _ _)) (Settled.report _ p)
  exact Settled.ite (h.trans (Settled.report _ _)) h

theorem Settled.decideRecord (i : Nat) (r : Record) (p : Part) : Settled p (decideRecord i r p) :=
  (((((Settled.historyTake _ p).trans (Settled.countRecord _ _)).trans (Settled.learnReference _ _)).trans
    (Settled.postVerdict _ _)).trans (Settled.reportDecision _ _)).trans (Settled.leaveList _ _ _)

theorem Settled.decideLoop (sel : Nat → Bool) (n : Nat) (p : Part) : Settled p (decideLoop sel n p) := by
  induction n generalizing p with
  | zero => exact Settled.refl p
  | succ n ih =>
    unfold Machine.decideLoop
    split
    · exact Settled.refl p
    · exact (Settled.decideRecord _ _ p).trans (ih _)

theorem Settled.testReady (c : Nat) (p : Part) : Settled p (testReady c p) := Settled.decideLoop _ _ p

theorem Settled.testReadyAll (p : Part) : Settled p (testReadyAll p) := Settled.decideLoop _ _ p

theorem Settled.withdrawEval (i : Nat) (q : BitVec 16) (p : Part) : Settled p (withdrawEval i q p) := Settled.setKna p _

theorem Settled.abandon (x : AbandonReason) (i : Nat) (p : Part) : Settled p (abandon x i p) := by
  unfold Machine.abandon
  split
  · exact Settled.refl p
  · rename_i r _
    dsimp only
    have h : Settled p (if (r.closeTime.isSome && r.knock.isNone) = true then Machine.withdrawEval i r.seq p else p) :=
      Settled.ite (Settled.withdrawEval _ _ p) (Settled.refl p)
    have k := (h.trans (Settled.report x.counter _)).trans (Settled.leaveList i r.cylinder _)
    split
    · exact k.trans (Settled.testReady _ _)
    · exact k.trans (Settled.testReady _ _)
    · exact k
    · exact k

theorem Settled.abandonAll (x : AbandonReason) (p : Part) : Settled p (abandonAll x p) :=
  Settled.foldl (fun p i => Settled.abandon _ i p) _ p

theorem Settled.expirePlanAges (p : Part) : Settled p (expirePlanAges p) :=
  Settled.foldl (fun p i => Settled.abandon _ i p) _ p

/-! ### The Knock Analyser -/

theorem Settled.takeKnockReport (i : Nat) (q : BitVec 16) (k : KnockReport) (p : Part) :
    Settled p (takeKnockReport i q k p) := by
  unfold Machine.takeKnockReport
  split
  · exact Settled.refl p
  · rename_i r hr
    refine Settled.ite ?_ (Settled.refl p)
    have hs : Settled p (Machine.setSlot i (some (r.withKnock k)) p) := Settled.setSlot _ (Or.inl (by rw [hr]; rfl))
    exact Settled.ite (hs.trans (Settled.testReady _ _)) hs

theorem Settled.updateSensor (s : Nat) (a b : Bool) (p : Part) : Settled p (updateSensor s a b p) := by
  unfold Machine.updateSensor
  dsimp only
  exact Settled.ite ((Settled.setKna p _).trans (Settled.setNotice _ _)) (Settled.setKna p _)

theorem Settled.evaluate (e : PendingEval) (p : Part) : Settled p (evaluate e p) := by
  unfold Machine.evaluate
  dsimp only
  exact Settled.ite (Settled.takeKnockReport _ _ _ p) ((Settled.updateSensor _ _ _ p).trans (Settled.takeKnockReport _ _ _ _))

theorem Settled.evaluateEach (es : List PendingEval) (p : Part) : Settled p (evaluateEach es p) :=
  Settled.foldl (fun p _ => (Settled.withdrawEval _ _ p).trans (Settled.evaluate _ _)) es p

theorem Settled.expireKnockWaits (p : Part) : Settled p (expireKnockWaits p) := Settled.evaluateEach _ p

theorem Settled.windowFix (i : Nat) (r : Record) (t : Stamp) (p : Part) : Settled p (windowFix i r t p) := by
  unfold Machine.windowFix
  dsimp only
  exact Settled.ite (Settled.takeKnockReport _ _ _ p) (Settled.ite (Settled.evaluate _ p) (Settled.setKna p _))

/-! ### The Firing List -/

theorem Settled.joinMeasuring (c : Ctx) (p : Part) : Settled p (joinMeasuring c p) := by
  unfold Machine.joinMeasuring
  split
  · exact Settled.refl p
  · rename_i h
    exact Settled.setSlot _ (Or.inl (measuring_isSome h))

theorem Settled.segmentEnd (c n : Nat) (p : Part) : Settled p (segmentEnd c n p) := by
  unfold Machine.segmentEnd
  split
  · exact Settled.refl p
  · rename_i h
    exact (Settled.setSlot _ (Or.inl (findRecord_isSome h))).trans (Settled.testReady _ _)

theorem Settled.segmentStart (b : SegmentBoundary) (p : Part) : Settled p (segmentStart b p) := by
  unfold Machine.segmentStart
  split
  · exact Settled.refl p
  · rename_i h
    exact Settled.setSlot _ (Or.inl (findRecord_isSome h))

theorem Settled.firingBoundary (b : SegmentBoundary) (p : Part) : Settled p (firingBoundary b p) := by
  unfold Machine.firingBoundary
  dsimp only
  refine Settled.trans ?_ (Settled.segmentStart _ _)
  split
  · exact Settled.segmentEnd _ _ p
  · exact Settled.refl p

theorem Settled.knockOpenEdge (c : Nat) (t : Stamp) (p : Part) : Settled p (knockOpenEdge c t p) := by
  unfold Machine.knockOpenEdge
  split
  · exact Settled.refl p
  · rename_i h
    exact Settled.setSlot _ (Or.inl (findRecord_isSome h))

theorem Settled.knockCloseEdge (c : Nat) (t : Stamp) (p : Part) : Settled p (knockCloseEdge c t p) := by
  unfold Machine.knockCloseEdge
  split
  · exact Settled.refl p
  · rename_i h
    exact (Settled.setSlot _ (Or.inl (findRecord_isSome h))).trans (Settled.windowFix _ _ _ _)

theorem Settled.emitCloses (q : Nat) (t : Stamp) (p : Part) : Settled p (emitCloses q t p) :=
  Settled.foldl (fun p c => Settled.knockCloseEdge c t p) _ p

theorem Settled.emitOpens (q : Nat) (t : Stamp) (p : Part) : Settled p (emitOpens q t p) :=
  Settled.foldl (fun p c => Settled.knockOpenEdge c t p) _ p

theorem Settled.takeMReport (c : Nat) (n : BitVec 32) (m : Int) (p : Part) : Settled p (takeMReport c n m p) := by
  unfold Machine.takeMReport
  split
  · exact Settled.refl p
  · rename_i h
    exact (Settled.setSlot _ (Or.inl (findRecord_isSome h))).trans (Settled.testReady _ _)

theorem Settled.replaceRecords (l : List (Nat × Record)) (p : Part) (h : ∀ x ∈ l, (p.slot x.1).isSome = true) :
    Settled p (l.foldl (fun p x => Machine.setSlot x.1 (some x.2.lost) p) p) := by
  induction l generalizing p with
  | nil => exact Settled.refl p
  | cons x l ih =>
    rw [List.foldl_cons]
    have hx := h x (List.mem_cons_self ..)
    refine (Settled.setSlot _ (Or.inl hx)).trans (ih _ fun y hy => ?_)
    rw [slot_setSlot_isSome _ hx]
    exact h y (List.mem_cons_of_mem _ hy)

theorem Settled.firingSyncLoss (p : Part) : Settled p (firingSyncLoss p) := by
  unfold Machine.firingSyncLoss
  dsimp only
  refine Settled.trans ?_ (Settled.testReadyAll _)
  refine Settled.trans ?_ (Settled.replaceRecords _ _ ?_)
  · split
    · exact Settled.refl p
    · exact Settled.abandon _ _ p
  · intro x hx
    rw [(records_mem hx).2]
    rfl

/-- A sync loss takes the MEASURING record out of the list (R68). -/
theorem firingSyncLoss_measuring {p : Part} {i : Nat} {r : Record} (h : p.measuring = some (i, r)) :
    (firingSyncLoss p).slot i = none := by
  unfold firingSyncLoss
  rw [h]
  dsimp only
  have hs : p.slot i = some r := (records_mem (findRecord_mem h).1).2
  have hf : (abandon .sync i p).slot i = none := by
    unfold abandon
    rw [hs]
    dsimp only
    refine (Settled.testReady _ _).free i ?_
    show (Machine.setSlot i none _).slot i = none
    rw [slot_setSlot]
    have hlt := slot_some_lt (p := p) (i := i) (by rw [hs]; rfl)
    rw [if_pos ⟨rfl, hlt⟩]
  refine (Settled.testReadyAll _).free i ((Settled.replaceRecords _ _ fun x hx => ?_).free i hf)
  rw [(records_mem hx).2]
  rfl

/-! ### The Segment Analyser, the Context Unit, the tracker's events -/

/-- The tracker and the Context Unit are kept by the Segment Analyser's part of a boundary. -/
theorem analyseBoundary_spec (b : SegmentBoundary) (p : Part) :
    Quiet p (analyseBoundary b p) ∧ (analyseBoundary b p).atk = p.atk ∧ (analyseBoundary b p).cxu = p.cxu
      ∧ (analyseBoundary b p).sga.openSegment = some (b.starting, b.cycleNumber) := by
  have close : ∀ n, Quiet p (closeSegment n p) ∧ (closeSegment n p).atk = p.atk ∧ (closeSegment n p).cxu = p.cxu := by
    intro n
    unfold closeSegment
    split
    · exact ⟨Quiet.refl p, rfl, rfl⟩
    · exact ⟨Quiet.setSga p _, rfl, rfl⟩
  have figure : ∀ q, Quiet q (computeFigure q) ∧ (computeFigure q).atk = q.atk ∧ (computeFigure q).cxu = q.cxu := by
    intro q
    unfold computeFigure
    split
    · exact ⟨Quiet.refl q, rfl, rfl⟩
    · rename_i xs b m _
      have k := Settled.takeMReport b.cylinder b.cycleNumber m
        (q.setSga { q.sga with sequence := xs, roughness := q.sga.roughness ++ [m] })
      exact ⟨(Quiet.setSga q _).trans k.toQuiet, k.atk, k.cxu⟩
  unfold analyseBoundary
  dsimp only
  split
  · rename_i n _ _
    obtain ⟨a1, a2, a3⟩ := close n
    obtain ⟨b1, b2, b3⟩ := figure (closeSegment n p)
    exact ⟨(a1.trans b1).trans (Quiet.setSga _ _), b2.trans a2, b3.trans a3, rfl⟩
  · exact ⟨Quiet.setSga p _, rfl, rfl, rfl⟩

theorem Quiet.segmentBoundary (c : Nat) (t : Stamp) (p : Part) : Quiet p (segmentBoundary c t p) := by
  unfold Machine.segmentBoundary
  dsimp only
  refine Quiet.trans ?_ (analyseBoundary_spec _ _).1
  exact (Quiet.setAtk p _).trans (Settled.firingBoundary _ _).toQuiet

theorem Quiet.evaluateCycle (g : Settings) (r : CycleResult) (p : Part) : Quiet p (evaluateCycle g r p) := by
  unfold Machine.evaluateCycle
  dsimp only
  refine Quiet.trans ?_ (Quiet.setCxu _ _)
  exact (Quiet.setCxu p _).trans (Quiet.foldl (fun p c => (Settled.joinMeasuring c p).toQuiet) _ _)

theorem Quiet.takeBoundaryInput (n : BitVec 32) (p : Part) : Quiet p (takeBoundaryInput n p) := by
  unfold Machine.takeBoundaryInput
  split
  · exact Quiet.ite ((Quiet.setCxu p _).trans (Quiet.evaluateCycle _ _ _)) (Quiet.setCxu p _)
  · exact Quiet.setCxu p _
  · exact Quiet.setCxu p _

theorem Quiet.takeResultInput (n : BitVec 32) (r : CycleResult) (p : Part) : Quiet p (takeResultInput n r p) := by
  unfold Machine.takeResultInput
  split
  · exact Quiet.ite ((Quiet.setCxu p _).trans (Quiet.evaluateCycle _ _ _)) (Quiet.setCxu p _)
  · exact Quiet.setCxu p _
  · exact Quiet.setCxu p _

/-- A cycle boundary at which no Pending Copy takes effect (R26, R47). -/
theorem Quiet.cycleBoundary (p : Part) (h : p.csh.pendingCopy = none) : Quiet p (cycleBoundary p) := by
  unfold Machine.cycleBoundary
  dsimp only
  refine Quiet.trans ?_ (Settled.turbineBoundary _).toQuiet
  refine Quiet.trans ?_ (Quiet.setSga _ _)
  refine Quiet.trans ?_ (Quiet.takeResultInput _ _ _)
  refine Quiet.trans ?_ (Quiet.takeBoundaryInput _ _)
  have k := (Quiet.setAtk p { p.atk with engineCycle := p.atk.engineCycle + 1, cycAcc := some 0 }).trans
    (Settled.report .cyclesSynced _).toQuiet
  unfold pendingTakesEffect
  rw [k.csh, h]
  exact k

end Sys2Proof.Machine
end

