-- ==== Sys2Proof/Laws/Contexts.lean ====
section
/-! SUPPORT. What context entries leave in the Firing List: the MEASURING record's set grows by exactly the contexts reported
(R61, R112); and what a cycle evaluation reads and leaves (R107). -/

namespace Sys2Proof.Machine

theorem Ctx.bit_getLsbD (c d : Ctx) : c.bit.getLsbD d.index = decide (c = d) := by cases c <;> cases d <;> rfl

theorem Ctx.mem_list (c : Ctx) : c ∈ Ctx.list := by cases c <;> decide

theorem ContextTable.get_map (t : ContextTable) (f : Ctx → CtxEntry → CtxEntry) (c : Ctx) :
    (t.map f).get c = f c (t.get c) := by cases c <;> rfl

/-- The record that a test finds, changed so that the test still holds of it, is still the one found. -/
theorem findRecord_setSlot {p : Part} {t : Record → Bool} {i : Nat} {r x : Record} (hf : p.findRecord t = some (i, r))
    (ht : t x = true) : (setSlot i (some x) p).findRecord t = some (i, x) := by
  have hs := (records_mem (findRecord_mem hf).1).2
  have hi : i < 24 := slot_some_lt (p := p) (by rw [hs]; rfl)
  have hslot : ∀ j, (setSlot i (some x) p).slot j = if i = j then some x else p.slot j := by
    intro j
    rw [slot_setSlot]
    by_cases e : i = j
    · subst e
      simp [hi]
    · simp [e]
  unfold Part.findRecord Part.records at hf ⊢
  show List.find? _ (p.flc.order.filterMap _) = _
  revert hf
  generalize p.flc.order = l
  induction l with
  | nil => exact fun h => by cases h
  | cons a l ih =>
    rw [List.filterMap_cons, List.filterMap_cons, hslot]
    by_cases e : i = a
    · subst e
      intro _
      rw [if_pos rfl]
      simp [ht]
    · rw [if_neg e]
      cases hx : p.slot a with
      | none => exact ih
      | some y =>
        simp only [Option.map_some]
        rw [List.find?_cons, List.find?_cons]
        cases t y
        · exact ih
        · intro h
          simp only [Option.some.injEq, Prod.mk.injEq] at h
          exact absurd h.1.symm e

/-- Writing back what a slot holds changes nothing. -/
theorem setSlot_same {p : Part} {i : Nat} {r : Record} (h : p.slot i = some r) : setSlot i (some r) p = p := by
  have : Table.write p.flc.slots i (some r) = p.flc.slots := by
    unfold Table.write
    apply Vector.ext
    intro j hj
    rw [Vector.getElem_setIfInBounds]
    split
    · rename_i e
      subst e
      have k : (p.flc.slots[i]?).getD none = some r := h
      rw [Vector.getElem?_eq_getElem hj] at k
      exact k.symm
    · rfl
  exact congrArg (fun v => p.setFlc { p.flc with slots := v }) this

theorem setSlot_setSlot (i : Nat) (u v : Option Record) (p : Part) : setSlot i v (setSlot i u p) = setSlot i v p := by
  have : Table.write (Table.write p.flc.slots i u) i v = Table.write p.flc.slots i v := by
    unfold Table.write
    apply Vector.ext
    intro j hj
    simp only [Vector.getElem_setIfInBounds]
    split <;> rfl
  exact congrArg (fun t => p.setFlc { p.flc with slots := t }) this

/-- Context entries reported one after another: the MEASURING record's set grows by exactly their contexts (R61). -/
theorem joinMeasuring_foldl (l : List Ctx) (p : Part) :
    (p.measuring = none → l.foldl (fun p c => joinMeasuring c p) p = p)
    ∧ ∀ i r, p.measuring = some (i, r) → ∃ set : BitVec 6, (∀ c : Ctx, set.getLsbD c.index = true ↔ c ∈ l)
      ∧ l.foldl (fun p c => joinMeasuring c p) p
        = setSlot i (some { r with contexts := r.contexts.map fun y => y ||| set }) p := by
  induction l generalizing p with
  | nil =>
    refine ⟨fun _ => rfl, fun i r h => ⟨0#6, fun c => by simp, ?_⟩⟩
    have e : ({ r with contexts := r.contexts.map fun y => y ||| 0#6 } : Record) = r := by
      cases r
      simp
    rw [e]
    exact (setSlot_same (records_mem (findRecord_mem h).1).2).symm
  | cons c l ih =>
    rw [List.foldl_cons]
    refine ⟨fun h => ?_, fun i r h => ?_⟩
    · have : joinMeasuring c p = p := by
        unfold joinMeasuring
        rw [h]
      rw [this]
      exact (ih p).1 h
    · have e : joinMeasuring c p = setSlot i (some { r with contexts := r.contexts.map (· ||| c.bit) }) p := by
        unfold joinMeasuring
        rw [h]
      have hm : (joinMeasuring c p).measuring = some (i, { r with contexts := r.contexts.map (· ||| c.bit) }) := by
        rw [e]
        exact findRecord_setSlot h (findRecord_mem h).2
      obtain ⟨set, a, b⟩ := (ih (joinMeasuring c p)).2 i _ hm
      refine ⟨c.bit ||| set, fun d => ?_, ?_⟩
      · rw [BitVec.getLsbD_or, Bool.or_eq_true, a, Ctx.bit_getLsbD, List.mem_cons]
        simp [eq_comm]
      · have join : ∀ o : Option (BitVec 6),
            (o.map (· ||| c.bit)).map (fun y => y ||| set) = o.map fun y => y ||| (c.bit ||| set) := by
          intro o
          cases o <;> simp [BitVec.or_assoc]
        rw [b, e, setSlot_setSlot]
        dsimp only
        rw [join]

/-- A context entry reads and writes the Firing List alone. -/
theorem joinMeasuring_foldl_congr (l : List Ctx) {p q : Part} (h : q.flc = p.flc) :
    l.foldl (fun p c => joinMeasuring c p) q = q.setFlc (l.foldl (fun p c => joinMeasuring c p) p).flc := by
  induction l generalizing p q with
  | nil =>
    show q = q.setFlc p.flc
    rw [← h]
    rfl
  | cons c l ih =>
    rw [List.foldl_cons, List.foldl_cons]
    have hm : q.measuring = p.measuring := by
      unfold Part.measuring Part.findRecord Part.records Part.slot
      rw [h]
    have hj : joinMeasuring c q = q.setFlc (joinMeasuring c p).flc := by
      unfold joinMeasuring
      rw [hm]
      cases p.measuring with
      | none =>
        show q = q.setFlc p.flc
        rw [← h]
        rfl
      | some x =>
        show q.setFlc { q.flc with slots := _ } = q.setFlc { p.flc with slots := _ }
        rw [h]
    rw [hj]
    exact ih rfl

/-- A cycle evaluation reads and writes the Context Unit and the Firing List alone. -/
theorem evaluateCycle_congr (g : Settings) (r : CycleResult) {p q : Part} (h : q.flc = p.flc) (k : q.cxu = p.cxu) :
    evaluateCycle g r q = (q.setCxu (evaluateCycle g r p).cxu).setFlc (evaluateCycle g r p).flc := by
  have step : ∀ (l : List Ctx) (u : ContextUnit),
      l.foldl (fun p c => joinMeasuring c p) (q.setCxu u)
        = (q.setCxu u).setFlc (l.foldl (fun p c => joinMeasuring c p) (p.setCxu u)).flc :=
    fun l u => joinMeasuring_foldl_congr l h
  have keep : ∀ (l : List Ctx) (u : ContextUnit), (l.foldl (fun p c => joinMeasuring c p) (p.setCxu u)).cxu = u := by
    intro l u
    rw [joinMeasuring_foldl_congr l (p := p) (q := p.setCxu u) rfl]
    rfl
  unfold evaluateCycle setTable
  dsimp only
  rw [k, step]
  simp only [Part.setFlc_cxu, Part.setCxu_cxu, Part.setCxu_flc, keep]
  rfl

end Sys2Proof.Machine
end

