-- ==== Sys2Proof/Laws/Decisions.lean ====
section
/-! SUPPORT. What decisions leave in the Firing List: `Thinned p q` says that every slot keeps its record or loses one that
was ready, and a loop of decisions with enough fuel ends with no record ready and first of its cylinder. With it, what the
Firing List holds after a sync loss (R64, R65, R68). -/

namespace Sys2Proof.Machine

/-! ### Updates that leave the Firing List alone -/

theorem increment_flc (k : Nat) (p : Part) : (increment k p).flc = p.flc := by
  unfold increment
  dsimp only
  split
  · rfl
  · split <;> rfl

theorem report_flc (c : EngineCounter) (p : Part) : (report c p).flc = p.flc := increment_flc _ p

theorem moveLoop_flc (n : Nat) (p : Part) : (moveLoop n p).flc = p.flc := by
  induction n generalizing p with
  | zero => rfl
  | succ n ih =>
    unfold moveLoop
    split
    · rfl
    · split
      · exact ih _
      · rfl

theorem moveTest_flc (p : Part) : (moveTest p).flc = p.flc := moveLoop_flc _ p

theorem postVerdict_flc (d : Decided) (p : Part) : (postVerdict d p).flc = p.flc := by
  unfold postVerdict offerVerdict
  split
  · split
    · exact moveTest_flc _
    · exact report_flc _ p
  · rfl

theorem historyTake_flc (d : Decided) (p : Part) : (historyTake d p).flc = p.flc := by
  have health : ∀ a b q, (healthNotice a b q).flc = q.flc := by
    intro a b q
    unfold healthNotice
    split <;> rfl
  unfold historyTake
  split
  · rfl
  · dsimp only [countTurbine, alertNotice]
    split <;> split <;> exact health _ _ _

theorem countRecord_flc (d : Decided) (p : Part) : (countRecord d p).flc = p.flc := by
  unfold countRecord
  generalize countedKinds d = l
  induction l generalizing p with
  | nil => rfl
  | cons k l ih =>
    rw [List.foldl_cons, ih]
    exact increment_flc _ p

theorem learnReference_flc (d : Decided) (p : Part) : (learnReference d p).flc = p.flc := by
  unfold learnReference
  dsimp only
  split <;> rfl

theorem reportDecision_flc (d : Decided) (p : Part) : (reportDecision d p).flc = p.flc := by
  unfold reportDecision
  dsimp only
  split <;> split <;> simp only [report_flc]

/-! ### A record leaves -/

theorem slot_leaveList (i c j : Nat) (p : Part) : (leaveList i c p).slot j = if i = j then none else p.slot j := by
  have h : (leaveList i c p).slot j = (setSlot i none p).slot j := rfl
  rw [h, slot_setSlot]
  by_cases e : i = j
  · subst e
    by_cases hi : i < 24
    · simp [hi]
    · have : p.slot i = none := by
        cases hs : p.slot i with
        | none => rfl
        | some r => exact absurd (slot_some_lt (p := p) (i := i) (by rw [hs]; rfl)) hi
      simp [hi, this]
  · simp [e]

theorem order_leaveList (i c : Nat) (p : Part) : (leaveList i c p).flc.order = p.flc.order.filter fun j => j != i := rfl

/-- The part just before the decided record leaves the list holds the Firing List as it was. -/
theorem decideRecord_eq (i : Nat) (r : Record) (p : Part) :
    ∃ x : Part, x.flc = p.flc ∧ decideRecord i r p = leaveList i r.cylinder x :=
  ⟨_, by rw [reportDecision_flc, postVerdict_flc, learnReference_flc, countRecord_flc, historyTake_flc], rfl⟩

theorem slot_congr {p q : Part} (h : q.flc = p.flc) (j : Nat) : q.slot j = p.slot j := by
  unfold Part.slot
  rw [h]

theorem records_congr {p q : Part} (h : q.flc = p.flc) : q.records = p.records := by
  unfold Part.records Part.slot
  rw [h]

theorem slot_decideRecord (i j : Nat) (r : Record) (p : Part) :
    (decideRecord i r p).slot j = if i = j then none else p.slot j := by
  obtain ⟨x, hx, e⟩ := decideRecord_eq i r p
  rw [e, slot_leaveList, slot_congr hx]

theorem order_decideRecord (i : Nat) (r : Record) (p : Part) :
    (decideRecord i r p).flc.order = p.flc.order.filter fun j => j != i := by
  obtain ⟨x, hx, e⟩ := decideRecord_eq i r p
  rw [e, order_leaveList, hx]

/-! ### A loop of decisions -/

/-- Every slot keeps its record, or loses one that was ready. -/
def Thinned (p q : Part) : Prop :=
  ∀ i, q.slot i = p.slot i ∨ q.slot i = none ∧ ∃ r, p.slot i = some r ∧ r.ready = true

theorem Thinned.refl (p : Part) : Thinned p p := fun _ => Or.inl rfl

theorem Thinned.trans {p q r : Part} (h : Thinned p q) (k : Thinned q r) : Thinned p r := by
  intro i
  rcases k i with e | ⟨e, x, hx, hr⟩
  · rcases h i with f | ⟨f, g⟩
    · exact Or.inl (e.trans f)
    · exact Or.inr ⟨e.trans f, g⟩
  · rcases h i with f | ⟨f, _⟩
    · exact Or.inr ⟨e, x, by rw [← f, hx], hr⟩
    · rw [f] at hx
      cases hx

/-- A slot that was not ready is kept. -/
theorem Thinned.keeps {p q : Part} (h : Thinned p q) {i : Nat} {r : Record} (hs : p.slot i = some r)
    (hr : r.ready = false) : q.slot i = some r := by
  rcases h i with e | ⟨_, x, hx, k⟩
  · rw [e, hs]
  · rw [hs] at hx
    cases hx
    rw [hr] at k
    cases k

/-- What a slot holds after, it held before. -/
theorem Thinned.held {p q : Part} (h : Thinned p q) {i : Nat} {r : Record} (hs : q.slot i = some r) :
    p.slot i = some r := by
  rcases h i with e | ⟨e, _⟩
  · rw [← e, hs]
  · rw [hs] at e
    cases e

/-- The record that the next decision takes is listed, held and ready. -/
theorem nextReady_spec {sel : Nat → Bool} {p : Part} {i : Nat} {r : Record} (h : nextReady sel p = some (i, r)) :
    i ∈ p.flc.order ∧ p.slot i = some r ∧ r.ready = true := by
  have hm := records_mem (List.mem_of_find?_eq_some h)
  have ht := List.find?_some h
  simp only [Bool.and_eq_true] at ht
  exact ⟨hm.1, hm.2, ht.1.2⟩

theorem Thinned.decideLoop (sel : Nat → Bool) (n : Nat) (p : Part) : Thinned p (decideLoop sel n p) := by
  induction n generalizing p with
  | zero => exact Thinned.refl p
  | succ n ih =>
    unfold Machine.decideLoop
    split
    · exact Thinned.refl p
    · rename_i i r h
      refine Thinned.trans (fun j => ?_) (ih _)
      obtain ⟨-, hs, hr⟩ := nextReady_spec h
      rw [slot_decideRecord]
      by_cases e : i = j
      · subst e
        exact Or.inr ⟨if_pos rfl, r, hs, hr⟩
      · exact Or.inl (if_neg e)

theorem Thinned.testReady (c : Nat) (p : Part) : Thinned p (testReady c p) := Thinned.decideLoop _ _ p

theorem Thinned.testReadyAll (p : Part) : Thinned p (testReadyAll p) := Thinned.decideLoop _ _ p

/-- With fuel for every record listed, the loop ends with no decision due. -/
theorem nextReady_decideLoop (sel : Nat → Bool) (n : Nat) (p : Part) (h : p.flc.order.length ≤ n) :
    nextReady sel (decideLoop sel n p) = none := by
  induction n generalizing p with
  | zero =>
    have : p.flc.order = [] := List.length_eq_zero_iff.mp (Nat.le_zero.mp h)
    show nextReady sel p = none
    unfold nextReady Part.records
    rw [this]
    rfl
  | succ n ih =>
    unfold decideLoop
    split
    · rename_i e
      exact e
    · rename_i i r e
      refine ih _ ?_
      rw [order_decideRecord]
      obtain ⟨hm, -, -⟩ := nextReady_spec e
      have hl : (p.flc.order.filter fun j => j != i).length < p.flc.order.length :=
        List.length_filter_lt_length_iff_exists.mpr ⟨i, hm, by simp⟩
      omega

/-- A taking order without repetition over the slots lists at most 24. -/
theorem order_length_le {p : Part} (h : p.listAgrees) : p.flc.order.length ≤ 24 := by
  have hs : p.flc.order ⊆ List.range 24 := fun i hi => List.mem_range.mpr (slot_some_lt ((h.2 i).mp hi))
  simpa using (List.subperm_of_subset h.1 hs).length_le

/-! ### The decision loop, one decision at a time (R64) -/

/-- With fuel for every record listed, more fuel changes nothing. -/
theorem decideLoop_succ (sel : Nat → Bool) (n : Nat) (p : Part) (h : p.flc.order.length ≤ n) :
    decideLoop sel (n + 1) p = decideLoop sel n p := by
  induction n generalizing p with
  | zero =>
    have e : nextReady sel p = none := nextReady_decideLoop sel 0 p h
    unfold decideLoop
    rw [e]
  | succ n ih =>
    conv_lhs => unfold decideLoop
    conv_rhs => unfold decideLoop
    split
    · rfl
    · rename_i i r e
      refine ih _ ?_
      rw [order_decideRecord]
      obtain ⟨hm, -, -⟩ := nextReady_spec e
      have hl : (p.flc.order.filter fun j => j != i).length < p.flc.order.length :=
        List.length_filter_lt_length_iff_exists.mpr ⟨i, hm, by simp⟩
      omega

/-- One decision of the loop: the next due record is decided, and the loop starts over. -/
theorem decideLoop_step {sel : Nat → Bool} {p : Part} {i : Nat} {r : Record} (h : p.listAgrees)
    (e : nextReady sel p = some (i, r)) :
    decideLoop sel Config.slotCount p = decideLoop sel Config.slotCount (decideRecord i r p) := by
  have hl := order_length_le h
  have hs : (decideRecord i r p).flc.order.length ≤ 23 := by
    rw [order_decideRecord]
    obtain ⟨hm, -, -⟩ := nextReady_spec e
    have hf : (p.flc.order.filter fun j => j != i).length < p.flc.order.length :=
      List.length_filter_lt_length_iff_exists.mpr ⟨i, hm, by simp⟩
    omega
  have ha : decideLoop sel Config.slotCount p = decideLoop sel 23 (decideRecord i r p) := by
    show decideLoop sel (23 + 1) p = _
    conv_lhs => unfold decideLoop
    rw [e]
  rw [ha]
  exact (decideLoop_succ sel 23 _ hs).symm

/-- With no decision due the loop changes nothing. -/
theorem decideLoop_none {sel : Nat → Bool} {p : Part} (n : Nat) (e : nextReady sel p = none) :
    decideLoop sel n p = p := by
  cases n with
  | zero => rfl
  | succ n =>
    unfold decideLoop
    rw [e]

/-- With the taking order and the slots in agreement, a slot is listed with one record. -/
theorem records_nodup {p : Part} (h : p.listAgrees) : (p.records.map Prod.fst).Nodup := by
  have hs : List.Sublist (p.records.map Prod.fst) p.flc.order := by
    unfold Part.records
    rw [List.map_filterMap]
    generalize p.flc.order = l
    induction l with
    | nil => exact List.Sublist.slnil
    | cons a l ih =>
      rw [List.filterMap_cons]
      cases hp : p.slot a with
      | none => simpa using ih.cons a
      | some r => simpa using ih.cons_cons a
  exact h.1.sublist hs

/-- The slot found first with a test is the first of the list that passes it. -/
theorem firstOf_eq_some {p : Part} (h : p.listAgrees) {xs ys : List (Nat × Record)} {i : Nat} {r : Record}
    (e : p.records = xs ++ (i, r) :: ys) (c : Nat) (hc : r.cylinder = c) :
    p.firstOf c = some i ↔ ∀ x ∈ xs, x.2.cylinder ≠ c := by
  unfold Part.firstOf Part.findRecord
  constructor
  · intro hf x hx k
    obtain ⟨y, hy, hi⟩ := Option.map_eq_some_iff.mp hf
    obtain ⟨hy2, as, bs, he, hn⟩ := List.find?_eq_some_iff_append.mp hy
    have hnd := records_nodup h
    rw [e] at hnd
    simp only [List.map_append, List.map_cons] at hnd
    have hyx : y ∈ xs := by
      obtain ⟨zs, ws, hz⟩ := List.append_of_mem hx
      have hmem : ∃ z, (xs.find? fun x => x.2.cylinder == c) = some z := by
        rw [← Option.isSome_iff_exists, List.find?_isSome]
        exact ⟨x, hx, by simpa using k⟩
      obtain ⟨z, hz⟩ := hmem
      rw [e, List.find?_append, hz] at hy
      simp only [Option.some_or] at hy
      cases hy
      exact List.mem_of_find?_eq_some hz
    exact (List.nodup_append.mp hnd).2.2 y.1 (List.mem_map.mpr ⟨y, hyx, rfl⟩) i (List.mem_cons_self ..) hi
  · intro hx
    rw [e, List.find?_append, List.find?_eq_none.mpr fun x hm => by simpa using hx x hm]
    simp [hc]

/-- With no record ready, a STALE abandonment counts one and takes its record off the list (R66, R67). -/
theorem abandon_stale {p : Part} {i : Nat} {r : Record} (h : p.slot i = some r)
    (hn : ∀ x ∈ p.records, x.2.ready = false) :
    ∃ k, abandon .stale i p = leaveList i r.cylinder (report .abandonedStale (p.setKna k)) := by
  have e : ∃ k, (if (r.closeTime.isSome && r.knock.isNone) = true then withdrawEval i r.seq p else p) = p.setKna k := by
    split
    · exact ⟨_, rfl⟩
    · exact ⟨p.kna, rfl⟩
  obtain ⟨k, e⟩ := e
  refine ⟨k, ?_⟩
  unfold abandon
  rw [h]
  dsimp only
  rw [e]
  refine decideLoop_none _ (List.find?_eq_none.mpr fun x hx => ?_)
  have hf : (report AbandonReason.stale.counter (p.setKna k)).flc = p.flc := report_flc _ _
  have hm := records_mem hx
  rw [order_leaveList, slot_leaveList, slot_congr hf, hf] at hm
  by_cases hi : i = x.1
  · rw [if_pos hi] at hm
    cases hm.2
  · rw [if_neg hi] at hm
    have hr : (x.1, x.2) ∈ p.records :=
      List.mem_filterMap.mpr ⟨x.1, (List.mem_filter.mp hm.1).1, by rw [hm.2]; rfl⟩
    simp [hn _ hr]

/-! ### Replacing every record -/

/-- Every record replaced by its lost form: each listed slot holds the lost form, every other slot is kept. -/
theorem slot_replaceRecords (l : List (Nat × Record)) (p : Part) (hl : ∀ x ∈ l, p.slot x.1 = some x.2) (j : Nat) :
    (l.foldl (fun p x => setSlot x.1 (some x.2.lost) p) p).slot j
      = if j ∈ l.map Prod.fst then (p.slot j).map Record.lost else p.slot j := by
  suffices ∀ (l : List (Nat × Record)) (q : Part), (∀ x ∈ l, p.slot x.1 = some x.2) →
      (l.foldl (fun p x => setSlot x.1 (some x.2.lost) p) q).slot j
        = if j ∈ l.map Prod.fst then (p.slot j).map Record.lost else q.slot j from this l p hl
  intro l
  induction l with
  | nil => intro q _; rfl
  | cons x l ih =>
    intro q h
    rw [List.foldl_cons, ih _ fun y hy => h y (List.mem_cons_of_mem _ hy)]
    have hx := h x (List.mem_cons_self ..)
    have hlt : x.1 < 24 := slot_some_lt (p := p) (by rw [hx]; rfl)
    rw [slot_setSlot, List.map_cons]
    by_cases e : j ∈ l.map Prod.fst
    · rw [if_pos e, if_pos (List.mem_cons_of_mem _ e)]
    · rw [if_neg e]
      by_cases k : x.1 = j
      · subst k
        rw [if_pos ⟨rfl, hlt⟩, if_pos (List.mem_cons_self ..), hx]
        rfl
      · rw [if_neg fun a => k a.1, if_neg fun a => by
          rcases List.mem_cons.mp a with a | a
          · exact k a.symm
          · exact e a]

/-- With the taking order and the slots in agreement, the listed slots are the held ones. -/
theorem mem_records_fst {p : Part} (h : p.listAgrees) (j : Nat) :
    j ∈ p.records.map Prod.fst ↔ (p.slot j).isSome = true := by
  rw [List.mem_map]
  constructor
  · rintro ⟨x, hx, rfl⟩
    rw [(records_mem hx).2]
    rfl
  · intro hs
    obtain ⟨r, hr⟩ := Option.isSome_iff_exists.mp hs
    exact ⟨(j, r), List.mem_filterMap.mpr ⟨j, (h.2 j).mpr hs, by rw [hr]; rfl⟩, rfl⟩

/-! ### A sync loss (R68) -/

/-- A record that a sync loss leaves open. -/
abbrev Record.stays (r : Record) : Prop := r.state = .planned ∨ r.state = .settling ∧ r.knock = none

theorem Record.lost_ready_of_open {r : Record} (h : r.stays) :
    r.lost.ready = false := by
  unfold Record.lost Record.ready
  rcases h with h | h
  · simp [h]
  · split <;> simp [h.1, h.2]

theorem Record.ready_of_open {r : Record} (h : r.stays) :
    r.ready = false := by
  unfold Record.ready
  rcases h with h | h <;> simp [h]

/-- An abandonment frees its slot, and what a slot holds after it held before; what could not be decided is kept. -/
theorem slot_abandon_sync {p : Part} {i : Nat} {r : Record} (h : p.slot i = some r) (j : Nat) :
    (∀ x, (abandon .sync i p).slot j = some x → p.slot j = some x)
    ∧ ∀ x, i ≠ j → p.slot j = some x → x.ready = false → (abandon .sync i p).slot j = some x := by
  unfold abandon
  rw [h]
  dsimp only
  generalize hq : (if (r.closeTime.isSome && r.knock.isNone) = true then withdrawEval i r.seq p else p) = q
  have hf : (report AbandonReason.sync.counter q).flc = p.flc := by
    rw [report_flc, ← hq]
    split <;> rfl
  have hs : ∀ k, (leaveList i r.cylinder (report AbandonReason.sync.counter q)).slot k
      = if i = k then none else p.slot k := fun k => by rw [slot_leaveList, slot_congr hf]
  have ht := Thinned.testReady r.cylinder (leaveList i r.cylinder (report AbandonReason.sync.counter q))
  refine ⟨fun x hx => ?_, fun x hij hx hr => ?_⟩
  · have := ht.held hx
    rw [hs] at this
    split at this
    · cases this
    · exact this
  · exact ht.keeps (by rw [hs, if_neg hij, hx]) hr

/-- R68, steps 2 and 3, from a part whose slots hold no more than those of `p` and every record of `p` that stays. -/
theorem finishLoss_spec {p q : Part} (h : q.listAgrees) (back : ∀ i x, q.slot i = some x → p.slot i = some x)
    (keep : ∀ i r, p.slot i = some r → r.stays → q.slot i = some r) :
    let t := testReadyAll (q.records.foldl (fun p x => setSlot x.1 (some x.2.lost) p) q)
    (∀ i r, p.slot i = some r → r.stays → t.slot i = some r.lost)
    ∧ (∀ i x, t.slot i = some x → ∃ r, p.slot i = some r ∧ x = r.lost)
    ∧ nextReady (fun _ => true) t = none := by
  have lost : ∀ j, (q.records.foldl (fun p x => setSlot x.1 (some x.2.lost) p) q).slot j
      = (q.slot j).map Record.lost := by
    intro j
    rw [slot_replaceRecords _ _ fun x hx => (records_mem hx).2]
    split
    · rfl
    · rename_i e
      rw [mem_records_fst h] at e
      cases hs : q.slot j with
      | none => rfl
      | some r =>
        rw [hs] at e
        exact absurd rfl e
  have lb : (q.records.foldl (fun p x => setSlot x.1 (some x.2.lost) p) q).listAgrees :=
    (Kept.replaceRecords _ _ fun x hx => by rw [(records_mem hx).2]; rfl).list h
  have th := Thinned.testReadyAll (q.records.foldl (fun p x => setSlot x.1 (some x.2.lost) p) q)
  refine ⟨fun i r hs hr => ?_, fun i x hx => ?_, nextReady_decideLoop _ _ _ (order_length_le lb)⟩
  · exact th.keeps (by rw [lost, keep i r hs hr]; rfl) (Record.lost_ready_of_open hr)
  · have := th.held hx
    rw [lost] at this
    obtain ⟨r, hr, e⟩ := Option.map_eq_some_iff.mp this
    exact ⟨r, back i r hr, e.symm⟩

/-- The Firing List after a sync loss of reason GAP, CAM or STALL (R68). -/
theorem firingSyncLoss_spec {p : Part} (h : p.listAgrees) :
    (∀ i r, p.slot i = some r → r.stays → (firingSyncLoss p).slot i = some r.lost)
    ∧ (∀ i x, (firingSyncLoss p).slot i = some x → ∃ r, p.slot i = some r ∧ x = r.lost)
    ∧ nextReady (fun _ => true) (firingSyncLoss p) = none := by
  unfold firingSyncLoss
  dsimp only
  split
  · exact finishLoss_spec h (fun _ _ => id) fun _ _ a _ => a
  · rename_i i r hm
    have hy := records_mem (findRecord_mem hm).1
    have hst : r.state = .measuring := by simpa using (findRecord_mem hm).2
    refine finishLoss_spec ((Kept.abandon _ _ p).list h) (fun j => (slot_abandon_sync hy.2 j).1) fun j x hs hr => ?_
    refine (slot_abandon_sync hy.2 j).2 x (fun e => ?_) hs (Record.ready_of_open hr)
    rw [← e, hy.2] at hs
    cases hs
    rcases hr with hr | hr
    · rw [hst] at hr
      cases hr
    · rw [hst] at hr
      cases hr.1

end Sys2Proof.Machine
end

