-- ==== Sys2Proof/Laws/Frames.lean ====
section
/-! SUPPORT. The Frame Store. `FramesKept p q`: the frames and the commit index are kept, which decisions and evaluations do;
with it, what ending the FILLING frame leaves (R86, R87), and which frame an eviction takes (R88). -/

namespace Sys2Proof.Machine

/-- The frames and the commit index are kept. -/
structure FramesKept (p q : Part) : Prop where
  frames : q.kna.frames = p.kna.frames
  commit : q.kna.commitIndex = p.kna.commitIndex

theorem FramesKept.refl (p : Part) : FramesKept p p := ⟨rfl, rfl⟩

theorem FramesKept.trans {p q r : Part} (h : FramesKept p q) (k : FramesKept q r) : FramesKept p r :=
  ⟨k.frames.trans h.frames, k.commit.trans h.commit⟩

theorem FramesKept.of_kna {p q : Part} (h : q.kna = p.kna) : FramesKept p q := ⟨by rw [h], by rw [h]⟩

/-! ### Decisions and evaluations -/

theorem moveLoop_kna (n : Nat) (p : Part) : (moveLoop n p).kna = p.kna := by
  induction n generalizing p with
  | zero => rfl
  | succ n ih =>
    unfold moveLoop
    split
    · rfl
    · split
      · exact ih _
      · rfl

theorem postVerdict_kna (d : Decided) (p : Part) : (postVerdict d p).kna = p.kna := by
  unfold postVerdict offerVerdict
  split
  · split
    · exact moveLoop_kna _ _
    · exact report_kna _ p
  · rfl

theorem historyTake_kna (d : Decided) (p : Part) : (historyTake d p).kna = p.kna := by
  have health : ∀ a b q, (healthNotice a b q).kna = q.kna := by
    intro a b q
    unfold healthNotice
    split <;> rfl
  unfold historyTake
  split
  · rfl
  · dsimp only [countTurbine, alertNotice]
    split <;> split <;> exact health _ _ _

theorem countRecord_kna (d : Decided) (p : Part) : (countRecord d p).kna = p.kna := by
  unfold countRecord
  generalize countedKinds d = l
  induction l generalizing p with
  | nil => rfl
  | cons k l ih =>
    rw [List.foldl_cons, ih]
    exact increment_kna _ p

theorem reportDecision_kna (d : Decided) (p : Part) : (reportDecision d p).kna = p.kna := by
  unfold reportDecision
  dsimp only
  split <;> split <;> simp only [report_kna]

theorem leaveList_kna (i c : Nat) (p : Part) : (leaveList i c p).kna = p.kna := rfl

theorem FramesKept.learnReference (d : Decided) (p : Part) : FramesKept p (learnReference d p) := by
  unfold Machine.learnReference
  dsimp only
  split
  · exact ⟨rfl, rfl⟩
  · exact FramesKept.refl p

theorem FramesKept.decideRecord (i : Nat) (r : Record) (p : Part) : FramesKept p (decideRecord i r p) := by
  have h : FramesKept p (countRecord (decidedOf r p) (historyTake (decidedOf r p) p)) :=
    FramesKept.of_kna (by rw [countRecord_kna, historyTake_kna])
  refine (h.trans (FramesKept.learnReference (decidedOf r p) _)).trans (FramesKept.of_kna ?_)
  unfold Machine.decideRecord
  dsimp only
  rw [leaveList_kna, reportDecision_kna, postVerdict_kna]

theorem FramesKept.decideLoop (sel : Nat → Bool) (n : Nat) (p : Part) : FramesKept p (decideLoop sel n p) := by
  induction n generalizing p with
  | zero => exact FramesKept.refl p
  | succ n ih =>
    unfold Machine.decideLoop
    split
    · exact FramesKept.refl p
    · exact (FramesKept.decideRecord _ _ p).trans (ih _)

theorem FramesKept.testReady (c : Nat) (p : Part) : FramesKept p (testReady c p) := FramesKept.decideLoop _ _ p

theorem FramesKept.takeKnockReport (i : Nat) (s : BitVec 16) (k : KnockReport) (p : Part) :
    FramesKept p (takeKnockReport i s k p) := by
  unfold Machine.takeKnockReport
  split
  · exact FramesKept.refl p
  · split
    · dsimp only
      split
      · rename_i r _ _ _
        exact FramesKept.trans (q := setSlot i (some (r.withKnock k)) p) (FramesKept.of_kna rfl) (FramesKept.testReady _ _)
      · exact FramesKept.of_kna rfl
    · exact FramesKept.refl p

theorem FramesKept.evaluate (e : PendingEval) (p : Part) : FramesKept p (evaluate e p) := by
  have sensor : ∀ s a b, FramesKept p (updateSensor s a b p) := by
    intro s a b
    unfold updateSensor
    dsimp only
    split <;> exact ⟨rfl, rfl⟩
  unfold Machine.evaluate
  dsimp only
  split
  · exact FramesKept.takeKnockReport _ _ _ p
  · exact (sensor _ _ _).trans (FramesKept.takeKnockReport _ _ _ _)

theorem FramesKept.evaluateEach (es : List PendingEval) (p : Part) : FramesKept p (evaluateEach es p) := by
  induction es generalizing p with
  | nil => exact FramesKept.refl p
  | cons e es ih =>
    have h : FramesKept p (withdrawEval e.slot e.seq p) := ⟨rfl, rfl⟩
    exact (h.trans (FramesKept.evaluate e _)).trans (ih (Machine.evaluate e (withdrawEval e.slot e.seq p)))

/-! ### Ending the FILLING frame (R86, R87) -/

theorem replaceFilling_split {xs ys : List Frame} {f : Frame} (x : Frame) (hf : f.state = .filling)
    (h : ∀ z ∈ xs ++ ys, z.state ≠ .filling) : replaceFilling x (xs ++ f :: ys) = xs ++ x :: ys := by
  have keep : ∀ zs : List Frame, (∀ z ∈ zs, z.state ≠ .filling) → replaceFilling x zs = zs := by
    intro zs hz
    refine (List.map_congr_left fun z hm => ?_).trans (List.map_id zs)
    rw [if_neg (hz z hm)]
    rfl
  show (xs ++ f :: ys).map _ = _
  rw [List.map_append, List.map_cons, if_pos hf]
  exact congrArg₂ (fun a b => a ++ x :: b) (keep xs fun z hz => h z (List.mem_append_left _ hz))
    (keep ys fun z hz => h z (List.mem_append_right _ hz))

theorem filling_split {p : Part} {xs ys : List Frame} {f : Frame} (e : p.kna.frames = xs ++ f :: ys)
    (hf : f.state = .filling) (h : ∀ z ∈ xs ++ ys, z.state ≠ .filling) : p.filling = some f := by
  unfold Part.filling
  rw [e, List.find?_eq_some_iff_append]
  exact ⟨by simpa using hf, xs, ys, rfl, fun z hz => by simpa using h z (List.mem_append_left _ hz)⟩

theorem truncateFilling_none {p : Part} (h : ∀ f ∈ p.kna.frames, f.state ≠ .filling) : truncateFilling p = p := by
  unfold truncateFilling
  rw [show p.filling = none from List.find?_eq_none.mpr fun f hf => by simpa using h f hf]

/-- The FILLING frame ends: it is counted, and its closure is made. -/
theorem truncateFilling_some {p : Part} {xs ys : List Frame} {f : Frame} (e : p.kna.frames = xs ++ f :: ys)
    (hf : f.state = .filling) (h : ∀ z ∈ xs ++ ys, z.state ≠ .filling) :
    truncateFilling p = frameClosure { f with state := .truncated } (report .framesTruncated
      (setFrames (xs ++ { f with state := .truncated } :: ys) p)) := by
  unfold truncateFilling
  rw [filling_split e hf h]
  dsimp only
  rw [e, replaceFilling_split _ hf h]

theorem truncateFilling_length (p : Part) : (truncateFilling p).kna.frames.length = p.kna.frames.length := by
  unfold truncateFilling
  split
  · rfl
  · dsimp only
    unfold frameClosure
    rw [(FramesKept.evaluateEach _ _).frames, report_kna]
    exact List.length_map _

/-! ### Eviction (R88) -/

/-- The frame of greatest age, the earlier committed of two, is the one that is evicted. -/
theorem oldestFrame_split {start : Stamp} {xs ys : List Frame} {e : Frame}
    (h : ∀ f ∈ xs, interval f.start start < interval e.start start)
    (k : ∀ f ∈ ys, interval f.start start ≤ interval e.start start) : oldestFrame start (xs ++ e :: ys) = some e := by
  unfold oldestFrame
  rw [List.foldl_append, List.foldl_cons]
  have before : ∀ (l : List Frame) (b : Option Frame),
      (∀ f ∈ l, interval f.start start < interval e.start start) →
      (∀ x, b = some x → interval x.start start < interval e.start start) → ∀ x, l.foldl (fun best f =>
        match best with
        | none => some f
        | some a => if interval a.start start < interval f.start start then some f else some a) b = some x →
      interval x.start start < interval e.start start := by
    intro l
    induction l with
    | nil => exact fun b _ hb x hx => hb x hx
    | cons c l ih =>
      intro b hl hb x hx
      rw [List.foldl_cons] at hx
      refine ih _ (fun f hf => hl f (List.mem_cons_of_mem _ hf)) (fun y hy => ?_) x hx
      cases b with
      | none =>
        cases hy
        exact hl _ (List.mem_cons_self ..)
      | some z =>
        dsimp only at hy
        split at hy
        · cases hy
          exact hl _ (List.mem_cons_self ..)
        · cases hy
          exact hb _ rfl
  have after : ∀ l : List Frame, (∀ f ∈ l, interval f.start start ≤ interval e.start start) → l.foldl (fun best f =>
        match best with
        | none => some f
        | some a => if interval a.start start < interval f.start start then some f else some a) (some e) = some e := by
    intro l
    induction l with
    | nil => exact fun _ => rfl
    | cons c l ih =>
      intro hl
      rw [List.foldl_cons]
      dsimp only
      rw [if_neg (Nat.not_lt.mpr (hl c (List.mem_cons_self ..)))]
      exact ih fun f hf => hl f (List.mem_cons_of_mem _ hf)
  generalize hb : xs.foldl _ none = b
  have hx := before xs none h (fun x hx => by cases hx)
  cases b with
  | none => exact after ys k
  | some x =>
    dsimp only
    rw [if_pos (hx x hb)]
    exact after ys k

end Sys2Proof.Machine
end

