-- ==== Sys2Proof/Laws/Memory.lean ====
section
/-! SUPPORT. What the memory operations do: every write keeps the canonical form (`Memory.wf`), a byte written reads
back, and every other byte reads as before. -/

namespace Sys2Proof.Machine

theorem Memory.wf_nil : Memory.wf [] := ⟨List.Pairwise.nil, by simp⟩

theorem Memory.wf_tail {c : Host.Cell} {m : Memory} (h : Memory.wf (c :: m)) : Memory.wf m :=
  ⟨(List.pairwise_cons.mp h.1).2, fun x hx => h.2 x (List.mem_cons_of_mem _ hx)⟩

theorem Memory.wf_head {c : Host.Cell} {m : Memory} (h : Memory.wf (c :: m)) :
    c.2 ≠ Memory.unlisted ∧ ∀ x ∈ m, c.1 < x.1 :=
  ⟨h.2 c (List.mem_cons_self ..), fun x hx => (List.pairwise_cons.mp h.1).1 x hx⟩

theorem Memory.wf_cons {c : Host.Cell} {m : Memory} (hc : c.2 ≠ Memory.unlisted) (hlt : ∀ x ∈ m, c.1 < x.1)
    (h : Memory.wf m) : Memory.wf (c :: m) :=
  ⟨List.pairwise_cons.mpr ⟨hlt, h.1⟩, fun x hx => by
    rcases List.mem_cons.mp hx with rfl | hx
    · exact hc
    · exact h.2 x hx⟩

/-- Each cell of a memory after a write is the written one or an old one. -/
theorem Memory.mem_write {m : Memory} {a : Nat} {v : Byte} {c : Host.Cell} (h : c ∈ Memory.write m a v) :
    c = (a, v) ∨ c ∈ m := by
  induction m with
  | nil =>
    unfold Memory.write at h
    split at h
    · simp at h
    · left; simpa using h
  | cons x m ih =>
    obtain ⟨k, w⟩ := x
    unfold Memory.write at h
    split at h
    · split at h
      · exact Or.inr h
      · rcases List.mem_cons.mp h with h | h
        · exact Or.inl h
        · exact Or.inr h
    · split at h
      · split at h
        · exact Or.inr (List.mem_cons_of_mem _ h)
        · rcases List.mem_cons.mp h with h | h
          · exact Or.inl h
          · exact Or.inr (List.mem_cons_of_mem _ h)
      · rcases List.mem_cons.mp h with h | h
        · exact Or.inr (by rw [h]; exact List.mem_cons_self ..)
        · rcases ih h with h | h
          · exact Or.inl h
          · exact Or.inr (List.mem_cons_of_mem _ h)

/-- A byte write keeps the canonical form. -/
theorem Memory.write_wf {m : Memory} (h : Memory.wf m) (a : Nat) (v : Byte) : Memory.wf (Memory.write m a v) := by
  induction m with
  | nil =>
    unfold Memory.write
    split
    · exact Memory.wf_nil
    · rename_i hv
      exact Memory.wf_cons (c := (a, v)) hv (by simp) Memory.wf_nil
  | cons x m ih =>
    obtain ⟨k, w⟩ := x
    have hh := Memory.wf_head h
    have ht := Memory.wf_tail h
    unfold Memory.write
    split
    · rename_i hak
      split
      · exact h
      · rename_i hv
        refine Memory.wf_cons (c := (a, v)) hv (fun x hx => ?_) h
        rcases List.mem_cons.mp hx with rfl | hx
        · exact hak
        · exact Nat.lt_trans hak (hh.2 x hx)
    · split
      · rename_i hak
        split
        · exact ht
        · rename_i hv
          exact Memory.wf_cons (c := (a, v)) hv (fun x hx => by simpa [hak] using hh.2 x hx) ht
      · rename_i h1 h2
        refine Memory.wf_cons (c := (k, w)) hh.1 (fun x hx => ?_) (ih ht)
        rcases Memory.mem_write hx with rfl | hx
        · simp only; omega
        · exact hh.2 x hx

theorem Memory.read_of_lt {m : Memory} {a : Nat} (h : ∀ x ∈ m, a < x.1) : Memory.read m a = Memory.unlisted := by
  induction m with
  | nil => rfl
  | cons x m ih =>
    obtain ⟨k, w⟩ := x
    have hk : a < k := h (k, w) (List.mem_cons_self ..)
    unfold Memory.read
    rw [if_neg (by omega)]
    exact ih fun x hx => h x (List.mem_cons_of_mem _ hx)

/-- What a byte reads after a byte write. -/
theorem Memory.read_write {m : Memory} (h : Memory.wf m) (a b : Nat) (v : Byte) :
    Memory.read (Memory.write m a v) b = if b = a then v else Memory.read m b := by
  induction m with
  | nil =>
    unfold Memory.write
    by_cases hb : b = a
    · subst hb
      split
      · rename_i hv; simp [Memory.read, hv]
      · simp [Memory.read]
    · have hb' : a ≠ b := fun e => hb e.symm
      split <;> simp [Memory.read, hb']
  | cons x m ih =>
    obtain ⟨k, w⟩ := x
    have hh := Memory.wf_head h
    have ht := Memory.wf_tail h
    unfold Memory.write
    by_cases hb : b = a
    · subst hb
      split
      · rename_i hlt
        split
        · rename_i hv
          rw [if_pos rfl, hv]
          exact Memory.read_of_lt (m := (k, w) :: m) fun x hx => by
            rcases List.mem_cons.mp hx with rfl | hx
            · exact hlt
            · exact Nat.lt_trans hlt (hh.2 x hx)
        · simp [Memory.read]
      · split
        · rename_i hk
          split
          · rename_i hv
            rw [if_pos rfl, hv]
            exact Memory.read_of_lt fun x hx => by simpa [hk] using hh.2 x hx
          · simp [Memory.read]
        · rename_i hk
          have hk' : k ≠ b := fun e => hk e.symm
          rw [Memory.read, if_neg hk', ih ht, if_pos rfl, if_pos rfl]
    · have hb' : a ≠ b := fun e => hb e.symm
      split
      · split
        · rfl
        · simp [Memory.read, hb']
      · split
        · rename_i hk
          have hkb : k ≠ b := by omega
          split <;> simp [Memory.read, hb', hkb]
        · simp only [Memory.read]
          split
          · rfl
          · rw [ih ht, if_neg hb]

/-- A lane write keeps the canonical form. -/
theorem Memory.writeLane_wf {m : Memory} (h : Memory.wf m) (a : Nat) (d : Word) (e : Enables) (i : Nat) :
    Memory.wf (Memory.writeLane a d e i m) := by
  unfold Memory.writeLane
  split
  · exact Memory.write_wf h _ _
  · exact h

/-- A word write keeps the canonical form. -/
theorem Memory.writeWord_wf {m : Memory} (h : Memory.wf m) (a : Nat) (d : Word) (e : Enables) :
    Memory.wf (Memory.writeWord m a d e) :=
  Memory.writeLane_wf (Memory.writeLane_wf (Memory.writeLane_wf (Memory.writeLane_wf h _ _ _ _) _ _ _ _) _ _ _ _) _ _ _ _

theorem Memory.read_writeLane {m : Memory} (h : Memory.wf m) (a : Nat) (d : Word) (e : Enables) (i b : Nat) :
    Memory.read (Memory.writeLane a d e i m) b
      = if e.getLsbD i = true ∧ b = a + i then byteOf d i else Memory.read m b := by
  unfold Memory.writeLane
  by_cases he : e.getLsbD i = true
  · simp [he, Memory.read_write h]
  · simp [he]

/-- What a byte reads after a word write: the byte of an enabled lane is the word's, every other is the old one. -/
theorem Memory.read_writeWord {m : Memory} (h : Memory.wf m) (a : Nat) (d : Word) (e : Enables) (b : Nat) :
    Memory.read (Memory.writeWord m a d e) b
      = if a ≤ b ∧ b < a + 4 ∧ e.getLsbD (b - a) = true then byteOf d (b - a) else Memory.read m b := by
  have h0 := Memory.writeLane_wf h a d e 0
  have h1 := Memory.writeLane_wf h0 a d e 1
  have h2 := Memory.writeLane_wf h1 a d e 2
  unfold Memory.writeWord
  rw [Memory.read_writeLane h2, Memory.read_writeLane h1, Memory.read_writeLane h0, Memory.read_writeLane h]
  by_cases hb : a ≤ b ∧ b < a + 4
  · obtain ⟨hle, hlt⟩ := hb
    obtain ⟨i, rfl⟩ : ∃ i, b = a + i := ⟨b - a, by omega⟩
    have hi : i < 4 := by omega
    have : a + i - a = i := by omega
    rw [this]
    rcases (show i = 0 ∨ i = 1 ∨ i = 2 ∨ i = 3 by omega) with rfl | rfl | rfl | rfl <;> simp
  · have : ∀ i, i < 4 → ¬ b = a + i := fun i hi e => hb ⟨by omega, by omega⟩
    rw [if_neg (by rintro ⟨_, e⟩; exact this 3 (by omega) e), if_neg (by rintro ⟨_, e⟩; exact this 2 (by omega) e),
      if_neg (by rintro ⟨_, e⟩; exact this 1 (by omega) e), if_neg (by rintro ⟨_, e⟩; exact this 0 (by omega) e),
      if_neg (by rintro ⟨h1, h2, _⟩; exact hb ⟨h1, h2⟩)]

/-- A word put together from its own bytes. -/
theorem bytes_word (d : Word) : byteOf d 3 ++ byteOf d 2 ++ byteOf d 1 ++ byteOf d 0 = d := by
  unfold byteOf
  ext i hi
  simp only [BitVec.getElem_append, BitVec.getElem_extractLsb', Nat.mul_zero, Nat.mul_one]
  split
  · simp [← BitVec.getLsbD_eq_getElem]
  · split
    · simp only [← BitVec.getLsbD_eq_getElem]
      congr 1
      omega
    · split
      · simp only [← BitVec.getLsbD_eq_getElem]
        congr 1
        omega
      · simp only [← BitVec.getLsbD_eq_getElem]
        congr 1
        omega

/-- A full word written reads back. -/
theorem Memory.readWord_writeWord {m : Memory} (h : Memory.wf m) (a : Nat) (d : Word) :
    Memory.readWord (Memory.writeWord m a d fullWord) a = d := by
  unfold Memory.readWord
  have key : ∀ i, i < 4 → Memory.read (Memory.writeWord m a d fullWord) (a + i) = byteOf d i := by
    intro i hi
    rw [Memory.read_writeWord h]
    have : a + i - a = i := by omega
    rw [this]
    rw [if_pos]
    refine ⟨by omega, by omega, ?_⟩
    rcases (show i = 0 ∨ i = 1 ∨ i = 2 ∨ i = 3 by omega) with rfl | rfl | rfl | rfl <;> rfl
  rw [key 3 (by omega), key 2 (by omega), key 1 (by omega)]
  have := key 0 (by omega)
  rw [Nat.add_zero] at this
  rw [this]
  exact bytes_word d

end Sys2Proof.Machine
end

