-- ==== Sys2Proof/Laws/KeptShadow.lean ====
section
/-! SUPPORT. The Configuration Shadow and the Pass-Through Unit: what each action preserves. -/

namespace Sys2Proof.Machine

/-! ### The Configuration Shadow -/

theorem Sound.writeStaging (o : Nat) (d : Word) (e : Enables) (p : Part) : Sound p (writeStaging o d e p) :=
  ⟨rfl, fun h => Memory.writeWord_wf h _ _ _, id, id, id⟩

theorem increment_csh (k : Nat) (p : Part) : (increment k p).csh = p.csh := by
  unfold increment
  dsimp only
  split
  · rfl
  · split <;> rfl

theorem supersedePending_pending (p : Part) : (supersedePending p).csh.pendingCopy = none := by
  unfold supersedePending
  split
  · assumption
  · rfl

theorem supersedePending_mode (p : Part) : (supersedePending p).csh.mode = p.csh.mode := by
  unfold supersedePending
  split <;> rfl

theorem supersedePending_active (p : Part) : (supersedePending p).csh.active = p.csh.active := by
  unfold supersedePending
  split <;> rfl

theorem Kept.supersedePending (p : Part) : Kept p (supersedePending p) := by
  unfold Machine.supersedePending
  split
  · exact Kept.refl p
  · refine Kept.trans ?_ (Kept.resultReport _ _ _ _)
    exact Kept.setCsh p _ rfl fun m => ⟨m.1, fun e => absurd rfl e, m.2.2.1, fun _ e => by simp at e⟩

theorem Kept.layoutPosting (p : Part) : Kept p (layoutPosting p) := by
  unfold Machine.layoutPosting
  dsimp only
  refine Kept.trans ?_ (Kept.moveTest _)
  refine Kept.trans ?_ (Kept.reportNoPublishing _)
  refine Kept.trans ?_ (Kept.setQueue _ _ (by rw [List.length_map]; exact id))
  refine Kept.trans (Kept.discardPostQueue p) ?_
  exact Kept.setPse _ _ id

theorem Kept.restartGeometry (p : Part) : Kept p (restartGeometry p) := by
  unfold Machine.restartGeometry
  refine Kept.trans ?_ (Kept.resetHistory _)
  refine Kept.trans ?_ (Kept.resetContexts _)
  refine Kept.trans ?_ (Kept.syncLoss _ _)
  refine Kept.trans ?_ (Kept.resetKnock _)
  exact (Kept.emptyLatches p).trans (Kept.abandonAll _ _)

theorem Kept.announceClass (c : ApplyClass) (f : Bool) (p : Part) : Kept p (announceClass c f p) := by
  unfold Machine.announceClass
  split
  · refine Kept.trans ?_ (Kept.layoutPosting _)
    exact Kept.ite (Kept.resetKnock p) (Kept.restartGeometry p)
  · exact Kept.restartGeometry p
  · exact Kept.announceTuning p
  · exact Kept.moveTest p

/-- A validated configuration put in force with no Pending Copy present. -/
theorem Kept.install (p : Part) (g : Settings) (tag : BitVec 16)
    (hp : p.csh.pendingCopy = none) (hg : g.validate (pageBase p.ptu.strap) = none) :
    Kept p
      (let q := Machine.resultReport tag .active none (p.setCsh { p.csh with active := some g, activeGen := tag })
       if decide (q.csh.mode = .transparent) then q.setCsh { q.csh with mode := .monitoring } else q) := by
  have valid : ∀ x, some g = some x → x.validate (pageBase p.ptu.strap) = none := fun x e => by
    rw [← Option.some.inj e]
    exact hg
  dsimp only
  split
  · refine ⟨⟨⟨rfl, id, id, id, fun m => ⟨?_, fun _ => rfl, valid, m.2.2.2⟩⟩, rfl, rfl, fun _ => Nat.le_refl _⟩, rfl, rfl, rfl⟩
    show Mode.monitoring = Mode.transparent ↔ some g = none
    simp
  · rename_i h
    have h' : p.csh.mode ≠ .transparent := fun e => h (decide_eq_true e)
    refine ⟨⟨⟨rfl, id, id, id, fun m => ⟨?_, fun e => absurd hp e, valid, m.2.2.2⟩⟩, rfl, rfl, fun _ => Nat.le_refl _⟩, rfl, rfl, rfl⟩
    show p.csh.mode = Mode.transparent ↔ some g = none
    simp [h']

theorem Kept.applyNow (c : ApplyClass) (g : Settings) (tag : BitVec 16) (p : Part)
    (hg : g.validate (pageBase p.ptu.strap) = none) : Kept p (applyNow c g tag p) := by
  unfold Machine.applyNow
  dsimp only
  refine Kept.trans ?_ (Kept.announceClass _ _ _)
  have h := Kept.supersedePending p
  exact h.trans (Kept.install _ g tag (supersedePending_pending p) (by rw [h.strap]; exact hg))

theorem Kept.applyPending (g : Settings) (tag : BitVec 16) (p : Part)
    (hg : g.validate (pageBase p.ptu.strap) = none) (ha : p.csh.active ≠ none) (hm : p.csh.mode ≠ .disengaging) :
    Kept p (applyPending g tag p) := by
  unfold Machine.applyPending
  dsimp only
  have h := Kept.supersedePending p
  refine h.trans ?_
  refine Kept.trans ?_ (Kept.resultReport _ _ _ _)
  refine Kept.setCsh _ _ rfl fun m => ⟨m.1, fun _ => ?_, m.2.2.1, fun c e => ?_⟩
  · show (Machine.supersedePending p).csh.mode = .monitoring
    have h1 : (Machine.supersedePending p).csh.mode ≠ .transparent := fun e => ha (by
      rw [← supersedePending_active]
      exact m.1.mp e)
    rw [supersedePending_mode] at h1 ⊢
    cases hx : p.csh.mode <;> simp_all
  · have : (⟨g, tag⟩ : PendingCopy) = c := Option.some.inj e
    rw [← this]
    show g.validate (pageBase (Machine.supersedePending p).ptu.strap) = none
    rw [h.strap]
    exact hg

theorem classify_tuning_active {a : Option Settings} {g : Settings} (h : classify a g = .tuning) : a ≠ none := by
  rintro rfl
  simp [classify] at h

theorem Kept.applyCopy (g : Settings) (tag : BitVec 16) (p : Part) (hm : p.csh.mode ≠ .disengaging) :
    Kept p (applyCopy g tag p) := by
  unfold Machine.applyCopy
  split
  · exact Kept.resultReport _ _ _ p
  · rename_i hv
    split
    · rename_i hc
      exact Kept.ite (Kept.applyPending g tag p hv (classify_tuning_active hc) hm) (Kept.applyNow _ g tag p hv)
    · exact Kept.applyNow _ g tag p hv
    · exact Kept.applyNow _ g tag p hv
    · exact Kept.applyNow _ g tag p hv

theorem Kept.takeApply (d : Word) (p : Part) : Kept p (takeApply d p) := by
  unfold Machine.takeApply
  dsimp only
  split
  · exact Kept.refl p
  · split
    · exact Kept.resultReport _ _ _ p
    · rename_i h
      exact Kept.applyCopy _ _ p (by rw [h]; simp)
    · rename_i h
      exact Kept.applyCopy _ _ p (by rw [h]; simp)

theorem Kept.takeAnalysisReset (p : Part) : Kept p (takeAnalysisReset p) := by
  unfold Machine.takeAnalysisReset
  refine Kept.trans ?_ (Kept.resetHistory _)
  refine Kept.trans ?_ (Kept.resetContexts _)
  refine Kept.trans ?_ (Kept.resetKnock _)
  exact (Kept.syncLoss _ p).trans (Kept.abandonAll _ _)

theorem Kept.endIfDrained (p : Part) : Kept p (endIfDrained p) := by
  unfold Machine.endIfDrained
  split
  · rename_i h
    unfold finishDisengage
    refine Kept.trans (q := p.setCsh { p.csh with mode := .transparent, active := none, activeGen := 0 }) ?_ ?_
    · refine Kept.setCsh p _ rfl fun m => ?_
      have hp : p.csh.pendingCopy = none := by
        by_contra e
        have := m.2.1 e
        rw [h.1] at this
        simp at this
      exact ⟨by simp, fun e => absurd hp e, fun _ e => by simp at e, m.2.2.2⟩
    · exact Kept.setPse _ _ fun _ => Nat.zero_le _
  · exact Kept.refl p

/-- The mode becomes DISENGAGING and a Pending Copy is discarded. -/
theorem Kept.beginDisengage (p : Part) (hm : p.csh.mode = .monitoring) :
    Kept p (Machine.supersedePending (Machine.emptyLatches (p.setCsh { p.csh with mode := .disengaging }))) := by
  unfold Machine.supersedePending
  split
  · rename_i hp
    have hp' : p.csh.pendingCopy = none := hp
    refine ⟨⟨⟨rfl, id, id, id, fun m => ⟨?_, fun e => absurd hp' e, m.2.2⟩⟩, rfl, rfl, fun _ => Nat.le_refl _⟩, rfl, rfl, rfl⟩
    show Mode.disengaging = Mode.transparent ↔ p.csh.active = none
    have := m.1
    rw [hm] at this
    simpa using this
  · refine ⟨⟨⟨rfl, id, id, id, fun m => ⟨?_, fun e => absurd rfl e, m.2.2.1, fun _ e => nomatch (show none = some _ from e)⟩⟩,
      rfl, rfl, fun _ => Nat.le_refl _⟩, rfl, rfl, rfl⟩
    show Mode.disengaging = Mode.transparent ↔ p.csh.active = none
    have := m.1
    rw [hm] at this
    simpa using this

theorem Kept.takeDisengage (p : Part) (hm : p.csh.mode = .monitoring) : Kept p (takeDisengage p) := by
  unfold Machine.takeDisengage
  dsimp only
  refine Kept.trans ?_ (Kept.endIfDrained _)
  refine Kept.trans ?_ (Kept.discardPostQueue _)
  refine Kept.trans ?_ (Kept.resetHistory _)
  refine Kept.trans ?_ (Kept.resetContexts _)
  refine Kept.trans ?_ (Kept.resetKnock _)
  refine Kept.trans ?_ (Kept.abandonAll _ _)
  exact (Kept.beginDisengage p hm).trans (Kept.syncLoss _ _)

theorem Kept.takePostControl (d : Word) (p : Part) : Kept p (takePostControl d p) := by
  unfold Machine.takePostControl
  split
  · exact Kept.takePostStop p
  · exact Kept.takePostResume p
  · exact Kept.refl p

theorem Sound.takeStatisticsCommand (d : Word) (p : Part) : Sound p (takeStatisticsCommand d p) := by
  unfold Machine.takeStatisticsCommand
  split
  · exact (Kept.takeSnapshot p).toSound
  · exact Sound.clearLive p
  · exact Sound.snapshotAndClearLive p
  · exact Sound.refl p

theorem Kept.takeCommon (o : Nat) (d : Word) (p : Part) (ho : o ≠ 0x10) : Kept p (takeCommon o d p) := by
  unfold Machine.takeCommon
  split
  · exact Kept.clearNotices _ p
  · exact Kept.takeConsumerCount _ p
  · exact Kept.takePostControl _ p
  · exact absurd rfl ho
  · exact Kept.releaseCylinders _ p
  · exact Kept.refl p

theorem Sound.takeCommon (o : Nat) (d : Word) (p : Part) : Sound p (takeCommon o d p) := by
  by_cases ho : o = 0x10
  · subst ho
    exact Sound.takeStatisticsCommand d p
  · exact (Kept.takeCommon o d p ho).toSound

/-- Every command word but the Statistics Command. -/
theorem Kept.takeCommand (o : Nat) (d : Word) (p : Part) (ho : o ≠ 0x10) : Kept p (takeCommand o d p) := by
  unfold Machine.takeCommand
  split
  · exact Kept.takeApply _ p
  · split
    · exact Kept.refl p
    · rename_i hm
      split
      · exact Kept.takeAnalysisReset p
      · split
        · exact Kept.takeDisengage p hm
        · exact Kept.takeCommon _ _ p ho
    · exact Kept.takeCommon _ _ p ho

theorem Sound.takeCommand (o : Nat) (d : Word) (p : Part) : Sound p (takeCommand o d p) := by
  by_cases ho : o = 0x10
  · subst ho
    unfold Machine.takeCommand
    split
    · rename_i e
      simp at e
    · split
      · exact Sound.refl p
      · split
        · rename_i e
          simp at e
        · split
          · rename_i e
            simp at e
          · exact Sound.takeCommon _ _ p
      · exact Sound.takeCommon _ _ p
  · exact (Kept.takeCommand o d p ho).toSound

theorem Sound.takePageWrite (o : Nat) (d : Word) (e : Enables) (p : Part) : Sound p (takePageWrite o d e p) := by
  unfold Machine.takePageWrite
  split
  · split
    · exact Sound.takeCommand _ _ p
    · exact Sound.refl p
  · exact Sound.writeStaging _ _ _ p

/-- A write in the command area that is not a full-word Statistics Command. -/
theorem Kept.takePageWrite (o : Nat) (d : Word) (e : Enables) (p : Part) (ho : o < 0x40)
    (hs : ¬ (o = 0x10 ∧ e = fullWord)) : Kept p (takePageWrite o d e p) := by
  unfold Machine.takePageWrite
  rw [if_pos ho]
  split
  · rename_i he
    exact Kept.takeCommand _ _ p fun h => hs ⟨h, he⟩
  · exact Kept.refl p

/-! ### The Pass-Through Unit -/

theorem Kept.setPtu (p : Part) (x : PassThrough) (hs : x.strap = p.ptu.strap) (hq : x.queue = p.ptu.queue)
    (hp : x.port = p.ptu.port) (hh : x.held = p.ptu.held) (hf : x.forcedCount = p.ptu.forcedCount) :
    Kept p (p.setPtu x) := ⟨Calm.setPtu p x hs (by rw [hq]; exact id), hp, hh, hf⟩

theorem Kept.takeScheduleWrite (a : Nat) (d : Word) (p : Part) : Kept p (takeScheduleWrite a d p) := by
  unfold Machine.takeScheduleWrite
  split
  · exact Kept.setPtu p _ rfl rfl rfl rfl rfl
  · dsimp only
    have h : Kept p (p.setPtu { p.ptu with scheduleLatch := none }) := Kept.setPtu p _ rfl rfl rfl rfl rfl
    split
    · exact h.trans (Kept.takeEntry _ _)
    · exact h.trans (Kept.refuseEntry _ _)

theorem Kept.takeKnockWrite (a : Nat) (d : Word) (p : Part) : Kept p (takeKnockWrite a d p) := by
  unfold Machine.takeKnockWrite
  dsimp only
  split
  · exact Kept.setPtu p _ rfl rfl rfl rfl rfl
  · split
    · have h : Kept p (p.setPtu { p.ptu with knockLatch := none }) := Kept.setPtu p _ rfl rfl rfl rfl rfl
      split
      · exact h.trans (Kept.committedHeader _ _ _)
      · exact h.trans (Kept.headerRefusal _)
    · exact Kept.sampleWord _ p

theorem Kept.deliverTooth (c : Cycle) (p : Part) : Kept p (deliverTooth c p) :=
  Kept.ite (Kept.takeToothEntry _ p) (Kept.refl p)

theorem Kept.deliverSchedule (c : Cycle) (p : Part) : Kept p (deliverSchedule c p) :=
  Kept.ite (Kept.ite (Kept.takeScheduleWrite _ _ p) (Kept.setPtu p _ rfl rfl rfl rfl rfl)) (Kept.refl p)

theorem Kept.deliverKnock (c : Cycle) (p : Part) : Kept p (deliverKnock c p) :=
  Kept.ite (Kept.ite (Kept.takeKnockWrite _ _ p) (Kept.setPtu p _ rfl rfl rfl rfl rfl)) (Kept.refl p)

theorem Sound.deliver (c : Cycle) (p : Part) : Sound p (deliver c p) := by
  unfold Machine.deliver
  split
  · exact Sound.takePageWrite _ _ _ p
  · exact (Kept.deliverTooth c p).toSound
  · exact (Kept.deliverSchedule c p).toSound
  · exact (Kept.deliverKnock c p).toSound
  · exact Sound.refl p
  · exact Sound.refl p
  · exact Sound.refl p
  · exact Sound.refl p

theorem windowOf_page_iff (p : Part) (a : Addr) :
    p.windowOf a = some .configPage ↔ within a.toNat (pageBase p.ptu.strap) 0x1000 = true := by
  unfold Part.windowOf
  constructor
  · intro h
    by_contra hn
    rw [if_neg hn] at h
    have none_page : ∀ g : Settings, ∀ x, g.activeWindow x ≠ some .configPage := by
      intro g x
      unfold Settings.activeWindow
      split
      · simp
      · split
        · simp
        · split
          · simp
          · split
            · simp
            · split
              · simp
              · split <;> simp
    split at h
    · simp at h
    · exact none_page _ _ h
    · exact none_page _ _ h
    · simp at h
    · simp at h
  · intro h
    rw [if_pos h]

/-- The cycle is a write in the Configuration Page. -/
def Cycle.writesPage (strap : BitVec 4) (c : Cycle) : Bool := c.write && within c.address.toNat (pageBase strap) 0x1000

theorem Kept.deliver (c : Cycle) (p : Part) (h : within c.address.toNat (pageBase p.ptu.strap) 0x1000 = false) :
    Kept p (deliver c p) := by
  unfold Machine.deliver
  split
  · rename_i e
    rw [windowOf_page_iff, h] at e
    simp at e
  · exact Kept.deliverTooth c p
  · exact Kept.deliverSchedule c p
  · exact Kept.deliverKnock c p
  · exact Kept.refl p
  · exact Kept.refl p
  · exact Kept.refl p
  · exact Kept.refl p

theorem Sound.release (h : HeldCycle) (p : Part) : Sound p (release h p) := by
  unfold Machine.release
  split
  · exact ((Calm.setHeld p _).trans (Calm.setPort _ _)).toSound
  · dsimp only
    have k : Sound p ((p.setHeld none).setPort (.forwarding h.cycle true)) :=
      ((Calm.setHeld p _).trans (Calm.setPort _ _)).toSound
    split
    · exact k.trans (Sound.deliver _ _)
    · exact k

theorem Calm.release (h : HeldCycle) (p : Part) (hw : h.cycle.writesPage p.ptu.strap = false) : Calm p (release h p) := by
  unfold Machine.release
  split
  · exact (Calm.setHeld p _).trans (Calm.setPort _ _)
  · dsimp only
    have k : Calm p ((p.setHeld none).setPort (.forwarding h.cycle true)) :=
      (Calm.setHeld p _).trans (Calm.setPort _ _)
    split
    · rename_i w
      refine k.trans (Kept.deliver _ _ ?_).toCalm
      unfold Cycle.writesPage at hw
      rw [w, Bool.true_and] at hw
      exact hw
    · exact k

theorem Sound.arbitrate (p : Part) : Sound p (arbitrate p) := by
  unfold Machine.arbitrate
  split
  · exact Sound.refl p
  · split
    · split
      · exact Sound.refl p
      · exact (Calm.setPort p _).toSound
    · split
      · exact ((Calm.setHeld p _).trans (Calm.setPort _ _)).toSound
      · exact Sound.release _ p

/-- No write in the Configuration Page is held. -/
def Part.pageIdle (p : Part) : Prop := ∀ h, p.ptu.held = some h → h.cycle.writesPage p.ptu.strap = false

theorem Calm.arbitrate (p : Part) (hi : p.pageIdle) : Calm p (arbitrate p) := by
  unfold Machine.arbitrate
  split
  · exact Calm.refl p
  · split
    · split
      · exact Calm.refl p
      · exact Calm.setPort p _
    · rename_i h e
      split
      · exact (Calm.setHeld p _).trans (Calm.setPort _ _)
      · exact Calm.release _ p (hi h e)

theorem Sound.arrive (c : Cycle) (p : Part) : Sound p (arrive c p) :=
  (Calm.setHeld p _).toSound.trans (Sound.arbitrate _)

theorem Calm.arrive (c : Cycle) (p : Part) (hw : c.writesPage p.ptu.strap = false) : Calm p (arrive c p) :=
  (Calm.setHeld p _).trans (Calm.arbitrate _ fun h e => by
    have : (⟨c, .injectionBusy, !c.write && p.isLive c.address⟩ : HeldCycle) = h := Option.some.inj e
    rw [← this]
    exact hw)

theorem Calm.countForced (p : Part) : Calm p (countForced p) := by
  unfold Machine.countForced
  dsimp only
  have h : Calm p (Machine.report .forcedInjections (p.setPtu { p.ptu with forcedCount := p.ptu.forcedCount + 1 })) := by
    refine Calm.trans ?_ (Kept.report _ _).toCalm
    exact Calm.setPtu p _ rfl id
  split
  · exact h.trans (Kept.setNotice _ _).toCalm
  · exact h

theorem Kept.wordLeaves (q : QueuedWord) (rest : List QueuedWord) (p : Part) (hq : p.ptu.queue = q :: rest) :
    Kept p (wordLeaves q rest p) := by
  unfold Machine.wordLeaves
  dsimp only
  refine Kept.trans ?_ (Kept.endIfDrained _)
  refine Kept.trans ?_ (Kept.reportNoPublishing _)
  refine Kept.trans ?_ (Kept.moveTest _)
  have h : Kept p (p.setQueue rest) := Kept.setQueue p _ fun h => by
    rw [hq, List.length_cons] at h
    exact Nat.le_of_succ_le h
  exact Kept.ite (h.trans (Kept.publication _)) h

end Sys2Proof.Machine
end

