-- ==== Sys2Proof/Laws/KeptBus.lean ====
section
/-! SUPPORT. The state-level operations: each keeps the strap and the queue of commands and preserves `State.safe`. -/

namespace Sys2Proof.Machine

/-- From `s` to `t` the queue of commands is kept and every invariant of Safety is preserved. -/
structure SafeStep (s t : State) : Prop where
  part : Sound s.part t.part
  sram : Memory.wf s.sram → Memory.wf t.sram
  pending : t.pending = s.pending

theorem SafeStep.refl (s : State) : SafeStep s s := ⟨Sound.refl _, id, rfl⟩

theorem SafeStep.trans {s t u : State} (h : SafeStep s t) (k : SafeStep t u) : SafeStep s u :=
  ⟨h.part.trans k.part, k.sram ∘ h.sram, k.pending.trans h.pending⟩

theorem SafeStep.setPart {s : State} {x : Part} (h : Sound s.part x) : SafeStep s (s.setPart x) := ⟨h, id, rfl⟩

theorem SafeStep.setBoth {s : State} {m : Memory} {x : Part} (h : Sound s.part x)
    (k : Memory.wf s.sram → Memory.wf m) : SafeStep s ((s.setSram m).setPart x) := ⟨h, k, rfl⟩

theorem SafeStep.setReply {s : State} {m : Memory} {x : Part} {r : Option Reply} (h : Sound s.part x)
    (k : Memory.wf s.sram → Memory.wf m) : SafeStep s (((s.setSram m).setReply r).setPart x) := ⟨h, k, rfl⟩

/-- The port becomes free and the arbiter decides. -/
theorem Sound.freed (p : Part) : Sound p (Machine.arbitrate (p.setPort .free)) :=
  (Calm.setPort p .free).toSound.trans (Sound.arbitrate _)

theorem SafeStep.safe {s t : State} (h : SafeStep s t) (k : s.safe) : t.safe :=
  ⟨h.part.bounds k.1, h.part.list k.2.1, h.part.modes k.2.2.1, h.sram k.2.2.2.1, h.part.wf k.2.2.2.2⟩

theorem increment_ptu (k : Nat) (p : Part) : (increment k p).ptu = p.ptu := by
  unfold increment
  dsimp only
  split
  · rfl
  · split <;> rfl

theorem report_ptu (c : EngineCounter) (p : Part) : (report c p).ptu = p.ptu := increment_ptu _ p

theorem countForced_queue (p : Part) : (countForced p).ptu.queue = p.ptu.queue := by
  unfold countForced
  dsimp only
  have h : (report .forcedInjections (p.setPtu { p.ptu with forcedCount := p.ptu.forcedCount + 1 })).ptu.queue
      = p.ptu.queue := by rw [report_ptu]; rfl
  split
  · exact h
  · exact h

theorem Sound.afterForced (n : Nat) (p : Part) : Sound p (afterForced n p) := by
  unfold Machine.afterForced
  split
  · split
    · exact (Calm.setPort p _).toSound
    · exact Sound.release _ p
  · exact Sound.arbitrate p

theorem forcedCycle_held {p : Part} {h : HeldCycle} (e : p.forcedCycle = some h) : p.ptu.held = some h := by
  unfold Part.forcedCycle at e
  split at e
  · rename_i x hx
    split at e
    · rw [hx]
      exact e
    · simp at e
  · simp at e

theorem Calm.afterForced (n : Nat) (p : Part) (hi : p.pageIdle) : Calm p (afterForced n p) := by
  unfold Machine.afterForced
  split
  · rename_i h e
    split
    · exact Calm.setPort p _
    · exact Calm.release _ p (hi h (forcedCycle_held e))
  · exact Calm.arbitrate p hi

theorem Calm.leaving (burst : Option Nat) (q : QueuedWord) (rest : List QueuedWord) (p : Part)
    (hq : p.ptu.queue = q :: rest) :
    Calm p (Machine.wordLeaves q rest (match burst with
      | none => p
      | some _ => Machine.countForced p)) := by
  split
  · exact (Kept.wordLeaves q rest p hq).toCalm
  · exact (Calm.countForced p).trans (Kept.wordLeaves q rest _ (by rw [countForced_queue]; exact hq)).toCalm

theorem Sound.injectedComplete (burst : Option Nat) (q : QueuedWord) (rest : List QueuedWord) (p : Part)
    (hq : p.ptu.queue = q :: rest) : Sound p (injectedComplete burst q rest p) := by
  unfold Machine.injectedComplete
  dsimp only
  have h := (Calm.setPort p .free).toSound
  split
  · exact (h.trans (Calm.leaving none q rest (p.setPort .free) hq).toSound).trans (Sound.arbitrate _)
  · rename_i n
    exact (h.trans (Calm.leaving (some n) q rest (p.setPort .free) hq).toSound).trans (Sound.afterForced _ _)

theorem SafeStep.completeInjected (s : State) : SafeStep s (completeInjected s) := by
  unfold Machine.completeInjected
  split
  · rename_i hq
    exact SafeStep.setBoth (Sound.injectedComplete _ _ _ s.part hq) fun h => Memory.writeWord_wf h _ _ _
  · exact SafeStep.setPart ((Calm.setPort _ _).toSound.trans (Sound.arbitrate _))
  · exact SafeStep.refl s
  · exact SafeStep.refl s
  · exact SafeStep.refl s

theorem sramAfter_wf {m : Memory} (h : Memory.wf m) (c : Cycle) : Memory.wf (sramAfter m c) := by
  unfold sramAfter
  split
  · exact Memory.writeWord_wf h _ _ _
  · exact h

theorem SafeStep.completeForwarded (s : State) : SafeStep s (completeForwarded s) := by
  unfold Machine.completeForwarded
  split
  · rename_i c ready _
    dsimp only
    split
    · exact SafeStep.setReply (Sound.freed s.part) fun h => sramAfter_wf h c
    · exact SafeStep.setBoth (Sound.freed s.part) fun h => sramAfter_wf h c
  · dsimp only
    split
    · rename_i h _
      exact SafeStep.setBoth ((Calm.setHeld s.part none).trans (Calm.setPort _ _)).toSound
        fun h => Memory.writeWord_wf h _ _ _
    · exact SafeStep.setBoth (Sound.freed s.part) fun h => Memory.writeWord_wf h _ _ _
  · exact SafeStep.refl s
  · exact SafeStep.refl s

theorem SafeStep.completeOne (s : State) : SafeStep s (completeOne s) := by
  unfold Machine.completeOne
  split
  · exact SafeStep.completeInjected s
  · exact SafeStep.completeForwarded s
  · exact SafeStep.completeForwarded s
  · exact SafeStep.setPart (Sound.arbitrate _)

theorem SafeStep.settleUpstream (n : Nat) (s : State) : SafeStep s (settleUpstream n s) := by
  induction n generalizing s with
  | zero => exact SafeStep.refl s
  | succ n ih =>
    unfold Machine.settleUpstream
    split
    · exact (SafeStep.completeOne s).trans (ih _)
    · exact SafeStep.refl s

/-- A cycle presented preserves every invariant. -/
theorem SafeStep.present (c : Cycle) (s : State) : SafeStep s (present c s) := by
  unfold Machine.present
  dsimp only
  have h := SafeStep.settleUpstream settleFuel s
  split
  · exact h
  · exact h.trans (SafeStep.setPart (Sound.arrive c _))

theorem SafeStep.event {f : Part → Part} (h : ∀ p, Sound p (f p)) (s : State) : SafeStep s (event f s) :=
  SafeStep.setPart ((h s.part).trans (Sound.arbitrate _))

theorem Sound.ecuReset (p : Part) : Sound p (ecuReset p) := by
  unfold Machine.ecuReset
  refine Sound.trans ?_ (Sound.arbitrate _)
  exact ((Calm.setHeld p _).trans (Calm.setPort _ _)).toSound.trans (Kept.emptyLatches _).toSound

theorem Kept.takeInterval (p : Part) : Calm p (takeInterval p) := by
  unfold Machine.takeInterval
  split
  · exact Calm.setPtu p _ rfl id
  · exact Calm.refl p

theorem Kept.stallIfDue (p : Part) : Kept p (stallIfDue p) := Kept.ite (Kept.takeStall p) (Kept.refl p)

theorem freeLane_wf {m : Memory} (h : Memory.wf m) (a : Nat) (e : Enables) (n i : Nat) :
    Memory.wf (freeLane a e n i m) := by
  unfold freeLane
  split
  · exact Memory.write_wf h _ _
  · exact h

theorem freeWord_wf {m : Memory} (h : Memory.wf m) (a : Nat) (e : Enables) (n : Nat) :
    Memory.wf (freeWord m a e n) :=
  freeLane_wf (freeLane_wf (freeLane_wf (freeLane_wf h _ _ _ _) _ _ _ _) _ _ _ _) _ _ _ _

theorem sramCutOff_wf {s : State} (h : Memory.wf s.sram) : Memory.wf (sramCutOff s) := by
  unfold sramCutOff
  split
  · split
    · exact freeWord_wf h _ _ _
    · exact h
  · exact freeWord_wf h _ _ _
  · exact freeWord_wf h _ _ _
  · exact h
  · exact h

end Sys2Proof.Machine
end

