-- ==== Sys2Proof/Laws/Samples.lean ====
section
/-! SUPPORT. The used samples of a window (R90, R95): with frames in commit order among which the later-started one is
always determined, the supplier of a sample time is the frame that no other frame with a sample there is later-started
than. -/

namespace Sys2Proof.Machine

/-- R90: frame `b` is later-started than frame `a`, by its start or else by its commit number. -/
abbrev Frame.startedLater (b a : Frame) : Prop :=
  isLater b.start a.start = true
  ∨ isLater b.start a.start = false ∧ isLater a.start b.start = false ∧ a.commit.toNat < b.commit.toNat

theorem interval_self (a : Stamp) : interval a a = 0 := by simp [interval]

theorem isLater_asymm {a b : Stamp} (h : isLater b a = true) : isLater a b = false := by
  unfold isLater interval at *
  simp only [Bool.and_eq_true, decide_eq_true_eq, Bool.and_eq_false_iff, decide_eq_false_iff_not] at *
  have e : (a - b).toNat = (2 ^ 24 - (b - a).toNat) % 2 ^ 24 := by
    rw [← BitVec.toNat_neg, BitVec.neg_sub, BitVec.add_comm, ← BitVec.sub_eq_add_neg]
  have := (b - a).isLt
  omega

theorem Frame.not_startedLater_self (a : Frame) : ¬ a.startedLater a := by
  rintro (h | h)
  · unfold isLater at h
    rw [interval_self] at h
    cases h
  · exact Nat.lt_irrefl _ h.2.2

/-- Of two frames in commit order, the test of the supplier gives the later-started one. -/
theorem laterStarted_iff {a b : Frame} (h : a.commit.toNat < b.commit.toNat) :
    (laterStarted b a = true → b.startedLater a) ∧ (laterStarted b a = false → a.startedLater b) := by
  unfold laterStarted
  constructor
  · intro k
    have k' : isLater a.start b.start = false := by simpa using k
    cases e : isLater b.start a.start
    · exact Or.inr ⟨e, k', h⟩
    · exact Or.inl e
  · intro k
    exact Or.inl (by simpa using k)

/-- The choice of the supplier among frames in commit order, from a best frame so far. -/
theorem foldl_supplier {step : Option Frame → Frame → Option Frame}
    (hstep : ∀ a f, step (some a) f = if laterStarted f a then some f else some a)
    (l : List Frame) (m : Frame) (hp : (m :: l).Pairwise fun a b => a.commit.toNat < b.commit.toNat)
    (ht : ∀ a ∈ m :: l, ∀ b ∈ m :: l, ∀ c ∈ m :: l, b.startedLater a → c.startedLater b → c.startedLater a) :
    ∃ x ∈ m :: l, l.foldl step (some m) = some x
      ∧ ∀ y ∈ m :: l, y ≠ x → x.startedLater y := by
  induction l generalizing m with
  | nil => exact ⟨m, List.mem_cons_self .., rfl, fun y hy k => absurd (List.mem_singleton.mp hy) k⟩
  | cons f l ih =>
    rw [List.foldl_cons, hstep]
    have hmf : m.commit.toNat < f.commit.toNat := (List.pairwise_cons.mp hp).1 f (List.mem_cons_self ..)
    obtain ⟨later, earlier⟩ := laterStarted_iff hmf
    have inM : m ∈ m :: f :: l := List.mem_cons_self ..
    have inF : f ∈ m :: f :: l := List.mem_cons_of_mem _ (List.mem_cons_self ..)
    split
    · rename_i h
      obtain ⟨x, hx, e, k⟩ := ih f (List.pairwise_cons.mp hp).2
        fun a ha b hb c hc => ht a (List.mem_cons_of_mem _ ha) b (List.mem_cons_of_mem _ hb) c (List.mem_cons_of_mem _ hc)
      refine ⟨x, List.mem_cons_of_mem _ hx, e, fun y hy hyx => ?_⟩
      rcases List.mem_cons.mp hy with rfl | hy
      · by_cases hfx : f = x
        · rw [← hfx]
          exact later h
        · exact ht _ inM f inF x (List.mem_cons_of_mem _ hx) (later h) (k f (List.mem_cons_self ..) hfx)
      · exact k y hy hyx
    · rename_i h
      have sub : ∀ y ∈ m :: l, y ∈ m :: f :: l := by
        intro y hy
        rcases List.mem_cons.mp hy with rfl | hy
        · exact inM
        · exact List.mem_cons_of_mem _ (List.mem_cons_of_mem _ hy)
      obtain ⟨x, hx, e, k⟩ := ih m (hp.sublist (List.Sublist.cons_cons m (List.sublist_cons_self f l)))
        fun a ha b hb c hc => ht a (sub a ha) b (sub b hb) c (sub c hc)
      refine ⟨x, sub x hx, e, fun y hy hyx => ?_⟩
      rcases List.mem_cons.mp hy with rfl | hy
      · exact k _ (List.mem_cons_self ..) hyx
      · rcases List.mem_cons.mp hy with rfl | hy
        · have hmy : m.startedLater y := earlier (by simpa using h)
          by_cases hmx : m = x
          · rw [← hmx]
            exact hmy
          · exact ht _ inF m inM x (sub x hx) hmy (k m (List.mem_cons_self ..) hmx)
        · exact k y (List.mem_cons_of_mem _ hy) hyx

/-- The supplier is chosen by a pass over the frames with a sample at the time. -/
theorem supplier_eq_foldl : ∃ step : Option Frame → Frame → Option Frame,
    (∀ g fs t, supplier g fs t = (fs.filter fun f => hasSampleAt g f t).foldl step none)
    ∧ (∀ f, step none f = some f) ∧ ∀ a f, step (some a) f = if laterStarted f a then some f else some a :=
  ⟨_, fun _ _ _ => rfl, fun _ => rfl, fun _ _ => rfl⟩

/-- A frame has a sample at a time exactly where one of its sample times is that time. -/
theorem hasSampleAt_iff {g : Settings} {f : Frame} (hg : 1 ≤ g.samplePeriod)
    (hf : f.samples.length * g.samplePeriod < 2 ^ 24) (t : Stamp) :
    hasSampleAt g f t = true ↔ ∃ j, j < f.samples.length ∧ sampleTime g f j = t := by
  unfold hasSampleAt
  simp only [Bool.and_eq_true, decide_eq_true_eq]
  constructor
  · rintro ⟨h1, h2⟩
    refine ⟨interval f.start t / g.samplePeriod, ?_, ?_⟩
    · exact Nat.div_lt_of_lt_mul (by rw [Nat.mul_comm]; exact h1)
    · unfold sampleTime
      rw [Nat.div_mul_cancel (Nat.dvd_of_mod_eq_zero h2)]
      unfold interval
      rw [BitVec.ofNat_toNat, BitVec.setWidth_eq, BitVec.add_comm, BitVec.sub_add_cancel]
  · rintro ⟨j, hj, rfl⟩
    have hlt : j * g.samplePeriod < f.samples.length * g.samplePeriod := Nat.mul_lt_mul_of_pos_right hj hg
    have e : interval f.start (sampleTime g f j) = j * g.samplePeriod := by
      unfold interval sampleTime
      rw [BitVec.add_comm, BitVec.add_sub_cancel, BitVec.toNat_ofNat]
      exact Nat.mod_eq_of_lt (by omega)
    rw [e]
    exact ⟨hlt, Nat.mul_mod_left ..⟩

/-- The supplier of a time is the frame with a sample there that no other such frame is later-started than. -/
theorem supplier_iff {g : Settings} {fs : List Frame} {f : Frame} {t : Stamp}
    (hp : fs.Pairwise fun a b => a.commit.toNat < b.commit.toNat)
    (ht : ∀ a ∈ fs, ∀ b ∈ fs, ∀ c ∈ fs, b.startedLater a → c.startedLater b → c.startedLater a)
    (hf : f ∈ fs) (hs : hasSampleAt g f t = true) :
    (supplier g fs t).map (·.commit) = some f.commit
      ↔ ∀ b ∈ fs, hasSampleAt g b t = true → ¬ b.startedLater f := by
  have inj : ∀ x ∈ fs, x.commit = f.commit → x = f := by
    intro x hx e
    by_contra hne
    rcases List.pairwise_iff_getElem.mp hp with h
    obtain ⟨i, hi, rfl⟩ := List.getElem_of_mem hx
    obtain ⟨j, hj, rfl⟩ := List.getElem_of_mem hf
    rcases Nat.lt_trichotomy i j with k | k | k
    · have := h i j hi hj k
      rw [e] at this
      exact Nat.lt_irrefl _ this
    · subst k
      exact hne rfl
    · have := h j i hj hi k
      rw [e] at this
      exact Nat.lt_irrefl _ this
  obtain ⟨step, hsup, hnone, hsome⟩ := supplier_eq_foldl
  rw [hsup]
  cases hl : fs.filter fun f => hasSampleAt g f t with
  | nil =>
    have : f ∈ fs.filter fun f => hasSampleAt g f t := List.mem_filter.mpr ⟨hf, hs⟩
    rw [hl] at this
    cases this
  | cons m l =>
    have hm : ∀ y, y ∈ m :: l ↔ y ∈ fs ∧ hasSampleAt g y t = true := fun y => by rw [← hl, List.mem_filter]
    have hpl : (m :: l).Pairwise fun a b => a.commit.toNat < b.commit.toNat := by
      rw [← hl]
      exact hp.filter _
    obtain ⟨x, hx, e, k⟩ := foldl_supplier hsome l m hpl
      fun a ha b hb c hc => ht a ((hm a).mp ha).1 b ((hm b).mp hb).1 c ((hm c).mp hc).1
    rw [List.foldl_cons, hnone, e, Option.map_some, Option.some.injEq]
    constructor
    · intro hc b hb hbt hlater
      have hxf := inj x ((hm x).mp hx).1 hc
      rw [← hxf] at hlater
      by_cases hbx : b = x
      · rw [hbx] at hlater
        exact Frame.not_startedLater_self x hlater
      · exact Frame.not_startedLater_self x (ht x ((hm x).mp hx).1 b hb x ((hm x).mp hx).1 hlater
          (k b ((hm b).mpr ⟨hb, hbt⟩) hbx))
    · intro h
      by_cases hxf : f = x
      · rw [hxf]
      · exact absurd (k f ((hm f).mpr ⟨hf, hs⟩) hxf) (h x ((hm x).mp hx).1 ((hm x).mp hx).2)

end Sys2Proof.Machine
end

