-- ==== Sys2Proof/WellFormed.lean ====
section
/-! DEFINITION. Which commands are well formed as they stand: an address the bus can carry is word-aligned (00, 2.2),
the enables fit the row, and a settings write lies in the settings area (R19). Which window an address falls in depends
on the state and is no part of this check. `exec` gives every command a meaning, well formed or not (log 7). -/

namespace Sys2Proof

/-- The address of a word: its two low bits are 0 (00, 2.2: all windows are word-aligned). -/
def wordAligned (a : Addr) : Bool := a.toNat % 4 == 0

/-- The check of each row. -/
def wellFormed : Instr → Bool
  | .powerOnReset _ => true
  | .ecuReset => true
  | .forwardCycle a _ _ _ => wordAligned a
  | .partialWordWrite a _ e => wordAligned a && e != fullWord
  | .refreshRead a _ => wordAligned a
  | .downstreamCycleComplete => true
  | .injectedWordComplete => true
  | .postStoppedEntry => true
  | .endOfDisengage => true
  | .intervalBoundary => true
  | .settingsWrite o _ _ => o.toNat % 4 == 0 && 0x40 ≤ o.toNat
  | .apply _ => true
  | .noticeClear _ => true
  | .consumerCount _ => true
  | .postStop _ => true
  | .postResume _ => true
  | .snapshot _ => true
  | .clear _ => true
  | .snapshotAndClear _ => true
  | .cylinderRelease _ => true
  | .analysisReset _ => true
  | .disengage _ => true
  | .toothEntry a _ => wordAligned a
  | .stall => true
  | .scheduleFirstWord a _ => wordAligned a
  | .scheduleCommit a _ => wordAligned a
  | .knockHeaderTimestamp a _ => wordAligned a
  | .knockHeaderCommit a _ => wordAligned a
  | .knockSampleWord a _ => wordAligned a
  | .knockWaitExpiry => true
  | .planAgeExpiry => true

end Sys2Proof
end

