-- ==== Sys2Proof/Tests/Slice0.lean ====
section
/-! SUPPORT. Tests on small states: the smoke of the well-formedness check, values that the manual works out, and for each
statement with hypotheses a state and operands that meet them together. -/

open Sys2Proof Sys2Proof.Machine Sys2Proof.Statements

namespace Sys2Proof.Tests

set_option Elab.async false

/-! ### A small configuration and the states built on it -/

/-- Cylinders, wheel, firing order, TDC, knock windows, sensors. -/
def imageWheel : Memory :=
  [(0x40, 4), (0x41, 3), (0x42, 2), (0x44, 60), (0x45, 2), (0x46, 20), (0x48, 1), (0x49, 3), (0x4a, 4),
   (0x4b, 2), (0x50, 14), (0x51, 104), (0x52, 44), (0x53, 74), (0x58, 16), (0x59, 26), (0x5a, 106), (0x5b, 116),
   (0x5c, 46), (0x5d, 56), (0x5e, 76), (0x5f, 86), (0x69, 1), (0x6a, 1), (0x70, 20), (0x72, 100), (0x75, 8),
   (0x77, 8), (0x79, 8), (0x7b, 8), (0x7c, 6), (0x7e, 40), (0x80, 120), (0x82, 120), (0x84, 120), (0x86, 120)]

/-- Windows: tooth 001000h, schedule 001100h, knock 001200h, ring 002000h of 4, status 003000h, statistics 004000h; bands. -/
def imageWindows : Memory :=
  [(0x91, 16), (0x94, 4), (0x99, 17), (0x9c, 64), (0xa1, 18), (0xa4, 64), (0xa9, 32), (0xac, 4), (0xb1, 48),
   (0xb5, 64), (0xb8, 232), (0xb9, 3), (0xba, 208), (0xbb, 7), (0xbc, 184), (0xbd, 11), (0xbe, 160), (0xbf, 15),
   (0xc0, 136), (0xc1, 19), (0xc2, 112), (0xc3, 23), (0xc4, 88), (0xc5, 27), (0xc8, 100), (0xca, 150),
   (0xcc, 200), (0xce, 4)]

/-- Misfire thresholds of 3000, speed bands 0 to 3. -/
def imageMisfireLow : Memory :=
  [(0xd0, 184), (0xd1, 11), (0xd2, 184), (0xd3, 11), (0xd4, 184), (0xd5, 11), (0xd6, 184), (0xd7, 11),
   (0xd8, 184), (0xd9, 11), (0xda, 184), (0xdb, 11), (0xdc, 184), (0xdd, 11), (0xde, 184), (0xdf, 11),
   (0xe0, 184), (0xe1, 11), (0xe2, 184), (0xe3, 11), (0xe4, 184), (0xe5, 11), (0xe6, 184), (0xe7, 11),
   (0xe8, 184), (0xe9, 11), (0xea, 184), (0xeb, 11), (0xec, 184), (0xed, 11), (0xee, 184), (0xef, 11)]

/-- Misfire thresholds of 3000, speed bands 4 to 7. -/
def imageMisfireHigh : Memory :=
  [(0xf0, 184), (0xf1, 11), (0xf2, 184), (0xf3, 11), (0xf4, 184), (0xf5, 11), (0xf6, 184), (0xf7, 11),
   (0xf8, 184), (0xf9, 11), (0xfa, 184), (0xfb, 11), (0xfc, 184), (0xfd, 11), (0xfe, 184), (0xff, 11),
   (0x100, 184), (0x101, 11), (0x102, 184), (0x103, 11), (0x104, 184), (0x105, 11), (0x106, 184), (0x107, 11),
   (0x108, 184), (0x109, 11), (0x10a, 184), (0x10b, 11), (0x10c, 184), (0x10d, 11), (0x10e, 184), (0x10f, 11)]

/-- Ratios, timing, posting, contexts, health, notices. -/
def imageRest : Memory :=
  [(0x110, 24), (0x111, 24), (0x112, 24), (0x113, 24), (0x114, 24), (0x115, 24), (0x116, 24), (0x117, 24),
   (0x118, 40), (0x119, 40), (0x11a, 40), (0x11b, 40), (0x11c, 40), (0x11d, 40), (0x11e, 40), (0x11f, 40),
   (0x120, 100), (0x122, 244), (0x123, 1), (0x124, 2), (0x125, 40), (0x126, 3), (0x127, 4), (0x12a, 3),
   (0x12c, 2), (0x12d, 2), (0x12e, 2), (0x12f, 3), (0x130, 1), (0x131, 1), (0x132, 6), (0x133, 7), (0x134, 5),
   (0x135, 1), (0x136, 6), (0x137, 1), (0x139, 20), (0x13a, 208), (0x13b, 7), (0x13c, 3), (0x13d, 1),
   (0x13e, 244), (0x13f, 1), (0x140, 3), (0x141, 1), (0x142, 6), (0x143, 4), (0x144, 2), (0x146, 100),
   (0x148, 12), (0x14c, 255), (0x14d, 31), (0x14e, 112)]

/-- An image of the settings area that passes every check. -/
def image : Memory := imageWheel ++ imageWindows ++ imageMisfireLow ++ imageMisfireHigh ++ imageRest

/-- Its configuration, written out. -/
def conf : Settings where
  cylinders := 4
  allotment := 3
  sensorCount := 2
  segOffset := 0
  teeth := 60
  missing := 2
  gapRatio := 20
  camHalf := 0
  firingOrder := #v[1, 3, 4, 2, 0, 0, 0, 0]
  tdc := #v[14, 104, 44, 74, 0, 0, 0, 0]
  knockOpen := #v[16, 106, 46, 76, 0, 0, 0, 0]
  knockClose := #v[26, 116, 56, 86, 0, 0, 0, 0]
  sensorMap := #v[0, 1, 1, 0, 0, 0, 0, 0]
  samplePeriod := 20
  tickNs := 100
  bias := #v[2048, 2048, 2048, 2048]
  minCover := 6
  quietFloor := 40
  seed := #v[120, 120, 120, 120, 0, 0, 0, 0]
  toothBase := 0x1000
  toothSize := 4
  scheduleBase := 0x1100
  scheduleSize := 64
  knockBase := 0x1200
  knockSize := 64
  ringBase := 0x2000
  ringSize := 4
  statusBase := 0x3000
  statisticsBase := 0x4000
  speedBounds := #v[1000, 2000, 3000, 4000, 5000, 6000, 7000]
  loadBounds := #v[100, 150, 200]
  partialFraction := 4
  misfireTable := Vector.replicate 32 3000
  lightRatio := Vector.replicate 8 24
  heavyRatio := Vector.replicate 8 40
  stallTime := 100
  planAgeLimit := 500
  knockWaitLimit := 2
  patience := 40
  burst := 3
  stallBudget := 4
  postPolicy := 0
  watermark := 3
  residency := #v[2, 2, 2, 3, 1, 1]
  effects := #v[6, 7, 5, 1, 6, 1]
  mergePolicy := 0
  transientStep := 20
  roughLevel := 2000
  roughEnter := 3
  roughExit := 1
  flareStep := 500
  suspectCount := 3
  clearCount := 1
  faultCount := 6
  faultRun := 4
  alertCount := 2
  blockCycles := 100
  turbineLimit := 12
  noticeEnables := 0x1FFF
  noticeRoutes := 0x70

/-- After power-on, with the image staged. -/
def staged : State :=
  State.reset.setPart ((Part.powerOn 0).setCsh { (Part.powerOn 0).csh with staging := image })

/-- MONITORING under the configuration. -/
def mon : State :=
  staged.setPart (staged.part.setCsh ⟨[], none, some conf, .monitoring, 1, 1, .active, none⟩)

/-- DISENGAGING under the configuration. -/
def leaving : State := mon.setPart (mon.part.setCsh { mon.part.csh with mode := .disengaging })

/-- A state with its part changed. -/
def on (s : State) (f : Part → Part) : State := s.setPart (f s.part)

/-- The state a command leads to. -/
def after (c : Instr) (s : State) : State :=
  match exec c s with
  | .next t => t
  | .fault _ => s
  | .refused _ => s

/-- The state a step leads to. -/
def stepped (s : State) : State :=
  match step s with
  | .next t => t
  | .fault _ => s
  | .refused _ => s

/-- The states that commands lead to, one after the other. -/
def afterAll (cs : List Instr) (s : State) : State := cs.foldl (fun s c => after c s) s

/-- The port set. -/
def withPort (x : Port) (s : State) : State := on s fun p => p.setPort x

/-- The Injection Queue set. -/
def withQueue (q : List QueuedWord) (s : State) : State := on s fun p => p.setQueue q

/-- Part time set. -/
def atTime (t : Micros) (s : State) : State := on s fun p => p.setPartTime t

/-- The tracker in HALF_SYNC or SYNCED at revolution position 3, the last tooth at 1000 after an interval of 100. -/
def turning (x : SyncState) : State := on mon fun p => p.setAtk
  ⟨x, some 1000, some 100, none, 3, false, false, none, none, none, 0, some 0, .never⟩

/-- The tracker in SEEKING with a reference count. -/
def seeking (n : Option Nat) : State := on mon fun p => p.setAtk
  ⟨.seeking, some 1000, some 100, n, 0, false, false, none, none, none, 0, some 0, .never⟩

/-- A publishing word. -/
def word : QueuedWord := ⟨0x2000, 0xAABBCCDD, true, true, 0⟩

/-- A cycle the processor has presented. -/
def cyc : Cycle := ⟨0x100, 0x12345678, fullWord, true⟩

/-- A planned record of cylinder 1. -/
def planned : Record := newRecord ⟨0x00140101, 0⟩ 0 0

/-- A state that holds a record in slot 0. -/
def holding (r : Record) : State := on mon fun p => p.setFlc
  { p.flc with slots := Table.write p.flc.slots 0 (some r), order := [0], counts := Table.writeCyl p.flc.counts 1 1 }

/-! ### Smoke of the well-formedness check -/

theorem test_misaligned_forwardCycle_refused : wellFormed (.forwardCycle 0x101 0 fullWord true) = false := by decide +kernel
theorem test_misaligned_partialWordWrite_refused : wellFormed (.partialWordWrite 0x102 0 1) = false := by decide +kernel
theorem test_full_partialWordWrite_refused : wellFormed (.partialWordWrite 0x100 0 fullWord) = false := by decide +kernel
theorem test_misaligned_refreshRead_refused : wellFormed (.refreshRead 0x103 fullWord) = false := by decide +kernel
theorem test_misaligned_settingsWrite_refused : wellFormed (.settingsWrite 0x41 0 1) = false := by decide +kernel
theorem test_low_settingsWrite_refused : wellFormed (.settingsWrite 0x3C 0 1) = false := by decide +kernel
theorem test_misaligned_toothEntry_refused : wellFormed (.toothEntry 1 0) = false := by decide +kernel
theorem test_misaligned_scheduleFirstWord_refused : wellFormed (.scheduleFirstWord 2 0) = false := by decide +kernel
theorem test_misaligned_scheduleCommit_refused : wellFormed (.scheduleCommit 3 0) = false := by decide +kernel
theorem test_misaligned_knockHeaderTimestamp_refused : wellFormed (.knockHeaderTimestamp 1 0) = false := by decide +kernel
theorem test_misaligned_knockHeaderCommit_refused : wellFormed (.knockHeaderCommit 5 0) = false := by decide +kernel
theorem test_misaligned_knockSampleWord_refused : wellFormed (.knockSampleWord 9 0) = false := by decide +kernel
theorem test_aligned_commands_accepted :
    ([.forwardCycle 0x100 0 fullWord true, .partialWordWrite 0x100 0 1, .refreshRead 0x100 fullWord,
      .settingsWrite 0x40 0 1, .settingsWrite 0xFFC 0 1, .toothEntry 4 0, .apply 1, .stall] : List Instr).all wellFormed
      = true := by decide +kernel

/-! ### Values that the manual works out -/

/-- The check byte of the worked entry (R56). -/
theorem test_checkByte_worked : checkByte [0x03, 0x11, 0x14, 0, 0xB4, 0, 0] = 0xE8 := by decide +kernel
/-- The roughness figure of the worked example (R75). -/
theorem test_roughness_worked : roughnessFigure 50000 49000 50001 = -1337 := by decide +kernel
/-- 54 000 ticks of 100 ns and four cylinders: 5555 rpm, band 5 of the boundaries here (R50, 5.7). -/
theorem test_speed_worked : conf.segmentRpm 54000 = 5555 ∧ conf.speedBand 54000 = 5 := by decide +kernel
/-- The image spells the configuration (12.3). -/
theorem test_image_spells_conf : Settings.parse image = conf := by decide +kernel
/-- The image passes every check (R23). -/
theorem test_image_validates : conf.validate (pageBase 0) = none := by decide +kernel
/-- A blank copy fails the first check (R23). -/
theorem test_blank_refused : (Settings.parse []).validate (pageBase 0) = some .cylinders := by decide +kernel
/-- Bring-up of 11.1: the first Apply, and what Status Block word 1 reads after it. -/
theorem test_bringUp_reads_generation :
    (afterAll [.apply 1, .downstreamCycleComplete, .refreshRead 0x3004 fullWord, .downstreamCycleComplete,
      .downstreamCycleComplete] staged).reply = some ⟨⟨0x3004, 0, fullWord, false⟩, 0x00010001⟩ := by decide +kernel
/-- A worked schedule entry, taken (R55, R56). -/
theorem test_worked_entry_taken :
    let t := afterAll [.scheduleFirstWord 0x1100 0x00141103, .scheduleCommit 0x1104 0xE80000B4] mon
    (t.part.slot 0).map (fun r => (r.cylinder, r.cycleTag, r.spark, r.load)) = some (3, 0x11, 0x14, 180)
      ∧ t.part.flc.order = [0] ∧ t.part.liveCounter 517 = 1 := by decide +kernel
/-- A wrong check byte is refused CHECK (R55). -/
theorem test_wrong_check_refused :
    let t := afterAll [.scheduleFirstWord 0x1100 0x00141103, .scheduleCommit 0x1104 0xE90000B4] mon
    t.part.flc.order = [] ∧ t.part.liveCounter 519 = 1 ∧ t.part.noticeSet .scheduleRefused = true := by decide +kernel
/-- A tooth beside the window does nothing but pass through (R5). -/
theorem test_tooth_outside_window : (after (.toothEntry 0x1004 5) mon).part.atk = mon.part.atk := by decide +kernel
/-- A settings word lands in the Staging Copy (R19). -/
theorem test_settings_write :
    Memory.read (after (.settingsWrite 0x40 0x3C020304 0x9) State.reset).part.csh.staging 0x40 = 4
      ∧ Memory.read (after (.settingsWrite 0x40 0x3C020304 0x9) State.reset).part.csh.staging 0x41 = 0
      ∧ Memory.read (after (.settingsWrite 0x40 0x3C020304 0x9) State.reset).part.csh.staging 0x43 = 0x3C := by decide +kernel
/-- A word written and read back through the part (R3). -/
theorem test_write_then_read :
    (afterAll [.forwardCycle 0x100 0x12345678 fullWord true, .downstreamCycleComplete,
      .forwardCycle 0x100 0 fullWord false, .downstreamCycleComplete] State.reset).reply
      = some ⟨⟨0x100, 0, fullWord, false⟩, 0x12345678⟩ := by decide +kernel
/-- The table of notices (12.4): WATERMARK is bit 0 and SCHEDULE_REFUSED bit 12. -/
theorem test_notice_bits : Notice.bit .watermark = 1 ∧ Notice.bit .scheduleRefused = 0x1000 := by decide +kernel
/-- One word of 12.4: MISFIRE, NONE, withheld, set ROUGH, bands 5 and 2, all present. -/
theorem test_verdict_word1 :
    let d : Decided := ⟨{ planned with contexts := some 4, roughness := some 4611, intensity := some 150, ratio := some 19 },
      .misfire, .none, true, false, true, 5, 2, 0⟩
    (buildVerdict d mon.part).w1 = 0x3D4442 ∧ (buildVerdict d mon.part).w2.extractLsb' 0 24 = 0x131203 := by decide +kernel
/-- The table gives no bits, so no word spells a command (log 27). -/
theorem test_no_word_spells_a_command : decodeTableWord 32 0 = none := by decide +kernel
/-- Power-on reset takes the strap. -/
theorem test_powerOn_strap : (after (.powerOnReset 5) mon).part.ptu.strap = 5 := by decide +kernel

/-! ### Hypotheses that hold together: queue, time, resets -/

theorem test_holds_front : (mon.setPending [.ecuReset]).pending = .ecuReset :: [] := by decide +kernel
theorem test_holds_empty_queue : State.reset.pending = [] := by decide +kernel
theorem test_tick_at_boundary : (stepped (atTime 999 mon)).pending = [.intervalBoundary]
    ∧ (stepped (atTime 999 mon)).part.partTime = 1000 := by decide +kernel
theorem test_tick_off_boundary : (stepped (atTime 1000 mon)).pending = []
    ∧ (stepped (atTime 1000 mon)).part.partTime = 1001 := by decide +kernel
theorem test_tick_makes_stall_due :
    (stepped (atTime 100000 (on (seeking none) fun p => p.setAtk { p.atk with stallStart := some 1 }))).pending
      = [.stall] := by decide +kernel
theorem test_tick_makes_planAge_due :
    (stepped (atTime 500000 (holding { planned with takenTime := 1 }))).pending = [.planAgeExpiry] := by decide +kernel
theorem test_tick_makes_knockWait_due :
    (stepped (atTime 2000 (on mon fun p => p.setKna { p.kna with waitList := [⟨0, 0, 1, 0, 0, 160, 1⟩] }))).pending
      = [.knockWaitExpiry] := by decide +kernel
theorem test_holds_validated : (Settings.parse staged.part.csh.staging).validate (pageBase staged.part.ptu.strap) = none := by decide +kernel
theorem test_holds_powerOn_free : mon.part.ptu.port = .free := by decide +kernel
theorem test_holds_ecuReset_ports :
    (withPort (.forwarding cyc true) mon).part.ptu.port = .forwarding cyc true
      ∧ (withPort (.refreshing 0x3000 7) mon).part.ptu.port = .refreshing 0x3000 7
      ∧ (withPort (.injecting none) mon).part.ptu.port = .injecting none
      ∧ (mon.part.ptu.port = .free ∧ mon.part.ptu.queue = [])
      ∧ ((withQueue [word] mon).part.ptu.port = .free ∧ (withQueue [word] mon).part.ptu.queue ≠ []) := by decide +kernel

/-! ### Hypotheses that hold together: the bus -/

theorem mon_grants : mon.part.grantsAtOnce := by decide +kernel
theorem staged_grants : staged.part.grantsAtOnce := by decide +kernel
theorem leaving_grants : leaving.part.grantsAtOnce := by decide +kernel

theorem test_holds_ordinary_cycle : mon.part.grantsAtOnce ∧ mon.part.windowOf 0x100 = none := by decide +kernel
/-- Cycles that no block takes: a write in the Verdict Ring, the Status Block and the Statistics Window, each at its last
word; a write in the three entry windows in DISENGAGING; a read in an entry window and in the Verdict Ring (R6). -/
theorem test_holds_forwarded_only :
    forwardedOnly (fullWrite 0x207C 5) mon.part ∧ forwardedOnly (fullWrite 0x3028 5) mon.part
      ∧ forwardedOnly (fullWrite 0x4864 5) mon.part ∧ forwardedOnly (fullWrite 0x1000 5) leaving.part
      ∧ forwardedOnly (fullWrite 0x1104 5) leaving.part ∧ forwardedOnly (fullWrite 0x1208 5) leaving.part
      ∧ forwardedOnly ⟨0x1000, 0, fullWord, false⟩ mon.part ∧ forwardedOnly ⟨0x2000, 0, fullWord, false⟩ mon.part
      ∧ cycleOf 0 (.toothEntry 0x1000 5) = some (fullWrite 0x1000 5) :=
  ⟨.inr (.inr (.inl (by decide +kernel))), .inr (.inr (.inl (by decide +kernel))), .inr (.inr (.inl (by decide +kernel))),
    .inr (.inr (.inr (by decide +kernel))), .inr (.inr (.inr (by decide +kernel))), .inr (.inr (.inr (by decide +kernel))),
    .inr (.inl (by decide +kernel)), .inr (.inl (by decide +kernel)), by decide +kernel⟩
theorem test_holds_cycle_held :
    let s := withPort (.injecting none) (withQueue [word] mon)
    cycleOf s.part.ptu.strap (.toothEntry 0x1000 5) = some (fullWrite 0x1000 5)
      ∧ cycleOf s.part.ptu.strap (.refreshRead 0x3000 fullWord) = some ⟨0x3000, 0, fullWord, false⟩
      ∧ s.part.ptu.port = .injecting none ∧ s.part.ptu.held = none := by decide +kernel
/-- A word in progress at a time, with one more queued behind it and a cycle held. -/
def behind (t : Micros) (h : HeldCycle) : State :=
  atTime t (withPort (.injecting none) (withQueue [word, word] (on mon fun p => p.setHeld (some h))))
theorem test_holds_cycle_released :
    let p := fun (t : Micros) (h : HeldCycle) => wordLeaves word [word] ((behind t h).part.setPort .free)
    let wr : HeldCycle := ⟨cyc, .injectionBusy, false⟩
    let rd : HeldCycle := ⟨⟨0x100, 0, fullWord, false⟩, .injectionBusy, false⟩
    let live : HeldCycle := ⟨⟨0x3028, 0, fullWord, false⟩, .injectionBusy, true⟩
    (behind 40 wr).part.ptu.port = .injecting none ∧ (behind 40 wr).part.ptu.queue = word :: [word]
      ∧ (behind 40 wr).part.ptu.held = some wr ∧ (p 40 wr).forces = true
      ∧ (p 39 wr).forces = false ∧ wr.cycle.write = true
      ∧ (p 39 rd).forces = false ∧ rd.cycle.write = false ∧ rd.live = false
      ∧ (p 39 live).forces = false ∧ live.live = true ∧ capture live.cycle.address (p 39 live) = some 39
      ∧ capture 0x2000 (p 39 live) = none ∧ 0x3C < 0x40 ∧ 0x3C % 4 = 0 := by decide +kernel
theorem test_holds_forwarded :
    let s := withPort (.forwarding cyc true) mon
    Memory.wf s.sram ∧ s.part.ptu.port = .forwarding cyc true ∧ s.part.ptu.held = none ∧ s.part.ptu.queue = [] := by decide +kernel
theorem test_holds_orphaned : (withPort (.forwarding cyc false) mon).part.ptu.port = .forwarding cyc false
    ∧ mon.part.ptu.held = none ∧ mon.part.ptu.queue = [] := by decide +kernel
theorem test_holds_partial_write :
    mon.part.grantsAtOnce ∧ staged.part.grantsAtOnce ∧ (0x1 : Enables) ≠ fullWord
      ∧ mon.part.windowOf 0xF0003C = some .configPage ∧ wordAddress 0xF0003C - pageBase mon.part.ptu.strap < 0x40
      ∧ mon.part.windowOf 0xF00040 = some .configPage ∧ ¬ wordAddress 0xF00040 - pageBase mon.part.ptu.strap < 0x40
      ∧ mon.part.windowOf 0x1100 = some .schedule ∧ mon.part.windowOf 0x113C = some .schedule
      ∧ mon.part.windowOf 0x1200 = some .knock ∧ mon.part.windowOf 0x1000 = some .tooth
      ∧ leaving.part.windowOf 0x1100 = some .schedule ∧ leaving.part.csh.mode ≠ .monitoring
      ∧ mon.part.windowOf 0x207C = some .verdictRing ∧ mon.part.windowOf 0x2080 = none := by decide +kernel
theorem test_holds_refresh_read :
    Memory.wf mon.sram ∧ mon.part.grantsAtOnce
      ∧ mon.part.windowOf 0x3028 = some .statusBlock ∧ (wordAddress 0x3028 - mon.part.cfg.statusBase) / 4 = 10
      ∧ mon.part.windowOf 0x4864 = some .statistics ∧ (wordAddress 0x4864 - mon.part.cfg.statisticsBase) / 4 = 537 := by decide +kernel
theorem test_holds_arbiter :
    let h : HeldCycle := ⟨cyc, .injectionBusy, false⟩
    let p := (withQueue [word] (on mon fun p => p.setHeld (some h))).part
    p.ptu.port = .free ∧ p.ptu.held = some h ∧ p.ptu.queue = [word]
      ∧ (p.partTime - word.entered).toNat < p.cfg.patience
      ∧ p.cfg.patience ≤ ((p.setPartTime 40).partTime - word.entered).toNat
      ∧ (p.setPartTime 40).ptu.forcedCount < p.cfg.stallBudget
      ∧ p.cfg.stallBudget ≤ (p.setPtu { p.ptu with forcedCount := 4 }).ptu.forcedCount := by decide +kernel
theorem test_holds_word_completes :
    let s := withPort (.injecting none) (withQueue [word] mon)
    Memory.wf s.sram ∧ s.part.ptu.port = .injecting none ∧ s.part.ptu.queue = word :: [] ∧ s.part.ptu.held = none
      ∧ s.part.pse.postQueue = [] ∧ s.part.csh.mode = .monitoring ∧ s.part.pse.postState = .running
      ∧ word.publishes = true ∧ word.recordEnd = true := by decide +kernel
/-- One publishing word in progress, the last of the queue, in a post state, with verdicts waiting. -/
def lastWord (x : PostState) (vs : List Verdict) (s : State) : State :=
  withPort (.injecting none) (withQueue [word] (on s fun p => p.setPse { p.pse with postState := x, postQueue := vs }))
theorem test_holds_word_stops_and_ends :
    let v : Verdict := ⟨0, 0, 0, 0, 0, 0, 0, 0⟩
    let stops := fun (s : State) => s.part.pse.postState = .stopping
      ∧ ∀ x ∈ ([] : List QueuedWord), x.publishes = false
    stops (lastWord .stopping [v] mon) ∧ (lastWord .stopping [v] mon).part.pse.postState ≠ .running
      ∧ ¬ ∀ x ∈ [word], x.publishes = false
      ∧ (lastWord .running [] leaving).part.csh.mode = .disengaging
      ∧ (lastWord .stopping [] leaving).part.csh.mode = .disengaging ∧ stops (lastWord .stopping [] leaving)
      ∧ (lastWord .stopped [v] mon).part.pse.postState ≠ .running := by decide +kernel
/-- The last word of a part STOPPING in DISENGAGING: POST_STOPPED is set and Disengage ends, RUNNING (log 30). -/
theorem test_last_word_stops_then_ends :
    let t := after .injectedWordComplete (lastWord .stopping [] leaving)
    t.part.noticeSet .postStopped = true ∧ t.part.csh.mode = .transparent ∧ t.part.pse.postState = .running := by
  decide +kernel
theorem test_holds_word_reports_nothing : ¬ (({ word with recordEnd := false } : QueuedWord).publishes = true
    ∧ ({ word with recordEnd := false } : QueuedWord).recordEnd = true) := by decide +kernel
/-- A verdict that waits while the last eight words of a full Injection Queue leave: the eighth makes room for its move,
before the port goes to the next word (R143). -/
theorem test_waiting_verdict_moves :
    let s := on (withPort (.injecting none) (withQueue (List.replicate 25 { word with publishes := false }) mon)) fun p =>
      p.setPse { p.pse with postQueue := [⟨0, 0, 0, 0, 0, 0, 0, 0⟩] }
    s.part.pse.postState = .running ∧ s.part.csh.mode ≠ .disengaging ∧ Memory.wf s.sram
      ∧ (after .injectedWordComplete s).part.ptu.queue.length = 32 ∧ (after .injectedWordComplete s).part.pse.postQueue = []
      ∧ (after .injectedWordComplete s).part.pse.assigned = 1
      ∧ (after .injectedWordComplete s).part.ptu.port = .injecting none := by decide +kernel
theorem test_holds_burst :
    let h : HeldCycle := ⟨cyc, .forced, false⟩
    let p := (withQueue [word] (on mon fun p => p.setHeld (some h))).part
    p.ptu.held = some h ∧ h.reason = .forced ∧ 2 < p.cfg.burst ∧ p.ptu.forcedCount < p.cfg.stallBudget
      ∧ p.ptu.queue ≠ [] ∧ p.cfg.burst ≤ 3 ∧ mon.part.ptu.held = none := by decide +kernel
theorem test_holds_forced_word :
    let s := withPort (.injecting (some 2)) (withQueue [word] mon)
    Memory.wf s.sram ∧ s.part.ptu.port = .injecting (some 2) ∧ s.part.ptu.queue = word :: [] := by decide +kernel
theorem test_holds_interval : arbiterQuiet (atTime 1000 mon).part ∧ (atTime 1000 mon).part.partTime.toNat % 1000 = 0
    ∧ arbiterQuiet (atTime 1001 mon).part ∧ (atTime 1001 mon).part.partTime.toNat % 1000 ≠ 0 := by decide +kernel

/-! ### Hypotheses that hold together: the Configuration Shadow -/

theorem mon_modes : mon.part.modesAgree := by
  have ha : mon.part.csh.active = some conf := by decide +kernel
  have hp : mon.part.csh.pendingCopy = none := by decide +kernel
  refine ⟨by decide +kernel, fun h => absurd hp h, fun g h => ?_, fun c h => ?_⟩
  · rw [ha] at h
    cases h
    decide +kernel
  · rw [hp] at h
    cases h
theorem staged_modes : staged.part.modesAgree := by
  have ha : staged.part.csh.active = none := by decide +kernel
  have hp : staged.part.csh.pendingCopy = none := by decide +kernel
  refine ⟨by decide +kernel, fun h => absurd hp h, fun g h => ?_, fun c h => ?_⟩
  · rw [ha] at h
    cases h
  · rw [hp] at h
    cases h
theorem slot_out (p : Part) {i : Nat} (h : 24 ≤ i) : p.slot i = none := by
  simp only [Part.slot, Table.read]
  rw [Vector.getElem?_eq_none (by omega)]; rfl
theorem listAgrees_of (p : Part) (h : p.flc.order.Nodup)
    (k : ∀ i, i < 24 → (i ∈ p.flc.order ↔ (p.slot i).isSome = true)) (hb : ∀ i ∈ p.flc.order, i < 24) :
    p.listAgrees := by
  refine ⟨h, fun i => ?_⟩
  by_cases hi : i < 24
  · exact k i hi
  · rw [slot_out p (by omega)]
    exact ⟨fun hm => absurd (hb i hm) hi, fun hm => by cases hm⟩
theorem mon_list : mon.part.listAgrees :=
  listAgrees_of _ (by decide +kernel) (by decide +kernel) (by decide +kernel)
theorem holding_list : (holding planned).part.listAgrees :=
  listAgrees_of _ (by decide +kernel) (by decide +kernel) (by decide +kernel)

theorem test_holds_settingsWrite : mon.part.grantsAtOnce ∧ Memory.wf mon.part.csh.staging
    ∧ 0x40 ≤ (0x40 : BitVec 12).toNat ∧ 0x40 ≤ (0xFFC : BitVec 12).toNat := by decide +kernel
theorem test_holds_apply_turned_away :
    (0 : Word).extractLsb' 0 16 = 0 ∧ (1 : Word).extractLsb' 0 16 ≠ 0 ∧ leaving.part.grantsAtOnce
      ∧ leaving.part.csh.mode = .disengaging ∧ State.reset.part.grantsAtOnce
      ∧ State.reset.part.csh.mode ≠ .disengaging
      ∧ (Settings.parse State.reset.part.csh.staging).validate (pageBase State.reset.part.ptu.strap)
          = some .cylinders := by decide +kernel
theorem test_holds_first_apply : staged.part.grantsAtOnce ∧ staged.part.modesAgree
    ∧ (1 : Word).extractLsb' 0 16 ≠ 0 ∧ staged.part.csh.mode = .transparent
    ∧ (Settings.parse staged.part.csh.staging).validate (pageBase staged.part.ptu.strap) = none :=
  ⟨staged_grants, staged_modes, by decide +kernel, by decide +kernel, by decide +kernel⟩
/-- A state with one byte of the staged image changed from the configuration in force. -/
def restaged (a : Nat) (b : Byte) (s : State) : State :=
  on s fun p => p.setCsh { p.csh with staging := Memory.write image a b }
/-- A Pending Copy of the configuration in force, under tag 7. -/
def pend (s : State) : State := on s fun p => p.setCsh { p.csh with pendingCopy := some ⟨conf, 7⟩ }
theorem test_holds_tuning_pends :
    let s := restaged 0xCE 5 (turning .synced)
    (2 : Word).extractLsb' 0 16 ≠ 0 ∧ s.part.csh.mode = .monitoring
      ∧ s.part.csh.pendingCopy = none ∧ (pend s).part.csh.pendingCopy = some ⟨conf, 7⟩ ∧ (pend s).part.atk.sync = .synced
      ∧ (pend s).part.csh.active = some conf
      ∧ (Settings.parse s.part.csh.staging).validate (pageBase s.part.ptu.strap) = none
      ∧ sameLayout conf (Settings.parse s.part.csh.staging) = true
      ∧ sameGeometry conf (Settings.parse s.part.csh.staging) = true
      ∧ sameTuning conf (Settings.parse s.part.csh.staging) = false := by decide +kernel
theorem test_holds_pending_takes_effect :
    (pend (turning .synced)).part.csh.pendingCopy = some ⟨conf, 7⟩ ∧ noWaitDue conf (pend (turning .synced)).part
      ∧ noStallDue conf (atTime 99999 (pend (turning .synced))).part := by
  refine ⟨by decide +kernel, ⟨by decide +kernel, by decide +kernel⟩, fun x h => ?_⟩
  have e : (atTime 99999 (pend (turning .synced))).part.atk.stallStart = some 0 := by decide +kernel
  rw [e] at h
  cases h
  decide +kernel
/-- The classes of an Apply by one changed byte: none, a partial fraction, the gap ratio, the ring size (R24). -/
theorem test_holds_apply_classes :
    let same := fun (a : Nat) (b : Byte) =>
      let h := Settings.parse (Memory.write image a b)
      (h.validate (pageBase 0), sameLayout conf h, sameGeometry conf h, sameTuning conf h)
    same 0xCE 4 = (none, true, true, true) ∧ same 0xCE 5 = (none, true, true, false)
      ∧ (same 0x46 21).2.2.1 = false ∧ (same 0x46 21).1 = none ∧ (same 0x46 21).2.1 = true
      ∧ (same 0xAC 8).1 = none ∧ (same 0xAC 8).2.1 = false := by decide +kernel
theorem test_holds_apply_in_monitoring :
    let s := restaged 0xCE 5 (seeking none)
    mon.part.listAgrees ∧ mon.part.csh.mode = .monitoring ∧ mon.part.csh.active = some conf
      ∧ mon.part.atk.sync = .stopped ∧ s.part.atk.sync = .seeking
      ∧ (∀ e ∈ s.part.kna.waitList, (s.part.partTime - e.fixTime).toNat < conf.knockWaitLimit * 1000)
      ∧ (∀ x ∈ (atTime 499999 (holding planned)).part.records, x.2.state = .planned →
          ((499999 : Micros) - x.2.takenTime).toNat < conf.planAgeLimit * 1000)
      ∧ s.part.atk.stallStart = some 0 ∧ ¬ conf.stallTime * 1000 ≤ ((99999 : Micros) - 0).toNat
      ∧ conf.stallTime * 1000 ≤ ((100000 : Micros) - 0).toNat
      ∧ (lastWord .stopping [] mon).part.pse.postState = .stopping :=
  ⟨mon_list, by decide +kernel⟩
theorem test_holds_analysisReset : mon.part.grantsAtOnce ∧ mon.part.listAgrees ∧ mon.part.csh.mode = .monitoring
    ∧ mon.part.csh.pendingCopy = none := ⟨mon_grants, mon_list, by decide +kernel, by decide +kernel⟩
theorem test_holds_disengage :
    (pend mon).part.listAgrees ∧ (pend mon).part.csh.mode = .monitoring ∧ (pend mon).part.csh.pendingCopy ≠ none
      ∧ leaving.part.csh.mode ≠ .monitoring ∧ mon.part.grantsAtOnce
      ∧ (withQueue [word] (pend mon)).part.ptu.queue ≠ [] ∧ (pend mon).part.ptu.queue = [] :=
  ⟨mon_list, by decide +kernel⟩
theorem test_holds_endOfDisengage : arbiterQuiet leaving.part ∧ leaving.part.csh.mode = .disengaging
    ∧ leaving.part.ptu.queue = [] ∧ arbiterQuiet mon.part
    ∧ ¬ (mon.part.csh.mode = .disengaging ∧ mon.part.ptu.queue = []) := by decide +kernel

/-! ### Hypotheses that hold together: notices, posting, statistics, history -/

theorem test_holds_noticeClear : mon.part.grantsAtOnce ∧ mon.part.csh.mode ≠ .transparent
    ∧ staged.part.grantsAtOnce ∧ staged.part.csh.mode = .transparent := by decide +kernel
theorem test_holds_lines : staged.part.csh.active = none ∧ mon.part.csh.active = some conf := by decide +kernel
theorem test_holds_consumer :
    let p := mon.part.setPse { mon.part.pse with published := 4 }
    ((4 : Word).extractLsb' 0 16 - p.pse.consumer).toNat ≤ (p.pse.published - p.pse.consumer).toNat
      ∧ ¬ ((5 : Word).extractLsb' 0 16 - p.pse.consumer).toNat ≤ (p.pse.published - p.pse.consumer).toNat := by decide +kernel
theorem test_holds_postControl :
    mon.part.grantsAtOnce ∧ mon.part.pse.postState = .running
      ∧ (∃ q ∈ (withQueue [word] mon).part.ptu.queue, q.publishes = true)
      ∧ (∀ q ∈ mon.part.ptu.queue, q.publishes = false)
      ∧ (on mon fun p => p.setPse { p.pse with postState := .stopped }).part.pse.postState ≠ .running
      ∧ mon.part.csh.mode ≠ .transparent ∧ staged.part.csh.mode = .transparent ∧ arbiterQuiet mon.part
      ∧ (on mon fun p => p.setPse { p.pse with postState := .stopping }).part.pse.postState = .stopping := by decide +kernel
theorem test_holds_verdictFields :
    let r : Record := { planned with
      cylinder := 15, period := some 0xFFFFFF, roughness := some (-32768), ratio := some 255, intensity := some 65535
      coverage := some 255, clipped := some 255, load := 511 }
    let d : Decided := ⟨r, .misfire, .none, true, false, true, 7, 3, 0⟩
    d.record.cylinder < 16 ∧ d.speedBand < 8 ∧ d.loadBand < 4 ∧ d.record.period.getD 0 < 2 ^ 24
      ∧ -32768 ≤ d.record.roughness.getD 0 ∧ d.record.roughness.getD 0 ≤ 32767 ∧ d.record.ratio.getD 0 < 256
      ∧ d.record.intensity.getD 0 < 2 ^ 16 ∧ d.record.coverage.getD 0 < 256 ∧ d.record.clipped.getD 0 < 256
      ∧ d.record.load < 512 := by decide +kernel
/-- A verdict of zeros. -/
def zeroVerdict : Verdict := ⟨0, 0, 0, 0, 0, 0, 0, 0⟩
theorem test_holds_post_room : mon.part.pse.postQueue.length < 16
    ∧ (mon.part.setPse { mon.part.pse with postQueue := List.replicate 16 zeroVerdict }).pse.postQueue.length = 16 := by decide +kernel
theorem test_holds_moveTest :
    let p := mon.part.setPse { mon.part.pse with postQueue := [zeroVerdict] }
    p.pse.postQueue = zeroVerdict :: [] ∧ p.pse.postState = .running ∧ p.ptu.queue.length + 8 ≤ 32
      ∧ (p.pse.assigned - p.pse.consumer).toNat < p.cfg.ringSize
      ∧ (p.setQueue (List.replicate 24 word)).ptu.queue.length + 8 ≤ 32
      ∧ 32 < (p.setQueue (List.replicate 25 word)).ptu.queue.length + 8
      ∧ p.cfg.ringSize ≤ ((p.setPse { p.pse with assigned := 4 }).pse.assigned - p.pse.consumer).toNat := by decide +kernel
theorem test_holds_statistics : mon.part.grantsAtOnce ∧ mon.part.csh.mode ≠ .transparent := by decide +kernel
/-- The last increment before saturation, and the one after it (R132). -/
theorem test_increment_saturates :
    (increment 537 (setLive 537 0xFFFFFFFE mon.part)).liveCounter 537 = 0xFFFFFFFF
      ∧ (increment 537 (setLive 537 0xFFFFFFFF mon.part)).liveCounter 537 = 0xFFFFFFFF := by decide +kernel
theorem test_holds_neverFall : mon.part.ptu.held = none ∧ ¬ mayClear mon.part.ptu.strap (.toothEntry 0x1000 0)
    ∧ ∃ t, exec (.toothEntry 0x1000 0) mon = .next t :=
  ⟨by decide +kernel, by unfold mayClear; decide +kernel, ⟨_, rfl⟩⟩
theorem test_holds_history :
    List.length ([⟨some .none, none⟩] : List HistoryEntry) < 16
      ∧ (List.replicate 15 (⟨some .none, none⟩ : HistoryEntry)).length = 15
      ∧ (Health.healthy ≠ .faulted) ∧ conf.faultCount ≤ 6 ∧ conf.faultRun ≤ 4
      ∧ ¬ (conf.faultCount ≤ 5 ∨ conf.faultRun ≤ 3) := by decide +kernel
/-- A MISFIRE with a HEAVY knock, not withheld. -/
def judged : Decided := ⟨{ planned with state := .settling }, .misfire, .heavy, false, false, false, 7, 3, 0⟩
theorem test_holds_history_take : (misfireOutcome judged ≠ none ∨ knockOutcome judged ≠ none)
    ∧ 1 ≤ judged.record.cylinder ∧ judged.record.cylinder ≤ 8 := by decide +kernel
/-- The kinds of the second example row of R133. -/
theorem test_kinds_counted :
    ([0, 1, 2, 3, 4, 5, 6, 7].filter fun k => decide (counted judged k)) = [0, 1, 3, 5] := by decide +kernel
/-- The three post policies, by the byte 128h of the image. -/
theorem test_holds_policies :
    (Settings.parse image).postPolicy = 0 ∧ (Settings.parse (Memory.write image 0x128 1)).postPolicy = 1
      ∧ (Settings.parse (Memory.write image 0x128 2)).postPolicy = 2 := by decide +kernel

/-! ### Hypotheses that hold together: the Angle Tracker -/

theorem test_holds_first_tooth : tapped .tooth 0x1000 mon ∧ mon.part.atk.sync = .stopped := by decide +kernel
theorem test_holds_old_tooth :
    let s := seeking none
    tapped .tooth 0x1000 s ∧ s.part.atk.sync ≠ .stopped ∧ s.part.atk.lastTooth = some 1000
      ∧ (1000 : Word).extractLsb' 0 24 - (1000 : Stamp) = 0
      ∧ 2 ^ 23 ≤ ((0x8003E8 : Word).extractLsb' 0 24 - (1000 : Stamp)).toNat := by decide +kernel
/-- The gap test at its edge: an interval of 250 after one of 100 at ratio 20 eighths is a gap, 249 is plain. -/
theorem test_holds_gap : gapTooth (seeking none).part 250 ∧ ¬ gapTooth (seeking none).part 249 := by
  have h : (seeking none).part.atk.lastInterval = some 100 := by decide +kernel
  refine ⟨⟨100, h, by decide +kernel⟩, ?_⟩
  rintro ⟨k, e, l⟩
  rw [h] at e
  cases e
  exact absurd l (by decide +kernel)
theorem test_holds_seeking :
    tapped .tooth 0x1000 (seeking (some 57)) ∧ (seeking (some 57)).part.atk.sync = .seeking
      ∧ 0 < ((1250 : Word).extractLsb' 0 24 - (1000 : Stamp)).toNat
      ∧ ((1250 : Word).extractLsb' 0 24 - (1000 : Stamp)).toNat < 2 ^ 23
      ∧ (seeking none).part.atk.refGap = none ∧ (seeking (some 57)).part.atk.refGap = some 57
      ∧ min 255 (57 + 1) = (seeking (some 57)).part.cfg.teeth - (seeking (some 57)).part.cfg.missing
      ∧ min 255 (56 + 1) ≠ (seeking (some 57)).part.cfg.teeth - (seeking (some 57)).part.cfg.missing
      ∧ (1250 : Word).getLsbD 24 = false ∧ (0x10004E2 : Word).getLsbD 24 = true
      ∧ (0x10004E2 : Word).extractLsb' 0 24 = (1250 : Stamp) := by decide +kernel
/-- The tracker in HALF_SYNC or SYNCED at the last position of a revolution. -/
def atGap (x : SyncState) : State := on (turning x) fun p => p.setAtk { p.atk with revPos := 57 }
theorem turning_plain (x : SyncState) :
    ¬ gapTooth (turning x).part ((1100 : Word).extractLsb' 0 24 - (1000 : Stamp)).toNat := by
  rintro ⟨k, e, l⟩
  have hi : (turning x).part.atk.lastInterval = some 100 := rfl
  rw [hi] at e
  cases e
  exact absurd l (by cases x <;> decide +kernel)
theorem turning_gap (x : SyncState) :
    gapTooth (turning x).part ((1300 : Word).extractLsb' 0 24 - (1000 : Stamp)).toNat :=
  ⟨100, rfl, by cases x <;> decide +kernel⟩
theorem atGap_gap (x : SyncState) :
    gapTooth (atGap x).part ((1300 : Word).extractLsb' 0 24 - (1000 : Stamp)).toNat :=
  ⟨100, rfl, by cases x <;> decide +kernel⟩
theorem atGap_plain (x : SyncState) :
    ¬ gapTooth (atGap x).part ((1100 : Word).extractLsb' 0 24 - (1000 : Stamp)).toNat := turning_plain x
theorem test_holds_turning :
    tapped .tooth 0x1000 (turning .halfSync) ∧ tapped .tooth 0x1000 (atGap .halfSync)
      ∧ tapped .tooth 0x1000 (turning .synced) ∧ tapped .tooth 0x1000 (atGap .synced)
      ∧ (turning .halfSync).part.atk.sync = .halfSync ∧ (atGap .synced).part.atk.sync = .synced
      ∧ (turning .synced).part.csh.pendingCopy = none ∧ (atGap .halfSync).part.csh.pendingCopy = none
      ∧ (turning .halfSync).part.atk.lastTooth = some 1000
      ∧ 0 < ((1300 : Word).extractLsb' 0 24 - (1000 : Stamp)).toNat
      ∧ (turning .halfSync).part.atk.revPos
          < (turning .halfSync).part.cfg.teeth - (turning .halfSync).part.cfg.missing - 1
      ∧ (atGap .halfSync).part.atk.revPos
          = (atGap .halfSync).part.cfg.teeth - (atGap .halfSync).part.cfg.missing - 1 := by decide +kernel
/-- With CamHalf 0 the half that a tooth without its turn keeps is that of the marker, and the half after the gap is not. -/
theorem test_holds_markers :
    (1100 : Word).getLsbD 24 = false ∧ (0x100044C : Word).getLsbD 24 = true
      ∧ (turning .synced).part.atk.revHalf = decide ((turning .synced).part.cfg.camHalf = 1)
      ∧ (!(atGap .synced).part.atk.revHalf) ≠ decide ((atGap .synced).part.cfg.camHalf = 1) := by decide +kernel
/-- The tracker SYNCED at a cycle position of the first revolution, with a boundary seen. -/
def atPosition (q : Nat) : Part :=
  (turning .synced).part.setAtk { (turning .synced).part.atk with revPos := q, boundarySeen := true }
theorem test_holds_angle_events :
    let start := fun c => (Table.readCyl conf.tdc c 0 + conf.segOffset) % (2 * conf.teeth)
    (atPosition 14).csh.pendingCopy = none ∧ (atPosition 14).cfg = conf
      ∧ (∀ c ∈ conf.order, 1 ≤ c ∧ c ≤ conf.cylinders)
      ∧ (∀ c ∈ List.range' 1 4, start c ≠ 16) ∧ (List.range' 1 4).map start = [14, 104, 44, 74]
      ∧ conf.order.head? = some 1 ∧ conf.order.head? ≠ some 3
      ∧ (if (atPosition 14).atk.revHalf then conf.teeth else 0) + (atPosition 14).atk.revPos = start 1
      ∧ (if (atPosition 44).atk.revHalf then conf.teeth else 0) + (atPosition 44).atk.revPos = start 3 := by decide +kernel
theorem test_holds_segment_edges :
    let m : Record := { planned with state := .measuring, openTime := some 900 }
    let p := (holding m).part
    (∀ x ∈ mon.part.records, ¬ (x.2.cylinder = 1 ∧ x.2.state = .measuring))
      ∧ (∀ x ∈ mon.part.records, ¬ (x.2.cylinder = 1 ∧ x.2.state = .planned))
      ∧ p.records = [] ++ (0, m) :: [] ∧ m.cylinder = 1 ∧ m.state = .measuring ∧ (∀ x ∈ p.records, x.2.ready = false)
      ∧ m.knock = none ∧ (holding planned).part.records = [] ++ (0, planned) :: []
      ∧ planned.cylinder = 1 ∧ planned.state = .planned
      ∧ ({ m with fuel := .cut } : Record).fuel = .cut ∧ ¬ (m.fuel = .cut ∨ m.ignition = .cut) ∧ m.openTime = some 900
      ∧ (∀ f ∈ p.kna.frames, f.sensor = Table.readCyl p.cfg.sensorMap 1 0 → f.state ≠ .filling →
          isLater 1000 (f.start + BitVec.ofNat 24 (f.samples.length * p.cfg.samplePeriod)) = true)
      ∧ let q := p.setKna { p.kna with frames := [⟨0, 900, 4, List.replicate 5 2048, .truncated, 0⟩] }
        q.records = [] ++ (0, m) :: [] ∧ ∃ f ∈ q.kna.frames, f.sensor = Table.readCyl q.cfg.sensorMap 1 0
          ∧ f.state ≠ .filling
          ∧ isLater 1000 (f.start + BitVec.ofNat 24 (f.samples.length * q.cfg.samplePeriod)) = false := by decide +kernel
/-- A loss with a MEASURING, a SETTLING and a PLANNED record: gone, final and kept (R68). -/
theorem test_loss_in_the_list :
    let m : Record := { planned with state := .measuring }
    let r : Record := { planned with cylinder := 3, state := .settling }
    let s := on (turning .synced) fun p => p.setFlc { p.flc with
      slots := Table.write (Table.write (Table.write p.flc.slots 0 (some m)) 1 (some r)) 2 (some planned)
      order := [0, 1, 2] }
    let t := after (.toothEntry 0x1000 1300) s
    t.part.flc.order = [1, 2] ∧ t.part.slot 1 = some { r with misfire := some .unavailable }
      ∧ t.part.slot 2 = some planned ∧ t.part.liveCounter 514 = 1 ∧ t.part.liveCounter 525 = 1 := by decide +kernel
theorem test_holds_stall :
    let s := atTime 100000 (seeking none)
    let u := atTime 100000 (turning .synced)
    arbiterQuiet s.part ∧ s.part.csh.active = some conf ∧ s.part.atk.stallStart = some 0 ∧ s.part.atk.sync = .seeking
      ∧ conf.stallTime * 1000 ≤ (s.part.partTime - 0).toNat ∧ arbiterQuiet u.part ∧ u.part.atk.sync = .synced
      ∧ u.part.csh.pendingCopy = none ∧ ((atTime 99999 s).part.partTime - 0).toNat < conf.stallTime * 1000 := by decide +kernel
theorem test_holds_cycleBoundary : mon.part.csh.pendingCopy = none ∧ mon.part.cxu.heldInput = none
    ∧ mon.part.hsu.blockCycles + 1 < conf.blockCycles
    ∧ conf.blockCycles ≤ (mon.part.setHsu { mon.part.hsu with blockCycles := 99 }).hsu.blockCycles + 1
    ∧ conf.turbineLimit ≤ (mon.part.setHsu { mon.part.hsu with blockMisfires := 12 }).hsu.blockMisfires
    ∧ ¬ conf.turbineLimit ≤ (mon.part.setHsu { mon.part.hsu with blockMisfires := 11 }).hsu.blockMisfires := by decide +kernel
/-- A boundary that puts a Pending Copy into effect, and one whose Turbine Rate Block ends. -/
theorem test_holds_boundary_pending :
    let p := (atTime 99999 (pend (turning .synced))).part
    p.csh.pendingCopy = some ⟨conf, 7⟩ ∧ p.cxu.heldInput = none
      ∧ (cycleBoundary p).csh.activeGen = 7 ∧ (cycleBoundary p).hsu.blockCycles = 1
      ∧ (cycleBoundary (mon.part.setHsu { mon.part.hsu with blockCycles := 99, blockMisfires := 12 })).ntu.flags = 0x40 := by
  decide +kernel

/-! ### Hypotheses that hold together: the Open Firing List -/

theorem test_holds_first_words :
    tapped .schedule 0x1100 mon ∧ (wordAddress 0x1100 - mon.part.cfg.scheduleBase) % 8 = 0
      ∧ tapped .knock 0x1200 mon ∧ wordAddress 0x1200 = mon.part.cfg.knockBase := by decide +kernel
theorem test_holds_out_of_order :
    tapped .schedule 0x113C mon ∧ (wordAddress 0x113C - mon.part.cfg.scheduleBase) % 8 ≠ 0
      ∧ ∀ x, mon.part.ptu.scheduleLatch = some x → x.address + 4 ≠ wordAddress 0x113C := by
  have hl : mon.part.ptu.scheduleLatch = none := by decide +kernel
  refine ⟨by decide +kernel, by decide +kernel, fun x h => ?_⟩
  rw [hl] at h
  cases h
/-- MONITORING with the worked entry's first word latched. -/
def latched : State := on mon fun p => p.setPtu { p.ptu with scheduleLatch := some ⟨0x1100, 0x00141103⟩ }
theorem test_holds_commit_opens :
    tapped .schedule 0x1104 latched ∧ (wordAddress 0x1104 - latched.part.cfg.scheduleBase) % 8 ≠ 0
      ∧ latched.part.ptu.scheduleLatch = some ⟨wordAddress 0x1104 - 4, 0x00141103⟩ ∧ 4 ≤ wordAddress 0x1104
      ∧ entryCheckOk ⟨0x00141103, 0xE80000B4⟩ = true ∧ entryFuel ⟨0x00141103, 0xE80000B4⟩ = some .normal
      ∧ entryIgnition ⟨0x00141103, 0xE80000B4⟩ = some .normal ∧ 1 ≤ field 0x00141103 0 8
      ∧ field 0x00141103 0 8 ≤ latched.part.cfg.cylinders ∧ field 0xE80000B4 0 16 ≤ 511
      ∧ latched.part.records = [] ∧ latched.part.recordCount (field 0x00141103 0 8) < latched.part.cfg.allotment
      ∧ latched.part.slot 0 = none ∧ ∀ j, j < 0 → latched.part.slot j ≠ none := by decide +kernel
/-- The worked entry with both flags set, and what a taken entry of it does (R56, R58). -/
theorem test_holds_commit_revises :
    let r : Record := newRecord ⟨0x00141103, 0⟩ 9 0
    let s := on (holding r) fun p => p.setPtu { p.ptu with scheduleLatch := some ⟨0x1100, 0x00141103⟩ }
    entryCheckOk ⟨0x00141103, 0x030C00B4⟩ = true ∧ (0x030C00B4 : Word).getLsbD 18 = true
      ∧ (0x030C00B4 : Word).getLsbD 19 = true ∧ tapped .schedule 0x1104 s
      ∧ s.part.records = [] ++ (0, r) :: [] ∧ r.cylinder = field 0x00141103 0 8 ∧ r.cycleTag = byteOf 0x00141103 1
      ∧ r.state = .planned := by decide +kernel
theorem test_holds_entry_checks :
    let e : ScheduleEntry := ⟨0x00140101, 0⟩
    let good : ScheduleEntry := ⟨0x00141103, 0xE80000B4⟩
    checkByte (entryBytes e) ≠ byteOf e.commit 3 ∧ checkByte (entryBytes good) = byteOf good.commit 3
      ∧ entryInRange conf good = true ∧ (mon.part.matching good).isNone = true
      ∧ mon.part.recordCount (entryCylinder good) < mon.part.cfg.allotment
      ∧ (mon.part.setFlc { mon.part.flc with counts := Vector.replicate 8 3 }).recordCount (entryCylinder good) = 3
      ∧ mon.part.flc.reserveInUse < 24 - mon.part.cfg.cylinders * mon.part.cfg.allotment := by decide +kernel
theorem test_holds_entry_out_of_range :
    entryCheckOk ⟨0x00140105, 0xA7000000⟩ = true ∧ mon.part.cfg.cylinders < entryCylinder ⟨0x00140105, 0xA7000000⟩
      ∧ entryCheckOk ⟨0x00140100, 0xF2000000⟩ = true ∧ entryCylinder ⟨0x00140100, 0xF2000000⟩ < 1
      ∧ entryCheckOk ⟨0x00140101, 0xFB000200⟩ = true ∧ 511 < entryLoad ⟨0x00140101, 0xFB000200⟩
      ∧ entryCheckOk ⟨0x00140101, 0x860001FF⟩ = true ∧ entryInRange conf ⟨0x00140101, 0x860001FF⟩ = true := by
  decide +kernel
theorem test_holds_entry_matches :
    let e : ScheduleEntry := ⟨0x00140101, 0⟩
    ((holding planned).part.matching e).map Prod.fst = some 0
      ∧ ((holding { planned with state := .measuring }).part.matching e).map (fun x => x.2.state)
          = some .measuring := by decide +kernel
/-- A state with the first word of an entry latched. -/
def awaiting (w : Word) (s : State) : State := on s fun p => p.setPtu { p.ptu with scheduleLatch := some ⟨0x1100, w⟩ }
/-- A commit refused by each of its checks: the check byte, the range, a MEASURING record of its cylinder and tag, the slot
pool (R55). -/
theorem test_holds_entry_refused :
    let full := on mon fun p => p.setFlc { p.flc with counts := Vector.replicate 8 3, reserveInUse := 12 }
    tapped .schedule 0x1104 (awaiting 0x00140101 mon) ∧ (wordAddress 0x1104 - mon.part.cfg.scheduleBase) % 8 ≠ 0
      ∧ (awaiting 0x00140101 mon).part.ptu.scheduleLatch = some ⟨wordAddress 0x1104 - 4, 0x00140101⟩
      ∧ entryRefusal ⟨0x00140101, 0⟩ (awaiting 0x00140101 mon).part = some .check
      ∧ entryRefusal ⟨0x00140105, 0xA7000000⟩ (awaiting 0x00140105 mon).part = some .range
      ∧ entryRefusal ⟨0x00140101, 0x860001FF⟩
          (awaiting 0x00140101 (holding { planned with state := .measuring })).part = some .late
      ∧ entryRefusal ⟨0x00141103, 0xE80000B4⟩ (awaiting 0x00141103 full).part = some .noSlot := by decide +kernel
theorem test_holds_planAge : (holding planned).part.listAgrees ∧ (holding planned).part.ptu.held = none
    ∧ ∀ x ∈ (holding planned).part.records, x.2.ready = false := ⟨holding_list, by decide +kernel, by decide +kernel⟩
/-- The plan age at its edge: at 500 ms the record is abandoned, one microsecond earlier it is kept (R67). -/
theorem test_planAge_edge :
    (after .planAgeExpiry (atTime 500000 (holding planned))).part.flc.order = []
      ∧ (after .planAgeExpiry (atTime 499999 (holding planned))).part.flc.order = [0] := by decide +kernel
theorem test_holds_decision : (holding planned).part.slot 0 = some planned := by decide +kernel
/-- A record with both halves final. -/
def settled : Record := { planned with state := .settling, misfire := some .none, knock := some .none }
theorem test_holds_decision_due : decisionDue (holding settled).part 0 settled ∧ (holding settled).part.listAgrees
    ∧ (holding settled).part.records = [] ++ (0, settled) :: [] :=
  ⟨⟨by decide +kernel, [], [], by decide +kernel, rfl, fun _ h => by cases h⟩,
    listAgrees_of _ (by decide +kernel) (by decide +kernel) (by decide +kernel), by decide +kernel⟩

/-! ### Hypotheses that hold together: the analysers and the reads -/

theorem test_holds_figure : (⟨1, 0, 50000, none⟩ : SegmentEntry).roughness = none
    ∧ (⟨1, 0, 50000, some 5⟩ : SegmentEntry).roughness ≠ none
    ∧ ([⟨1, 0, 50000, none⟩, ⟨3, 0, 50000, none⟩] : List SegmentEntry).length ≠ 3 := by decide +kernel
/-- The Segment Sequence of the example in 5.7 as cylinder 3's segment closes: the figure of cylinder 1 is −2485 (R73 to R76). -/
def closing : Part := mon.part.setSga { mon.part.sga with
  sequence := [⟨4, 900, 50000, some 0⟩, ⟨2, 900, 50000, some (-65)⟩, ⟨1, 901, 50100, none⟩], openSegment := some (3, 901)
  roughness := [0, -65] }
theorem test_segment_closes :
    let b : SegmentBoundary := ⟨4, some 3, 0, 901, some 54000⟩
    let p := closing.setFlc (holding { planned with
      state := .settling, cycleNumber := some 901, period := some 50100 }).part.flc
    (analyseBoundary b p).sga.sequence = [⟨2, 900, 50000, some (-65)⟩, ⟨1, 901, 50100, some (-2485)⟩, ⟨3, 901, 54000, none⟩]
      ∧ (analyseBoundary b p).sga.roughness = [0, -65, -2485] ∧ (analyseBoundary b p).sga.openSegment = some (4, 901)
      ∧ ((analyseBoundary b p).slot 0).bind (·.roughness) = some (-2485)
      ∧ ((analyseBoundary b p).slot 0).bind (·.misfire) = some .none
      ∧ closing.sga.openSegment = some (3, 901) ∧ closing.records = []
      ∧ middleFigure (closing.sga.sequence.drop 1 ++ [⟨3, 901, 54000, none⟩]) ≠ none
      ∧ middleFigure ([⟨1, 901, 50100, none⟩] ++ [⟨3, 901, 54000, none⟩]) = none := by decide +kernel
theorem test_holds_misfire_classes :
    let tm := Table.read conf.misfireTable (4 * conf.speedBand 54000 + conf.loadBand 180) 0
    let tp := tm * conf.partialFraction / 8
    ({ planned with fuel := .cut } : Record).fuel = .cut ∧ ¬ (planned.fuel = .cut ∨ planned.ignition = .cut)
      ∧ (tm : Int) ≤ 3000 ∧ (2999 : Int) < tm ∧ (tp : Int) ≤ 1500 ∧ (1499 : Int) < tp := by decide +kernel
/-- MONITORING with a knock timestamp latched. -/
def knockLatched : State := on mon fun p => p.setPtu { p.ptu with knockLatch := some ⟨0x1200, 3000⟩ }
theorem test_holds_header :
    tapped .knock 0x1204 knockLatched ∧ wordAddress 0x1204 = knockLatched.part.cfg.knockBase + 4
      ∧ (∀ f ∈ knockLatched.part.kna.frames, f.state ≠ .filling)
      ∧ knockLatched.part.ptu.knockLatch = some ⟨knockLatched.part.cfg.knockBase, 3000⟩
      ∧ field 0x180 8 4 < knockLatched.part.cfg.sensorCount ∧ 1 ≤ field 0x180 0 8 ∧ field 0x180 0 8 ≤ 128
      ∧ knockLatched.part.kna.frames.length < 6 ∧ knockLatched.part.cfg.sensorCount ≤ field 0x201 8 4
      ∧ field 0x100 0 8 = 0 ∧ 128 < field 0x181 0 8 ∧ tapped .knock 0x1204 mon ∧ mon.part.ptu.knockLatch = none := by decide +kernel
/-- MONITORING with a frame of two pairs that holds `n` samples. -/
def filling (n : Nat) : State := on mon fun p => p.setKna
  { p.kna with frames := [⟨0, 3000, 2, List.replicate n 2048, .filling, 0⟩] }
theorem test_holds_samples :
    tapped .knock 0x1208 mon ∧ mon.part.cfg.knockBase + 8 ≤ wordAddress 0x1208 ∧ tapped .knock 0x123C (filling 0)
      ∧ (filling 0).part.kna.frames = [] ++ [⟨0, 3000, 2, [], .filling, 0⟩]
      ∧ 0 + 2 ≠ 2 * 2 ∧ (filling 2).part.kna.frames = [] ++ [⟨0, 3000, 2, [2048, 2048], .filling, 0⟩] ∧ 2 + 2 = 2 * 2
      ∧ (filling 2).part.kna.waitList = [] := by decide +kernel
/-- Six frames held, the last of them FILLING, two of the same greatest age before start time 3000 (R88). -/
def fullStore : State := on knockLatched fun p => p.setKna { p.kna with
  frames := [⟨0, 2000, 2, [], .complete, 0⟩, ⟨0, 1000, 2, [], .complete, 1⟩, ⟨1, 1000, 2, [], .complete, 2⟩,
    ⟨1, 1500, 2, [], .complete, 3⟩, ⟨0, 1600, 2, [], .truncated, 4⟩, ⟨0, 2900, 2, [1, 2], .filling, 5⟩], commitIndex := 6 }
theorem test_holds_header_full :
    let age := fun f : Frame => ((3000 : Word).extractLsb' 0 24 - f.start).toNat
    tapped .knock 0x1204 fullStore ∧ fullStore.part.kna.frames.length = 6
      ∧ fullStore.part.kna.frames = fullStore.part.kna.frames.take 5 ++ ⟨0, 2900, 2, [1, 2], .filling, 5⟩ :: []
      ∧ (∀ f ∈ fullStore.part.kna.frames.take 5, f.state ≠ .filling)
      ∧ (∀ f ∈ fullStore.part.kna.frames.take 1, age f < 2000) ∧ age ⟨0, 1000, 2, [], .complete, 1⟩ = 2000
      ∧ (∀ f ∈ fullStore.part.kna.frames.drop 2, age f ≤ 2000)
      ∧ (after (.knockHeaderCommit 0x1204 0x180) fullStore).part.kna.frames.map (fun f => (f.commit, f.state))
          = [(0, .complete), (2, .complete), (3, .complete), (4, .truncated), (5, .truncated), (6, .filling)]
      ∧ (after (.knockHeaderCommit 0x1204 0x180) fullStore).part.liveCounter 529 = 1
      ∧ (after (.knockHeaderCommit 0x1204 0x180) fullStore).part.liveCounter 530 = 1
      ∧ (after (.knockHeaderCommit 0x1204 0x181) fullStore).part.liveCounter 529 = 2 := by decide +kernel
/-- A window of eight sample periods that opens at the start of a frame of sensor 0. -/
def window : PendingEval := ⟨0, 0, 1, 0, 3000, 3160, 0⟩
/-- A MEASURING record with a frame of `n` samples of a value, and references at 120. -/
def listening (n v : Nat) : Part :=
  let p := (holding { planned with state := .measuring }).part
  p.setKna { p.kna with frames := [⟨0, 3000, 8, List.replicate n v, .complete, 0⟩], refs := Vector.replicate 8 120 }
/-- The knock half that an evaluation of the window gives the record. -/
def hears (p : Part) (k : KnockClass) (intensity coverage ratio : Option Nat) : Bool :=
  match (evaluate window p).slot 0 with
  | some r => decide (r.knock = some k ∧ r.intensity = intensity ∧ r.coverage = coverage ∧ r.ratio = ratio)
  | none => false
/-- The classes of an evaluation: six samples of eight cover the window, five do not; the ratio 24 is LIGHT and 40 HEAVY;
the eighth quiet window in a row is a SENSOR_FAULT (R95 to R99). -/
theorem test_evaluation_classes :
    hears (listening 8 2198) .none (some 150) (some 255) (some 20) = true
      ∧ hears (listening 6 2228) .light (some 180) (some 192) (some 24) = true
      ∧ hears (listening 8 2348) .heavy (some 300) (some 255) (some 40) = true
      ∧ hears (listening 5 2348) .unavailable none (some 160) none = true
      ∧ hears ((listening 8 2048).setKna { (listening 8 2048).kna with sensors := Vector.replicate 4 ⟨.ok, 7, 0, 0⟩ })
          .sensorFault (some 0) (some 255) none = true := by decide +kernel
theorem test_holds_evaluation :
    (listening 8 2198).slot 0 = some { planned with state := .measuring } ∧ planned.seq = 0 ∧ planned.knock = none
      ∧ mon.part.slot 0 = none ∧ 3 < 4
      ∧ ((updateSensor 0 true false (listening 8 2048)).sensor 0).state = .ok := by decide +kernel
/-- Two overlapping frames of a sensor, the second started later by half of the first. -/
def overlapping : List Frame :=
  [⟨0, 3000, 2, [1, 2, 3, 4], .complete, 0⟩, ⟨0, 3040, 2, [5, 6, 7, 8], .complete, 1⟩]
theorem test_holds_used_samples :
    1 ≤ conf.samplePeriod ∧ (∀ f ∈ overlapping, f.samples.length * conf.samplePeriod < 2 ^ 24)
      ∧ overlapping.Pairwise (fun a b => a.commit.toNat < b.commit.toNat)
      ∧ (∀ a ∈ overlapping, ∀ b ∈ overlapping, ∀ c ∈ overlapping,
          startedLater b a → startedLater c b → startedLater c a)
      ∧ usedSamples conf overlapping 3000 3100 = [1, 2, 5, 6, 7] := by decide +kernel
/-- A closing frame that reaches the first of two waiting windows of its sensor. -/
theorem test_holds_closure :
    let s := on (filling 2) fun p => p.setKna { p.kna with waitList := [⟨0, 0, 1, 0, 3000, 3080, 0⟩, ⟨1, 1, 4, 0, 3000, 3081, 0⟩] }
    tapped .knock 0x1208 s ∧ s.part.kna.frames = [] ++ [⟨0, 3000, 2, [2048, 2048], .filling, 0⟩]
      ∧ (s.part.kna.waitList.filter fun e => e.sensor == 0 && !isLater e.closeTime (3000 + BitVec.ofNat 24 (4 * 20))).length
          = 1 := by decide +kernel
theorem test_holds_knockWait :
    let e : PendingEval := ⟨0, 0, 1, 0, 3000, 3160, 0⟩
    let s := atTime 2000 (on (holding { planned with state := .measuring }) fun p =>
      p.setKna { p.kna with waitList := [e] })
    s.part.ptu.held = none ∧ s.part.kna.waitList = [e]
      ∧ s.part.cfg.knockWaitLimit * 1000 ≤ (s.part.partTime - e.fixTime).toNat ∧ 1 ≤ s.part.cfg.minCover
      ∧ (∀ f ∈ s.part.kna.frames, f.sensor ≠ e.sensor)
      ∧ (s.part.slot e.slot).map (fun r => (r.seq, r.knock, r.state)) = some (e.seq, none, .measuring) := by decide +kernel
theorem test_holds_learning :
    let d : Decided := ⟨{ planned with intensity := some 200 }, .none, .none, false, false, false, 0, 0, 0⟩
    (d.knockClass = .none ∧ d.knockWithheld = false ∧ (mon.part.sensor (mon.part.cfg.sensorOf d.record.cylinder)).state = .ok
      ∧ d.freezeBackground = false)
    ∧ ¬ (({ d with freezeBackground := true } : Decided).freezeBackground = false) := by decide +kernel
theorem test_holds_contexts :
    (mon.part.cxu.table.get .als).state = .idle ∧ mon.part.measuring = none
      ∧ ((on mon fun p => p.setCxu { p.cxu with table := p.cxu.table.set .als ⟨.active, 0, true⟩ }).part.cxu.table.get
          .als).state ≠ .idle
      ∧ ((holding { planned with state := .measuring }).part.measuring).isSome = true := by decide +kernel
/-- The first evaluation after SYNC_GAINED in a cycle that makes three rough ones: ROUGH and RESYNC enter, and both join the
MEASURING record's set (R108, R110, R112). -/
theorem test_cycle_evaluation :
    let p := (holding { planned with state := .measuring, contexts := some 1#6 }).part.setCxu
      { mon.part.cxu with resyncCount := 2, roughHistory := [true, true] }
    let q := evaluateCycle conf ⟨[2000, -2000], some 1499, some 1000⟩ p
    q.cxu.roughHistory = [true, true, true] ∧ q.cxu.resyncCount = 1 ∧ (q.slot 0).bind (·.contexts) = some 0b100101#6
      ∧ q.cxu.table.rough = ⟨.active, 0, false⟩ ∧ q.cxu.table.flare = ⟨.idle, 0, false⟩
      ∧ (evaluateCycle conf ⟨[2000, 2000], some 1500, some 1000⟩ p).cxu.roughHistory = [true, true, false]
      ∧ (evaluateCycle conf ⟨[], some 1500, some 1000⟩ p).cxu.table.flare = ⟨.active, 0, false⟩ := by decide +kernel
theorem test_holds_inputs :
    (⟨5, some ⟨[], none, none⟩, conf⟩ : HeldInput).cycleNumber = 5 ∧ (4 : BitVec 32) ≠ 5
      ∧ mon.part.cxu.heldInput = none := by decide +kernel
theorem test_holds_merge :
    (4 : BitVec 6) ≠ 0 ∧ conf.mergePolicy = 0
      ∧ (Settings.parse (Memory.write image 0x138 1)).mergePolicy = 1
      ∧ ({ planned with misfire := some .misfire, knock := some .light } : Record).misfire = some .misfire
      ∧ ({ planned with misfire := some .misfire, knock := some .light } : Record).knock = some .light := by decide +kernel
/-! ### Hypotheses that hold together: the invariants -/

theorem test_holds_invariants : mon.memoriesWf ∧ mon.part.listAgrees ∧ mon.part.modesAgree
    ∧ ∃ t, step mon = .next t :=
  ⟨⟨by decide +kernel, by decide +kernel⟩, mon_list, mon_modes, ⟨_, rfl⟩⟩
theorem mon_rings (c : Nat) : (mon.part.cylinderHistory c).ring.length ≤ 16 := by
  show (Table.readCyl mon.part.hsu.cylinders c CylinderHistory.reset).ring.length ≤ 16
  have h : mon.part.hsu.cylinders = Vector.replicate 8 CylinderHistory.reset := by decide +kernel
  rw [h]
  simp only [Table.readCyl, Table.read]
  by_cases k : c - 1 < 8
  · rw [Vector.getElem?_eq_getElem k]
    simp [CylinderHistory.reset]
  · rw [Vector.getElem?_eq_none (by omega)]
    simp [CylinderHistory.reset]
theorem mon_bounds : mon.part.withinBounds :=
  ⟨by decide +kernel, by decide +kernel, ⟨by decide +kernel, fun _ h => by cases h⟩, mon_rings, by decide +kernel,
    by decide +kernel⟩
theorem test_holds_bounds : mon.part.withinBounds ∧ mon.part.flc.order.length ≤ 24 := ⟨mon_bounds, by decide +kernel⟩
/-- A frame of 128 pairs full of samples fits; one sample more does not. -/
theorem test_frame_edge :
    (⟨0, 0, 128, List.replicate 256 4095, .complete, 0⟩ : Frame).fits
      ∧ ¬ (⟨0, 0, 128, List.replicate 258 4095, .complete, 0⟩ : Frame).fits := by
  constructor
  · exact ⟨by decide +kernel, by decide +kernel, by decide +kernel, by decide +kernel, by decide +kernel⟩
  · exact fun h => absurd h.2.2.1 (by decide +kernel)

end Sys2Proof.Tests
end

/-! Timestamps, part time and power-on reset: what holds of the intervals of R1, which timers a microsecond of part time
makes due, and what power-on reset leaves (R1, R2, R18). -/

namespace Sys2Proof.Machine

/-! ### Timestamps (R1) -/

theorem interval_eq_emod (a b : Stamp) : (interval a b : Int) = ((b.toNat : Int) - a.toNat) % 2 ^ 24 := by
  have ha := a.isLt
  rw [interval, BitVec.toNat_sub]
  omega

theorem isLater_iff (b a : Stamp) : isLater b a = true ↔ 0 < interval a b ∧ interval a b < 2 ^ 23 := by
  simp [isLater]

/-! ### Validation (R23) -/

theorem check_then_eq_none_iff (b : Bool) (c : Check) (rest : Option Check) :
    (if b = true then some c else rest) = none ↔ b = false ∧ rest = none := by
  cases b <;> simp

/-- A configuration passes validation when none of the twelve checks fails. -/
theorem Settings.validate_eq_none_iff (page : Nat) (g : Settings) :
    g.validate page = none ↔
      (g.failsCylinders = false ∧ g.failsWheel = false ∧ g.failsFiring = false ∧ g.failsSegment = false)
      ∧ (g.failsKnockWindow = false ∧ g.failsSensor = false ∧ g.failsBands = false ∧ g.failsWindows page = false)
      ∧ g.failsRing = false ∧ g.failsTiming = false ∧ g.failsContext = false ∧ g.failsHealth = false := by
  simp only [Settings.validate, check_then_eq_none_iff, and_true, and_assoc]

theorem Settings.failsTiming_eq_false_iff (g : Settings) :
    g.failsTiming = false ↔ 25 ≤ g.tickNs ∧ g.tickNs ≤ 1000 ∧ 20 ≤ g.stallTime ∧ g.stallTime ≤ 500
      ∧ 10 ≤ g.planAgeLimit ∧ g.planAgeLimit ≤ 2000 ∧ 1 ≤ g.knockWaitLimit ∧ g.knockWaitLimit ≤ 50
      ∧ 1 ≤ g.patience ∧ g.patience ≤ 255 ∧ 1 ≤ g.burst ∧ g.burst ≤ 8 ∧ g.stallBudget ≤ 64 := by
  simp [Settings.failsTiming]

/-! ### The timers that are due -/

theorem reached_iff (now since : Micros) (micros : Nat) :
    reached now since micros = true ↔ micros ≤ (now - since).toNat := decide_eq_true_iff

theorem atBoundary_iff (p : Part) : atBoundary p = true ↔ p.partTime.toNat % 1000 = 0 := by
  simp [atBoundary]

/-- R40: the stall timer has expired. -/
theorem stallDue_iff (p : Part) :
    stallDue p = true ↔ p.atk.sync ≠ .stopped ∧ ∃ g start, p.csh.active = some g
      ∧ p.atk.stallStart = some start ∧ g.stallTime * 1000 ≤ (p.partTime - start).toNat := by
  unfold stallDue
  cases p.csh.active with
  | none => simp
  | some g =>
    cases p.atk.stallStart with
    | none => simp
    | some start => simp [reached_iff]

theorem any_knockWaitDue_iff (p : Part) :
    p.kna.waitList.any (knockWaitDue p) = true ↔ ∃ e ∈ p.kna.waitList,
      p.cfg.knockWaitLimit * 1000 ≤ (p.partTime - e.fixTime).toNat := by
  simp [knockWaitDue, reached_iff]

theorem planAgeDue_iff (p : Part) (r : Record) :
    planAgeDue p r = true ↔ r.state = .planned ∧ p.cfg.planAgeLimit * 1000 ≤ (p.partTime - r.takenTime).toNat := by
  simp [planAgeDue, reached_iff]

theorem staleSlots_isEmpty_eq_false_iff (p : Part) :
    p.staleSlots.isEmpty = false ↔ ∃ x ∈ p.records, x.2.state = .planned
      ∧ p.cfg.planAgeLimit * 1000 ≤ (p.partTime - x.2.takenTime).toNat := by
  simp [Part.staleSlots, planAgeDue_iff]

/-! ### The expiries queued -/

/-- The part's own expiries, in the order in which `dueExpiries` lists them. -/
def ownExpiries : List Instr := [.intervalBoundary, .stall, .knockWaitExpiry, .planAgeExpiry]

theorem mem_dueExpiries_iff (p : Part) (c : Instr) :
    c ∈ dueExpiries p ↔ (atBoundary p = true ∧ c = .intervalBoundary) ∨ (stallDue p = true ∧ c = .stall)
      ∨ (p.kna.waitList.any (knockWaitDue p) = true ∧ c = .knockWaitExpiry)
      ∨ (p.staleSlots.isEmpty = false ∧ c = .planAgeExpiry) := by
  unfold dueExpiries
  cases p.staleSlots.isEmpty <;> simp

theorem intervalBoundary_mem_dueExpiries_iff (p : Part) :
    .intervalBoundary ∈ dueExpiries p ↔ p.partTime.toNat % 1000 = 0 := by
  rw [← atBoundary_iff]
  simp [mem_dueExpiries_iff]

theorem stall_mem_dueExpiries_iff (p : Part) :
    .stall ∈ dueExpiries p ↔ p.atk.sync ≠ .stopped ∧ ∃ g start, p.csh.active = some g
      ∧ p.atk.stallStart = some start ∧ g.stallTime * 1000 ≤ (p.partTime - start).toNat := by
  rw [← stallDue_iff]
  simp [mem_dueExpiries_iff]

theorem knockWaitExpiry_mem_dueExpiries_iff (p : Part) :
    .knockWaitExpiry ∈ dueExpiries p ↔ ∃ e ∈ p.kna.waitList,
      p.cfg.knockWaitLimit * 1000 ≤ (p.partTime - e.fixTime).toNat := by
  rw [← any_knockWaitDue_iff]
  simp [mem_dueExpiries_iff]

theorem planAgeExpiry_mem_dueExpiries_iff (p : Part) :
    .planAgeExpiry ∈ dueExpiries p ↔ ∃ x ∈ p.records, x.2.state = .planned
      ∧ p.cfg.planAgeLimit * 1000 ≤ (p.partTime - x.2.takenTime).toNat := by
  rw [← staleSlots_isEmpty_eq_false_iff]
  simp [mem_dueExpiries_iff]

/-- Each part of the list of due expiries is its one command or nothing. -/
theorem dueExpiries_sublist (p : Part) : (dueExpiries p).Sublist ownExpiries := by
  have one : ∀ (b : Bool) (c : Instr), (if b = true then [c] else []).Sublist [c] := by
    intro b c
    cases b <;> simp
  have stale : (if p.staleSlots.isEmpty = true then [] else [Instr.planAgeExpiry]).Sublist [.planAgeExpiry] := by
    cases p.staleSlots.isEmpty <;> simp
  exact (((one _ .intervalBoundary).append (one _ .stall)).append (one _ .knockWaitExpiry)).append stale

theorem dueExpiries_nodup (p : Part) : (dueExpiries p).Nodup :=
  (dueExpiries_sublist p).nodup (by decide)

/-- Whatever number chooses it, an arrangement is a permutation: the front is one entry, the rest an arrangement of the
list without it (log 2). -/
theorem arrange_perm (fuel n : Nat) (xs : List Instr) : (arrange fuel n xs).Perm xs := by
  induction fuel generalizing n xs with
  | zero => exact List.Perm.refl xs
  | succ fuel ih =>
    match xs with
    | [] => exact List.Perm.refl _
    | [x] => exact List.Perm.refl _
    | x :: y :: rest =>
      have inside : n % (x :: y :: rest).length < (x :: y :: rest).length := Nat.mod_lt _ (by simp)
      have front := List.getElem_cons_eraseIdx_perm inside
      unfold arrange
      simp only [List.getElem?_eq_getElem inside, Option.toList_some, List.singleton_append]
      exact ((ih _ _).cons _).trans front

theorem tick_pending_perm (s : State) : (tick s).pending.Perm (dueExpiries (advanceTime s.part)) :=
  arrange_perm _ _ _

theorem step_of_pending_nil {s : State} (h : s.pending = []) : step s = .next (tick s) := by
  simp [step, h]

/-! ### Power-on reset (R18) -/

theorem exec_powerOnReset (strap : BitVec 4) (s : State) : exec (.powerOnReset strap) s = .next (powerOn strap s) := rfl

/-- A table that holds one value throughout reads as that value, beyond its end too when that is the default. -/
@[simp] theorem Table.read_replicate {α : Type} (n : Nat) (x : α) (i : Nat) :
    Table.read (Vector.replicate n x) i x = x := by
  unfold Table.read
  by_cases h : i < n
  · simp [h]
  · simp [h]

@[simp] theorem Table.readCyl_replicate {α : Type} (n : Nat) (x : α) (c : Nat) :
    Table.readCyl (Vector.replicate n x) c x = x :=
  Table.read_replicate n x (c - 1)

@[simp] theorem ContextTable.get_reset (c : Ctx) : ContextTable.reset.get c = .reset := by
  cases c <;> rfl

@[simp] theorem Part.powerOn_slot (strap : BitVec 4) (i : Nat) : (Part.powerOn strap).slot i = none :=
  Table.read_replicate 24 none i

@[simp] theorem Part.powerOn_recordCount (strap : BitVec 4) (c : Nat) : (Part.powerOn strap).recordCount c = 0 :=
  Table.readCyl_replicate 8 0 c

@[simp] theorem Part.powerOn_reference (strap : BitVec 4) (c : Nat) : (Part.powerOn strap).reference c = 1 :=
  Table.readCyl_replicate 8 1 c

@[simp] theorem Part.powerOn_sensor (strap : BitVec 4) (x : Nat) : (Part.powerOn strap).sensor x = .reset :=
  Table.read_replicate 4 Sensor.reset x

@[simp] theorem Part.powerOn_cylinderHistory (strap : BitVec 4) (c : Nat) :
    (Part.powerOn strap).cylinderHistory c = .reset :=
  Table.readCyl_replicate 8 CylinderHistory.reset c

@[simp] theorem Part.powerOn_liveCounter (strap : BitVec 4) (k : Nat) : (Part.powerOn strap).liveCounter k = 0 :=
  Table.read_replicate 538 0 k

@[simp] theorem statisticsWord_powerOn (strap : BitVec 4) (k : Nat) : statisticsWord k (Part.powerOn strap) = 0 :=
  Table.read_replicate 538 0 k

theorem sramCutOff_of_free {s : State} (h : s.part.ptu.port = .free) : sramCutOff s = s.sram := by
  simp [sramCutOff, h]

end Sys2Proof.Machine

namespace Sys2Proof.Proofs

open Sys2Proof.Machine

/-- Settles O3: the range of the tick period is part of check 10 (R23). -/
theorem timestampIntervalAndOrder : Obligations.TimestampIntervalAndOrder := by
  refine ⟨interval_eq_emod, fun a b => isLater_iff b a, fun g page valid => ?_⟩
  obtain ⟨-, -, -, timing, -⟩ := (g.validate_eq_none_iff page).mp valid
  obtain ⟨least, most, -⟩ := g.failsTiming_eq_false_iff.mp timing
  exact ⟨least, most⟩

/-- Settles O2: the queue is a permutation of the expiries due at the new part time, which differs from the old state in
part time alone. -/
theorem emptyQueueLetsOneMicrosecondPass : Obligations.EmptyQueueLetsOneMicrosecondPass := by
  intro s empty
  have queued (c : Instr) : c ∈ (tick s).pending ↔ c ∈ dueExpiries (advanceTime s.part) :=
    (tick_pending_perm s).mem_iff
  refine ⟨tick s, step_of_pending_nil empty, rfl, rfl, rfl, rfl,
    (tick_pending_perm s).nodup_iff.mpr (dueExpiries_nodup _),
    (queued _).trans (intervalBoundary_mem_dueExpiries_iff _), (queued _).trans (stall_mem_dueExpiries_iff _),
    (queued _).trans (knockWaitExpiry_mem_dueExpiries_iff _), (queued _).trans (planAgeExpiry_mem_dueExpiries_iff _),
    fun c hc => ?_⟩
  simpa [ownExpiries] using (dueExpiries_sublist _).subset ((queued c).mp hc)

/-- Settles O4: the fields of `powerOn` are the power-on values, and its tables each hold one value throughout. -/
theorem powerOnResetState : Obligations.PowerOnResetState := by
  intro strap s
  exact ⟨powerOn strap s, exec_powerOnReset strap s,
    -- part time and the PTU
    rfl, rfl,
    -- the CSH: its Staging Copy lists no byte
    fun _ => rfl, rfl, rfl, rfl, rfl, rfl, rfl, rfl,
    -- the ATK
    rfl,
    -- the FLC
    Part.powerOn_slot strap, Part.powerOn_recordCount strap, rfl, rfl, rfl,
    -- the SGA
    rfl,
    -- the KNA
    rfl, rfl, rfl, Part.powerOn_reference strap, Part.powerOn_sensor strap,
    -- the CXU
    ContextTable.get_reset, rfl, rfl, rfl, rfl,
    -- the HSU
    Part.powerOn_cylinderHistory strap, rfl, rfl, rfl,
    -- the STB
    Part.powerOn_liveCounter strap, fun k => statisticsWord_powerOn strap k, rfl,
    -- the PSE and the NTU
    rfl, rfl,
    -- the queue of commands and the SRAM
    rfl, sramCutOff_of_free⟩

end Sys2Proof.Proofs

/-! The invariants along a step, the bus and the arbiter -/

namespace Sys2Proof.Machine

/-! ### The stores stay within their bounds (Safety) -/

/-- Power-on reset and reset leave every store empty. -/
theorem Part.powerOn_withinBounds (strap : BitVec 4) : (Part.powerOn strap).withinBounds := by
  refine ⟨Nat.zero_le _, Nat.zero_le _, ⟨Nat.zero_le _, fun _ h => nomatch h⟩, fun c => ?_, Nat.zero_le _, Nat.zero_le _⟩
  rw [Part.powerOn_cylinderHistory]
  exact Nat.zero_le _

theorem Part.powerOn_listAgrees (strap : BitVec 4) : (Part.powerOn strap).listAgrees := by
  refine ⟨List.nodup_nil, fun i => ?_⟩
  rw [Part.powerOn_slot]
  simp [Part.powerOn]

theorem Part.powerOn_modesAgree (strap : BitVec 4) : (Part.powerOn strap).modesAgree := by
  simp [Part.modesAgree, Part.powerOn]

/-- Each command but power-on reset keeps every invariant, and the queue of commands. -/
theorem SafeStep.exec {c : Instr} {s t : State} (hc : ∀ strap, c ≠ .powerOnReset strap) (h : exec c s = .next t) :
    SafeStep s t := by
  cases c with
  | powerOnReset strap => exact absurd rfl (hc strap)
  | ecuReset => cases h; exact SafeStep.setPart (Sound.ecuReset s.part)
  | downstreamCycleComplete => cases h; exact SafeStep.completeForwarded s
  | injectedWordComplete => cases h; exact SafeStep.completeInjected s
  | postStoppedEntry => cases h; exact SafeStep.event (fun p => (Kept.reportNoPublishing p).toSound) s
  | endOfDisengage => cases h; exact SafeStep.event (fun p => (Kept.endIfDrained p).toSound) s
  | intervalBoundary => cases h; exact SafeStep.event (fun p => (Kept.takeInterval p).toSound) s
  | stall => cases h; exact SafeStep.event (fun p => (Kept.stallIfDue p).toSound) s
  | knockWaitExpiry => cases h; exact SafeStep.event (fun p => (Kept.expireKnockWaits p).toSound) s
  | planAgeExpiry => cases h; exact SafeStep.event (fun p => (Kept.expirePlanAges p).toSound) s
  | _ => cases h; exact SafeStep.present _ s

/-- The bounds pass along every command: power-on reset empties the stores, every other command keeps the bounds. -/
theorem exec_withinBounds {c : Instr} {s t : State} (b : s.part.withinBounds) (h : exec c s = .next t) :
    t.part.withinBounds := by
  by_cases hc : ∃ strap, c = .powerOnReset strap
  · obtain ⟨strap, rfl⟩ := hc
    cases h
    exact Part.powerOn_withinBounds strap
  · exact (SafeStep.exec (fun strap e => hc ⟨strap, e⟩) h).part.bounds b

end Sys2Proof.Machine

namespace Sys2Proof.Proofs

open Sys2Proof.Machine

/-- Settles O58: a microsecond of part time touches no store, and a command keeps the bounds. -/
theorem everyStepKeepsStoresInBounds : Obligations.EveryStepKeepsStoresInBounds := by
  intro s t b h
  unfold step at h
  split at h
  · cases h
    exact b
  · next c rest _ => exact exec_withinBounds (s := s.setPending rest) b h

/-- Settles O5: the state after reset is made of `Part.powerOn`, which meets each invariant. -/
theorem resetStateIsPoweredOnAndSafe : Obligations.ResetStateIsPoweredOnAndSafe :=
  ⟨rfl, rfl, rfl, Part.powerOn_withinBounds 0, Part.powerOn_listAgrees 0, Part.powerOn_modesAgree 0,
    Memory.wf_nil, Memory.wf_nil⟩

end Sys2Proof.Proofs

/-! The downstream arbiter, the release of a held cycle, completions and ECU reset (R3, R6, R10, R12, R13, R17) -/

namespace Sys2Proof.Machine

/-! ### The Downstream Arbiter (R13) -/

theorem arbitrate_busy {p : Part} (h : p.ptu.port ≠ .free) : arbitrate p = p := if_pos h

theorem arbitrate_idle {p : Part} (hh : p.ptu.held = none) (hq : p.ptu.queue = []) : arbitrate p = p := by
  by_cases hp : p.ptu.port = .free
  · simp [arbitrate, hp, hh, hq]
  · exact arbitrate_busy hp

theorem arbitrate_inject {p : Part} (hp : p.ptu.port = .free) (hh : p.ptu.held = none) (hq : p.ptu.queue ≠ []) :
    arbitrate p = p.setPort (.injecting none) := by
  simp [arbitrate, hp, hh, hq]

theorem arbitrate_held {p : Part} {h : HeldCycle} (hp : p.ptu.port = .free) (hh : p.ptu.held = some h) :
    arbitrate p = if p.forces = true then (p.setHeld (some { h with reason := .forced })).setPort (.injecting (some 0))
      else release h p := by
  simp [arbitrate, hp, hh]

/-- A forced injection is due when the head word has waited its patience and budget is left (R13, R15). -/
theorem forces_cons {p : Part} {q : QueuedWord} {rest : List QueuedWord} (hq : p.ptu.queue = q :: rest) :
    p.forces = true ↔ p.cfg.patience ≤ (p.partTime - q.entered).toNat ∧ p.ptu.forcedCount < p.cfg.stallBudget := by
  simp [Part.forces, Part.headImpatient, Part.budgetLeft, hq, reached_iff]

theorem forces_nil {p : Part} (hq : p.ptu.queue = []) : p.forces = false := by
  simp [Part.forces, Part.headImpatient, hq]

/-! ### A cycle is granted (R10, R13) -/

theorem release_write {h : HeldCycle} {p : Part} (hw : h.cycle.write = true) :
    release h p = deliver h.cycle ((p.setHeld none).setPort (.forwarding h.cycle true)) := by
  simp [release, hw]

/-- A read that is not both classified live and in a live window is forwarded. -/
theorem release_read {h : HeldCycle} {p : Part} (hw : h.cycle.write = false)
    (hl : h.live = false ∨ capture h.cycle.address p = none) :
    release h p = (p.setHeld none).setPort (.forwarding h.cycle true) := by
  rcases hl with hl | hl <;> simp [release, hw, hl]

theorem release_live {h : HeldCycle} {p : Part} {v : Word} (hw : h.cycle.write = false) (hl : h.live = true)
    (hv : capture h.cycle.address p = some v) :
    release h p = (p.setHeld (some { h with reason := .refresh })).setPort
      (.refreshing (wordAddress h.cycle.address) v) := by
  simp [release, hw, hl, hv]

/-! ### The rows that carry a processor cycle -/

/-- Whatever row carries it, a processor cycle is presented. -/
theorem exec_of_cycleOf {c : Instr} {y : Cycle} {s : State}
    (h : Statements.cycleOf s.part.ptu.strap c = some y) : exec c s = .next (present y s) := by
  cases c <;> cases h <;> rfl

/-! ### Delivery (R6, R7) -/

/-- A write in a window that gives it to no block. -/
theorem deliver_forwardedOnly {y : Cycle} {p : Part} (hw : y.write = true) (h : Statements.forwardedOnly y p) :
    deliver y p = p := by
  unfold deliver
  rcases h with h | ⟨h, -⟩ | ⟨-, h | h | h⟩ | ⟨-, hm, h | h | h⟩
  · simp [h]
  · rw [hw] at h
    cases h
  · simp [h]
  · simp [h]
  · simp [h]
  · simp [h, hm, deliverTooth]
  · simp [h, hm, deliverSchedule]
  · simp [h, hm, deliverKnock]

/-- A read that no block takes lies outside the two live windows. -/
theorem isLive_forwardedOnly {y : Cycle} {p : Part} (hw : y.write = false) (h : Statements.forwardedOnly y p) :
    p.isLive y.address = false := by
  unfold Part.isLive
  rcases h with h | ⟨-, h1, h2⟩ | ⟨h, -⟩ | ⟨h, -⟩
  · rw [h]
  · split
    · exact absurd ‹_› h1
    · exact absurd ‹_› h2
    all_goals rfl
  all_goals
    rw [hw] at h
    cases h

/-- A cycle that no block takes is forwarded as presented, and nothing else changes. -/
theorem present_forwardedOnly {y : Cycle} {s : State} (g : s.part.grantsAtOnce)
    (h : Statements.forwardedOnly y s.part) : present y s = s.setPart (s.part.setPort (.forwarding y true)) := by
  obtain ⟨a, d, e, w⟩ := y
  cases w with
  | false => exact present_read a d e g (isLive_forwardedOnly rfl h)
  | true =>
    rw [present_write a d e g]
    exact congrArg s.setPart (deliver_forwardedOnly (p := s.part.setPort _) rfl h)

/-- A full-word write at an offset of the command area is the command word of that offset (R19, R20). -/
theorem deliver_pageCycle (p : Part) {o : Nat} (d : Word) (ho : o < 0x40) (h4 : o % 4 = 0) :
    deliver (pageCycle p.ptu.strap o d fullWord) p = takeCommand o d p := by
  have hb := pageBase_bounds p.ptu.strap
  have ha := pageAddress_toNat p.ptu.strap o (by omega)
  have offset : wordAddress (BitVec.ofNat 24 (pageBase p.ptu.strap + o)) - pageBase p.ptu.strap = o := by
    rw [wordAddress, ha]
    omega
  have inPage : within (BitVec.ofNat 24 (pageBase p.ptu.strap + o)).toNat (pageBase p.ptu.strap) 0x1000 = true := by
    rw [ha]
    simp only [within, Bool.and_eq_true, decide_eq_true_eq]
    omega
  rw [pageCycle, deliver_page p _ d fullWord inPage, offset, takePageWrite, if_pos ho, if_pos rfl]

/-! ### Partial-word writes (R7) -/

theorem deliver_partial_page {p : Part} {a : Addr} {d : Word} {e : Enables} (hw : p.windowOf a = some .configPage)
    (he : e ≠ fullWord) : deliver ⟨a, d, e, true⟩ p = if wordAddress a - pageBase p.ptu.strap < 0x40 then p
      else writeStaging (wordAddress a - pageBase p.ptu.strap) d e p := by
  simp [deliver, hw, takePageWrite, he]

theorem deliver_partial_schedule {p : Part} {a : Addr} {d : Word} {e : Enables} (hw : p.windowOf a = some .schedule)
    (he : e ≠ fullWord) : deliver ⟨a, d, e, true⟩ p = if p.csh.mode = .monitoring
      then p.setPtu { p.ptu with scheduleLatch := none } else p := by
  simp [deliver, hw, deliverSchedule, he]

theorem deliver_partial_knock {p : Part} {a : Addr} {d : Word} {e : Enables} (hw : p.windowOf a = some .knock)
    (he : e ≠ fullWord) : deliver ⟨a, d, e, true⟩ p = if p.csh.mode = .monitoring
      then p.setPtu { p.ptu with knockLatch := none } else p := by
  simp [deliver, hw, deliverKnock, he]

/-- In no window, in the Tooth Window and in the windows of the part's own words it does nothing. -/
theorem deliver_partial_other {p : Part} {a : Addr} {d : Word} {e : Enables} (he : e ≠ fullWord)
    (h1 : p.windowOf a ≠ some .configPage) (h2 : p.windowOf a ≠ some .schedule) (h3 : p.windowOf a ≠ some .knock) :
    deliver ⟨a, d, e, true⟩ p = p := by
  unfold deliver
  split
  · exact absurd ‹_› h1
  · simp [deliverTooth, he]
  · exact absurd ‹_› h2
  · exact absurd ‹_› h3
  all_goals rfl

/-! ### Completions (R3, R10, R12) -/

theorem completeForwarded_forwarding {s : State} {c : Cycle} {ready : Bool}
    (h : s.part.ptu.port = .forwarding c ready) :
    completeForwarded s = (if ready = true then (s.setSram (sramAfter s.sram c)).setReply
        (some ⟨c, Memory.readWord (sramAfter s.sram c) (wordAddress c.address)⟩)
      else s.setSram (sramAfter s.sram c)).setPart (arbitrate (s.part.setPort .free)) := by
  unfold completeForwarded
  rw [h]
  cases ready <;> rfl

theorem completeForwarded_refreshing {s : State} {a : Nat} {v : Word} {h : HeldCycle}
    (hp : s.part.ptu.port = .refreshing a v) (hh : s.part.ptu.held = some h) (hr : h.reason = .refresh) :
    completeForwarded s = (s.setSram (Memory.writeWord s.sram a v fullWord)).setPart
      ((s.part.setHeld none).setPort (.forwarding h.cycle true)) := by
  have read : s.part.heldRead = some h := by simp [Part.heldRead, hh, hr]
  simp [completeForwarded, hp, read]

theorem completeInjected_injecting {s : State} {b : Option Nat} {q : QueuedWord} {rest : List QueuedWord}
    (hp : s.part.ptu.port = .injecting b) (hq : s.part.ptu.queue = q :: rest) :
    completeInjected s = (s.setSram (Memory.writeWord s.sram (wordAddress q.address) q.data fullWord)).setPart
      (injectedComplete b q rest s.part) := by
  simp [completeInjected, hp, hq]

/-- What the SRAM reads after a full word is written: the word's bytes, and every other byte as before. -/
theorem Memory.read_writeFullWord {m : Memory} (h : Memory.wf m) (a : Nat) (d : Word) (b : Nat) :
    Memory.read (Memory.writeWord m a d fullWord) b
      = if a ≤ b ∧ b < a + 4 then byteOf d (b - a) else Memory.read m b := by
  have lane (i : Nat) : fullWord.getLsbD i = decide (i < 4) := by
    match i with
    | 0 | 1 | 2 | 3 => rfl
    | i + 4 => rw [BitVec.getLsbD_of_ge _ _ (by omega), decide_eq_false (by omega)]
  rw [Memory.read_writeWord h, lane]
  refine if_congr ?_ rfl rfl
  rw [decide_eq_true_eq]
  omega

theorem read_sramAfter {m : Memory} (h : Memory.wf m) (c : Cycle) (b : Nat) :
    Memory.read (sramAfter m c) b
      = if c.write = true ∧ wordAddress c.address ≤ b ∧ b < wordAddress c.address + 4
          ∧ c.enables.getLsbD (b - wordAddress c.address) = true
        then byteOf c.data (b - wordAddress c.address) else Memory.read m b := by
  unfold sramAfter
  by_cases hw : c.write = true
  · simp only [hw, if_true, true_and, Memory.read_writeWord h]
  · simp [hw]

theorem setPort_self {p : Part} {x : Port} (h : p.ptu.port = x) : p.setPort x = p := by
  subst h
  rfl

/-- A word that leaves keeps the port and the held cycle. -/
theorem wordLeaves_port_held {q : QueuedWord} {rest : List QueuedWord} {p : Part} (hq : p.ptu.queue = q :: rest) :
    (wordLeaves q rest p).ptu.port = p.ptu.port ∧ (wordLeaves q rest p).ptu.held = p.ptu.held :=
  ⟨(Kept.wordLeaves q rest p hq).port, (Kept.wordLeaves q rest p hq).held⟩

/-! ### ECU reset (R17) -/

/-- The part as ECU reset leaves it to the arbiter: no cycle is held and both latches are empty. -/
def cleared (p : Part) (x : Port) : Part :=
  p.setPtu { p.ptu with held := none, scheduleLatch := none, knockLatch := none, port := x }

theorem ecuReset_eq (p : Part) : ecuReset p = arbitrate (cleared p (orphanPort p.ptu.port)) := rfl

theorem ecuReset_busy {p : Part} (h : orphanPort p.ptu.port ≠ .free) :
    ecuReset p = cleared p (orphanPort p.ptu.port) := arbitrate_busy h

theorem ecuReset_idle {p : Part} (hp : p.ptu.port = .free) (hq : p.ptu.queue = []) :
    ecuReset p = cleared p .free := by
  rw [ecuReset_eq, hp]
  exact arbitrate_idle (p := cleared p .free) rfl hq

theorem ecuReset_inject {p : Part} (hp : p.ptu.port = .free) (hq : p.ptu.queue ≠ []) :
    ecuReset p = cleared p (.injecting none) := by
  rw [ecuReset_eq, hp]
  exact arbitrate_inject (p := cleared p .free) rfl rfl hq

end Sys2Proof.Machine

namespace Sys2Proof.Proofs

open Sys2Proof.Machine Sys2Proof.Statements

/-- Settles O12: the rows of the arbiter's table, a forced injection being due as `forces_cons` says. -/
theorem arbiterTable : Obligations.ArbiterTable := by
  intro p hp
  refine ⟨arbitrate_idle, arbitrate_inject hp, fun h hh hq => ?_, fun h q rest hh hq wait => ?_,
    fun h q rest hh hq patience budget => ?_⟩
  · simp [arbitrate_held hp hh, forces_nil hq]
  · rw [arbitrate_held hp hh, if_neg]
    rw [forces_cons hq]
    omega
  · rw [arbitrate_held hp hh, if_pos ((forces_cons hq).mpr ⟨patience, budget⟩)]

/-- Settles O6: by what the port is doing; only on a free port has the arbiter anything to decide, and no cycle is held
then. -/
theorem ecuResetDropsHeldCycleOnly : Obligations.EcuResetDropsHeldCycleOnly := by
  intro s
  suffices ∃ x, ecuReset s.part = cleared s.part x ∧ _ from
    let ⟨x, e, rest⟩ := this
    ⟨x, congrArg (fun p => Host.Outcome.next (s.setPart p)) e, rest⟩
  cases hp : s.part.ptu.port with
  | free =>
    by_cases hq : s.part.ptu.queue = []
    · exact ⟨.free, ecuReset_idle hp hq, nofun, nofun, nofun, fun _ _ => rfl, fun _ h => absurd hq h⟩
    · exact ⟨.injecting none, ecuReset_inject hp hq, nofun, nofun, nofun, fun _ h => absurd h hq, fun _ _ => rfl⟩
  | forwarding c ready =>
    have e : orphanPort s.part.ptu.port = .forwarding c false := by rw [hp]; rfl
    refine ⟨.forwarding c false, e ▸ ecuReset_busy (by rw [e]; nofun), fun _ _ h => ?_, nofun, nofun, nofun, nofun⟩
    cases h
    rfl
  | refreshing a v =>
    have e : orphanPort s.part.ptu.port = .refreshing a v := by rw [hp]; rfl
    exact ⟨.refreshing a v, e ▸ ecuReset_busy (by rw [e]; nofun), nofun, fun _ _ h => h, nofun, nofun, nofun⟩
  | injecting b =>
    have e : orphanPort s.part.ptu.port = .injecting b := by rw [hp]; rfl
    exact ⟨.injecting b, e ▸ ecuReset_busy (by rw [e]; nofun), nofun, nofun, fun _ h => h, nofun, nofun⟩

/-- Settles O8: the cycle is held while the port is busy; when the word completes, the arbiter decides on the part as the
word left it, whose port is free and which still holds the cycle. -/
theorem cycleIsHeldWhileWordIsInjected : Obligations.CycleIsHeldWhileWordIsInjected := by
  refine ⟨fun c y b s hc hp hh => ?_, fun q rest h s hp hq hh => ?_, fun o d p ho h4 => deliver_pageCycle p d ho h4⟩
  · have idle : s.part.upstreamBusy = false := by simp [Part.upstreamBusy, hh, hp]
    rw [exec_of_cycleOf hc, present_held y idle (by simp [hp])]
  · intro p
    obtain ⟨port, held⟩ := wordLeaves_port_held (p := s.part.setPort .free) hq
    have heldp : p.ptu.held = some h := held.trans hh
    have decided : (completeInjected s).part = if p.forces = true
        then (p.setHeld (some { h with reason := .forced })).setPort (.injecting (some 0)) else release h p := by
      rw [completeInjected_injecting hp hq]
      exact arbitrate_held port heldp
    refine ⟨completeInjected s, rfl, fun hf => ?_, fun hf hw hl => ?_, fun v hf hw hl hv => ?_, fun hf hw => ?_, ?_⟩
    · rw [decided, if_pos hf]
    · rw [decided, hf]
      exact release_read hw hl
    · rw [decided, hf]
      exact release_live hw hl hv
    · rw [decided, hf]
      exact release_write hw
    · rw [completeInjected_injecting hp hq]
      exact ⟨rfl, rfl, rfl⟩

/-- Settles O9: a cycle that no block takes is presented and forwarded; its completion leaves the arbiter nothing to
decide. -/
theorem ordinaryCycleIsForwardedAndCompletes : Obligations.OrdinaryCycleIsForwardedAndCompletes := by
  refine ⟨fun c y s hc g h => ?_, fun c ready s wf hp hh hq => ?_⟩
  · rw [exec_of_cycleOf hc, present_forwardedOnly g h]
  · have idle : arbitrate (s.part.setPort .free) = s.part.setPort .free := arbitrate_idle hh hq
    have done := completeForwarded_forwarding hp
    rw [idle] at done
    refine ⟨completeForwarded s, rfl, ?_⟩
    rw [done]
    cases ready <;> exact ⟨rfl, rfl, rfl, rfl, read_sramAfter wf c⟩

/-- Settles O10: the write is delivered as it is forwarded, by the window it falls in. -/
theorem partialWordWriteByWindow : Obligations.PartialWordWriteByWindow := by
  intro a d e s g partly
  refine ⟨_, by rw [exec_of_cycleOf rfl, present_write a d e g], ?_⟩
  intro q
  have other := deliver_partial_other (p := q) (a := a) (d := d) partly
  cases hw : s.part.windowOf a with
  | none => exact other (hw ▸ nofun) (hw ▸ nofun) (hw ▸ nofun)
  | some w =>
    cases w with
    | configPage =>
      have delivered := deliver_partial_page (p := q) (d := d) hw partly
      dsimp only
      split
      · exact delivered.trans (if_pos ‹_›)
      · exact delivered.trans (if_neg ‹_›)
    | schedule =>
      have delivered := deliver_partial_schedule (p := q) (d := d) hw partly
      dsimp only
      split
      · exact delivered.trans (if_pos ‹_›)
      · exact delivered.trans (if_neg ‹_›)
    | knock =>
      have delivered := deliver_partial_knock (p := q) (d := d) hw partly
      dsimp only
      split
      · exact delivered.trans (if_pos ‹_›)
      · exact delivered.trans (if_neg ‹_›)
    | _ => exact other (hw ▸ nofun) (hw ▸ nofun) (hw ▸ nofun)

/-- Settles O11: the read is captured as it is granted; its refresh write and its read follow each other, and the word
written reads back. -/
theorem refreshReadReturnsCapturedWord : Obligations.RefreshReadReturnsCapturedWord := by
  intro a e v s wf g word t
  have captured : s.part.isLive a = true ∧ capture a s.part = some v := by
    rcases word with ⟨hw, rfl⟩ | ⟨hw, rfl⟩ <;> simp [Part.isLive, capture, hw, statisticsWord]
  have presented : present ⟨a, 0, e, false⟩ s = t := present_refresh a 0 e v g captured.1 captured.2
  refine ⟨by rw [exec_of_cycleOf rfl, presented], ?_⟩
  have refreshed := completeForwarded_refreshing (s := t) rfl rfl rfl
  have read := completeForwarded_forwarding (s := completeForwarded t) (c := ⟨a, 0, e, false⟩) (ready := true)
    (by rw [refreshed]; rfl)
  refine ⟨completeForwarded t, completeForwarded (completeForwarded t), rfl, rfl, ?_, ?_, ?_, fun b hb => ?_⟩
  · rw [refreshed]
    show (s.part.setHeld none).setPort _ = _
    rw [setHeld_of_none g.2.1]
  · rw [refreshed]
    rfl
  · rw [read, refreshed]
    show some (⟨⟨a, 0, e, false⟩,
      Memory.readWord (Memory.writeWord s.sram (wordAddress a) v fullWord) (wordAddress a)⟩ : Reply) = _
    rw [Memory.readWord_writeWord wf]
  · rw [read, refreshed]
    show Memory.read (Memory.writeWord s.sram (wordAddress a) v fullWord) b = _
    rw [Memory.read_writeFullWord wf, if_neg hb]

end Sys2Proof.Proofs

/-! Counters and notices; the tap windows' writes, the checks of a schedule entry and forced bursts (R8, R9, R14, R15,
R55, R132, R149) -/

namespace Sys2Proof.Machine

/-! ### Counters and notices (R132, R149) -/

/-- An increment reads the Live Bank and the flags, and sets these alone. -/
theorem increment_eq {p q : Part} (k : Nat) (hs : q.stb = p.stb) (hn : q.ntu = p.ntu) :
    increment k q = (q.setStb (increment k p).stb).setNtu (increment k p).ntu := by
  have live : q.liveCounter k = p.liveCounter k := by rw [Part.liveCounter, Part.liveCounter, hs]
  unfold increment
  dsimp only
  rw [live]
  split
  · rw [← hs, ← hn]
    rfl
  · split
    · simp only [setLive, setNotice, Part.setStb_stb, Part.setStb_ntu, Part.setNtu_stb, Part.setNtu_ntu, hs, hn]
    · simp only [setLive, Part.setStb_stb, Part.setStb_ntu, hs, ← hn]
      rfl

/-- What a count makes of the Live Bank depends on the Live Bank alone. -/
theorem increment_stb {p q : Part} (k : Nat) (h : q.stb = p.stb) : (increment k q).stb = (increment k p).stb := by
  have live : q.liveCounter k = p.liveCounter k := by rw [Part.liveCounter, Part.liveCounter, h]
  unfold increment
  dsimp only
  rw [live]
  split
  · exact h
  · split
    · simp only [setLive, setNotice, Part.setNtu_stb, Part.setStb_stb, h]
    · simp only [setLive, Part.setStb_stb, h]

theorem increment_self (k : Nat) (p : Part) :
    increment k p = (p.setStb (increment k p).stb).setNtu (increment k p).ntu := increment_eq k rfl rfl

theorem increment_partTime (k : Nat) (p : Part) : (increment k p).partTime = p.partTime := by
  rw [increment_self]
  rfl

theorem increment_atk (k : Nat) (p : Part) : (increment k p).atk = p.atk := by
  rw [increment_self]
  rfl

theorem increment_sga (k : Nat) (p : Part) : (increment k p).sga = p.sga := by
  rw [increment_self]
  rfl

theorem increment_cxu (k : Nat) (p : Part) : (increment k p).cxu = p.cxu := by
  rw [increment_self]
  rfl

theorem increment_hsu (k : Nat) (p : Part) : (increment k p).hsu = p.hsu := by
  rw [increment_self]
  rfl

theorem increment_pse (k : Nat) (p : Part) : (increment k p).pse = p.pse := by
  rw [increment_self]
  rfl

theorem increment_cfg (k : Nat) (p : Part) : (increment k p).cfg = p.cfg := by
  rw [Part.cfg, increment_csh, Part.cfg]

/-- A set leaves every other flag as it stands (R149). -/
theorem noticeSet_setNotice (n m : Notice) (p : Part) :
    (setNotice n p).noticeSet m = (decide (m = n) || p.noticeSet m) := by
  have bit : n.bit.getLsbD m.index = decide (m = n) := by cases n <;> cases m <;> rfl
  simp [setNotice, Part.noticeSet, bit, Bool.or_comm]

theorem noticeSet_congr {p q : Part} (h : q.ntu = p.ntu) (n : Notice) : q.noticeSet n = p.noticeSet n := by
  rw [Part.noticeSet, h, Part.noticeSet]

/-- A count sets no notice but COUNTER_HALF. -/
theorem noticeSet_increment {n : Notice} (hn : n ≠ .counterHalf) (k : Nat) (p : Part) :
    (increment k p).noticeSet n = p.noticeSet n := by
  unfold increment
  dsimp only
  split
  · rfl
  · split
    · rw [noticeSet_setNotice, decide_eq_false hn, Bool.false_or]
      rfl
    · rfl

/-! ### Full-word writes in the Schedule and Knock Windows (R8, R9) -/

theorem present_schedule {a : Addr} {d : Word} {s : State} (h : Statements.tapped .schedule a s) :
    present (fullWrite a d) s = s.setPart (takeScheduleWrite (wordAddress a) d (Statements.tapOut s a d)) := by
  obtain ⟨g, mode, window⟩ := h
  have w : (Statements.tapOut s a d).windowOf a = some .schedule := window
  have m : (Statements.tapOut s a d).csh.mode = .monitoring := mode
  rw [fullWrite, present_write a d fullWord g]
  show s.setPart (deliver (fullWrite a d) (Statements.tapOut s a d)) = _
  simp only [deliver, fullWrite, w, deliverSchedule, m, if_true]

theorem present_knock {a : Addr} {d : Word} {s : State} (h : Statements.tapped .knock a s) :
    present (fullWrite a d) s = s.setPart (takeKnockWrite (wordAddress a) d (Statements.tapOut s a d)) := by
  obtain ⟨g, mode, window⟩ := h
  have w : (Statements.tapOut s a d).windowOf a = some .knock := window
  have m : (Statements.tapOut s a d).csh.mode = .monitoring := mode
  rw [fullWrite, present_write a d fullWord g]
  show s.setPart (deliver (fullWrite a d) (Statements.tapOut s a d)) = _
  simp only [deliver, fullWrite, w, deliverKnock, m, if_true]

theorem latchedFor_some {x : Latched} {a : Nat} (h : x.address + 4 = a) : latchedFor (some x) a = some x.word :=
  if_pos h

/-- An empty latch, or one that holds the word of another entry, gives no word. -/
theorem latchedFor_eq_none {latch : Option Latched} {a : Nat} (h : ∀ x, latch = some x → x.address + 4 ≠ a) :
    latchedFor latch a = none := by
  cases latch with
  | none => rfl
  | some x => exact if_neg (h x rfl)

theorem takeScheduleWrite_first {a : Nat} {p : Part} (d : Word) (h : (a - p.cfg.scheduleBase) % 8 = 0) :
    takeScheduleWrite a d p = p.setPtu { p.ptu with scheduleLatch := some ⟨a, d⟩ } := if_pos h

theorem takeScheduleWrite_commit {a : Nat} {p : Part} {w : Word} (d : Word) (h : (a - p.cfg.scheduleBase) % 8 ≠ 0)
    (hl : latchedFor p.ptu.scheduleLatch a = some w) :
    takeScheduleWrite a d p = takeEntry ⟨w, d⟩ (p.setPtu { p.ptu with scheduleLatch := none }) := by
  simp [takeScheduleWrite, h, hl]

theorem takeScheduleWrite_order {a : Nat} {p : Part} (d : Word) (h : (a - p.cfg.scheduleBase) % 8 ≠ 0)
    (hl : latchedFor p.ptu.scheduleLatch a = none) :
    takeScheduleWrite a d p = refuseEntry .order (p.setPtu { p.ptu with scheduleLatch := none }) := by
  simp [takeScheduleWrite, h, hl]

theorem takeKnockWrite_timestamp {a : Nat} {p : Part} (d : Word) (h : a = p.cfg.knockBase) :
    takeKnockWrite a d p = p.setPtu { p.ptu with knockLatch := some ⟨a, d⟩ } := if_pos (by omega)

theorem takeKnockWrite_commit {a : Nat} {p : Part} {w : Word} (d : Word) (h : a = p.cfg.knockBase + 4)
    (hl : latchedFor p.ptu.knockLatch a = some w) :
    takeKnockWrite a d p = committedHeader w d (p.setPtu { p.ptu with knockLatch := none }) := by
  have offset : a - p.cfg.knockBase = 4 := by omega
  simp [takeKnockWrite, offset, hl]

theorem takeKnockWrite_refused {a : Nat} {p : Part} (d : Word) (h : a = p.cfg.knockBase + 4)
    (hl : latchedFor p.ptu.knockLatch a = none) :
    takeKnockWrite a d p = headerRefusal (p.setPtu { p.ptu with knockLatch := none }) := by
  have offset : a - p.cfg.knockBase = 4 := by omega
  simp [takeKnockWrite, offset, hl]

/-! ### The checks of a committed entry (R55) -/

theorem entryCheckOk_iff (e : ScheduleEntry) : entryCheckOk e = true ↔ checkByte (entryBytes e) = byteOf e.commit 3 :=
  beq_iff_eq

theorem entryInRange_iff (g : Settings) (e : ScheduleEntry) :
    entryInRange g e = true ↔ ¬ (entryCylinder e < 1 ∨ g.cylinders < entryCylinder e ∨ entryFuel e = none
      ∨ entryIgnition e = none ∨ 511 < entryLoad e) := by
  simp only [entryInRange, Bool.and_eq_true, decide_eq_true_eq, Option.isSome_iff_ne_none, not_or, Nat.not_lt, ne_eq,
    and_assoc]

theorem poolOpens_iff (p : Part) (c : Nat) :
    poolOpens p c = true ↔ p.recordCount c < p.cfg.allotment
      ∨ p.flc.reserveInUse < 24 - p.cfg.cylinders * p.cfg.allotment := by
  simp only [poolOpens, Bool.or_eq_true, decide_eq_true_eq]
  rfl

theorem entryRefusal_check {e : ScheduleEntry} (p : Part) (h : entryCheckOk e = false) :
    entryRefusal e p = some .check := by
  simp [entryRefusal, h]

theorem entryRefusal_range {e : ScheduleEntry} {p : Part} (h : entryCheckOk e = true)
    (hr : entryInRange p.cfg e = false) : entryRefusal e p = some .range := by
  simp [entryRefusal, h, hr]

theorem entryRefusal_matching {e : ScheduleEntry} {p : Part} {i : Nat} {r : Record} (h : entryCheckOk e = true)
    (hr : entryInRange p.cfg e = true) (hm : p.matching e = some (i, r)) :
    entryRefusal e p = if r.state = .planned then none else some .late := by
  simp [entryRefusal, h, hr, hm]

theorem entryRefusal_open {e : ScheduleEntry} {p : Part} (h : entryCheckOk e = true)
    (hr : entryInRange p.cfg e = true) (hm : p.matching e = none) :
    entryRefusal e p = if poolOpens p (entryCylinder e) = true then none else some .noSlot := by
  simp [entryRefusal, h, hr, hm]

/-- A committed entry is refused by one of its four checks: a refusal ORDER comes before them. -/
theorem entryRefusal_ne_order (e : ScheduleEntry) (p : Part) : entryRefusal e p ≠ some .order := by
  unfold entryRefusal
  split
  · nofun
  · split
    · nofun
    · split
      · split <;> nofun
      · split <;> nofun

theorem takeEntry_refused {e : ScheduleEntry} {p : Part} {x : EntryRefusal} (h : entryRefusal e p = some x) :
    takeEntry e p = refuseEntry x p := by
  simp [takeEntry, h]

/-- A commit whose latch holds the word before it is taken as an entry. -/
theorem exec_scheduleCommit {a : Addr} {w : Word} (d : Word) {s : State} (tap : Statements.tapped .schedule a s)
    (ha : (wordAddress a - s.part.cfg.scheduleBase) % 8 ≠ 0)
    (hl : s.part.ptu.scheduleLatch = some ⟨wordAddress a - 4, w⟩) (h4 : 4 ≤ wordAddress a) :
    exec (.scheduleCommit a d) s = .next (s.setPart (takeEntry ⟨w, d⟩
      ((Statements.tapOut s a d).setPtu { (Statements.tapOut s a d).ptu with scheduleLatch := none }))) := by
  have latched : latchedFor (Statements.tapOut s a d).ptu.scheduleLatch (wordAddress a) = some w := by
    show latchedFor s.part.ptu.scheduleLatch (wordAddress a) = some w
    rw [hl]
    exact latchedFor_some (Nat.sub_add_cancel h4)
  rw [exec_of_cycleOf rfl, present_schedule tap, takeScheduleWrite_commit (p := Statements.tapOut s a d) d ha latched]

/-! ### Forced bursts and the budget interval (R14, R15) -/

theorem arbitrate_quiet {p : Part} (h : Statements.arbiterQuiet p) : arbitrate p = p := by
  rcases h with busy | ⟨held, queue⟩
  · exact arbitrate_busy busy
  · exact arbitrate_idle held queue

/-- R14, R15: the budget counter rises, Forced Injections is counted, and STALL_BUDGET is set by the increment that makes
the budget left 0. -/
theorem countForced_eq (p : Part) : countForced p =
    (if p.cfg.stallBudget = p.ptu.forcedCount + 1 then setNotice .stallBudget else id)
      (increment 534 (p.setPtu { p.ptu with forcedCount := p.ptu.forcedCount + 1 })) := by
  have after : (increment 534 (p.setPtu { p.ptu with forcedCount := p.ptu.forcedCount + 1 })).budgetLeft
      = p.cfg.stallBudget - (p.ptu.forcedCount + 1) := by
    rw [Part.budgetLeft, increment_cfg, increment_ptu]
    rfl
  have last : (0 < p.budgetLeft ∧ p.cfg.stallBudget - (p.ptu.forcedCount + 1) = 0)
      ↔ p.cfg.stallBudget = p.ptu.forcedCount + 1 := by
    unfold Part.budgetLeft
    omega
  unfold countForced
  dsimp only
  rw [show report .forcedInjections (p.setPtu { p.ptu with forcedCount := p.ptu.forcedCount + 1 })
    = increment 534 (p.setPtu { p.ptu with forcedCount := p.ptu.forcedCount + 1 }) from rfl, after]
  by_cases h : p.cfg.stallBudget = p.ptu.forcedCount + 1
  · rw [if_pos (last.mpr h), if_pos h]
  · rw [if_neg fun c => h (last.mp c), if_neg h]
    rfl

theorem burstGoesOn_iff (n : Nat) (p : Part) :
    burstGoesOn n p = true ↔ n < p.cfg.burst ∧ p.ptu.forcedCount < p.cfg.stallBudget ∧ p.ptu.queue ≠ [] := by
  simp [burstGoesOn, Part.budgetLeft, and_assoc]

theorem afterForced_held {n : Nat} {p : Part} {h : HeldCycle} (hh : p.ptu.held = some h) (hr : h.reason = .forced) :
    afterForced n p = if burstGoesOn n p = true then p.setPort (.injecting (some n)) else release h p := by
  simp [afterForced, Part.forcedCycle, hh, hr]

theorem afterForced_dropped {n : Nat} {p : Part} (hh : p.ptu.held = none) : afterForced n p = arbitrate p := by
  simp [afterForced, Part.forcedCycle, hh]

end Sys2Proof.Machine

namespace Sys2Proof.Proofs

open Sys2Proof.Machine Sys2Proof.Statements

/-- Settles O43: by the offset of the word and what the latch gives for its address. -/
theorem entryLatchesAndOrderRefusal : Obligations.EntryLatchesAndOrderRefusal := by
  intro a d s
  refine ⟨fun tap first => ?_, fun tap base => ?_, fun tap commit other => ?_⟩
  · rw [exec_of_cycleOf rfl, present_schedule tap, takeScheduleWrite_first (p := tapOut s a d) d first]
  · rw [exec_of_cycleOf rfl, present_knock tap, takeKnockWrite_timestamp (p := tapOut s a d) d base]
  · rw [exec_of_cycleOf rfl, present_schedule tap,
      takeScheduleWrite_order (p := tapOut s a d) d commit (latchedFor_eq_none other)]
    rfl

/-- Settles O45: the checks one after another, and the action on the refusal that the first failing one gives. -/
theorem entryChecksInOrder : Obligations.EntryChecksInOrder := by
  refine ⟨fun a w d x s tap ha hl h4 refused => ?_, fun e p => ⟨fun check => ?_, fun check range => ?_,
    fun check range => ?_⟩⟩
  · rw [exec_scheduleCommit d tap ha hl h4]
    rw [takeEntry_refused (p := (tapOut s a d).setPtu { (tapOut s a d).ptu with scheduleLatch := none }) refused]
    cases x with
    | order => exact absurd refused (entryRefusal_ne_order _ _)
    | check => exact ⟨519, by simp, rfl⟩
    | range => exact ⟨521, by simp, rfl⟩
    | late => exact ⟨522, by simp, rfl⟩
    | noSlot => exact ⟨523, by simp, rfl⟩
  · exact entryRefusal_check p (Bool.eq_false_iff.mpr fun c => check ((entryCheckOk_iff e).mp c))
  · refine entryRefusal_range ((entryCheckOk_iff e).mpr check) (Bool.eq_false_iff.mpr fun c => ?_)
    exact (entryInRange_iff p.cfg e).mp c range
  · have ok := (entryCheckOk_iff e).mpr check
    refine ⟨fun i r hm hs => ?_, fun i r hm hs => ?_, fun hm room => ?_, fun hm full => ⟨fun reserve => ?_,
      fun empty => ?_⟩⟩
    · rw [entryRefusal_matching ok range hm, if_neg hs]
    · rw [entryRefusal_matching ok range hm, if_pos hs]
    · rw [entryRefusal_open ok range hm, if_pos ((poolOpens_iff p _).mpr (.inl room))]
    · rw [entryRefusal_open ok range hm, if_pos ((poolOpens_iff p _).mpr (.inr reserve))]
    · rw [entryRefusal_open ok range hm, if_neg fun opens => ((poolOpens_iff p _).mp opens).elim full empty]

/-- Settles O14: the completion of a forced word, its count, the decision after it, and the interval. -/
theorem forcedBurstAndBudgetInterval : Obligations.ForcedBurstAndBudgetInterval := by
  refine ⟨fun n q rest s wf hp hq => ?_, fun p => ?_, fun n p => ⟨fun h hh hr burst budget queue => ?_,
    fun h hh hr ended => ?_, afterForced_dropped⟩, fun s quiet => ⟨fun boundary => ?_, fun between => ?_⟩⟩
  · refine ⟨completeInjected s, rfl, ?_⟩
    rw [completeInjected_injecting hp hq]
    exact ⟨rfl, Memory.read_writeFullWord wf _ _, rfl, rfl, rfl⟩
  · have stb : (increment 534 (p.setPtu { p.ptu with forcedCount := p.ptu.forcedCount + 1 })).stb
        = (increment 534 p).stb := increment_stb 534 rfl
    have notice : (increment 534 (p.setPtu { p.ptu with forcedCount := p.ptu.forcedCount + 1 })).noticeSet .stallBudget
        = p.noticeSet .stallBudget := noticeSet_increment (by decide) 534 _
    rw [countForced_eq]
    split
    · rename_i last
      refine ⟨increment_ptu 534 _, stb, ?_⟩
      rw [noticeSet_setNotice]
      simp [last]
    · rename_i notLast
      refine ⟨increment_ptu 534 _, stb, ?_⟩
      rw [id, notice]
      simp [notLast]
  · rw [afterForced_held hh hr, if_pos ((burstGoesOn_iff n p).mpr ⟨burst, budget, queue⟩)]
  · rw [afterForced_held hh hr, if_neg]
    rw [burstGoesOn_iff]
    rintro ⟨burst, budget, queue⟩
    rcases ended with ended | ended | ended
    · omega
    · omega
    · exact queue ended
  · have taken : takeInterval s.part = s.part.setPtu { s.part.ptu with forcedCount := 0 } :=
      if_pos ((atBoundary_iff s.part).mpr boundary)
    show Host.Outcome.next (s.setPart (arbitrate (takeInterval s.part))) = _
    rw [taken, arbitrate_quiet (p := s.part.setPtu { s.part.ptu with forcedCount := 0 }) quiet]
  · have kept : takeInterval s.part = s.part := if_neg fun c => between ((atBoundary_iff s.part).mp c)
    show Host.Outcome.next (s.setPart (arbitrate (takeInterval s.part))) = _
    rw [kept, arbitrate_quiet quiet]
    rfl

end Sys2Proof.Proofs

/-! The words of the Status Block: a field placed in a word reads back where the other fields leave its bits clear
(12.5) -/

namespace Sys2Proof.Machine

/-! ### Fields combined in a word -/

theorem field_or (x y : Word) (lo len : Nat) : field (x ||| y) lo len = field x lo len ||| field y lo len := by
  rw [field, field, field, ← BitVec.toNat_or]
  congr 1
  ext i hi
  simp

theorem field_zero (lo len : Nat) : field 0 lo len = 0 := by simp [field]

theorem toNat_place {n lo : Nat} (h : n * 2 ^ lo < 2 ^ 32) : (place n lo).toNat = n * 2 ^ lo := by
  have small : n < 2 ^ 32 := Nat.lt_of_le_of_lt (Nat.le_mul_of_pos_right n (Nat.two_pow_pos lo)) h
  rw [place, BitVec.toNat_shiftLeft, BitVec.toNat_ofNat, Nat.mod_eq_of_lt small, Nat.shiftLeft_eq, Nat.mod_eq_of_lt h]

theorem field_eq (w : Word) (lo len : Nat) : field w lo len = w.toNat / 2 ^ lo % 2 ^ len := by
  rw [field, BitVec.extractLsb'_toNat, Nat.shiftRight_eq_div_pow]

/-- A number that fits `len` bits, placed at bit `lo`, reads back there. -/
theorem field_place_same {n lo len : Nat} (h : n < 2 ^ len) (hl : lo + len ≤ 32) : field (place n lo) lo len = n := by
  have top : n * 2 ^ lo < 2 ^ 32 := calc
    n * 2 ^ lo < 2 ^ len * 2 ^ lo := Nat.mul_lt_mul_of_pos_right h (Nat.two_pow_pos lo)
    _ = 2 ^ (lo + len) := by rw [← Nat.pow_add, Nat.add_comm]
    _ ≤ 2 ^ 32 := Nat.pow_le_pow_right (by decide) hl
  rw [field_eq, toNat_place top, Nat.mul_div_cancel _ (Nat.two_pow_pos lo), Nat.mod_eq_of_lt h]

/-- A number placed elsewhere leaves a field clear: it lies above the field, or it fits `m` bits that end below it. -/
theorem field_place_apart {n k m lo len : Nat} (h : lo + len ≤ k ∨ n < 2 ^ m ∧ k + m ≤ lo ∧ lo ≤ 32) :
    field (place n k) lo len = 0 := by
  rcases h with above | ⟨fits, below, inWord⟩
  · have bits : (place n k).extractLsb' lo len = 0 := by
      ext i hi
      simp only [place, BitVec.getElem_extractLsb', BitVec.getLsbD_shiftLeft]
      have : lo + i < k := by omega
      simp [this]
    rw [field, bits]
    rfl
  · have top : n * 2 ^ k < 2 ^ lo := calc
      n * 2 ^ k < 2 ^ m * 2 ^ k := Nat.mul_lt_mul_of_pos_right fits (Nat.two_pow_pos k)
      _ = 2 ^ (k + m) := by rw [← Nat.pow_add, Nat.add_comm]
      _ ≤ 2 ^ lo := Nat.pow_le_pow_right (by decide) below
    have word : n * 2 ^ k < 2 ^ 32 := Nat.lt_of_lt_of_le top (Nat.pow_le_pow_right (by decide) inWord)
    rw [field_eq, toNat_place word, Nat.div_eq_of_lt top, Nat.zero_mod]

/-- One of the words combined gives a field whose bits every other leaves clear. -/
theorem field_fields {xs : List Word} {x : Word} {lo len : Nat} (hx : x ∈ xs)
    (others : ∀ y ∈ xs, y = x ∨ field y lo len = 0) : field (fields xs) lo len = field x lo len := by
  have combined : ∀ (l : List Word) (a : Word), (∀ y ∈ l, y = x ∨ field y lo len = 0) →
      (field a lo len = field x lo len ∨ field a lo len = 0 ∧ x ∈ l) →
      field (l.foldl (· ||| ·) a) lo len = field x lo len := by
    intro l
    induction l with
    | nil =>
      intro a _ ha
      rcases ha with ha | ⟨-, none⟩
      · exact ha
      · cases none
    | cons y l ih =>
      intro a hl ha
      refine ih (a ||| y) (fun z hz => hl z (List.mem_cons_of_mem _ hz)) ?_
      rw [field_or]
      rcases hl y (List.mem_cons_self ..) with rfl | clear
      · left
        rcases ha with ha | ⟨ha, -⟩ <;> simp [ha]
      · rcases ha with ha | ⟨ha, hm⟩
        · simp [ha, clear]
        · rcases List.mem_cons.mp hm with rfl | hm
          · simp [ha]
          · simp [ha, clear, hm]
  exact combined xs 0 others (.inr ⟨field_zero lo len, hx⟩)

/-- A field of one bit is that bit. -/
theorem getLsbD_of_field {w : Word} {lo : Nat} {b : Bool} (h : field w lo 1 = b.toNat) : w.getLsbD lo = b := by
  have bit : w.getLsbD lo = (w.extractLsb' lo 1).getLsbD 0 := by simp
  rw [bit, BitVec.getLsbD, show (w.extractLsb' lo 1).toNat = b.toNat from h]
  cases b <;> rfl

theorem extractLsb'_of_field {w : Word} {lo len : Nat} {x : BitVec len} (h : field w lo len = x.toNat) :
    w.extractLsb' lo len = x := BitVec.eq_of_toNat_eq h

/-! ### The ranges of the fields -/

theorem Mode.code_lt (m : Mode) : m.code < 2 ^ 2 := by cases m <;> decide
theorem SyncState.code_lt (x : SyncState) : x.code < 2 ^ 2 := by cases x <;> decide
theorem PostState.code_lt (x : PostState) : x.code < 2 ^ 2 := by cases x <;> decide
theorem ApplyResult.code_lt (x : ApplyResult) : x.code < 2 ^ 3 := by cases x <;> decide
theorem Check.code_lt (x : Check) : x.code < 2 ^ 4 := by cases x <;> decide
theorem LossReason.code_lt (x : LossReason) : x.code < 2 ^ 3 := by cases x <;> decide
theorem Health.code_lt (x : Health) : x.code < 2 ^ 2 := by cases x <;> decide
theorem SensorState.code_lt (x : SensorState) : x.code < 2 ^ 2 := by cases x <;> decide
theorem CtxState.code_lt (x : CtxState) : x.code < 2 ^ 2 := by cases x <;> decide

theorem reasonCode_lt (o : Option Check) : (o.map Check.code).getD 0 < 2 ^ 4 := by
  cases o with
  | none => decide
  | some c => exact c.code_lt

theorem bandOf_le (bounds : List Nat) (x : Nat) : bandOf bounds x ≤ bounds.length := List.length_filter_le ..

theorem reportedRpm_eq (p : Part) : p.reportedRpm = p.atk.lastPeriod.elim 0 p.cfg.segmentRpm := by
  unfold Part.reportedRpm
  cases p.atk.lastPeriod <;> rfl

theorem reportedBand_eq (p : Part) : p.reportedBand = p.atk.lastPeriod.elim 0 p.cfg.speedBand := by
  unfold Part.reportedBand
  cases p.atk.lastPeriod <;> rfl

theorem reportedRpm_lt (p : Part) : p.reportedRpm < 2 ^ 16 := by
  unfold Part.reportedRpm
  split
  · exact Nat.lt_succ_of_le (Nat.min_le_left ..)
  · decide

theorem reportedBand_lt (p : Part) : p.reportedBand < 2 ^ 3 := by
  unfold Part.reportedBand
  split
  · exact Nat.lt_succ_of_le ((bandOf_le _ _).trans (by simp))
  · decide

theorem Bool.toNat_lt_pow (b : Bool) : b.toNat < 2 ^ 1 := by cases b <;> decide

/-! ### Layouts -/

/-- A number placed at bit `lo`, with the width that it fits. -/
structure Placed where
  value : Nat
  lo : Nat
  width : Nat
  fits : value < 2 ^ width

/-- The word that holds the number at its place. -/
def Placed.word (x : Placed) : Word := place x.value x.lo

/-- Two places share no bit. -/
def Placed.Apart (x y : Placed) : Prop := x.lo + x.width ≤ y.lo ∨ y.lo + y.width ≤ x.lo

theorem Placed.Apart.symm {x y : Placed} (h : x.Apart y) : y.Apart x := Or.symm h

/-- A word made of numbers at places that share no bit gives each number at its place. -/
theorem field_of_layout {w : Word} {xs : List Placed} (hw : w = fields (xs.map Placed.word))
    (apart : xs.Pairwise Placed.Apart) : ∀ x ∈ xs, x.lo + x.width ≤ 32 → field w x.lo x.width = x.value := by
  intro x hx inWord
  have symmetric : Std.Symm Placed.Apart := ⟨fun _ _ => Placed.Apart.symm⟩
  have clear : ∀ y ∈ xs, y = x ∨ x.Apart y := by
    intro y hy
    by_cases e : y = x
    · exact .inl e
    · exact .inr (apart.forall hx hy fun c => e c.symm)
  rw [hw, field_fields (List.mem_map_of_mem hx) fun w hw => ?_]
  · exact field_place_same x.fits inWord
  · obtain ⟨y, hy, rfl⟩ := List.mem_map.mp hw
    rcases clear y hy with rfl | above | below
    · exact .inl rfl
    · exact .inr (field_place_apart (m := 0) (.inl above))
    · exact .inr (field_place_apart (.inr ⟨y.fits, below, by omega⟩))

/-! ### The layouts of the Status Block (12.5) -/

/-- Word 0: the mode, the pending flag, the sync state and the post state. -/
def layout0 (p : Part) : List Placed :=
  [⟨p.csh.mode.code, 0, 2, p.csh.mode.code_lt⟩, ⟨p.csh.pendingCopy.isSome.toNat, 2, 1, Bool.toNat_lt_pow _⟩,
   ⟨p.atk.sync.code, 4, 2, p.atk.sync.code_lt⟩, ⟨p.pse.postState.code, 8, 2, p.pse.postState.code_lt⟩]

/-- Word 1: the generations in force and last reported. -/
def layout1 (p : Part) : List Placed :=
  [⟨p.csh.activeGen.toNat, 0, 16, p.csh.activeGen.isLt⟩, ⟨p.csh.lastGen.toNat, 16, 16, p.csh.lastGen.isLt⟩]

/-- Word 2: the last result and its reason, the last loss, the snapshot generation. -/
def layout2 (p : Part) : List Placed :=
  [⟨p.csh.lastResult.code, 0, 3, p.csh.lastResult.code_lt⟩,
   ⟨(p.csh.lastReason.map Check.code).getD 0, 4, 4, reasonCode_lt _⟩,
   ⟨p.atk.lastLoss.code, 8, 3, p.atk.lastLoss.code_lt⟩, ⟨p.stb.generation.toNat, 16, 16, p.stb.generation.isLt⟩]

/-- Word 3: the notice flags. -/
def layout3 (p : Part) : List Placed := [⟨p.ntu.flags.toNat, 0, 13, p.ntu.flags.isLt⟩]

/-- Word 4: the published count and the consumer count. -/
def layout4 (p : Part) : List Placed :=
  [⟨p.pse.published.toNat, 0, 16, p.pse.published.isLt⟩, ⟨p.pse.consumer.toNat, 16, 16, p.pse.consumer.isLt⟩]

theorem reserveLeft_lt (p : Part) : p.cfg.reserve - p.flc.reserveInUse < 2 ^ 5 := by
  have slots : p.cfg.reserve ≤ 24 := Nat.sub_le 24 _
  omega

/-- Word 5: what the Post Queue, the Injection Queue and the Open Firing List hold, and the reserve left. -/
def layout5 {p : Part} (b : p.withinBounds) (o : p.flc.order.length ≤ 24) : List Placed :=
  [⟨p.pse.postQueue.length, 0, 5, Nat.lt_of_le_of_lt b.2.1 (by decide)⟩,
   ⟨p.ptu.queue.length, 8, 6, Nat.lt_of_le_of_lt b.1 (by decide)⟩,
   ⟨p.flc.order.length, 16, 5, Nat.lt_of_le_of_lt o (by decide)⟩,
   ⟨p.cfg.reserve - p.flc.reserveInUse, 24, 5, reserveLeft_lt p⟩]

/-- Word 6: each cylinder's health and knock alert, and the turbine flag. -/
def layout6 (p : Part) : List Placed :=
  [1, 2, 3, 4, 5, 6, 7, 8].map (fun c => ⟨(p.reportedHealth c).code, 2 * c - 2, 2, Health.code_lt _⟩)
    ++ [1, 2, 3, 4, 5, 6, 7, 8].map (fun c => ⟨(p.cylinderHistory c).alert.toNat, 15 + c, 1, Bool.toNat_lt_pow _⟩)
    ++ [⟨p.hsu.exceeded.toNat, 24, 1, Bool.toNat_lt_pow _⟩]

/-- Word 7: each sensor's state and each context's state. -/
def layout7 (p : Part) : List Placed :=
  [0, 1, 2, 3].map (fun x => ⟨(p.reportedSensor x).code, 2 * x, 2, SensorState.code_lt _⟩)
    ++ Ctx.list.map (fun c => ⟨(p.cxu.table.get c).state.code, 8 + 2 * c.index, 2, CtxState.code_lt _⟩)

/-- Word 8: the speed of the last segment and its band. -/
def layout8 (p : Part) : List Placed :=
  [⟨p.reportedRpm, 0, 16, reportedRpm_lt p⟩, ⟨p.reportedBand, 16, 3, reportedBand_lt p⟩]

theorem field_statusWord_0 (p : Part) : field (statusWord 0 p) 0 2 = p.csh.mode.code
    ∧ field (statusWord 0 p) 2 1 = p.csh.pendingCopy.isSome.toNat ∧ field (statusWord 0 p) 4 2 = p.atk.sync.code
    ∧ field (statusWord 0 p) 8 2 = p.pse.postState.code := by
  simpa [layout0] using field_of_layout (xs := layout0 p) (w := statusWord 0 p) rfl (by simp [layout0, Placed.Apart])

theorem field_statusWord_1 (p : Part) : field (statusWord 1 p) 0 16 = p.csh.activeGen.toNat
    ∧ field (statusWord 1 p) 16 16 = p.csh.lastGen.toNat := by
  simpa [layout1] using field_of_layout (xs := layout1 p) (w := statusWord 1 p) rfl (by simp [layout1, Placed.Apart])

theorem field_statusWord_2 (p : Part) : field (statusWord 2 p) 0 3 = p.csh.lastResult.code
    ∧ field (statusWord 2 p) 4 4 = (p.csh.lastReason.map Check.code).getD 0
    ∧ field (statusWord 2 p) 8 3 = p.atk.lastLoss.code ∧ field (statusWord 2 p) 16 16 = p.stb.generation.toNat := by
  simpa [layout2] using field_of_layout (xs := layout2 p) (w := statusWord 2 p) rfl (by simp [layout2, Placed.Apart])

theorem field_statusWord_3 (p : Part) : field (statusWord 3 p) 0 13 = p.ntu.flags.toNat := by
  simpa [layout3] using field_of_layout (xs := layout3 p) (w := statusWord 3 p) rfl (List.pairwise_singleton ..)

theorem field_statusWord_4 (p : Part) : field (statusWord 4 p) 0 16 = p.pse.published.toNat
    ∧ field (statusWord 4 p) 16 16 = p.pse.consumer.toNat := by
  simpa [layout4] using field_of_layout (xs := layout4 p) (w := statusWord 4 p) rfl (by simp [layout4, Placed.Apart])

theorem field_statusWord_5 {p : Part} (b : p.withinBounds) (o : p.flc.order.length ≤ 24) :
    field (statusWord 5 p) 0 5 = p.pse.postQueue.length ∧ field (statusWord 5 p) 8 6 = p.ptu.queue.length
    ∧ field (statusWord 5 p) 16 5 = p.flc.order.length
    ∧ field (statusWord 5 p) 24 5 = p.cfg.reserve - p.flc.reserveInUse := by
  simpa [layout5] using field_of_layout (xs := layout5 b o) (w := statusWord 5 p) rfl (by simp [layout5, Placed.Apart])

/-- Word 6 gives each member of its layout at its place. -/
theorem field_statusWord_6 (p : Part) :
    ∀ x ∈ layout6 p, x.lo + x.width ≤ 32 → field (statusWord 6 p) x.lo x.width = x.value :=
  field_of_layout rfl (by simp [layout6, Placed.Apart])

theorem field_statusWord_6_cylinder (p : Part) {c : Nat} (h1 : 1 ≤ c) (h8 : c ≤ 8) :
    field (statusWord 6 p) (2 * c - 2) 2 = (p.reportedHealth c).code
    ∧ field (statusWord 6 p) (15 + c) 1 = (p.cylinderHistory c).alert.toNat := by
  have listed : c ∈ [1, 2, 3, 4, 5, 6, 7, 8] := by
    simp only [List.mem_cons, List.not_mem_nil, or_false]
    omega
  exact ⟨field_statusWord_6 p ⟨_, 2 * c - 2, 2, Health.code_lt _⟩ (List.mem_append_left _ (List.mem_append_left _
      (List.mem_map.mpr ⟨c, listed, rfl⟩))) (by dsimp only; omega),
    field_statusWord_6 p ⟨_, 15 + c, 1, Bool.toNat_lt_pow _⟩ (List.mem_append_left _ (List.mem_append_right _
      (List.mem_map.mpr ⟨c, listed, rfl⟩))) (by dsimp only; omega)⟩

theorem field_statusWord_6_turbine (p : Part) : field (statusWord 6 p) 24 1 = p.hsu.exceeded.toNat :=
  field_statusWord_6 p ⟨_, 24, 1, Bool.toNat_lt_pow _⟩ (List.mem_append_right _ (List.mem_singleton_self _)) (by simp)

/-- Word 7 gives each member of its layout at its place. -/
theorem field_statusWord_7 (p : Part) :
    ∀ x ∈ layout7 p, x.lo + x.width ≤ 32 → field (statusWord 7 p) x.lo x.width = x.value :=
  field_of_layout rfl (by simp [layout7, Placed.Apart, Ctx.list, Ctx.index])

theorem field_statusWord_7_sensor (p : Part) {x : Nat} (h : x < 4) :
    field (statusWord 7 p) (2 * x) 2 = (p.reportedSensor x).code := by
  have listed : x ∈ [0, 1, 2, 3] := by
    simp only [List.mem_cons, List.not_mem_nil, or_false]
    omega
  exact field_statusWord_7 p ⟨_, 2 * x, 2, SensorState.code_lt _⟩ (List.mem_append_left _
    (List.mem_map.mpr ⟨x, listed, rfl⟩)) (by dsimp only; omega)

theorem Ctx.index_lt (c : Ctx) : c.index < 6 := by cases c <;> decide

theorem field_statusWord_7_context (p : Part) (c : Ctx) :
    field (statusWord 7 p) (8 + 2 * c.index) 2 = (p.cxu.table.get c).state.code :=
  field_statusWord_7 p ⟨_, 8 + 2 * c.index, 2, CtxState.code_lt _⟩ (List.mem_append_right _
    (List.mem_map.mpr ⟨c, c.mem_list, rfl⟩)) (by
      have := c.index_lt
      dsimp only
      omega)

theorem field_statusWord_8 (p : Part) : field (statusWord 8 p) 0 16 = p.reportedRpm
    ∧ field (statusWord 8 p) 16 3 = p.reportedBand := by
  simpa [layout8] using field_of_layout (xs := layout8 p) (w := statusWord 8 p) rfl (by simp [layout8, Placed.Apart])

/-- A cylinder above N is reported HEALTHY (R130). -/
theorem reportedHealth_code (p : Part) (c : Nat) : (p.reportedHealth c).code
    = if c ≤ p.cfg.cylinders then (p.cylinderHistory c).health.code else 0 := by
  unfold Part.reportedHealth
  split <;> rfl

/-- A sensor at or above the sensor count is reported OK (R103). -/
theorem reportedSensor_code (p : Part) (x : Nat) : (p.reportedSensor x).code
    = if x < p.cfg.sensorCount then (p.sensor x).state.code else 0 := by
  unfold Part.reportedSensor
  split <;> rfl

end Sys2Proof.Machine

namespace Sys2Proof.Proofs

open Sys2Proof.Machine

/-- Settles O56: each word is the word of its layout, whose places share no bit; the codes are those of 12.5. -/
theorem statusBlockFields : Obligations.StatusBlockFields := by
  intro p b o
  obtain ⟨mode, pending, sync, post⟩ := field_statusWord_0 p
  obtain ⟨inForce, last⟩ := field_statusWord_1 p
  obtain ⟨result, reason, loss, snapshot⟩ := field_statusWord_2 p
  obtain ⟨published, consumer⟩ := field_statusWord_4 p
  obtain ⟨verdicts, words, records, reserve⟩ := field_statusWord_5 b o
  obtain ⟨rpm, band⟩ := field_statusWord_8 p
  refine ⟨rfl, rfl, rfl, rfl, rfl, rfl, rfl, rfl, rfl, mode, getLsbD_of_field pending, sync, post,
    extractLsb'_of_field inForce, extractLsb'_of_field last, result, reason, loss, extractLsb'_of_field snapshot,
    extractLsb'_of_field (field_statusWord_3 p), extractLsb'_of_field published, extractLsb'_of_field consumer,
    verdicts, words, records, reserve, fun c h1 h8 => ?_, getLsbD_of_field (field_statusWord_6_turbine p),
    fun x h => ?_, field_statusWord_7_context p, reportedRpm_eq p ▸ rpm, reportedBand_eq p ▸ band, rfl, rfl⟩
  · obtain ⟨health, alert⟩ := field_statusWord_6_cylinder p h1 h8
    exact ⟨reportedHealth_code p c ▸ health, getLsbD_of_field alert⟩
  · exact reportedSensor_code p x ▸ field_statusWord_7_sensor p h

end Sys2Proof.Proofs

/-! A knock header commit: what room it makes and what it begins (R86, R87, R88, R92) -/

namespace Sys2Proof.Machine

theorem FramesKept.frameClosure (f : Frame) (p : Part) : FramesKept p (frameClosure f p) := FramesKept.evaluateEach _ p

theorem makeRoom_free {start : Stamp} {p : Part} (h : p.kna.frames.length < 6) : makeRoom start p = p := if_pos h

/-- With six frames held, the frame of greatest age before the start time, the earlier committed of two, is evicted and
counted (R88). -/
theorem makeRoom_full {start : Stamp} {p : Part} {xs ys : List Frame} {e : Frame} (h : p.kna.frames.length = 6)
    (split : p.kna.frames = xs ++ e :: ys) (younger : ∀ f ∈ xs, interval f.start start < interval e.start start)
    (noOlder : ∀ f ∈ ys, interval f.start start ≤ interval e.start start) :
    makeRoom start p = increment 530 (p.setKna { p.kna with frames := xs ++ ys }) := by
  have full : ¬ p.kna.frames.length < Config.frameCapacity := by
    rw [h]
    decide
  have oldest : oldestFrame start p.kna.frames = some e := split ▸ oldestFrame_split younger noOlder
  have notBefore : e ∉ xs := fun he => Nat.lt_irrefl _ (younger e he)
  have erased : p.kna.frames.erase e = xs ++ ys := by
    rw [split, List.erase_append_right _ notBefore, List.erase_cons_head]
  rw [makeRoom, if_neg full, evictFrame, oldest]
  dsimp only
  rw [erased]
  rfl

/-- A descriptor in range begins a frame in the room made; one out of range is refused (R86, R87). -/
theorem committedHeader_begins {w d : Word} {p : Part}
    (h : headerSensor d < p.cfg.sensorCount ∧ 1 ≤ headerPairs d ∧ headerPairs d ≤ 128) :
    committedHeader w d p = Statements.frameBegun w d (makeRoom (headerStart w) (truncateFilling p)) := if_pos h

theorem committedHeader_refused {w d : Word} {p : Part}
    (h : ¬ (headerSensor d < p.cfg.sensorCount ∧ 1 ≤ headerPairs d ∧ headerPairs d ≤ 128)) :
    committedHeader w d p = headerRefusal p := if_neg h

/-- A header commit is taken on the part that carries it, its latch emptied. -/
theorem exec_knockHeaderCommit {a : Addr} {w : Word} (d : Word) {s : State} (tap : Statements.tapped .knock a s)
    (ha : wordAddress a = s.part.cfg.knockBase + 4) (hl : s.part.ptu.knockLatch = some ⟨s.part.cfg.knockBase, w⟩) :
    exec (.knockHeaderCommit a d) s = .next (s.setPart (committedHeader w d
      ((Statements.tapOut s a d).setPtu { (Statements.tapOut s a d).ptu with knockLatch := none }))) := by
  have latched : latchedFor (Statements.tapOut s a d).ptu.knockLatch (wordAddress a) = some w := by
    show latchedFor s.part.ptu.knockLatch (wordAddress a) = some w
    rw [hl]
    exact latchedFor_some ha.symm
  rw [exec_of_cycleOf rfl, present_knock tap, takeKnockWrite_commit (p := Statements.tapOut s a d) d ha latched]

end Sys2Proof.Machine

namespace Sys2Proof.Proofs

open Sys2Proof.Machine Sys2Proof.Statements

/-- Settles O50: by the latch, the range of the descriptor and the room in the Frame Store, which the end of the FILLING
frame leaves as long as it was. -/
theorem headerCommitBeginsFrameOrIsRefused : Obligations.HeaderCommitBeginsFrameOrIsRefused := by
  refine ⟨fun a d s tap ha => ?_, fun p => ⟨truncateFilling_none, fun xs f ys split filling others => ?_⟩⟩
  · intro out q inRange
    have frames : q.kna.frames.length = s.part.kna.frames.length := truncateFilling_length out
    refine ⟨fun w hl range => ⟨fun room => ?_, fun xs e ys full split => ?_⟩, fun w hl range => ?_, fun hl => ?_⟩
    · rw [exec_knockHeaderCommit d tap ha hl, committedHeader_begins (p := out) range, makeRoom_free (frames ▸ room)]
    · intro age younger noOlder
      rw [exec_knockHeaderCommit d tap ha hl, committedHeader_begins (p := out) range,
        makeRoom_full (start := headerStart w) (frames.trans full) split younger noOlder]
    · rw [exec_knockHeaderCommit d tap ha hl, committedHeader_refused (p := out) range]
      rfl
    · rw [exec_of_cycleOf rfl, present_knock tap, takeKnockWrite_refused (p := tapOut s a d) d ha
        (latchedFor_eq_none fun x e => nomatch hl.symm.trans e)]
      rfl
  · have truncated := truncateFilling_some split filling others
    have kept : FramesKept (setFrames (xs ++ { f with state := .truncated } :: ys) p) (truncateFilling p) := by
      rw [truncated]
      exact (FramesKept.of_kna (report_kna _ _)).trans (FramesKept.frameClosure _ _)
    exact ⟨truncated, kept.frames, kept.commit⟩

end Sys2Proof.Proofs

/-! A word leaves the Injection Queue (R12, R28, R143, R144, R146) -/

namespace Sys2Proof.Machine

/-! ### A publication (R144) -/

/-- A publication counts in the Post Engine and in the Statistics Banks, and sets WATERMARK at the occupancy that equals
Watermark. -/
theorem publication_eq (p : Part) :
    publication p = ((p.setPse { p.pse with published := p.pse.published + 1 }).setStb (increment 532 p).stb).setNtu
      (if (p.pse.published + 1 - p.pse.consumer).toNat = p.cfg.watermark then setNotice .watermark (increment 532 p)
        else increment 532 p).ntu := by
  have counted : report .verdictsPosted (p.setPse { p.pse with published := p.pse.published + 1 })
      = ((p.setPse { p.pse with published := p.pse.published + 1 }).setStb (increment 532 p).stb).setNtu
        (increment 532 p).ntu := increment_eq 532 rfl rfl
  unfold publication
  rw [counted]
  show (if (p.pse.published + 1 - p.pse.consumer).toNat = p.cfg.watermark then _ else _) = _
  split <;> rfl

theorem noticeSet_publication {n : Notice} (h : n ≠ .counterHalf) (p : Part) :
    (publication p).noticeSet n = true ↔ p.noticeSet n = true ∨ n = .watermark
      ∧ (p.pse.published + 1 - p.pse.consumer).toNat = p.cfg.watermark := by
  rw [publication_eq]
  split
  · rename_i full
    show (setNotice .watermark (increment 532 p)).noticeSet n = true ↔ _
    rw [noticeSet_setNotice, noticeSet_increment h, and_iff_left full, Bool.or_eq_true, decide_eq_true_eq, or_comm]
  · rename_i notFull
    show (increment 532 p).noticeSet n = true ↔ _
    rw [noticeSet_increment h]
    exact ⟨.inl, fun c => c.elim id fun c => absurd c.2 notFull⟩

theorem noticeSet_enterStopped (n : Notice) (p : Part) :
    (enterStopped p).noticeSet n = (decide (n = .postStopped) || p.noticeSet n) := noticeSet_setNotice ..

/-! ### The move test (R143) -/

theorem moveLoop_postState (n : Nat) (p : Part) : (moveLoop n p).pse.postState = p.pse.postState := by
  induction n generalizing p with
  | zero => rfl
  | succ n ih =>
    unfold moveLoop
    split
    · rfl
    · split
      · exact ih _
      · rfl

theorem moveTest_postState (p : Part) : (moveTest p).pse.postState = p.pse.postState := moveLoop_postState _ p

/-- With no verdict waiting, or outside RUNNING, no verdict moves. -/
theorem moveTest_idle {p : Part} (h : p.pse.postQueue = [] ∨ p.pse.postState ≠ .running) : moveTest p = p := by
  unfold moveTest
  cases hq : p.pse.postQueue with
  | nil => rfl
  | cons v rest =>
    have stuck : canMove p = false := by
      rcases h with empty | notRunning
      · rw [hq] at empty
        cases empty
      · simp [canMove, notRunning]
    rw [List.length_cons, moveLoop]
    simp [hq, stuck]

/-! ### What a word that leaves reports -/

theorem reportNoPublishing_running {p : Part} (h : p.pse.postState = .running) : reportNoPublishing p = p := by
  unfold reportNoPublishing
  rw [h, ite_self]

theorem reportNoPublishing_eq (p : Part) : reportNoPublishing p =
    if p.pse.postState = .stopping ∧ p.publishing = false then enterStopped p else p := by
  unfold reportNoPublishing
  cases hp : p.publishing <;> cases hs : p.pse.postState <;> simp

theorem endIfDrained_idle {p : Part} (h : p.csh.mode ≠ .disengaging) : endIfDrained p = p := if_neg fun c => h c.1

theorem wordLeaves_running {q : QueuedWord} {rest : List QueuedWord} {p : Part} (hs : p.pse.postState = .running)
    (hm : p.csh.mode ≠ .disengaging) : wordLeaves q rest p
      = moveTest (if q.publishes = true ∧ q.recordEnd = true then publication (p.setQueue rest)
        else p.setQueue rest) := by
  have leave : ∀ x : Part, x.pse.postState = .running → x.csh.mode ≠ .disengaging →
      endIfDrained (reportNoPublishing (moveTest x)) = moveTest x := by
    intro x hs hm
    rw [reportNoPublishing_running (by rw [moveTest_postState, hs]), endIfDrained_idle]
    rw [(Settled.moveTest x).csh]
    exact hm
  unfold wordLeaves
  simp only [Bool.and_eq_true]
  split
  · refine leave _ ?_ ?_
    · rw [publication_eq]
      exact hs
    · rw [publication_eq]
      exact hm
  · exact leave _ hs hm

/-- What the word that leaves brings about, one after another: its publication, the entry into STOPPED, the end of
Disengage. -/
def leaving (publishes stops ends : Bool) (p : Part) : Part :=
  let published := if publishes then publication p else p
  let stopped := if stops then enterStopped published else published
  if ends then finishDisengage stopped else stopped

/-- What a word that leaves can change: the counts and the post state, the Live Bank, the configuration in force and the
flags. -/
theorem leaving_eq (publishes stops ends : Bool) (p : Part) : leaving publishes stops ends p =
    (((p.setCsh (if ends then { p.csh with mode := .transparent, active := none, activeGen := 0 } else p.csh)).setPse
      (if ends then ⟨[], 0, 0, 0, .running⟩ else
        { p.pse with
          published := if publishes then p.pse.published + 1 else p.pse.published
          postState := if stops then .stopped else p.pse.postState })).setStb
      (if publishes then (increment 532 p).stb else p.stb)).setNtu (leaving publishes stops ends p).ntu := by
  cases publishes
  case false => cases stops <;> cases ends <;> rfl
  case true =>
    simp only [leaving, if_true, publication_eq]
    cases stops <;> cases ends <;> rfl

theorem leaving_ptu (publishes stops ends : Bool) (p : Part) : (leaving publishes stops ends p).ptu = p.ptu := by
  rw [leaving_eq]
  rfl

theorem noticeSet_leaving {n : Notice} (h : n ≠ .counterHalf) (publishes stops ends : Bool) (p : Part) :
    (leaving publishes stops ends p).noticeSet n = true ↔ p.noticeSet n = true ∨ (n = .postStopped ∧ stops = true)
      ∨ n = .watermark ∧ publishes = true ∧ (p.pse.published + 1 - p.pse.consumer).toNat = p.cfg.watermark := by
  have stopped : ∀ x : Part, (if stops = true then enterStopped x else x).noticeSet n = true
      ↔ x.noticeSet n = true ∨ (n = .postStopped ∧ stops = true) := by
    intro x
    cases stops <;> simp [noticeSet_enterStopped, or_comm]
  have ended : ∀ x : Part, (if ends = true then finishDisengage x else x).noticeSet n = x.noticeSet n := by
    intro x
    cases ends <;> rfl
  unfold leaving
  rw [ended, stopped]
  cases publishes
  · simp
  · rw [if_pos rfl, noticeSet_publication h]
    tauto

/-- With no verdict to move, a word leaves with its publication, the entry into STOPPED when no word that publishes is
left, and the end of Disengage when no word is left. -/
theorem wordLeaves_still {q : QueuedWord} {rest : List QueuedWord} {p : Part}
    (still : p.pse.postQueue = [] ∨ p.pse.postState ≠ .running) :
    wordLeaves q rest p = leaving (q.publishes && q.recordEnd)
      (decide (p.pse.postState = .stopping ∧ rest.any (·.publishes) = false))
      (decide (p.csh.mode = .disengaging ∧ rest = [])) (p.setQueue rest) := by
  have after : ∀ x : Part, x.pse.postQueue = p.pse.postQueue → x.pse.postState = p.pse.postState →
      x.ptu.queue = rest → x.csh = p.csh → endIfDrained (reportNoPublishing (moveTest x))
        = leaving false (decide (p.pse.postState = .stopping ∧ rest.any (·.publishes) = false))
          (decide (p.csh.mode = .disengaging ∧ rest = [])) x := by
    intro x waiting state queue block
    have stays : (reportNoPublishing x).csh.mode = p.csh.mode ∧ (reportNoPublishing x).ptu.queue = rest := by
      rw [reportNoPublishing_eq]
      split <;> exact ⟨congrArg ConfigShadow.mode block, queue⟩
    rw [moveTest_idle (by rw [waiting, state]; exact still), endIfDrained, stays.1, stays.2, reportNoPublishing_eq, state,
      Part.publishing, queue]
    simp only [leaving, Bool.false_eq_true, if_false, decide_eq_true_eq]
  unfold wordLeaves
  cases hp : q.publishes && q.recordEnd
  · exact after _ rfl rfl rfl rfl
  · exact (after (publication (p.setQueue rest)) (by rw [publication_eq]; rfl) (by rw [publication_eq]; rfl)
      (by rw [publication_eq]; rfl) (by rw [publication_eq]; rfl)).trans rfl

/-- With no cycle held, a free port is given to the Injection Queue while it holds a word (R13). -/
theorem arbitrate_unheld {p : Part} (hp : p.ptu.port = .free) (hh : p.ptu.held = none) :
    arbitrate p = p.setPort (if p.ptu.queue = [] then .free else .injecting none) := by
  split
  · rw [arbitrate_idle hh ‹_›, setPort_self hp]
  · exact arbitrate_inject hp hh ‹_›

theorem injectedComplete_still {q : QueuedWord} {rest : List QueuedWord} {p : Part} (hh : p.ptu.held = none)
    (still : p.pse.postQueue = [] ∨ p.pse.postState ≠ .running) :
    injectedComplete none q rest p = (leaving (decide (q.publishes = true ∧ q.recordEnd = true))
      (decide (p.pse.postState = .stopping ∧ ∀ x ∈ rest, x.publishes = false))
      (decide (p.csh.mode = .disengaging ∧ rest = [])) ((p.setPort .free).setQueue rest)).setPort
        (if rest = [] then .free else .injecting none) := by
  have publishes : (q.publishes && q.recordEnd) = decide (q.publishes = true ∧ q.recordEnd = true) := by simp
  have noneLeft : (rest.any (·.publishes) = false) = ∀ x ∈ rest, x.publishes = false := by simp
  show arbitrate (wordLeaves q rest (p.setPort .free)) = _
  rw [wordLeaves_still (p := p.setPort .free) still, publishes]
  simp only [noneLeft]
  refine (arbitrate_unheld ?_ ?_).trans ?_
  · rw [leaving_ptu]
    rfl
  · rw [leaving_ptu]
    exact hh
  · rw [leaving_ptu]
    rfl

theorem exec_injectedWordComplete {s : State} {b : Option Nat} {q : QueuedWord} {rest : List QueuedWord}
    (hp : s.part.ptu.port = .injecting b) (hq : s.part.ptu.queue = q :: rest) :
    exec .injectedWordComplete s = .next ((s.setSram (Memory.writeWord s.sram (wordAddress q.address) q.data
      fullWord)).setPart (injectedComplete b q rest s.part)) :=
  congrArg Host.Outcome.next (completeInjected_injecting hp hq)

end Sys2Proof.Machine

namespace Sys2Proof.Proofs

open Sys2Proof.Machine Sys2Proof.Statements

/-- Settles O13: the word leaves as `wordLeaves_still` says, and the arbiter gives the port to the word behind it. -/
theorem unforcedWordCompletes : Obligations.UnforcedWordCompletes := by
  refine ⟨fun q rest s wf hp hq hh still => ?_, fun q rest s wf hp hq => ?_,
    fun q rest p hs hm => ⟨fun pub => ?_, fun quiet => ?_⟩, publication_eq⟩
  · intro publishes stops ends
    refine ⟨_, exec_injectedWordComplete hp hq, Memory.read_writeFullWord wf _ _, ?_⟩
    rw [injectedComplete_still hh still]
    have stb : (increment 532 ((s.part.setPort .free).setQueue rest)).stb = (increment 532 s.part).stb :=
      increment_stb 532 rfl
    have noticed := fun n hn => noticeSet_leaving (n := n) hn (decide publishes) (decide stops) (decide ends)
      ((s.part.setPort .free).setQueue rest)
    rw [leaving_eq, stb] at noticed
    rw [leaving_eq, stb]
    simp only [decide_eq_true_eq] at noticed ⊢
    refine ⟨rfl, fun h => if_pos h, fun h => if_neg h, fun h => ⟨if_pos h, if_pos h⟩, fun h => ⟨if_neg h, ?_⟩,
      (noticed .postStopped (by decide)).trans ?_, (noticed .watermark (by decide)).trans ?_, fun n h1 h2 h3 => ?_,
      rfl, rfl, rfl, rfl, rfl, rfl, rfl, rfl⟩
    · have goesOn : ¬ (s.part.csh.mode = .disengaging ∧ rest = []) := h
      simp only [if_neg goesOn]
      exact ⟨rfl, rfl, rfl, fun c => if_pos c, fun c => if_neg c, fun c => if_pos c, fun c => if_neg c⟩
    · show s.part.noticeSet .postStopped = true ∨ _ ↔ _
      simp
    · show s.part.noticeSet .watermark = true ∨ _ ↔ _
      simp only [reduceCtorEq, false_and, false_or, true_and]
      rfl
    · refine Bool.eq_iff_iff.mpr ((noticed n h3).trans ?_)
      show s.part.noticeSet n = true ∨ _ ↔ _
      simp [h1, h2]
  · refine ⟨_, exec_injectedWordComplete hp hq, rfl, Memory.read_writeFullWord wf _ _, rfl, rfl, rfl⟩
  · rw [wordLeaves_running hs hm, if_pos pub]
  · rw [wordLeaves_running hs hm, if_neg quiet]

end Sys2Proof.Proofs

/-! A committed entry taken: the record it opens or revises, and what it gives the Context Unit (R54 to R58, R61, R105,
R106) -/

namespace Sys2Proof.Machine

/-! ### A slot that a test passes over -/

/-- A slot's record that the test rejects can stand anywhere in the taking order: what the test finds is the same. -/
theorem find?_records_skip {p : Part} {t : Record → Bool} {i : Nat} (h : ∀ r, p.slot i = some r → t r = false)
    (l : List Nat) : ((i :: l).filterMap fun j => (p.slot j).map fun r => (j, r)).find? (fun x => t x.2)
      = (l.filterMap fun j => (p.slot j).map fun r => (j, r)).find? fun x => t x.2 := by
  rw [List.filterMap_cons]
  cases hs : p.slot i with
  | none => rfl
  | some r => simp [h r hs]

/-- Records that the test rejects, in one slot, before and after: what the test finds is the same. -/
theorem findRecord_unmatched {p q : Part} {t : Record → Bool} {i : Nat} {tail : List Nat}
    (order : q.flc.order = p.flc.order ++ tail) (new : ∀ j ∈ tail, j = i)
    (before : ∀ r, p.slot i = some r → t r = false) (after : ∀ r, q.slot i = some r → t r = false)
    (others : ∀ j, j ≠ i → q.slot j = p.slot j) : q.findRecord t = p.findRecord t := by
  have ended : (tail.filterMap fun j => (q.slot j).map fun r => (j, r)).find? (fun x => t x.2) = none := by
    clear order
    induction tail with
    | nil => rfl
    | cons j tail ih =>
      rw [new j List.mem_cons_self, find?_records_skip after, ih fun k hk => new k (List.mem_cons_of_mem _ hk)]
  unfold Part.findRecord Part.records
  rw [order, List.filterMap_append, List.find?_append, ended, Option.or_none]
  generalize p.flc.order = l
  induction l with
  | nil => rfl
  | cons j l ih =>
    by_cases e : j = i
    · rw [e, find?_records_skip after, find?_records_skip before, ih]
    · rw [List.filterMap_cons, List.filterMap_cons, others j e]
      cases p.slot j with
      | none => exact ih
      | some r =>
        show List.find? _ ((j, r) :: _) = List.find? _ ((j, r) :: _)
        rw [List.find?_cons, List.find?_cons, ih]

/-! ### The contexts an entry declares (R105, R106, R61) -/

/-- The contexts that an entry's flags put from IDLE into ACTIVE. -/
def causesEntered (als launch : Bool) (t : ContextTable) : List Ctx :=
  (if als = true ∧ (t.get .als).state = .idle then [.als] else [])
    ++ (if launch = true ∧ (t.get .launch).state = .idle then [.launch] else [])

/-- The Context Unit after an entry is announced. -/
def announced (als launch : Bool) (load : Nat) (g : Settings) (u : ContextUnit) : ContextUnit :=
  { u with
    table := { u.table with
      als := if als then ⟨.active, 0, true⟩ else u.table.als
      launch := if launch then ⟨.active, 0, true⟩ else u.table.launch
      transient := { u.table.transient with mark := loadStep g u.lastLoad load || u.table.transient.mark } }
    lastLoad := some load }

theorem joinMeasuring_foldl_setCxu (l : List Ctx) (u : ContextUnit) (p : Part) :
    l.foldl (fun p c => joinMeasuring c p) (p.setCxu u) = (l.foldl (fun p c => joinMeasuring c p) p).setCxu u := by
  have alone := joinMeasuring_foldl_congr l (p := p) (q := p) rfl
  rw [joinMeasuring_foldl_congr l (p := p) (q := p.setCxu u) rfl]
  conv_rhs => rw [alone]
  rfl

theorem declareCause_eq (c : Ctx) (p : Part) : declareCause c p
    = ((if (p.cxu.table.get c).state = .idle then [c] else []).foldl (fun p c => joinMeasuring c p) p).setCxu
      { p.cxu with table := p.cxu.table.set c ⟨.active, 0, true⟩ } := by
  rw [← joinMeasuring_foldl_setCxu]
  unfold declareCause
  dsimp only
  split <;> rfl

theorem takeLoad_eq (load : Nat) (p : Part) : takeLoad load p = p.setCxu { p.cxu with
    table := { p.cxu.table with transient := { p.cxu.table.transient with
      mark := loadStep p.cfg p.cxu.lastLoad load || p.cxu.table.transient.mark } }
    lastLoad := some load } := by
  unfold takeLoad
  cases loadStep p.cfg p.cxu.lastLoad load <;> rfl

/-- An entry announced reaches the Context Unit, and the MEASURING record by the contexts it enters. -/
theorem announceEntry_eq (als launch : Bool) (load : Nat) (p : Part) : announceEntry als launch load p
    = ((causesEntered als launch p.cxu.table).foldl (fun p c => joinMeasuring c p) p).setCxu
      (announced als launch load p.cfg p.cxu) := by
  have flagged : ∀ (b : Bool) (c : Ctx) (q : Part), (if b = true then declareCause c q else q)
      = ((if b = true ∧ (q.cxu.table.get c).state = .idle then [c] else []).foldl (fun p c => joinMeasuring c p) q).setCxu
        { q.cxu with table := if b = true then q.cxu.table.set c ⟨.active, 0, true⟩ else q.cxu.table } := by
    intro b c q
    cases b
    · simp
      rfl
    · simp only [if_true, true_and]
      exact declareCause_eq c q
  have settings : ((causesEntered als launch p.cxu.table).foldl (fun p c => joinMeasuring c p) p).cfg = p.cfg := by
    rw [joinMeasuring_foldl_congr _ (p := p) (q := p) rfl]
    rfl
  have launchState : ((if als = true then p.cxu.table.set .als ⟨.active, 0, true⟩ else p.cxu.table).get .launch).state
      = (p.cxu.table.get .launch).state := by
    cases als <;> rfl
  unfold announceEntry
  dsimp only
  rw [flagged, flagged, joinMeasuring_foldl_setCxu, ← List.foldl_append, takeLoad_eq]
  simp only [Part.setCxu_cxu, launchState]
  rw [← causesEntered]
  revert settings
  generalize List.foldl _ p (causesEntered als launch p.cxu.table) = joined
  intro settings
  rw [← settings]
  cases als <;> cases launch <;> rfl

/-! ### What contexts entered leave in the Firing List -/

theorem slot_joined_other {p : Part} {j : Nat} (l : List Ctx) (h : ∀ r, p.measuring ≠ some (j, r)) :
    (l.foldl (fun p c => joinMeasuring c p) p).slot j = p.slot j := by
  cases hm : p.measuring with
  | none => rw [(joinMeasuring_foldl l p).1 hm]
  | some x =>
    obtain ⟨set, -, joined⟩ := (joinMeasuring_foldl l p).2 x.1 x.2 hm
    rw [joined, slot_setSlot, if_neg]
    rintro ⟨rfl, -⟩
    exact h x.2 hm

theorem slot_joined_measuring {p : Part} {j : Nat} {r : Record} {set : BitVec 6} {l : List Ctx}
    (h : p.measuring = some (j, r)) (bits : ∀ c : Ctx, set.getLsbD c.index = true ↔ c ∈ l) :
    (l.foldl (fun p c => joinMeasuring c p) p).slot j
      = some { r with contexts := r.contexts.map fun x => x ||| set } := by
  obtain ⟨set', bits', joined⟩ := (joinMeasuring_foldl l p).2 j r h
  have same : set' = set := by
    refine BitVec.eq_of_getLsbD_eq fun k hk => ?_
    obtain ⟨c, rfl⟩ : ∃ c : Ctx, c.index = k := by
      match k with
      | 0 => exact ⟨.als, rfl⟩
      | 1 => exact ⟨.launch, rfl⟩
      | 2 => exact ⟨.rough, rfl⟩
      | 3 => exact ⟨.flare, rfl⟩
      | 4 => exact ⟨.transient, rfl⟩
      | 5 => exact ⟨.resync, rfl⟩
    exact Bool.eq_iff_iff.mpr ((bits' c).trans (bits c).symm)
  have lt : j < 24 := slot_some_lt (measuring_isSome h)
  rw [joined, slot_setSlot, if_pos ⟨rfl, lt⟩, same]

theorem joined_flc (l : List Ctx) (p : Part) : (l.foldl (fun p c => joinMeasuring c p) p).flc
    = { p.flc with slots := (l.foldl (fun p c => joinMeasuring c p) p).flc.slots } := by
  cases hm : p.measuring with
  | none => rw [(joinMeasuring_foldl l p).1 hm]
  | some x =>
    obtain ⟨set, -, joined⟩ := (joinMeasuring_foldl l p).2 x.1 x.2 hm
    rw [joined]
    rfl

/-- The set of the contexts entered has the bits of the contexts in the list. -/
theorem contextsEntered_bits (d : Word) (p : Part) (c : Ctx) : (Statements.contextsEntered d p).getLsbD c.index = true
    ↔ c ∈ causesEntered (d.getLsbD 18) (d.getLsbD 19) p.cxu.table := by
  have alsBit : (if d.getLsbD 18 = true ∧ (p.cxu.table.get .als).state = .idle then 1#6 else 0#6).getLsbD c.index = true
      ↔ c ∈ if d.getLsbD 18 = true ∧ (p.cxu.table.get .als).state = .idle then [Ctx.als] else [] := by
    split <;> cases c <;> decide
  have launchBit : (if d.getLsbD 19 = true ∧ (p.cxu.table.get .launch).state = .idle then 2#6 else 0#6).getLsbD c.index
        = true
      ↔ c ∈ if d.getLsbD 19 = true ∧ (p.cxu.table.get .launch).state = .idle then [Ctx.launch] else [] := by
    split <;> cases c <;> decide
  rw [causesEntered, List.mem_append, ← alsBit, ← launchBit, ← Bool.or_eq_true, ← BitVec.getLsbD_or]
  rfl

/-- The mark that a load step sets (R106). -/
theorem loadStep_iff (g : Settings) (last : Option Nat) (load : Nat) : loadStep g last load = true
    ↔ ∃ l, last = some l ∧ (g.transientStep : Int) ≤ |((load : Nat) : Int) - l| := by
  cases last with
  | none => simp [loadStep]
  | some l =>
    have apart : ((distance load l : Nat) : Int) = |(load : Int) - l| := by
      unfold distance
      rcases abs_cases ((load : Int) - l) with h | h <;> omega
    simp [loadStep, ← apart]

/-! ### A taken entry -/

/-- The part as a committed entry meets it: the commit word is forwarded and the latch is empty (R8). -/
def committed (s : State) (a : Addr) (d : Word) : Part :=
  (Statements.tapOut s a d).setPtu { (Statements.tapOut s a d).ptu with scheduleLatch := none }

/-- An entry announced on a Firing List that has a PLANNED record written in slot `i`, free or PLANNED before: its causes
are taken, that record stands, and the other slots and the other blocks are kept. -/
theorem announceEntry_taken {s : State} {a : Addr} {d : Word} {i : Nat} {r : Record} {list : FiringList} {tail : List Nat}
    (stb : Statistics) (ntu : NoticeUnit) (order : list.order = s.part.flc.order ++ tail) (new : ∀ j ∈ tail, j = i)
    (written : list.slots = Table.write s.part.flc.slots i (some r)) (lt : i < 24) (planned : r.state = .planned)
    (before : ∀ x, s.part.slot i = some x → x.state = .planned) :
    let t := s.setPart (announceEntry (d.getLsbD 18) (d.getLsbD 19) (field d 0 16)
      ((((committed s a d).setFlc list).setStb stb).setNtu ntu))
    (Statements.causesTaken d s.part t.part.cxu ∧ Statements.otherSlotsAfterEntry i d s t
      ∧ t.part.ptu = { (Statements.tapOut s a d).ptu with scheduleLatch := none }
      ∧ t.part.csh = s.part.csh ∧ t.part.atk = s.part.atk ∧ t.part.sga = s.part.sga ∧ t.part.kna = s.part.kna
      ∧ t.part.hsu = s.part.hsu ∧ t.part.pse = s.part.pse ∧ t.part.partTime = s.part.partTime ∧ t.sram = s.sram)
    ∧ t.part.slot i = some r ∧ t.part.flc = { list with slots := t.part.flc.slots } ∧ t.part.stb = stb := by
  intro t
  let q := (((committed s a d).setFlc list).setStb stb).setNtu ntu
  let entered := causesEntered (d.getLsbD 18) (d.getLsbD 19) s.part.cxu.table
  let joined := entered.foldl (fun p c => joinMeasuring c p) q
  have atSlot : (s.part.setFlc list).slot i = some r := by
    rw [Part.slot, Part.setFlc_flc, written, Table.read_write, if_pos ⟨rfl, lt⟩]
  have others : ∀ j, j ≠ i → (s.part.setFlc list).slot j = s.part.slot j := by
    intro j ne
    rw [Part.slot, Part.setFlc_flc, written, Table.read_write, if_neg fun c => ne c.1.symm, Part.slot]
  have notMeasuring : ∀ x : Record, x.state = .planned → decide (x.state = .measuring) = false := by
    intro x h
    rw [h]
    rfl
  have found : q.measuring = s.part.measuring :=
    findRecord_unmatched (p := s.part) (q := s.part.setFlc list) order new (fun x h => notMeasuring x (before x h))
      (fun x h => notMeasuring x (Option.some.inj (atSlot.symm.trans h) ▸ planned)) others
  have apart : ∀ x, s.part.measuring ≠ some (i, x) := by
    intro x h
    obtain ⟨listed, measuring⟩ := findRecord_mem h
    rw [notMeasuring x (before x (records_mem listed).2)] at measuring
    cases measuring
  have after : t.part = (q.setFlc joined.flc).setCxu
      (announced (d.getLsbD 18) (d.getLsbD 19) (field d 0 16) s.part.cfg s.part.cxu) := by
    show announceEntry _ _ _ q = _
    rw [announceEntry_eq, joinMeasuring_foldl_congr _ (p := q) (q := q) rfl]
    rfl
  have slot : ∀ j, t.part.slot j = joined.slot j := slot_congr (by rw [after]; rfl)
  have kept : ∀ j, (∀ r, s.part.measuring ≠ some (j, r)) → t.part.slot j = (s.part.setFlc list).slot j := by
    intro j h
    rw [slot, slot_joined_other _ (found ▸ h)]
    rfl
  refine ⟨⟨?_, ⟨fun j r h => ?_, fun j ne h => (kept j h).trans (others j ne)⟩, ?_⟩, (kept i apart).trans atSlot, ?_, ?_⟩
  · refine ⟨loadStep s.part.cfg s.part.cxu.lastLoad (field d 0 16) || s.part.cxu.table.transient.mark, ?_, ?_⟩
    · rw [after]
      rfl
    · rw [Bool.or_eq_true, loadStep_iff, or_comm]
  · rw [slot, slot_joined_measuring (found.trans h) (contextsEntered_bits d s.part)]
  · rw [after]
    exact ⟨rfl, rfl, rfl, rfl, rfl, rfl, rfl, rfl, rfl⟩
  · rw [after]
    exact joined_flc entered q
  · rw [after]
    rfl

/-- The Firing List with a record opened in slot `i` for an entry (R54, R56). -/
def opened (e : ScheduleEntry) (i : Nat) (p : Part) : FiringList :=
  { p.flc with
    slots := Table.write p.flc.slots i (some (newRecord e p.flc.nextSeq p.partTime))
    order := p.flc.order ++ [i]
    nextSeq := p.flc.nextSeq + 1
    counts := Table.writeCyl p.flc.counts (entryCylinder e) (p.recordCount (entryCylinder e) + 1)
    reserveInUse := reserveOf p.cfg.allotment
      (Table.writeCyl p.flc.counts (entryCylinder e) (p.recordCount (entryCylinder e) + 1)) }

theorem openRecord_eq {p : Part} {i : Nat} (e : ScheduleEntry) (h : p.freeSlot = some i) :
    openRecord e p = p.setFlc (opened e i p) := by
  unfold openRecord
  rw [h]
  rfl

theorem freeSlot_eq {p : Part} {i : Nat} (lt : i < 24) (free : p.slot i = none) (lower : ∀ j, j < i → p.slot j ≠ none) :
    p.freeSlot = some i := by
  refine List.find?_range_eq_some.mpr ⟨by rw [free]; rfl, List.mem_range.mpr lt, fun j hj => ?_⟩
  rw [Bool.not_eq_true', Option.isNone_eq_false_iff, Option.isSome_iff_ne_none]
  exact lower j hj

theorem takeEntry_open {e : ScheduleEntry} {p : Part} {i : Nat} (taken : entryRefusal e p = none)
    (new : p.matching e = none) (h : p.freeSlot = some i) : takeEntry e p
      = announceEntry (entryAls e) (entryLaunch e) (entryLoad e) (increment 517 (p.setFlc (opened e i p))) := by
  simp only [takeEntry, taken, new, openRecord_eq e h]
  rfl

theorem takeEntry_revise {e : ScheduleEntry} {p : Part} {i : Nat} {r : Record} (taken : entryRefusal e p = none)
    (held : p.matching e = some (i, r)) : takeEntry e p = announceEntry (entryAls e) (entryLaunch e) (entryLoad e)
      (increment 518 (increment 517 (setSlot i (some (r.revised e)) p))) := by
  simp only [takeEntry, taken, held]
  rfl

theorem matching_none {e : ScheduleEntry} {p : Part}
    (h : ∀ x ∈ p.records, ¬ (x.2.cylinder = entryCylinder e ∧ x.2.cycleTag = entryTag e)) : p.matching e = none :=
  List.find?_eq_none.mpr fun x hx => by simpa using h x hx

theorem matching_first {e : ScheduleEntry} {p : Part} {i : Nat} {r : Record}
    (h : Statements.firstRecord p (fun r => r.cylinder = entryCylinder e ∧ r.cycleTag = entryTag e) i r) :
    p.matching e = some (i, r) := by
  obtain ⟨xs, ys, listed, named, before⟩ := h
  refine List.find?_eq_some_iff_append.mpr ⟨by simpa using named, xs, ys, listed, fun x hx => ?_⟩
  have unnamed := before x hx
  simpa [imp_iff_not_or] using unnamed

end Sys2Proof.Machine

namespace Sys2Proof.Proofs

open Sys2Proof.Machine Sys2Proof.Statements

/-- Settles O44: a record opened or revised is PLANNED, so the MEASURING record is the one of before, and the announcement
of the entry reaches that record alone. -/
theorem commitOpensOrRevisesARecord : Obligations.CommitOpensOrRevisesARecord := by
  intro a w d f g i s tap ha hl h4 check fuel ignition low high load named taken
  have inRange : entryInRange s.part.cfg ⟨w, d⟩ = true := by
    rw [entryInRange_iff, fuel, ignition]
    rintro (c | c | c | c | c)
    · exact absurd low (Nat.not_le.mpr c)
    · exact absurd high (Nat.not_le.mpr c)
    · cases c
    · cases c
    · exact absurd load (Nat.not_le.mpr c)
  have entry : exec (.scheduleCommit a d) s = .next (s.setPart (takeEntry ⟨w, d⟩ (committed s a d))) :=
    exec_scheduleCommit d tap ha hl h4
  rw [entry]
  refine ⟨fun new room lt free lower => ?_, fun r first planned => ?_⟩
  · have unmatched : (committed s a d).matching ⟨w, d⟩ = none := matching_none new
    have accepted : entryRefusal ⟨w, d⟩ (committed s a d) = none := by
      rw [entryRefusal_open (p := committed s a d) check inRange unmatched]
      exact if_pos ((poolOpens_iff (committed s a d) (entryCylinder ⟨w, d⟩)).mpr room)
    rw [takeEntry_open accepted unmatched (freeSlot_eq lt free lower), increment_self]
    have stb : (increment 517 ((committed s a d).setFlc (opened ⟨w, d⟩ i (committed s a d)))).stb
        = (increment 517 s.part).stb := increment_stb 517 rfl
    rw [stb]
    generalize (increment 517 ((committed s a d).setFlc (opened ⟨w, d⟩ i (committed s a d)))).ntu = ntu
    have order : (opened ⟨w, d⟩ i (committed s a d)).order = s.part.flc.order ++ [i] := rfl
    have slots : (opened ⟨w, d⟩ i (committed s a d)).slots
        = Table.write s.part.flc.slots i (some (newRecord ⟨w, d⟩ s.part.flc.nextSeq s.part.partTime)) := rfl
    obtain ⟨done, atSlot, list, stb⟩ := announceEntry_taken (a := a) (d := d) (increment 517 s.part).stb ntu
      order (fun _ => List.eq_of_mem_singleton) slots lt rfl fun x h => by simp [free] at h
    exact ⟨_, rfl, done, atSlot.trans (by rw [newRecord, fuel, ignition]; rfl), congrArg FiringList.order list,
      congrArg FiringList.nextSeq list, congrArg FiringList.counts list,
      (congrArg FiringList.reserveInUse list).trans (congrArg (reserveOf s.part.cfg.allotment)
        (congrArg FiringList.counts list).symm), stb⟩
  · have listed : (i, r) ∈ s.part.records := by
      obtain ⟨xs, ys, e, -⟩ := first
      rw [e]
      exact List.mem_append_right _ List.mem_cons_self
    have held : s.part.slot i = some r := (records_mem listed).2
    have matched : (committed s a d).matching ⟨w, d⟩ = some (i, r) := matching_first (p := committed s a d) first
    have accepted : entryRefusal ⟨w, d⟩ (committed s a d) = none := by
      rw [entryRefusal_matching (p := committed s a d) check inRange matched, if_pos planned]
    have stb : (increment 518 (increment 517 (setSlot i (some (r.revised ⟨w, d⟩)) (committed s a d)))).stb
        = (increment 518 (increment 517 s.part)).stb := increment_stb 518 (increment_stb 517 rfl)
    rw [takeEntry_revise accepted matched, increment_self 518, stb, increment_self 517]
    generalize (increment 518 _).ntu = ntu
    obtain ⟨done, atSlot, list, stb⟩ := announceEntry_taken (a := a) (d := d) (tail := [])
      (list := (setSlot i (some (r.revised ⟨w, d⟩)) (committed s a d)).flc)
      (increment 518 (increment 517 s.part)).stb ntu (List.append_nil _).symm nofun rfl
      (slot_some_lt (p := s.part) (by rw [held]; rfl)) planned
      fun x h => Option.some.inj (held.symm.trans h) ▸ planned
    exact ⟨_, rfl, done, atSlot.trans (by rw [Record.revised, fuel, ignition]; rfl),
      (congrArg FiringList.order list :), (congrArg FiringList.nextSeq list :), (congrArg FiringList.counts list :),
      (congrArg FiringList.reserveInUse list :), stb⟩

end Sys2Proof.Proofs

/-! An Apply that takes effect at once in MONITORING: what the blocks make of its class (R16, R24 to R26, R40, R42, R69,
R102, R114, R129, R147) -/

namespace Sys2Proof.Machine

/-! ### Counts and abandonments -/

/-- From `p` to `q` some counters rose: the Snapshot Bank is kept and no notice is cleared. -/
structure Counted (p q : Part) : Prop where
  rest : q = (p.setStb q.stb).setNtu q.ntu
  snapshot : q.stb.snapshot = p.stb.snapshot
  notices : ∀ n, p.noticeSet n = true → q.noticeSet n = true

theorem Counted.refl (p : Part) : Counted p p := ⟨rfl, rfl, fun _ h => h⟩

theorem Counted.trans {p q r : Part} (h : Counted p q) (k : Counted q r) : Counted p r where
  rest := by
    rw [k.rest, h.rest]
    rfl
  snapshot := k.snapshot.trans h.snapshot
  notices n x := k.notices n (h.notices n x)

theorem noticeSet_setNotice_mono {n : Notice} (m : Notice) {p : Part} (h : p.noticeSet n = true) :
    (setNotice m p).noticeSet n = true := by
  rw [noticeSet_setNotice, h, Bool.or_true]

theorem Counted.increment (k : Nat) (p : Part) : Counted p (increment k p) := by
  unfold Machine.increment
  dsimp only
  split
  · exact Counted.refl p
  · split
    · exact ⟨rfl, rfl, fun n h => noticeSet_setNotice_mono (p := setLive k _ p) _ h⟩
    · exact ⟨rfl, rfl, fun n h => h⟩

theorem Counted.reportDropped (n : Nat) (p : Part) : Counted p (reportDropped n p) := by
  induction n generalizing p with
  | zero => exact Counted.refl p
  | succ n ih => exact (Counted.increment _ p).trans (ih _)

/-- From `p` to `q` records were abandoned with no decision: the Firing List, the Knock Wait List, the Live Bank and the
flags alone changed. -/
structure Dropped (p q : Part) : Prop where
  rest : q = (((p.setFlc q.flc).setKna q.kna).setStb q.stb).setNtu q.ntu
  commit : q.kna.commitIndex = p.kna.commitIndex
  nextSeq : q.flc.nextSeq = p.flc.nextSeq
  snapshot : q.stb.snapshot = p.stb.snapshot
  notices : ∀ n, p.noticeSet n = true → q.noticeSet n = true

theorem Dropped.refl (p : Part) : Dropped p p := ⟨rfl, rfl, rfl, rfl, fun _ h => h⟩

theorem Dropped.trans {p q r : Part} (h : Dropped p q) (k : Dropped q r) : Dropped p r where
  rest := by
    rw [k.rest, h.rest]
    rfl
  commit := k.commit.trans h.commit
  nextSeq := k.nextSeq.trans h.nextSeq
  snapshot := k.snapshot.trans h.snapshot
  notices n x := k.notices n (h.notices n x)

theorem Counted.dropped {p q : Part} (h : Counted p q) : Dropped p q where
  rest := by
    rw [h.rest]
    rfl
  commit := by rw [h.rest]; rfl
  nextSeq := by rw [h.rest]; rfl
  snapshot := h.snapshot
  notices := h.notices

/-- An abandonment that calls for no decision: with a record in the slot it leaves the list, counted (R66, R69). -/
theorem abandon_config {p : Part} {i : Nat} {r : Record} (h : p.slot i = some r) : ∃ x, Dropped p x ∧ x.flc = p.flc
    ∧ abandon .config i p = leaveList i r.cylinder x := by
  refine ⟨report .abandonedConfigOrReset (if (r.closeTime.isSome && r.knock.isNone) = true then withdrawEval i r.seq p
    else p), Dropped.trans ?_ (Counted.increment _ _).dropped, ?_, ?_⟩
  · split
    · exact ⟨rfl, rfl, rfl, rfl, fun _ h => h⟩
    · exact Dropped.refl p
  · rw [report_flc]
    split <;> rfl
  · unfold abandon
    rw [h]
    rfl

theorem abandon_free {p : Part} {i : Nat} (x : AbandonReason) (h : p.slot i = none) : abandon x i p = p := by
  unfold abandon
  rw [h]

theorem Dropped.abandon_config (i : Nat) (p : Part) : Dropped p (abandon .config i p) := by
  cases h : p.slot i with
  | none =>
    rw [abandon_free _ h]
    exact Dropped.refl p
  | some r =>
    obtain ⟨x, dropped, -, e⟩ := Machine.abandon_config h
    rw [e]
    exact dropped.trans ⟨rfl, rfl, rfl, rfl, fun _ h => h⟩

theorem slot_abandon_config (i j : Nat) (p : Part) :
    (abandon .config i p).slot j = if i = j then none else p.slot j := by
  cases h : p.slot i with
  | none =>
    rw [abandon_free _ h]
    split
    · rename_i e
      exact e ▸ h
    · rfl
  | some r =>
    obtain ⟨x, -, same, e⟩ := abandon_config h
    rw [e, slot_leaveList, slot_congr same]

theorem slot_abandonEach_config (l : List Nat) (j : Nat) (p : Part) :
    (l.foldl (fun p i => abandon .config i p) p).slot j = if j ∈ l then none else p.slot j := by
  induction l generalizing p with
  | nil => simp
  | cons i l ih =>
    rw [List.foldl_cons, ih, slot_abandon_config]
    by_cases hl : j ∈ l
    · simp [hl]
    · by_cases e : i = j
      · simp [e]
      · simp [hl, e, Ne.symm e]

theorem Dropped.abandonAll_config (p : Part) : Dropped p (abandonAll .config p) := by
  unfold abandonAll
  generalize p.flc.order = l
  induction l generalizing p with
  | nil => exact Dropped.refl p
  | cons i l ih => exact (Dropped.abandon_config i p).trans (ih _)

/-- Every record is abandoned: no slot is held and the taking order is empty (R69). -/
theorem abandonAll_config_empty {p : Part} (h : p.listAgrees) :
    (∀ j, (abandonAll .config p).slot j = none) ∧ (abandonAll .config p).flc.order = [] := by
  have free : ∀ j, (abandonAll .config p).slot j = none := by
    intro j
    rw [abandonAll, slot_abandonEach_config]
    split
    · rfl
    · rename_i out
      exact Option.not_isSome_iff_eq_none.mp fun held => out ((h.2 j).mpr held)
  refine ⟨free, List.eq_nil_iff_forall_not_mem.mpr fun j hj => ?_⟩
  have held := (((Kept.abandonAll .config p).list h).2 j).mp hj
  rw [free] at held
  cases held

/-! ### A configuration put in force (R22, R24, R25) -/

/-- The part with a configuration in force under its tag, no Pending Copy, and ACTIVE reported. -/
def inForce (g : Settings) (tag : BitVec 16) (p : Part) : Part :=
  (p.setCsh { p.csh with
    pendingCopy := none, active := some g, activeGen := tag
    lastGen := tag, lastResult := .active, lastReason := none }).setNtu ⟨p.ntu.flags ||| 0x200⟩

/-- R25: in MONITORING, a Pending Copy is superseded, the configuration is in force and its class is announced. -/
theorem applyNow_monitoring (cls : ApplyClass) (g : Settings) (tag : BitVec 16) {p : Part}
    (hm : p.csh.mode = .monitoring) : applyNow cls g tag p = announceClass cls false (inForce g tag p) := by
  have placed : resultReport tag .active none
      ((supersedePending p).setCsh { (supersedePending p).csh with active := some g, activeGen := tag })
        = inForce g tag p := by
    cases hc : p.csh.pendingCopy with
    | none =>
      have kept : supersedePending p = p := by rw [supersedePending, hc]
      rw [kept, inForce, ← hc]
      rfl
    | some c =>
      have twice : (p.ntu.flags ||| Notice.configResult.bit) ||| Notice.configResult.bit = p.ntu.flags ||| 0x200 := by
        rw [BitVec.or_assoc]
        rfl
      rw [supersedePending, hc]
      show (p.setCsh _).setNtu ⟨(p.ntu.flags ||| Notice.configResult.bit) ||| Notice.configResult.bit⟩ = _
      rw [twice]
      rfl
  unfold applyNow
  dsimp only
  rw [placed]
  have mode : (inForce g tag p).csh.mode = .monitoring := hm
  rw [mode]
  rfl

/-- R22, R24: a validated copy takes effect at once, but for one of the tuning class while SYNCED. -/
theorem applyCopy_now {g : Settings} {cls : ApplyClass} (tag : BitVec 16) {p : Part} (hm : p.csh.mode = .monitoring)
    (valid : g.validate (pageBase p.ptu.strap) = none) (hc : classify p.csh.active g = cls)
    (now : cls = .tuning → p.atk.sync ≠ .synced) :
    applyCopy g tag p = announceClass cls false (inForce g tag p) := by
  rw [applyCopy, valid]
  dsimp only
  rw [hc]
  cases cls with
  | tuning =>
    dsimp only
    rw [if_neg (now rfl), applyNow_monitoring _ _ _ hm]
  | _ => exact applyNow_monitoring _ _ _ hm

theorem takeCommand_apply {d : Word} {p : Part} (hd : d.extractLsb' 0 16 ≠ 0) (hm : p.csh.mode = .monitoring) :
    takeCommand 0x00 d p = applyCopy (Settings.parse p.csh.staging) (d.extractLsb' 0 16) p := by
  show takeApply d p = _
  rw [takeApply, hm]
  exact if_neg hd

section Classes

variable {g h : Settings}

theorem classify_layout (hl : sameLayout g h = false) : classify (some g) h = .layout := by
  simp [classify, hl]

theorem classify_geometry (hl : sameLayout g h = true) (hg : sameGeometry g h = false) :
    classify (some g) h = .geometry := by
  simp [classify, hl, hg]

theorem classify_tuning (hl : sameLayout g h = true) (hg : sameGeometry g h = true) (ht : sameTuning g h = false) :
    classify (some g) h = .tuning := by
  simp [classify, hl, hg, ht]

theorem classify_identical (hl : sameLayout g h = true) (hg : sameGeometry g h = true) (ht : sameTuning g h = true) :
    classify (some g) h = .identical := by
  simp [classify, hl, hg, ht]

end Classes

/-! ### The tuning class announced (R26, R40, R67, R93) -/

theorem expireKnockWaits_idle {g : Settings} {p : Part} (hg : p.csh.active = some g) (h : Statements.noWaitDue g p) :
    expireKnockWaits p = p := by
  have cfg : p.cfg = g := by rw [Part.cfg, hg]; rfl
  have none : p.kna.waitList.filter (knockWaitDue p) = [] := by
    rw [List.filter_eq_nil_iff]
    intro e he due
    exact absurd (h.1 e he) (Nat.not_lt.mpr (cfg ▸ (reached_iff ..).mp due))
  rw [expireKnockWaits, none]
  rfl

theorem expirePlanAges_idle {g : Settings} {p : Part} (hg : p.csh.active = some g) (h : Statements.noWaitDue g p) :
    expirePlanAges p = p := by
  have cfg : p.cfg = g := by rw [Part.cfg, hg]; rfl
  have none : p.staleSlots = [] := by
    rw [Part.staleSlots, List.map_eq_nil_iff, List.filter_eq_nil_iff]
    intro x hx due
    obtain ⟨planned, age⟩ := (planAgeDue_iff p x.2).mp due
    exact absurd (h.2 x hx planned) (Nat.not_lt.mpr (cfg ▸ age))
  rw [expirePlanAges, none]
  rfl

/-- With no wait and no stall due under the new limits, the move test alone. -/
theorem announceTuning_idle {g : Settings} {p : Part} (hg : p.csh.active = some g) (h : Statements.noWaitDue g p)
    (noStall : stallDue p = false) : announceTuning p = moveTest p := by
  unfold announceTuning
  rw [noStall]
  show moveTest (expirePlanAges (expireKnockWaits p)) = _
  rw [expireKnockWaits_idle hg h, expirePlanAges_idle hg h]

/-- R40: in SEEKING a stall that is due is counted and stops the tracker; nothing was measured, so no loss is announced. -/
theorem announceTuning_stall {g : Settings} {p : Part} (hg : p.csh.active = some g) (h : Statements.noWaitDue g p)
    (seeking : p.atk.sync = .seeking) (stalled : stallDue p = true) :
    announceTuning p = moveTest ((increment 516 p).setAtk p.atk.stop) := by
  have taken : stallWith (fun r q => announceLoss r (trackerLoss r q)) p = (increment 516 p).setAtk p.atk.stop := by
    have idle : (report .stalls p) = increment 516 p := rfl
    unfold stallWith
    rw [seeking, idle, ← increment_atk 516 p]
    rfl
  have waits : Statements.noWaitDue g ((increment 516 p).setAtk p.atk.stop) := by
    rw [increment_self]
    exact h
  have active : ((increment 516 p).setAtk p.atk.stop).csh.active = some g := (congrArg _ (increment_csh 516 p)).trans hg
  unfold announceTuning
  rw [stalled, if_pos rfl, taken]
  dsimp only
  rw [expireKnockWaits_idle active waits, expirePlanAges_idle active waits]

/-! ### The geometry class announced (R16, R42, R69, R102, R114, R129) -/

/-- What the analysis blocks hold, and what they keep of `p`, when they start again under settings `g` of tag `tag`. -/
def restartedUnder (g : Settings) (tag : BitVec 16) (p t : Part) : Prop :=
  t.csh = (inForce g tag p).csh ∧ t.noticeSet .configResult = true ∧ t.noticeSet .syncLost = true
    ∧ t.atk = { p.atk.stop with lastLoss := .config }
    ∧ t.flc.order = [] ∧ (∀ i, t.slot i = none) ∧ t.flc.nextSeq = p.flc.nextSeq
    ∧ t.sga = ⟨[], none, [], none⟩
    ∧ t.kna.frames = [] ∧ t.kna.waitList = [] ∧ t.kna.commitIndex = p.kna.commitIndex
    ∧ (∀ c, 1 ≤ c → c ≤ g.cylinders → t.reference c = Table.readCyl g.seed c 1) ∧ (∀ x, t.sensor x = ⟨.ok, 0, 0, 0⟩)
    ∧ (∀ c, t.cxu.table.get c = ⟨.idle, 0, false⟩) ∧ t.cxu.lastLoad = none ∧ t.cxu.roughHistory = []
    ∧ (∀ c, t.cylinderHistory c = ⟨[], 0, .healthy, false⟩) ∧ t.hsu.exceeded = false
    ∧ t.stb.snapshot = p.stb.snapshot ∧ t.partTime = p.partTime

theorem readCyl_seedReferences (g : Settings) {c : Nat} (low : 1 ≤ c) (high : c ≤ g.cylinders) :
    Table.readCyl (seedReferences g) c 1 = Table.readCyl g.seed c 1 := by
  unfold Table.readCyl seedReferences
  rw [Table.read_build, if_pos (show c - 1 < g.cylinders by omega)]
  split
  · rfl
  · rename_i out
    rw [Table.read, Vector.getElem?_eq_none (Nat.le_of_not_lt out)]
    rfl

/-- With every record abandoned, each analysis block is given its values of reset, and the tracker stops with a loss
CONFIG. -/
theorem restartGeometry_eq {p a : Part} (h : abandonAll .config (emptyLatches p) = a) : restartGeometry p =
    (((((a.setKna ⟨[], a.kna.commitIndex, [], seedReferences a.cfg, Vector.replicate 4 .reset⟩).setAtk
      { a.atk.stop with lastLoss := .config }).setNtu ⟨a.ntu.flags ||| Notice.syncLost.bit⟩).setSga
      ⟨[], none, [], none⟩).setCxu ⟨.reset, [], 0, none, none⟩).setHsu ⟨Vector.replicate 8 .reset, 0, 0, false⟩ := by
  subst h
  rfl

theorem restartGeometry_restarted (g : Settings) (tag : BitVec 16) {p : Part} (agrees : p.listAgrees) :
    restartedUnder g tag p (restartGeometry (inForce g tag p))
      ∧ (restartGeometry (inForce g tag p)).pse = p.pse
      ∧ (restartGeometry (inForce g tag p)).ptu = { p.ptu with scheduleLatch := none, knockLatch := none } := by
  obtain ⟨rest, commit, nextSeq, snapshot, notices⟩ := Dropped.abandonAll_config (emptyLatches (inForce g tag p))
  obtain ⟨free, order⟩ := abandonAll_config_empty (p := emptyLatches (inForce g tag p)) agrees
  have reported : (emptyLatches (inForce g tag p)).noticeSet .configResult = true := by
    have same : (emptyLatches (inForce g tag p)).noticeSet .configResult
      = (setNotice .configResult p).noticeSet .configResult := rfl
    rw [same, noticeSet_setNotice]
    simp
  generalize ha : abandonAll .config (emptyLatches (inForce g tag p)) = a at *
  rw [restartGeometry_eq ha]
  have notice : ∀ n, (setNotice .syncLost a).noticeSet n = (decide (n = .syncLost) || a.noticeSet n) :=
    fun n => noticeSet_setNotice .syncLost n a
  have block : a.csh = (inForce g tag p).csh ∧ a.atk = p.atk ∧ a.pse = p.pse ∧ a.partTime = p.partTime
      ∧ a.ptu = { p.ptu with scheduleLatch := none, knockLatch := none } := by
    rw [rest]
    exact ⟨rfl, rfl, rfl, rfl, rfl⟩
  obtain ⟨csh, atk, pse, time, ptu⟩ := block
  have cfg : a.cfg = g := by rw [Part.cfg, csh]; rfl
  refine ⟨⟨csh, (notice _).trans ?_, (notice _).trans ?_, ?_, order, free, nextSeq, rfl, rfl, rfl, commit,
    fun c low high => ?_, fun x => Table.read_replicate .., ContextTable.get_reset, rfl, rfl,
    fun c => Table.readCyl_replicate .., rfl, snapshot, time⟩, pse, ptu⟩
  · rw [notices _ reported, Bool.or_true]
  · rfl
  · rw [atk]
    rfl
  · show Table.readCyl (seedReferences a.cfg) c 1 = _
    rw [cfg, readCyl_seedReferences g low high]

/-! ### The layout class announced (R12, R16, R146, R147) -/

/-- The Post Queue is discarded and the counts are 0, no queued word publishes, and STOPPING ends. -/
theorem layoutPosting_eq (p : Part) : ∃ x, Counted p x ∧ layoutPosting p =
    (if p.pse.postState = .stopping then enterStopped else id)
      ((x.setPse ⟨[], 0, 0, 0, p.pse.postState⟩).setQueue (p.ptu.queue.map fun q => { q with publishes := false })) := by
  have counted := Counted.reportDropped p.pse.postQueue.length p
  refine ⟨_, counted, ?_⟩
  have discarded : discardPostQueue p = (reportDropped p.pse.postQueue.length p).setPse
      { (reportDropped p.pse.postQueue.length p).pse with postQueue := [] } := rfl
  unfold layoutPosting
  rw [discarded]
  dsimp only [Part.setPse_pse, Part.setPse_ptu]
  have rest := counted.rest
  revert rest
  generalize reportDropped p.pse.postQueue.length p = x
  intro rest
  have pse : x.pse = p.pse := by rw [rest]; rfl
  have ptu : x.ptu = p.ptu := by rw [rest]; rfl
  rw [pse, ptu]
  change moveTest (reportNoPublishing ((x.setPse ⟨[], 0, 0, 0, p.pse.postState⟩).setQueue _)) = _
  generalize hy : (x.setPse ⟨[], 0, 0, 0, p.pse.postState⟩).setQueue _ = y
  have state : y.pse = ⟨[], 0, 0, 0, p.pse.postState⟩ := by rw [← hy]; rfl
  have quiet : y.publishing = false := by
    rw [← hy]
    show (p.ptu.queue.map fun q => { q with publishes := false }).any (·.publishes) = false
    simp
  rw [reportNoPublishing_eq, quiet, state]
  by_cases stopping : p.pse.postState = .stopping
  · rw [if_pos ⟨stopping, rfl⟩, if_pos stopping]
    exact moveTest_idle (.inl (congrArg PostEngine.postQueue state))
  · rw [if_neg fun c => stopping c.1, if_neg stopping]
    exact moveTest_idle (.inl (congrArg PostEngine.postQueue state))

/-- The posting, the counters and the flags may change after a restart, while no notice is cleared. -/
theorem restartedUnder.posted {g : Settings} {tag : BitVec 16} {p t : Part} (h : restartedUnder g tag p t)
    (pse : PostEngine) (queue : List QueuedWord) {stb : Statistics} {ntu : NoticeUnit}
    (same : stb.snapshot = t.stb.snapshot) (mono : ∀ n, t.noticeSet n = true → (t.setNtu ntu).noticeSet n = true) :
    restartedUnder g tag p ((((t.setPse pse).setQueue queue).setStb stb).setNtu ntu) := by
  obtain ⟨csh, result, lost, atk, order, slots, nextSeq, sga, frames, waits, commit, references, sensors, contexts, load,
    rough, histories, exceeded, snapshot, time⟩ := h
  exact ⟨csh, mono _ result, mono _ lost, atk, order, slots, nextSeq, sga, frames, waits, commit, references, sensors,
    contexts, load, rough, histories, exceeded, same.trans snapshot, time⟩

/-- What a layout-class Apply does to the posting leaves the analysis blocks as they are. -/
theorem layoutPosting_restarted {g : Settings} {tag : BitVec 16} {p t : Part} (h : restartedUnder g tag p t) :
    restartedUnder g tag p (layoutPosting t)
      ∧ (layoutPosting t).pse
        = ⟨[], 0, 0, 0, if t.pse.postState = .stopping then .stopped else t.pse.postState⟩
      ∧ (t.pse.postState = .stopping → (layoutPosting t).noticeSet .postStopped = true)
      ∧ (layoutPosting t).ptu = { t.ptu with queue := t.ptu.queue.map fun x => { x with publishes := false } } := by
  obtain ⟨x, ⟨rest, snapshot, notices⟩, made⟩ := layoutPosting_eq t
  have mono : ∀ n, t.noticeSet n = true → (t.setNtu x.ntu).noticeSet n = true := notices
  rw [made]
  by_cases stopping : t.pse.postState = .stopping
  · rw [if_pos stopping, if_pos stopping]
    have ended : ∀ n, (setNotice .postStopped (t.setNtu x.ntu)).noticeSet n
        = (decide (n = .postStopped) || (t.setNtu x.ntu).noticeSet n) := fun n => noticeSet_setNotice ..
    refine ⟨?_, rfl, fun _ => (ended .postStopped).trans rfl, ?_⟩
    · rw [rest]
      exact h.posted _ _ snapshot fun n set => (ended n).trans (by rw [mono n set, Bool.or_true])
    · rw [rest]
      rfl
  · rw [if_neg stopping, if_neg stopping]
    refine ⟨?_, rfl, fun c => absurd c stopping, ?_⟩
    · rw [rest]
      exact h.posted _ _ snapshot mono
    · rw [rest]
      rfl

end Sys2Proof.Machine

namespace Sys2Proof.Proofs

open Sys2Proof.Machine Sys2Proof.Statements

/-- Settles O15: by the class of the copy, which is announced to the blocks with the copy in force. -/
theorem applyTakesEffectInMonitoring : Obligations.ApplyTakesEffectInMonitoring := by
  intro d g p agrees hd hm hg valid h inForceCsh q t off stalled nothingElseDue restarted
  have announced : ∀ cls, classify (some g) h = cls → (cls = .tuning → p.atk.sync ≠ .synced) →
      t = announceClass cls false q := by
    intro cls hc now
    show takeCommand 0x00 d p = _
    rw [takeCommand_apply hd hm]
    exact applyCopy_now _ hm valid (hg ▸ hc) now
  have geometry := restartGeometry_restarted h (d.extractLsb' 0 16) agrees
  refine ⟨fun hl hgeo ht => announced .identical (classify_identical hl hgeo ht) nofun, fun hl hgeo ht sync waits => ?_,
    fun hl hgeo => ?_, fun hl => ?_⟩
  · have tuning := announced .tuning (classify_tuning hl hgeo ht) fun _ => sync
    have due : stallDue q = true ↔ p.atk.sync ≠ .stopped ∧ stalled := by
      rw [stallDue_iff]
      refine and_congr_right fun _ => ⟨?_, fun ⟨x, started, reached⟩ => ⟨h, x, rfl, started, reached⟩⟩
      rintro ⟨g', x, active, started, reached⟩
      cases active
      exact ⟨x, started, reached⟩
    refine ⟨fun idle => tuning.trans ?_, fun seeking late => tuning.trans ?_⟩
    · refine announceTuning_idle (g := h) rfl waits (Bool.eq_false_iff.mpr fun c => ?_)
      obtain ⟨running, late⟩ := due.mp c
      exact idle.elim running fun early => early late
    · exact announceTuning_stall (g := h) rfl waits seeking (due.mpr ⟨by rw [seeking]; nofun, late⟩)
  · have result : t = restartGeometry q := announced .geometry (classify_geometry hl hgeo) nofun
    show restartedUnder h _ p t ∧ _
    rw [result]
    exact geometry
  · have result : t = layoutPosting (restartGeometry q) := announced .layout (classify_layout hl) nofun
    obtain ⟨restart, pse, ptu⟩ := geometry
    have posting := layoutPosting_restarted restart
    rw [pse, ptu] at posting
    show restartedUnder h _ p t ∧ _
    rw [result]
    exact posting

end Sys2Proof.Proofs

/-! The memories and the modes along a step; settings writes, the Apply that installs nothing, Notice Clear and Post Control
(R19 to R22, R146, R149) -/

namespace Sys2Proof.Machine

/-- What a step can do: time passes, power-on reset is taken, or a command keeps every invariant. -/
theorem step_cases {s t : State} (h : step s = .next t) :
    t = tick s ∨ ∃ rest, (∃ strap, t = powerOn strap (s.setPending rest)) ∨ SafeStep (s.setPending rest) t := by
  unfold step at h
  split at h
  · cases h
    exact .inl rfl
  · next c rest _ =>
    refine .inr ⟨rest, ?_⟩
    by_cases reset : ∃ strap, c = .powerOnReset strap
    · obtain ⟨strap, rfl⟩ := reset
      cases h
      exact .inl ⟨strap, rfl⟩
    · exact .inr (SafeStep.exec (fun strap e => reset ⟨strap, e⟩) h)

/-! ### Command words (R20) -/

theorem exec_apply {s : State} (d : Word) (granted : s.part.grantsAtOnce) :
    exec (.apply d) s = .next (s.setPart (takeCommand 0x00 d (Statements.wordOut s 0 d))) :=
  congrArg Host.Outcome.next (presentCommand_eq 0x00 d (by decide) (by decide) granted)

theorem exec_noticeClear {s : State} (d : Word) (granted : s.part.grantsAtOnce) :
    exec (.noticeClear d) s = .next (s.setPart (takeCommand 0x04 d (Statements.wordOut s 4 d))) :=
  congrArg Host.Outcome.next (presentCommand_eq 0x04 d (by decide) (by decide) granted)

theorem exec_postStop {s : State} (u : BitVec 24) (granted : s.part.grantsAtOnce) :
    exec (.postStop u) s = .next (s.setPart (takeCommand 0x0C (u ++ 1#8) (Statements.wordOut s 0xC (u ++ 1#8)))) :=
  congrArg Host.Outcome.next (presentCommand_eq 0x0C (u ++ 1#8) (by decide) (by decide) granted)

theorem exec_postResume {s : State} (u : BitVec 24) (granted : s.part.grantsAtOnce) :
    exec (.postResume u) s = .next (s.setPart (takeCommand 0x0C (u ++ 2#8) (Statements.wordOut s 0xC (u ++ 2#8)))) :=
  congrArg Host.Outcome.next (presentCommand_eq 0x0C (u ++ 2#8) (by decide) (by decide) granted)

theorem exec_analysisReset {s : State} (d : Word) (granted : s.part.grantsAtOnce) :
    exec (.analysisReset d) s = .next (s.setPart (takeCommand 0x18 d (Statements.wordOut s 0x18 d))) :=
  congrArg Host.Outcome.next (presentCommand_eq 0x18 d (by decide) (by decide) granted)

theorem exec_disengage {s : State} (d : Word) (granted : s.part.grantsAtOnce) :
    exec (.disengage d) s = .next (s.setPart (takeCommand 0x1C d (Statements.wordOut s 0x1C d))) :=
  congrArg Host.Outcome.next (presentCommand_eq 0x1C d (by decide) (by decide) granted)

/-- In TRANSPARENT every command word but Apply is ignored. -/
theorem takeCommand_transparent {o : Nat} {p : Part} (d : Word) (ho : o ≠ 0) (hm : p.csh.mode = .transparent) :
    takeCommand o d p = p := by
  rw [takeCommand, if_neg ho, hm]

/-- Outside TRANSPARENT a command that MONITORING and DISENGAGING share is taken alike in both. -/
theorem takeCommand_common {o : Nat} {p : Part} (d : Word) (ho : o ≠ 0 ∧ o ≠ 0x18 ∧ o ≠ 0x1C)
    (hm : p.csh.mode ≠ .transparent) : takeCommand o d p = takeCommon o d p := by
  obtain ⟨apply, reset, disengage⟩ := ho
  cases mode : p.csh.mode with
  | transparent => exact absurd mode hm
  | monitoring => simp only [takeCommand, mode, if_neg apply, if_neg reset, if_neg disengage]
  | disengaging => simp only [takeCommand, mode, if_neg apply]

/-! ### The outcomes of an Apply that installs nothing (R21, R22) -/

theorem resultReport_eq (gen : BitVec 16) (result : ApplyResult) (reason : Option Check) (p : Part) :
    resultReport gen result reason p = (p.setCsh { p.csh with
      lastGen := gen, lastResult := result, lastReason := reason }).setNtu ⟨p.ntu.flags ||| 0x200⟩ := rfl

theorem takeApply_tagZero {d : Word} {p : Part} (h : d.extractLsb' 0 16 = 0) : takeCommand 0x00 d p = p := if_pos h

theorem takeApply_busy {d : Word} {p : Part} (hd : d.extractLsb' 0 16 ≠ 0) (hm : p.csh.mode = .disengaging) :
    takeCommand 0x00 d p = resultReport (d.extractLsb' 0 16) .busy none p := by
  show takeApply d p = _
  rw [takeApply, hm]
  exact if_neg hd

/-- Outside DISENGAGING the Staging Copy is validated and classed. -/
theorem takeApply_copy {d : Word} {p : Part} (hd : d.extractLsb' 0 16 ≠ 0) (hm : p.csh.mode ≠ .disengaging) :
    takeCommand 0x00 d p = applyCopy (Settings.parse p.csh.staging) (d.extractLsb' 0 16) p := by
  cases mode : p.csh.mode with
  | disengaging => exact absurd mode hm
  | monitoring => exact takeCommand_apply hd mode
  | transparent =>
    show takeApply d p = _
    rw [takeApply, mode]
    exact if_neg hd

theorem applyCopy_refused {g : Settings} {p : Part} {r : Check} (tag : BitVec 16)
    (h : g.validate (pageBase p.ptu.strap) = some r) : applyCopy g tag p = resultReport tag .refused (some r) p := by
  rw [applyCopy, h]

/-! ### Post Stop, Post Resume (R146) -/

theorem takePostStop_running {p : Part} (h : p.pse.postState = .running) : takePostStop p
    = if p.publishing = true then p.setPse { p.pse with postState := .stopping } else enterStopped p := by
  rw [takePostStop, h]

theorem takePostStop_ended {p : Part} (h : p.pse.postState ≠ .running) : takePostStop p = p := by
  rw [takePostStop]
  split
  · exact absurd ‹_› h
  · rfl
  · rfl

theorem takePostResume_running {p : Part} (h : p.pse.postState = .running) : takePostResume p = p := by
  rw [takePostResume, h]

theorem takePostResume_ended {p : Part} (h : p.pse.postState ≠ .running) :
    takePostResume p = moveTest (p.setPse { p.pse with postState := .running }) := by
  rw [takePostResume]
  split
  · exact absurd ‹_› h
  · rfl
  · rfl

theorem commandCode_append (u : BitVec 24) (x : BitVec 8) : commandCode (u ++ x) = x :=
  BitVec.extractLsb'_append_eq_right

section PostControl

variable {p : Part} (hm : p.csh.mode ≠ .transparent)
include hm

theorem takeCommand_postStop (u : BitVec 24) : takeCommand 0x0C (u ++ 1#8) p = takePostStop p := by
  rw [takeCommand_common _ (by decide) hm]
  show takePostControl _ p = _
  rw [takePostControl, commandCode_append]
  rfl

theorem takeCommand_postResume (u : BitVec 24) : takeCommand 0x0C (u ++ 2#8) p = takePostResume p := by
  rw [takeCommand_common _ (by decide) hm]
  show takePostControl _ p = _
  rw [takePostControl, commandCode_append]
  rfl

end PostControl

theorem publishing_eq_false_iff (p : Part) : p.publishing = false ↔ ∀ q ∈ p.ptu.queue, q.publishes = false := by
  simp [Part.publishing]

theorem publishing_eq_true_iff (p : Part) : p.publishing = true ↔ ∃ q ∈ p.ptu.queue, q.publishes = true := by
  simp [Part.publishing]

/-- An event that keeps the PTU leaves the arbiter as quiet as it was. -/
theorem event_quiet {f : Part → Part} {s : State} (h : Statements.arbiterQuiet s.part)
    (kept : (f s.part).ptu = s.part.ptu) : event f s = s.setPart (f s.part) := by
  have quiet : Statements.arbiterQuiet (f s.part) := by
    rw [Statements.arbiterQuiet, kept]
    exact h
  rw [event, arbitrate_quiet quiet]

end Sys2Proof.Machine

namespace Sys2Proof.Proofs

open Sys2Proof.Machine Sys2Proof.Statements

/-- Settles O57: part time touches no memory, power-on reset frees the bytes of the write it cuts off, and every other
command keeps the form. -/
theorem everyStepKeepsMemoriesCanonical : Obligations.EveryStepKeepsMemoriesCanonical := by
  rintro s t ⟨sram, staging⟩ h
  obtain rfl | ⟨rest, ⟨strap, rfl⟩ | kept⟩ := step_cases h
  · exact ⟨sram, staging⟩
  · exact ⟨sramCutOff_wf (s := s.setPending rest) sram, Memory.wf_nil⟩
  · exact ⟨kept.sram sram, kept.part.wf staging⟩

/-- Settles O60: power-on reset leaves TRANSPARENT with no configuration, and every other command keeps the table of
modes. -/
theorem everyStepKeepsConfigurationValidated : Obligations.EveryStepKeepsConfigurationValidated := by
  intro s t modes h
  obtain rfl | ⟨rest, ⟨strap, rfl⟩ | kept⟩ := step_cases h
  · exact modes
  · exact Part.powerOn_modesAgree strap
  · exact kept.part.modes modes

/-- Settles O16: the write is delivered to the Staging Copy, whose word write updates the enabled lanes. -/
theorem settingsWriteUpdatesEnabledBytes : Obligations.SettingsWriteUpdatesEnabledBytes := by
  intro o d e s granted wf low
  refine ⟨Memory.writeWord s.part.csh.staging (o.toNat / 4 * 4) d e, ?_, Memory.writeWord_wf wf _ _ _,
    Memory.read_writeWord wf _ d e⟩
  have settingsArea : ¬ o.toNat / 4 * 4 < 0x40 := by omega
  show Host.Outcome.next (presentPage o.toNat d e s) = _
  rw [presentPage_eq o.toNat d e o.isLt granted, takePageWrite, if_neg settingsArea]
  rfl

/-- Settles O17: by the tag, the mode and the first check failed. -/
theorem applyIgnoredBusyOrRefused : Obligations.ApplyIgnoredBusyOrRefused := by
  refine ⟨fun d s granted => exec_apply d granted, fun d p => ⟨takeApply_tagZero, fun hd hm => ?_,
    fun r hd hm failed => ?_⟩⟩
  · rw [takeApply_busy hd hm, resultReport_eq]
  · rw [takeApply_copy hd hm, applyCopy_refused _ failed, resultReport_eq]

/-- Settles O23: by the mode; a set is `noticeSet_setNotice`. -/
theorem noticeClearAndSet : Obligations.NoticeClearAndSet := by
  refine ⟨fun d s granted => ⟨fun hm => ?_, fun hm => ?_⟩, noticeSet_setNotice⟩
  · rw [exec_noticeClear d granted, takeCommand_common (p := wordOut s 4 d) d (by decide) hm]
    rfl
  · rw [exec_noticeClear d granted, takeCommand_transparent (p := wordOut s 4 d) d (by decide) hm]

/-- Settles O26: by the mode, the post state and whether a publishing word is queued. -/
theorem postControlTable : Obligations.PostControlTable := by
  refine ⟨fun u s granted => ⟨exec_postStop u granted, exec_postResume u granted⟩, fun u p => ⟨fun hm => ?_, fun hm => ?_⟩,
    fun s quiet => ⟨fun stopping silent => ?_, fun other => ?_⟩⟩
  · exact ⟨takeCommand_transparent _ (by decide) hm, takeCommand_transparent _ (by decide) hm⟩
  · rw [takeCommand_postStop hm, takeCommand_postResume hm]
    refine ⟨fun running queued => ?_, fun running silent => ?_, takePostStop_ended, takePostResume_running,
      takePostResume_ended⟩
    · rw [takePostStop_running running, if_pos ((publishing_eq_true_iff p).mpr queued)]
    · rw [takePostStop_running running, (publishing_eq_false_iff p).mpr silent]
      rfl
  · have entered : reportNoPublishing s.part = enterStopped s.part := by
      rw [reportNoPublishing_eq, if_pos ⟨stopping, (publishing_eq_false_iff s.part).mpr silent⟩]
    show Host.Outcome.next (event reportNoPublishing s) = _
    rw [event_quiet quiet (by rw [entered]; rfl), entered]
    rfl
  · have idle : reportNoPublishing s.part = s.part := by
      rw [reportNoPublishing_eq, if_neg fun c => other c.1]
    show Host.Outcome.next (event reportNoPublishing s) = _
    rw [event_quiet quiet (by rw [idle]), idle]
    rfl

end Sys2Proof.Proofs

/-! A sync loss and a Pending Copy: what the loss reports, what the blocks make of it, and what puts the copy into effect
(R21, R26, R40, R41, R68, R83, R113, R128) -/

namespace Sys2Proof.Machine

/-! ### Decisions set notices and clear none -/

/-- From `p` to `q` no notice is cleared, and the result of the last turbine block is kept. -/
structure Raised (p q : Part) : Prop where
  notices : ∀ n, p.noticeSet n = true → q.noticeSet n = true
  exceeded : q.hsu.exceeded = p.hsu.exceeded

theorem Raised.refl (p : Part) : Raised p p := ⟨fun _ h => h, rfl⟩

theorem Raised.trans {p q r : Part} (h : Raised p q) (k : Raised q r) : Raised p r :=
  ⟨fun n x => k.notices n (h.notices n x), k.exceeded.trans h.exceeded⟩

theorem Raised.ite {c : Prop} [Decidable c] {p q r : Part} (h : Raised p q) (k : Raised p r) :
    Raised p (if c then q else r) := by
  split
  · exact h
  · exact k

theorem Raised.foldl {α : Type} {f : Part → α → Part} (h : ∀ p a, Raised p (f p a)) (l : List α) (p : Part) :
    Raised p (l.foldl f p) := by
  induction l generalizing p with
  | nil => exact Raised.refl p
  | cons a l ih => exact (h p a).trans (ih (f p a))

/-- What leaves the Notice Unit and the exceeded flag alone. -/
theorem Raised.of_eq {p q : Part} (hn : q.ntu = p.ntu) (hh : q.hsu.exceeded = p.hsu.exceeded) : Raised p q :=
  ⟨fun n h => (noticeSet_congr hn n).trans h, hh⟩

theorem Raised.setNotice (n : Notice) (p : Part) : Raised p (setNotice n p) :=
  ⟨fun _ h => noticeSet_setNotice_mono n h, rfl⟩

theorem Raised.increment (k : Nat) (p : Part) : Raised p (increment k p) :=
  ⟨(Counted.increment k p).notices, congrArg _ (increment_hsu k p)⟩

theorem Raised.moveLoop (n : Nat) (p : Part) : Raised p (moveLoop n p) := by
  induction n generalizing p with
  | zero => exact Raised.refl p
  | succ n ih =>
    unfold Machine.moveLoop
    split
    · exact Raised.refl p
    · next v rest _ => exact Raised.ite (.trans (.of_eq (q := moveVerdict v rest p) rfl rfl) (ih _)) (Raised.refl p)

theorem Raised.postVerdict (d : Decided) (p : Part) : Raised p (postVerdict d p) := by
  have offered (v : Verdict) : Raised p (offerVerdict v p) :=
    Raised.ite
      (.trans (.of_eq (q := p.setPse { p.pse with postQueue := p.pse.postQueue ++ [v] }) rfl rfl) (Raised.moveLoop _ _))
      (.trans (Raised.increment _ p) (Raised.setNotice _ _))
  exact Raised.ite (offered _) (Raised.refl p)

theorem Raised.historyTake (d : Decided) (p : Part) : Raised p (historyTake d p) := by
  have health (a b : Health) (q : Part) : Raised q (healthNotice a b q) :=
    match a, b with
    | .healthy, .faulted | .suspect, .faulted | .healthy, .suspect => Raised.setNotice _ q
    | .healthy, .healthy | .suspect, .healthy | .suspect, .suspect | .faulted, _ => Raised.refl q
  have alert (a b : Bool) (q : Part) : Raised q (alertNotice a b q) := Raised.ite (Raised.setNotice _ q) (Raised.refl q)
  have turbine (o : Option MisfireClass) (q : Part) : Raised q (countTurbine o q) :=
    Raised.ite (.of_eq rfl rfl) (Raised.refl q)
  have cylinder (c : Nat) (h : CylinderHistory) : Raised p (setCylinder c h p) := .of_eq rfl rfl
  exact Raised.ite (Raised.refl p) ((((cylinder _ _).trans (health _ _ _)).trans (alert _ _ _)).trans (turbine _ _))

theorem Raised.reportDecision (d : Decided) (p : Part) : Raised p (reportDecision d p) := by
  have misfire : Raised p (if d.misfireClass = .unavailable then report .misfireUnavailable (report .recordsDecided p)
      else report .recordsDecided p) :=
    Raised.ite ((Raised.increment _ p).trans (Raised.increment _ _)) (Raised.increment _ p)
  exact Raised.ite (misfire.trans (Raised.increment _ _)) misfire

theorem Raised.decideRecord (i : Nat) (r : Record) (p : Part) : Raised p (decideRecord i r p) := by
  have learned (d : Decided) (q : Part) : Raised q (learnReference d q) := Raised.ite (.of_eq rfl rfl) (Raised.refl q)
  have counted (d : Decided) (q : Part) : Raised q (countRecord d q) := Raised.foldl (fun q _ => Raised.increment _ q) _ q
  have left (q : Part) : Raised q (leaveList i r.cylinder q) := .of_eq rfl rfl
  exact (((((Raised.historyTake _ p).trans (counted _ _)).trans (learned _ _)).trans (Raised.postVerdict _ _)).trans
    (Raised.reportDecision _ _)).trans (left _)

theorem Raised.decideLoop (sel : Nat → Bool) (n : Nat) (p : Part) : Raised p (decideLoop sel n p) := by
  induction n generalizing p with
  | zero => exact Raised.refl p
  | succ n ih =>
    unfold Machine.decideLoop
    split
    · exact Raised.refl p
    · exact (Raised.decideRecord _ _ p).trans (ih _)

theorem Raised.abandon_sync (i : Nat) (p : Part) : Raised p (abandon .sync i p) := by
  unfold Machine.abandon
  split
  · exact Raised.refl p
  · next r _ =>
    have withdrawn : Raised p (if (r.closeTime.isSome && r.knock.isNone) = true then withdrawEval i r.seq p else p) :=
      Raised.ite (.of_eq rfl rfl) (Raised.refl p)
    have left (q : Part) : Raised q (leaveList i r.cylinder q) := .of_eq rfl rfl
    exact ((withdrawn.trans (Raised.increment _ _)).trans (left _)).trans (Raised.decideLoop _ _ _)

theorem Raised.firingSyncLoss (p : Part) : Raised p (firingSyncLoss p) := by
  unfold Machine.firingSyncLoss
  refine Raised.trans ?_ (Raised.decideLoop _ _ _)
  refine Raised.trans ?_ (Raised.foldl (fun q (x : Nat × Record) => Raised.of_eq (q := setSlot x.1 (some x.2.lost) q) rfl rfl) _ _)
  split
  · exact Raised.refl p
  · exact Raised.abandon_sync _ p

/-! ### The tracker's part of a loss (R41, steps 1 to 4) -/

theorem trackerLoss_eq (r : LossReason) (p : Part) : trackerLoss r p = Statements.lossReported r p := by
  cases r <;> rfl

theorem lossReported_eq (r : LossReason) (p : Part) : Statements.lossReported r p
    = ((p.setAtk (Statements.lostTracker r p.atk)).setStb (Statements.lossReported r p).stb).setNtu
      (Statements.lossReported r p).ntu := by
  cases r with
  | gap =>
    show increment 514 _ = _
    rw [increment_self]
    rfl
  | cam =>
    show increment 515 _ = _
    rw [increment_self]
    rfl
  | _ => rfl

theorem lossReported_atk (r : LossReason) (p : Part) :
    (Statements.lossReported r p).atk = Statements.lostTracker r p.atk := by
  rw [lossReported_eq]
  rfl

theorem lossReported_csh (r : LossReason) (p : Part) : (Statements.lossReported r p).csh = p.csh := by
  rw [lossReported_eq]
  rfl

theorem noticeSet_lossReported (r : LossReason) (p : Part) : (Statements.lossReported r p).noticeSet .syncLost = true := by
  have set : (setNotice .syncLost (p.setAtk (Statements.lostTracker r p.atk))).noticeSet .syncLost = true := by
    rw [noticeSet_setNotice]
    rfl
  cases r with
  | gap => exact (Counted.increment _ _).notices _ set
  | cam => exact (Counted.increment _ _).notices _ set
  | _ => exact set

/-! ### A Pending Copy takes effect (R26) -/

theorem pendingTakesEffect_none {p : Part} (h : p.csh.pendingCopy = none) : pendingTakesEffect p = p := by
  rw [pendingTakesEffect, h]

theorem pendingTakesEffect_some {c : PendingCopy} {p : Part} (h : p.csh.pendingCopy = some c) :
    pendingTakesEffect p = announceTuning (Statements.pendingInForce c p) := by
  rw [pendingTakesEffect, h]
  rfl

/-- A sync loss with no Pending Copy: the loss is reported and announced. -/
theorem syncLoss_none {p : Part} (r : LossReason) (h : p.csh.pendingCopy = none) :
    syncLoss r p = announceLoss r (Statements.lossReported r p) := by
  have none : (Statements.lossReported r p).csh.pendingCopy = none := by rw [lossReported_csh, h]
  rw [syncLoss, trackerLoss_eq]
  congr 1
  cases r with
  | config => rfl
  | never => rfl
  | _ => exact pendingTakesEffect_none none

/-- A sync loss at which the Configuration Shadow puts a Pending Copy into effect before the blocks take the loss. -/
theorem syncLoss_eq {r : LossReason} (hr : r = .gap ∨ r = .cam ∨ r = .stall ∨ r = .reset) (p : Part) :
    syncLoss r p = announceLoss r (pendingTakesEffect (Statements.lossReported r p)) := by
  rw [syncLoss, trackerLoss_eq]
  rcases hr with rfl | rfl | rfl | rfl <;> rfl

/-! ### What the blocks keep of a loss -/

theorem Settled.firingLoss (r : LossReason) (p : Part) : Settled p (firingLoss r p) := by
  cases r with
  | gap => exact Settled.firingSyncLoss p
  | cam => exact Settled.firingSyncLoss p
  | stall => exact Settled.firingSyncLoss p
  | _ => exact Settled.refl p

theorem Quiet.announceLoss (r : LossReason) (p : Part) : Quiet p (announceLoss r p) :=
  (((Settled.firingLoss r p).toQuiet.trans (Quiet.setSga _ _)).trans (Quiet.setCxu _ _)).trans
    (Settled.turbineSyncLoss _).toQuiet

theorem announceLoss_atk (r : LossReason) (p : Part) : (announceLoss r p).atk = p.atk := (Settled.firingLoss r p).atk

theorem Quiet.lossReported (r : LossReason) (p : Part) : Quiet p (Statements.lossReported r p) := by
  rw [lossReported_eq]
  exact ⟨rfl, rfl, rfl, fun _ h => h⟩

theorem Quiet.stallWith {loss : LossReason → Part → Part} {p : Part}
    (h : Quiet (report .stalls p) (loss .stall (report .stalls p))) : Quiet p (stallWith loss p) := by
  have counted := (Settled.report .stalls p).toQuiet
  exact (counted.trans (Quiet.ite h (Quiet.refl _))).trans (Quiet.setAtk _ _)

theorem Quiet.announceTuning (p : Part) : Quiet p (announceTuning p) := by
  have lost (q : Part) : Quiet q (Machine.announceLoss .stall (trackerLoss .stall q)) := by
    rw [trackerLoss_eq]
    exact (Quiet.lossReported _ q).trans (Quiet.announceLoss _ _)
  have stalled : Quiet p (if stallDue p = true
      then Machine.stallWith (fun r q => Machine.announceLoss r (trackerLoss r q)) p else p) :=
    Quiet.ite (Quiet.stallWith (lost _)) (Quiet.refl p)
  exact ((stalled.trans (Settled.expireKnockWaits _).toQuiet).trans (Settled.expirePlanAges _).toQuiet).trans
    (Settled.moveTest _).toQuiet

theorem pendingTakesEffect_csh {c : PendingCopy} {p : Part} (h : p.csh.pendingCopy = some c) :
    (pendingTakesEffect p).csh = (Statements.pendingInForce c p).csh := by
  rw [pendingTakesEffect_some h]
  exact (Quiet.announceTuning _).csh

/-- With the tracker STOPPED no stall is due, so a copy put into effect leaves the tracker as it is. -/
theorem pendingTakesEffect_atk {p : Part} (h : p.atk.sync = .stopped) : (pendingTakesEffect p).atk = p.atk := by
  cases hc : p.csh.pendingCopy with
  | none => rw [pendingTakesEffect_none hc]
  | some c =>
    have noStall : stallDue (Statements.pendingInForce c p) = false :=
      Bool.eq_false_iff.mpr fun due => ((stallDue_iff _).mp due).1 h
    rw [pendingTakesEffect_some hc, announceTuning, noStall]
    exact (((Settled.expireKnockWaits _).trans (Settled.expirePlanAges _)).trans (Settled.moveTest _)).atk

/-- With no Pending Copy present the tuning class is announced as its stall, its Knock Waits, its plan ages and the move
test (log 15). -/
theorem announceTuning_eq {p : Part} (h : p.csh.pendingCopy = none) :
    announceTuning p = moveTest (expirePlanAges (expireKnockWaits (stallIfDue p))) := by
  have stalled : stallWith (fun r q => announceLoss r (trackerLoss r q)) p = takeStall p := by
    have none : (report .stalls p).csh.pendingCopy = none := by rw [report, increment_csh, h]
    simp only [takeStall, stallWith, syncLoss_none .stall none, trackerLoss_eq]
  rw [announceTuning, stalled]
  rfl

/-! ### The Firing List after a loss (R64, R68) -/

/-- The misfire half of a SETTLING record is made final with M absent. -/
theorem Record.lost_eq (r : Record) : (if r.state = .settling ∧ r.misfire = none
    then { r with misfire := some (if r.fuel = .cut ∨ r.ignition = .cut then .intended else .unavailable) } else r)
      = r.lost := by
  simp [Record.lost, classWithoutFigure, Record.isCut]

/-- With no decision due, no record that is first of its cylinder is ready. -/
theorem ready_of_nextReady_none {p : Part} (agrees : p.listAgrees) (h : nextReady (fun _ => true) p = none) {c i : Nat}
    {r : Record} (first : Statements.firstRecord p (fun x => x.cylinder = c) i r) : r.ready = false := by
  obtain ⟨xs, ys, e, hc, others⟩ := first
  have listed : (i, r) ∈ p.records := by
    rw [e]
    exact List.mem_append_right _ List.mem_cons_self
  have front : p.firstOf r.cylinder = some i :=
    (firstOf_eq_some agrees e r.cylinder rfl).mpr fun x hx k => others x hx (k.trans hc)
  simpa [front] using List.find?_eq_none.mp h (i, r) listed

theorem listAfterLoss_firingSyncLoss {p q t : Part} (agrees : p.listAgrees) (same : q.flc = p.flc)
    (ht : t.flc = (firingSyncLoss q).flc) : Statements.listAfterLoss p t := by
  have qAgrees : q.listAgrees := by
    simp only [Part.listAgrees, slot_congr same, same]
    exact agrees
  have measuring : q.measuring = p.measuring := by simp only [Part.measuring, Part.findRecord, records_congr same]
  obtain ⟨stay, held, decided⟩ := firingSyncLoss_spec qAgrees
  have tAgrees : (firingSyncLoss q).listAgrees := (Kept.firingSyncLoss q).list qAgrees
  simp only [Statements.listAfterLoss, Statements.firstRecord, Record.lost_eq, slot_congr ht, records_congr ht]
  refine ⟨fun i r hm => firingSyncLoss_measuring (measuring.trans hm), fun i r hs open' => ?_, fun i x hx => ?_,
    fun c i r first => ready_of_nextReady_none tAgrees decided first⟩
  · exact stay i r ((slot_congr same i).trans hs) open'
  · obtain ⟨r, hr, e⟩ := held i x hx
    exact ⟨r, (slot_congr same i).symm.trans hr, e⟩

/-- A sync loss of reason GAP, CAM or STALL with no Pending Copy (R41, R68, R83, R113, R128). -/
theorem lossTaken_syncLoss {r : LossReason} {p : Part} (hr : r = .gap ∨ r = .cam ∨ r = .stall)
    (none : p.csh.pendingCopy = none) : Statements.lossTaken r p (syncLoss r p) := by
  have firing : firingLoss r (Statements.lossReported r p) = firingSyncLoss (Statements.lossReported r p) := by
    rcases hr with rfl | rfl | rfl <;> rfl
  have announced : announceLoss r (Statements.lossReported r p)
      = turbineSyncLoss (contextSyncLoss (segmentSyncLoss (firingSyncLoss (Statements.lossReported r p)))) := by
    rw [announceLoss, firing]
  have settled := Settled.firingSyncLoss (Statements.lossReported r p)
  have raised := Raised.firingSyncLoss (Statements.lossReported r p)
  have block : (Statements.lossReported r p).flc = p.flc ∧ (Statements.lossReported r p).cxu = p.cxu
      ∧ (Statements.lossReported r p).hsu = p.hsu := by
    rw [lossReported_eq]
    exact ⟨rfl, rfl, rfl⟩
  have quiet := (Quiet.lossReported r p).trans (Quiet.announceLoss r _)
  have reported := noticeSet_lossReported r p
  obtain ⟨flc, cxu, hsu⟩ := block
  have list : ∀ t : Part, t.flc = (firingSyncLoss (Statements.lossReported r p)).flc → p.listAgrees →
      Statements.listAfterLoss p t := fun t same agrees => listAfterLoss_firingSyncLoss agrees flc same
  rw [syncLoss_none r none]
  refine ⟨rfl, (announceLoss_atk r _).trans (lossReported_atk r p), ?_⟩
  rw [announced] at quiet ⊢
  have kept := settled.cxu.trans cxu
  generalize firingSyncLoss (Statements.lossReported r p) = x at *
  refine ⟨raised.notices _ reported, list _ rfl, rfl, ?_, congrArg (fun u => u.table.als) kept,
    congrArg (fun u => u.table.launch) kept, rfl, rfl, rfl, (congrArg ContextUnit.lastLoad kept :), rfl, rfl,
    raised.exceeded.trans (congrArg HistoryUnit.exceeded hsu), quiet.csh, quiet.time, quiet.ptu⟩
  rintro c (rfl | rfl | rfl | rfl) <;> rfl

end Sys2Proof.Machine

/-! A tooth in HALF_SYNC or SYNCED, and a stall: what goes on, and what loses sync (R32, R34, R37, R39, R40, R41) -/

namespace Sys2Proof.Machine

/-! ### A tooth is taken (R32, R34) -/

theorem increment_setAtk (k : Nat) (x : Tracker) (p : Part) : increment k (p.setAtk x) = (increment k p).setAtk x := by
  rw [increment_eq (p := p) (q := p.setAtk x) k rfl rfl]
  conv_rhs => rw [increment_self]
  rfl

theorem present_tooth {a : Addr} {d : Word} {s : State} (h : Statements.tapped .tooth a s) :
    present (fullWrite a d) s = s.setPart (takeToothEntry d (Statements.tapOut s a d)) := by
  obtain ⟨granted, monitoring, window⟩ := h
  have w : (Statements.tapOut s a d).windowOf a = some .tooth := window
  rw [fullWrite, present_write a d fullWord granted]
  show s.setPart (deliver (fullWrite a d) (Statements.tapOut s a d)) = _
  rw [deliver, fullWrite]
  dsimp only
  rw [w]
  exact congrArg s.setPart (if_pos ⟨monitoring, rfl⟩)

theorem isGap_iff (p : Part) (i : Nat) :
    isGap p.cfg p.atk.lastInterval i = true ↔ Statements.gapTooth p i := by
  unfold isGap Statements.gapTooth
  cases p.atk.lastInterval <;> simp

/-- The tracker after a taken tooth in HALF_SYNC or SYNCED, before its revolution check: in SYNCED the interval is added to
the accumulators. -/
def turningTooth (p : Part) (t : Stamp) (i : Nat) : Tracker :=
  if p.atk.sync = .synced then Statements.syncedTooth p t i else Statements.toothTaken p t i

theorem takenTooth_turning {p : Part} (turning : p.atk.sync = .halfSync ∨ p.atk.sync = .synced) (t : Stamp) (i : Nat)
    (cam : Bool) : takenTooth t i cam p = checkTooth (isGap p.cfg p.atk.lastInterval i) cam t
      ((increment 512 p).setAtk (turningTooth p t i)) := by
  have counted (x : Tracker) : report .teethTaken (p.setAtk x) = (increment 512 p).setAtk x := increment_setAtk 512 x p
  unfold takenTooth
  rcases turning with sync | sync
  · simp only [counted, turningTooth, sync, Statements.toothTaken, reduceCtorEq, if_false]
  · simp only [counted, turningTooth, sync, Statements.syncedTooth, Statements.toothTaken, accumulate, if_true]

theorem takeToothEntry_later {d : Word} {last : Stamp} {p : Part} (running : p.atk.sync ≠ .stopped)
    (before : p.atk.lastTooth = some last) (later : isLater (toothStamp d) last = true) :
    takeToothEntry d p = takenTooth (toothStamp d) (interval last (toothStamp d)) (toothCam d) p := by
  unfold takeToothEntry
  split
  · next stopped => exact absurd stopped running
  all_goals simp only [before, later, if_true]

section Turning

variable {a : Addr} {d : Word} {last : Stamp} {s : State} (tap : Statements.tapped .tooth a s)
  (turning : s.part.atk.sync = .halfSync ∨ s.part.atk.sync = .synced) (before : s.part.atk.lastTooth = some last)
  (after : 0 < (d.extractLsb' 0 24 - last).toNat) (near : (d.extractLsb' 0 24 - last).toNat < 2 ^ 23)
include tap turning before after near

/-- In HALF_SYNC and SYNCED a tooth later than the last one is taken and meets the revolution check (R32, R37). -/
theorem exec_toothEntry_turning : exec (.toothEntry a d) s = .next (s.setPart (checkTooth
    (isGap s.part.cfg s.part.atk.lastInterval (d.extractLsb' 0 24 - last).toNat) (d.getLsbD 24) (d.extractLsb' 0 24)
    ((increment 512 (Statements.tapOut s a d)).setAtk
      (turningTooth s.part (d.extractLsb' 0 24) (d.extractLsb' 0 24 - last).toNat)))) := by
  have running : s.part.atk.sync ≠ .stopped := fun stopped => by
    rw [stopped] at turning
    exact turning.elim nofun nofun
  have taken := takeToothEntry_later (p := Statements.tapOut s a d) running before
    ((isLater_iff (toothStamp d) last).mpr ⟨after, near⟩)
  rw [exec_of_cycleOf rfl, present_tooth tap, taken, takenTooth_turning (p := Statements.tapOut s a d) turning]
  rfl

end Turning

/-! ### The revolution check (R37) -/

section RevolutionCheck

variable {g : Settings} {pos : Nat}

theorem revCheck_advance (h : pos < g.teeth - g.missing - 1) : revCheck g pos false = .advance := if_pos h

theorem revCheck_earlyGap (h : pos < g.teeth - g.missing - 1) : revCheck g pos true = .earlyGap := if_pos h

theorem revCheck_wrap (h : pos = g.teeth - g.missing - 1) : revCheck g pos true = .wrap := if_neg (by omega)

theorem revCheck_missingGap (h : pos = g.teeth - g.missing - 1) : revCheck g pos false = .missingGap :=
  if_neg (by omega)

end RevolutionCheck

section CheckTooth

variable {gap : Bool} {p : Part}

theorem checkTooth_advance (h : revCheck p.cfg p.atk.revPos gap = .advance) (cam : Bool) (t : Stamp) :
    checkTooth gap cam t p = afterCheck cam t (p.setAtk { p.atk with revPos := p.atk.revPos + 1 }) := by
  rw [checkTooth, h]

theorem checkTooth_wrap_synced (h : revCheck p.cfg p.atk.revPos gap = .wrap) (sync : p.atk.sync = .synced) (cam : Bool)
    (t : Stamp) : checkTooth gap cam t p
      = afterCheck cam t (p.setAtk { p.atk with revPos := 0, revHalf := !p.atk.revHalf }) := by
  simp only [checkTooth, h, sync, if_true]

theorem checkTooth_earlyGap (h : revCheck p.cfg p.atk.revPos gap = .earlyGap) (cam : Bool) (t : Stamp) :
    checkTooth gap cam t p = syncLoss .gap (p.setAtk { p.atk with refGap := some 0 }) := by
  rw [checkTooth, h]

theorem checkTooth_missingGap (h : revCheck p.cfg p.atk.revPos gap = .missingGap) (cam : Bool) (t : Stamp) :
    checkTooth gap cam t p = syncLoss .gap (p.setAtk { p.atk with refGap := none }) := by
  rw [checkTooth, h]

end CheckTooth

theorem turningTooth_revPos (p : Part) (t : Stamp) (i : Nat) : (turningTooth p t i).revPos = p.atk.revPos := by
  unfold turningTooth
  split <;> rfl

/-- The revolution check of a tooth reads the configuration and the position that it found. -/
theorem revCheck_tooth (a : Addr) (d : Word) (s : State) (t : Stamp) (i : Nat) (gap : Bool) :
    revCheck ((increment 512 (Statements.tapOut s a d)).setAtk (turningTooth s.part t i)).cfg
      ((increment 512 (Statements.tapOut s a d)).setAtk (turningTooth s.part t i)).atk.revPos gap
      = revCheck s.part.cfg s.part.atk.revPos gap := by
  rw [Part.setAtk_atk, turningTooth_revPos]
  exact congrArg (fun g => revCheck g _ _) (increment_cfg 512 (Statements.tapOut s a d))

/-- In SYNCED and out of it the tooth differs in the accumulators alone, which a loss of reason GAP clears. -/
theorem syncLoss_gap_turningTooth (ref : Option Nat) (p q : Part) (t : Stamp) (i : Nat) :
    syncLoss .gap (q.setAtk { turningTooth p t i with refGap := ref })
      = syncLoss .gap (q.setAtk { Statements.toothTaken p t i with refGap := ref }) := by
  unfold turningTooth
  split
  · rfl
  · rfl

/-- The rest of the tooth in SYNCED: a marker in the revolution that is not CamHalf's loses sync, every other tooth goes on
to its angle events (R39). -/
theorem afterCheck_synced {p : Part} (sync : p.atk.sync = .synced) (cam : Bool) (t : Stamp) :
    afterCheck cam t p = if cam = true ∧ p.atk.revHalf ≠ decide (p.cfg.camHalf = 1) then syncLoss .cam p
      else emitEvents t p := by
  rw [afterCheck, sync]
  simp

/-! ### A stall (R40) -/

theorem exec_stall_idle {s : State} (quiet : Statements.arbiterQuiet s.part) (h : stallDue s.part = false) :
    exec .stall s = .next s := by
  have idle : stallIfDue s.part = s.part := by rw [stallIfDue, h]; rfl
  show Host.Outcome.next (event stallIfDue s) = _
  rw [event_quiet quiet (by rw [idle]), idle]
  rfl

theorem exec_stall_due {s : State} (h : stallDue s.part = true) :
    exec .stall s = .next (s.setPart (arbitrate (takeStall s.part))) := by
  show Host.Outcome.next (event stallIfDue s) = _
  rw [event, stallIfDue, if_pos h]

/-- In SEEKING nothing was measured: the tracker stops and no loss is made. -/
theorem takeStall_seeking {p : Part} (h : p.atk.sync = .seeking) :
    takeStall p = (increment 516 p).setAtk p.atk.stop := by
  rw [takeStall, stallWith, h]
  show (increment 516 p).setAtk (increment 516 p).atk.stop = _
  rw [increment_atk]

theorem stallWith_turning {p : Part} (loss : LossReason → Part → Part) (h : p.atk.sync = .halfSync ∨ p.atk.sync = .synced) :
    stallWith loss p = (loss .stall (increment 516 p)).setAtk (loss .stall (increment 516 p)).atk.stop := by
  rw [stallWith, decide_eq_true h]
  rfl

theorem Part.setAtk_self {p : Part} {x : Tracker} (h : p.atk = x) : p.setAtk x = p := h ▸ rfl

/-- In HALF_SYNC and SYNCED the loss itself leaves the tracker STOPPED. -/
theorem takeStall_turning {p : Part} (h : p.atk.sync = .halfSync ∨ p.atk.sync = .synced) :
    takeStall p = syncLoss .stall (increment 516 p) := by
  have stopped : (Statements.lostTracker .stall p.atk).stop = Statements.lostTracker .stall p.atk := rfl
  have lost : (syncLoss .stall (increment 516 p)).atk = Statements.lostTracker .stall p.atk := by
    have atk := lossReported_atk .stall (increment 516 p)
    rw [increment_atk] at atk
    rw [syncLoss_eq (.inr (.inr (.inl rfl))), announceLoss_atk, pendingTakesEffect_atk (by rw [atk]; rfl), atk]
  rw [takeStall, stallWith_turning _ h, lost, stopped, Part.setAtk_self lost]

end Sys2Proof.Machine

namespace Sys2Proof.Proofs

open Sys2Proof.Machine Sys2Proof.Statements

/-- Settles O38: both outcomes of the revolution check that a tooth does not survive are a loss of reason GAP. -/
theorem earlyOrMissingGapLosesSync : Obligations.EarlyOrMissingGapLosesSync := by
  intro a d last ref s tap turning before after near i check p
  have reached := exec_toothEntry_turning tap turning before after near
  have lost : checkTooth (isGap s.part.cfg s.part.atk.lastInterval i) (d.getLsbD 24) (d.extractLsb' 0 24)
      ((increment 512 (tapOut s a d)).setAtk (turningTooth s.part (d.extractLsb' 0 24) i)) = syncLoss .gap p := by
    rcases check with ⟨gap, early, rfl⟩ | ⟨plain, due, rfl⟩
    · rw [(isGap_iff _ _).mpr gap, checkTooth_earlyGap ((revCheck_tooth ..).trans (revCheck_earlyGap early))]
      exact syncLoss_gap_turningTooth ..
    · rw [Bool.eq_false_iff.mpr fun gap => plain ((isGap_iff _ _).mp gap),
        checkTooth_missingGap ((revCheck_tooth ..).trans (revCheck_missingGap due))]
      exact syncLoss_gap_turningTooth ..
  refine ⟨by rw [reached, lost], fun none => lossTaken_syncLoss (.inl rfl) ?_⟩
  show (increment 512 (tapOut s a d)).csh.pendingCopy = _
  rw [increment_csh]
  exact none

/-- Settles O42: the revolution check gives the position and the half, and the marker decides between the angle events and a
loss of reason CAM. -/
theorem syncedToothTable : Obligations.SyncedToothTable := by
  intro a d last pos half s tap sync before after near i check k
  have reached := exec_toothEntry_turning tap (.inr sync) before after near
  have synced : turningTooth s.part (d.extractLsb' 0 24) i = syncedTooth s.part (d.extractLsb' 0 24) i := if_pos sync
  have survived : checkTooth (isGap s.part.cfg s.part.atk.lastInterval i) (d.getLsbD 24) (d.extractLsb' 0 24)
      ((increment 512 (tapOut s a d)).setAtk (turningTooth s.part (d.extractLsb' 0 24) i))
        = afterCheck (d.getLsbD 24) (d.extractLsb' 0 24) ((increment 512 (tapOut s a d)).setAtk k) := by
    rcases check with ⟨plain, early, rfl, rfl⟩ | ⟨gap, due, rfl, rfl⟩
    · rw [Bool.eq_false_iff.mpr fun gap => plain ((isGap_iff _ _).mp gap),
        checkTooth_advance ((revCheck_tooth ..).trans (revCheck_advance early)), synced]
      rfl
    · rw [(isGap_iff _ _).mpr gap, checkTooth_wrap_synced ((revCheck_tooth ..).trans (revCheck_wrap due))
        (synced ▸ sync), synced]
      rfl
  have cfg : ((increment 512 (tapOut s a d)).setAtk k).cfg = s.part.cfg := increment_cfg 512 (tapOut s a d)
  rw [reached, survived, afterCheck_synced (p := (increment 512 (tapOut s a d)).setAtk k) sync, cfg]
  refine ⟨fun goesOn => ?_, fun marked other => ?_⟩
  · rw [if_neg]
    rintro ⟨marked, other⟩
    exact goesOn.elim (fun plain => nomatch marked.symm.trans plain) other
  · refine ⟨by rw [if_pos ⟨marked, other⟩], fun none => lossTaken_syncLoss (.inr (.inl rfl)) ?_⟩
    show (increment 512 (tapOut s a d)).csh.pendingCopy = _
    rw [increment_csh]
    exact none

/-- Settles O39: by the state of the tracker; a stall not due is `stallDue_iff`. -/
theorem stallStopsTheTracker : Obligations.StallStopsTheTracker := by
  intro g start s quiet active started off
  have due (running : s.part.atk.sync ≠ .stopped) (late : g.stallTime * 1000 ≤ (s.part.partTime - start).toNat) :
      stallDue s.part = true := (stallDue_iff _).mpr ⟨running, g, start, active, started, late⟩
  refine ⟨fun seeking late => ?_, fun turning late => ?_, fun early => exec_stall_idle quiet
    (Bool.eq_false_iff.mpr fun h => ?_)⟩
  · have stopped : arbitrate ((increment 516 s.part).setAtk off) = (increment 516 s.part).setAtk off := by
      refine arbitrate_quiet ?_
      show arbiterQuiet (increment 516 s.part)
      rw [arbiterQuiet, increment_ptu]
      exact quiet
    rw [exec_stall_due (due (by rw [seeking]; nofun) late), takeStall_seeking seeking]
    exact congrArg (fun p => Host.Outcome.next (s.setPart p)) stopped
  · have running : s.part.atk.sync ≠ .stopped := by rcases turning with h | h <;> rw [h] <;> nofun
    refine ⟨by rw [exec_stall_due (due running late), takeStall_turning turning],
      fun none => lossTaken_syncLoss (.inr (.inr rfl)) ?_⟩
    rw [increment_csh]
    exact none
  · obtain ⟨-, g', start', active', started', late⟩ := (stallDue_iff _).mp h
    cases active.symm.trans active'
    cases started.symm.trans started'
    omega

end Sys2Proof.Proofs

/-! A Pending Copy at a cycle boundary, and what the boundary makes of the blocks (R26, R47, R82, R107, R127, R143) -/

namespace Sys2Proof.Machine

/-! ### A tuning-class Apply while SYNCED (R22, R26) -/

theorem supersedePending_none {p : Part} (h : p.csh.pendingCopy = none) : supersedePending p = p := by
  rw [supersedePending, h]

theorem supersedePending_some {c : PendingCopy} {p : Part} (h : p.csh.pendingCopy = some c) : supersedePending p
    = (p.setCsh { p.csh with
      pendingCopy := none, lastGen := c.generation, lastResult := .superseded, lastReason := none }).setNtu
        ⟨p.ntu.flags ||| 0x200⟩ := by
  rw [supersedePending, h]
  rfl

theorem applyCopy_pending {g : Settings} {p : Part} (tag : BitVec 16) (valid : g.validate (pageBase p.ptu.strap) = none)
    (tuning : classify p.csh.active g = .tuning) (sync : p.atk.sync = .synced) :
    applyCopy g tag p = applyPending g tag p := by
  rw [applyCopy, valid]
  dsimp only
  rw [tuning]
  exact if_pos sync

/-- The report of a Pending Copy discarded is overwritten by that of the new one; CONFIG_RESULT is set by either. -/
theorem applyPending_eq (g : Settings) (tag : BitVec 16) (p : Part) : applyPending g tag p = (p.setCsh { p.csh with
    pendingCopy := some ⟨g, tag⟩, lastGen := tag, lastResult := .pending, lastReason := none }).setNtu
      ⟨p.ntu.flags ||| 0x200⟩ := by
  unfold applyPending
  cases h : p.csh.pendingCopy with
  | none =>
    rw [supersedePending_none h]
    rfl
  | some c =>
    have twice : p.ntu.flags ||| 0x200 ||| 0x200 = p.ntu.flags ||| 0x200 := by
      rw [BitVec.or_assoc]
      rfl
    rw [supersedePending_some h]
    show (p.setCsh _).setNtu ⟨p.ntu.flags ||| 0x200 ||| 0x200⟩ = _
    rw [twice]
    rfl

/-! ### The move test reads and writes the posting alone (R143) -/

theorem moveLoop_congr (n : Nat) {p q : Part} (hp : q.pse = p.pse) (hu : q.ptu = p.ptu) (hc : q.csh = p.csh)
    (ht : q.partTime = p.partTime) : moveLoop n q = (q.setPtu (moveLoop n p).ptu).setPse (moveLoop n p).pse := by
  induction n generalizing p q with
  | zero =>
    show q = (q.setPtu p.ptu).setPse p.pse
    rw [← hp, ← hu]
    rfl
  | succ n ih =>
    have cfg : q.cfg = p.cfg := congrArg (fun c => c.active.getD Settings.blank) hc
    have can : canMove q = canMove p := by
      unfold canMove Part.ringLoad
      rw [hp, hu, cfg]
    unfold moveLoop
    rw [hp, can]
    cases p.pse.postQueue with
    | nil =>
      show q = (q.setPtu p.ptu).setPse p.pse
      rw [← hp, ← hu]
      rfl
    | cons v rest =>
      cases canMove p with
      | false =>
        show q = (q.setPtu p.ptu).setPse p.pse
        rw [← hp, ← hu]
        rfl
      | true =>
        have pse : (moveVerdict v rest q).pse = (moveVerdict v rest p).pse := by
          show ({ q.pse with postQueue := rest, assigned := q.pse.assigned + 1 } : PostEngine) = _
          rw [hp]
          rfl
        have ptu : (moveVerdict v rest q).ptu = (moveVerdict v rest p).ptu := by
          show ({ q.ptu with queue := (q.ptu.queue
            ++ queuedVerdict q.cfg (q.pse.assigned.toNat % q.cfg.ringSize) q.partTime v) } : PassThrough) = _
          rw [hp, hu, cfg, ht]
          rfl
        exact ih pse ptu hc ht

theorem moveTest_congr {p q : Part} (hp : q.pse = p.pse) (hu : q.ptu = p.ptu) (hc : q.csh = p.csh)
    (ht : q.partTime = p.partTime) : moveTest q = (q.setPtu (moveTest p).ptu).setPse (moveTest p).pse := by
  unfold moveTest
  rw [hp]
  exact moveLoop_congr _ hp hu hc ht

/-! ### A count sets no notice but COUNTER_HALF (R132) -/

/-- The notice that an increment of a live counter sets. -/
def halfNotice (k : Nat) (p : Part) : BitVec 13 := if p.liveCounter k = 0x7FFFFFFF then Notice.counterHalf.bit else 0

theorem increment_noticed {p q : Part} (k : Nat) (h : q.stb = p.stb) :
    increment k q = (q.setStb (increment k p).stb).setNtu ⟨q.ntu.flags ||| halfNotice k p⟩ := by
  have live : q.liveCounter k = p.liveCounter k := by rw [Part.liveCounter, Part.liveCounter, h]
  have flags : q.ntu.flags ||| (0 : BitVec 13) = q.ntu.flags := BitVec.or_zero
  unfold increment halfNotice
  dsimp only
  rw [live]
  by_cases top : p.liveCounter k = 0xFFFFFFFF
  · have low : p.liveCounter k ≠ 0x7FFFFFFF := by rw [top]; decide
    rw [if_pos top, if_pos top, if_neg low, flags, ← h]
    rfl
  · rw [if_neg top, if_neg top]
    by_cases half : p.liveCounter k = 0x7FFFFFFF
    · rw [if_pos half, if_pos half, if_pos half]
      show setNotice .counterHalf (q.setStb _) = _
      rw [h]
      rfl
    · rw [if_neg half, if_neg half, if_neg half, flags]
      show q.setStb _ = _
      rw [h]
      rfl

/-! ### The boundary before and after a Pending Copy takes effect (R26, R47) -/

/-- The boundary counted: the engine cycle counter rises, the cycle accumulator starts at 0, one Cycles Synced. -/
def boundaryCounted (p : Part) : Part :=
  (increment 513 p).setAtk { p.atk with engineCycle := p.atk.engineCycle + 1, cycAcc := some 0 }

/-- The boundary and its cycle result taken by the blocks, with engine cycle number `n` and period `period`. -/
def boundaryAnnounced (n : BitVec 32) (period : Option Nat) (p : Part) : Part :=
  turbineBoundary (handCycleResult n period (takeBoundaryInput n p))

theorem cycleBoundary_eq (p : Part) : cycleBoundary p
    = boundaryAnnounced (p.atk.engineCycle + 1) p.atk.cycAcc (pendingTakesEffect (boundaryCounted p)) := by
  rw [boundaryCounted, ← increment_setAtk]
  rfl

theorem boundaryCounted_eq {p q : Part} (h : q.stb = p.stb) : boundaryCounted q
    = ((q.setAtk { q.atk with engineCycle := q.atk.engineCycle + 1, cycAcc := some 0 }).setStb (increment 513 p).stb).setNtu
      ⟨q.ntu.flags ||| halfNotice 513 p⟩ := by
  rw [boundaryCounted, increment_noticed 513 h]
  rfl

theorem Quiet.boundaryCounted (p : Part) : Quiet p (boundaryCounted p) :=
  (Settled.increment 513 p).toQuiet.trans (Quiet.setAtk _ _)

theorem Quiet.boundaryAnnounced (n : BitVec 32) (period : Option Nat) (p : Part) : Quiet p (boundaryAnnounced n period p) := by
  have boundary := Quiet.takeBoundaryInput n p
  have result (r : CycleResult) := boundary.trans (Quiet.takeResultInput n r _)
  exact ((result _).trans (Quiet.setSga _ _)).trans (Settled.turbineBoundary _).toQuiet

theorem stallDue_of_noStallDue {g : Settings} {p : Part} (hg : p.csh.active = some g) (h : Statements.noStallDue g p) :
    stallDue p = false := by
  refine Bool.eq_false_iff.mpr fun due => ?_
  obtain ⟨-, g', start, active, started, late⟩ := (stallDue_iff p).mp due
  cases hg.symm.trans active
  exact absurd (h start started) (Nat.not_lt.mpr late)

/-- With no expiry due under its limits a Pending Copy takes effect with the move test alone. -/
theorem pendingTakesEffect_idle {c : PendingCopy} {p : Part} (h : p.csh.pendingCopy = some c)
    (waits : Statements.noWaitDue c.settings p) (stall : Statements.noStallDue c.settings p) :
    pendingTakesEffect p = moveTest (Statements.pendingInForce c p) := by
  rw [pendingTakesEffect_some h]
  exact announceTuning_idle (g := c.settings) rfl waits (stallDue_of_noStallDue (g := c.settings) rfl stall)

/-- The part in which the configuration that governs a boundary is in force. -/
def governed (p : Part) : Part :=
  match p.csh.pendingCopy with
  | some c => moveTest (Statements.pendingInForce c p)
  | none => p

theorem governed_some {c : PendingCopy} {p : Part} (h : p.csh.pendingCopy = some c) :
    governed p = moveTest (Statements.pendingInForce c p) := by
  rw [governed, h]

theorem governed_none {p : Part} (h : p.csh.pendingCopy = none) : governed p = p := by
  rw [governed, h]

/-- Whether the boundary is counted before or after a Pending Copy takes effect, the part is the same. -/
theorem pendingTakesEffect_boundaryCounted {p : Part}
    (idle : ∀ c, p.csh.pendingCopy = some c → Statements.noWaitDue c.settings p ∧ Statements.noStallDue c.settings p) :
    pendingTakesEffect (boundaryCounted p) = boundaryCounted (governed p) := by
  have csh : (boundaryCounted p).csh = p.csh := (Quiet.boundaryCounted p).csh
  cases h : p.csh.pendingCopy with
  | none => rw [pendingTakesEffect_none (by rw [csh, h]), governed_none h]
  | some c =>
    obtain ⟨waits, stall⟩ := idle c h
    have counted := boundaryCounted_eq (p := p) (q := p) rfl
    rw [pendingTakesEffect_idle (p := boundaryCounted p) (by rw [csh, h]) (by rw [counted]; exact waits)
      (by rw [counted]; exact stall), governed_some h]
    have moved := moveTest_congr (p := Statements.pendingInForce c p)
      (q := Statements.pendingInForce c (boundaryCounted p)) (by rw [counted]; rfl) (by rw [counted]; rfl)
      (by rw [counted]; rfl) (by rw [counted]; rfl)
    have own := moveTest_congr (p := Statements.pendingInForce c p) (q := Statements.pendingInForce c p) rfl rfl rfl rfl
    rw [moved]
    revert own
    generalize moveTest (Statements.pendingInForce c p) = m
    intro own
    have stb : m.stb = p.stb := by rw [own]; rfl
    have flags : m.ntu.flags ||| halfNotice 513 p = p.ntu.flags ||| halfNotice 513 p ||| 0x200 := by
      rw [own, BitVec.or_assoc, BitVec.or_comm (halfNotice 513 p), ← BitVec.or_assoc]
      rfl
    rw [boundaryCounted_eq stb, flags, own, counted]
    rfl

theorem governed_pendingCopy (p : Part) : (governed p).csh.pendingCopy = none := by
  cases h : p.csh.pendingCopy with
  | none => rw [governed_none h, h]
  | some c =>
    rw [governed_some h, (Settled.moveTest _).csh]
    rfl

theorem governed_atk (p : Part) : (governed p).atk = p.atk := by
  cases h : p.csh.pendingCopy with
  | none => rw [governed_none h]
  | some c => rw [governed_some h, (Settled.moveTest _).atk]; rfl

/-- A boundary with no expiry due is the boundary of the part in which the governing configuration is in force. -/
theorem cycleBoundary_governed {p : Part}
    (idle : ∀ c, p.csh.pendingCopy = some c → Statements.noWaitDue c.settings p ∧ Statements.noStallDue c.settings p) :
    cycleBoundary p
      = boundaryAnnounced (p.atk.engineCycle + 1) p.atk.cycAcc (boundaryCounted (governed p)) := by
  rw [cycleBoundary_eq, pendingTakesEffect_boundaryCounted idle]

theorem cycleBoundary_eq_governed {p : Part}
    (idle : ∀ c, p.csh.pendingCopy = some c → Statements.noWaitDue c.settings p ∧ Statements.noStallDue c.settings p) :
    cycleBoundary p = cycleBoundary (governed p) := by
  have none := governed_pendingCopy p
  have counted : (boundaryCounted (governed p)).csh.pendingCopy = Option.none := by
    rw [(Quiet.boundaryCounted _).csh, none]
  rw [cycleBoundary_governed idle, cycleBoundary_eq (governed p), pendingTakesEffect_none counted, governed_atk]

end Sys2Proof.Machine

namespace Sys2Proof.Proofs

open Sys2Proof.Machine Sys2Proof.Statements

/-- Settles O19: the copy becomes pending; at a boundary and at a loss it is in force before the blocks take the event. -/
theorem tuningApplyWhileSyncedPends : Obligations.TuningApplyWhileSyncedPends := by
  refine ⟨fun d g p hd hm sync hg valid hl hgeo ht => ?_, fun p => ⟨supersedePending_none, fun c hc =>
    ⟨supersedePending_some hc, fun c p hc => ⟨?_, pendingTakesEffect_idle hc, ?_, fun waits stall => ?_,
      fun r hr => ⟨syncLoss_eq hr p, ?_⟩⟩⟩⟩⟩
  · have pending : takeCommand 0x00 d p = applyPending (Settings.parse p.csh.staging) (d.extractLsb' 0 16) p := by
      rw [takeCommand_apply hd hm, applyCopy_pending _ valid (hg ▸ classify_tuning hl hgeo ht) sync]
    rw [pending]
    exact ⟨rfl, applyPending_eq _ _ p⟩
  · rw [pendingTakesEffect_some hc, announceTuning_eq rfl]
  · have counted : (boundaryCounted p).csh = p.csh := (Quiet.boundaryCounted p).csh
    have inForce : (pendingInForce c (boundaryCounted p)).csh = (pendingInForce c p).csh := by
      simp only [pendingInForce, Part.setNtu_csh, Part.setCsh_csh, counted]
    rw [cycleBoundary_eq, (Quiet.boundaryAnnounced _ _ _).csh, pendingTakesEffect_csh (by rw [counted, hc]), inForce]
  · rw [← governed_some hc]
    refine cycleBoundary_eq_governed fun x hx => ?_
    cases hc.symm.trans hx
    exact ⟨waits, stall⟩
  · have reported := lossReported_csh r p
    have inForce : (pendingInForce c (lossReported r p)).csh = (pendingInForce c p).csh := by
      simp only [pendingInForce, Part.setNtu_csh, Part.setCsh_csh, reported]
    rw [syncLoss_eq hr p, (Quiet.announceLoss _ _).csh, pendingTakesEffect_csh (by rw [reported, hc]), inForce]

end Sys2Proof.Proofs

/-! What a cycle boundary makes of the blocks, and the advance of the Turbine Rate Block (R47, R82, R107, R127) -/

namespace Sys2Proof.Machine

/-! ### The Turbine Rate Block (R127) -/

section Turbine

variable {p q : Part}

theorem turbineBoundary_counts (h : p.hsu.blockCycles + 1 < p.governing.blockCycles) :
    turbineBoundary p = p.setHsu { p.hsu with blockCycles := p.hsu.blockCycles + 1 } := if_neg (Nat.not_le.mpr h)

theorem turbineBoundary_exceeded (full : p.governing.blockCycles ≤ p.hsu.blockCycles + 1)
    (beyond : p.governing.turbineLimit ≤ p.hsu.blockMisfires) : turbineBoundary p
      = setNotice .turbineRate (p.setHsu { p.hsu with blockCycles := 0, blockMisfires := 0, exceeded := true }) := by
  simp only [turbineBoundary, if_pos full, decide_eq_true beyond, if_true]

theorem turbineBoundary_within (full : p.governing.blockCycles ≤ p.hsu.blockCycles + 1)
    (under : ¬ p.governing.turbineLimit ≤ p.hsu.blockMisfires) : turbineBoundary p
      = p.setHsu { p.hsu with blockCycles := 0, blockMisfires := 0, exceeded := false } := by
  simp only [turbineBoundary, if_pos full, decide_eq_false under]
  rfl

/-- The notice that the advance sets. -/
def turbineNotice (p : Part) : BitVec 13 :=
  if p.governing.blockCycles ≤ p.hsu.blockCycles + 1 ∧ p.governing.turbineLimit ≤ p.hsu.blockMisfires
  then Notice.turbineRate.bit else 0

/-- The advance reads the History Unit and the governing configuration, and sets the History Unit and its notice alone. -/
theorem turbineBoundary_congr (hh : q.hsu = p.hsu) (hg : q.governing = p.governing) :
    turbineBoundary q = (q.setHsu (turbineBoundary p).hsu).setNtu ⟨q.ntu.flags ||| turbineNotice p⟩ := by
  have noNotice : q.ntu.flags ||| (0 : BitVec 13) = q.ntu.flags := BitVec.or_zero
  by_cases full : p.governing.blockCycles ≤ p.hsu.blockCycles + 1
  · by_cases beyond : p.governing.turbineLimit ≤ p.hsu.blockMisfires
    · rw [turbineBoundary_exceeded full beyond, turbineNotice, if_pos ⟨full, beyond⟩,
        turbineBoundary_exceeded (by rwa [hg, hh]) (by rwa [hg, hh]), hh]
      rfl
    · rw [turbineBoundary_within full beyond, turbineNotice, if_neg fun c => beyond c.2,
        turbineBoundary_within (by rwa [hg, hh]) (by rwa [hg, hh]), hh, noNotice]
      rfl
  · rw [turbineBoundary_counts (Nat.not_le.mp full), turbineNotice, if_neg fun c => full c.1,
      turbineBoundary_counts (by rw [hg, hh]; exact Nat.not_le.mp full), hh, noNotice]
    rfl

/-- What a boundary and its advance set, COUNTER_HALF and TURBINE_RATE, from any flags. -/
theorem turbineBoundary_increment_ntu (hs : q.stb = p.stb) (hh : q.hsu = p.hsu) (hg : q.governing = p.governing) (k : Nat) :
    (turbineBoundary (increment k q)).ntu = ⟨q.ntu.flags ||| halfNotice k p ||| turbineNotice p⟩ := by
  rw [increment_noticed k hs]
  generalize hz : (q.setStb _).setNtu _ = z
  rw [turbineBoundary_congr (p := p) (q := z) (by rw [← hz]; exact hh) (by rw [← hz]; exact hg), ← hz]
  rfl

end Turbine

/-! ### The two inputs of a cycle evaluation (R82, R107) -/

/-- With no input held the boundary is held, and the result that follows it makes the cycle evaluation. -/
theorem takeInputs_fresh {p : Part} (n : BitVec 32) (r : CycleResult) (h : p.cxu.heldInput = none) :
    takeResultInput n r (takeBoundaryInput n p) = evaluateCycle p.governing r p := by
  have held : takeBoundaryInput n p = setHeldInput (some ⟨n, none, p.governing⟩) p := by rw [takeBoundaryInput, h]
  have released : setHeldInput none (setHeldInput (some ⟨n, none, p.governing⟩) p) = p := by
    show p.setCxu { p.cxu with heldInput := none } = p
    rw [← h]
    rfl
  rw [held]
  show (if n = n then evaluateCycle p.governing r (setHeldInput none (setHeldInput _ p)) else _) = _
  rw [if_pos rfl, released]

/-- The boundary taken with no input held and no Pending Copy present. -/
theorem boundaryAnnounced_fresh {p : Part} (n : BitVec 32) (period : Option Nat) (held : p.cxu.heldInput = none)
    (none : p.csh.pendingCopy = none) : boundaryAnnounced n period p
      = turbineBoundary ((evaluateCycle p.cfg ⟨p.sga.roughness, period.map p.cfg.cycleRpm, p.sga.prevSpeed⟩ p).setSga
        { p.sga with prevSpeed := period.map p.cfg.cycleRpm, roughness := [] }) := by
  have governing : p.governing = p.cfg := by rw [Part.governing, none]
  have input : takeBoundaryInput n p = setHeldInput (some ⟨n, .none, p.governing⟩) p := by rw [takeBoundaryInput, held]
  have sga (r : CycleResult) : (evaluateCycle p.cfg r p).sga = p.sga := by
    rw [evaluateCycle_congr p.cfg r (p := p) (q := p) rfl rfl]
    rfl
  have cfg : (takeBoundaryInput n p).cfg = p.cfg := by rw [input]; rfl
  have segments : (takeBoundaryInput n p).sga = p.sga := by rw [input]; rfl
  unfold boundaryAnnounced handCycleResult
  dsimp only
  rw [cfg, segments, takeInputs_fresh n _ held, governing, sga]

/-! ### The boundary as a whole (R47) -/

theorem governs_eq (p : Part) : Statements.governs p = p.governing := by
  unfold Statements.governs Part.governing
  cases p.csh.pendingCopy <;> rfl

/-- Putting the governing configuration in force changes the Configuration Shadow, the posting and the flags alone. -/
theorem governed_rest (p : Part) : governed p
    = (((p.setCsh (governed p).csh).setPtu (governed p).ptu).setPse (governed p).pse).setNtu (governed p).ntu := by
  cases h : p.csh.pendingCopy with
  | none =>
    rw [governed_none h]
    rfl
  | some c =>
    have own := moveTest_congr (p := Statements.pendingInForce c p) (q := Statements.pendingInForce c p) rfl rfl rfl rfl
    rw [governed_some h, own]
    rfl

theorem governed_cfg (p : Part) : (governed p).cfg = p.governing := by
  cases h : p.csh.pendingCopy with
  | none => rw [governed_none h, Part.governing, h]
  | some c =>
    rw [governed_some h, Part.cfg, (Settled.moveTest _).csh, Part.governing, h]
    rfl

/-- The cycle evaluation that a boundary makes. -/
def boundaryEvaluated (p : Part) : Part :=
  evaluateCycle p.governing ⟨p.sga.roughness, p.atk.cycAcc.map p.governing.cycleRpm, p.sga.prevSpeed⟩ p

theorem cycleBoundary_fresh {p : Part} (held : p.cxu.heldInput = none)
    (idle : ∀ c, p.csh.pendingCopy = some c → Statements.noWaitDue c.settings p ∧ Statements.noStallDue c.settings p) :
    cycleBoundary p = (((((((governed p).setAtk
      { p.atk with engineCycle := p.atk.engineCycle + 1, cycAcc := some 0 }).setStb (increment 513 p).stb).setCxu
      (boundaryEvaluated p).cxu).setFlc (boundaryEvaluated p).flc).setSga
      { p.sga with prevSpeed := p.atk.cycAcc.map p.governing.cycleRpm, roughness := [] }).setHsu
      (turbineBoundary p).hsu).setNtu ⟨(governed p).ntu.flags ||| halfNotice 513 p ||| turbineNotice p⟩ := by
  have none := governed_pendingCopy p
  have cfg := governed_cfg p
  rw [cycleBoundary_governed idle]
  have rest := governed_rest p
  revert none cfg rest
  generalize governed p = m
  intro none cfg rest
  have blocks : m.atk = p.atk ∧ m.flc = p.flc ∧ m.sga = p.sga ∧ m.cxu = p.cxu ∧ m.hsu = p.hsu ∧ m.stb = p.stb := by
    rw [rest]
    exact ⟨rfl, rfl, rfl, rfl, rfl, rfl⟩
  obtain ⟨atk, flc, sga, cxu, hsu, stb⟩ := blocks
  rw [boundaryCounted_eq stb, atk]
  generalize hy : ((m.setAtk _).setStb _).setNtu _ = y
  have counted : y.cfg = p.governing ∧ y.csh.pendingCopy = .none ∧ y.sga = p.sga ∧ y.flc = p.flc ∧ y.cxu = p.cxu
      ∧ y.hsu = p.hsu := by
    rw [← hy]
    exact ⟨cfg, none, sga, flc, cxu, hsu⟩
  obtain ⟨yCfg, yNone, ySga, yFlc, yCxu, yHsu⟩ := counted
  rw [boundaryAnnounced_fresh _ _ (by rw [yCxu, held]) yNone, yCfg, ySga, evaluateCycle_congr _ _ yFlc yCxu]
  have governing : y.governing = p.governing := by rw [Part.governing, yNone, ← yCfg]
  generalize hz : ((y.setCxu _).setFlc _).setSga _ = z
  have zHsu : z.hsu = p.hsu := by simpa [← hz] using yHsu
  have zGoverning : z.governing = p.governing := by simpa [← hz, Part.governing, Part.cfg] using governing
  rw [turbineBoundary_congr zHsu zGoverning, ← hz, ← hy, boundaryEvaluated]
  simp only [Part.setAtk, Part.setStb, Part.setNtu, Part.setCxu, Part.setFlc, Part.setSga, Part.setHsu]

/-- What putting the governing configuration in force gives the blocks beside the evaluation and the advance. -/
theorem governed_some_blocks {c : PendingCopy} {p : Part} (h : p.csh.pendingCopy = some c) :
    (governed p).csh = (Statements.pendingInForce c p).csh ∧ (governed p).ntu = (Statements.pendingInForce c p).ntu := by
  have own := moveTest_congr (p := Statements.pendingInForce c p) (q := Statements.pendingInForce c p) rfl rfl rfl rfl
  rw [governed_some h, own]
  exact ⟨rfl, rfl⟩

end Sys2Proof.Machine

namespace Sys2Proof.Proofs

open Sys2Proof.Machine Sys2Proof.Statements

/-- Settles O40: the boundary is that of the part in which the governing configuration is in force, and the move test of a
Pending Copy touches the posting alone. -/
theorem cycleBoundaryStartsACycle : Obligations.CycleBoundaryStartsACycle := by
  refine ⟨fun p idle held => ?_, fun p => ⟨turbineBoundary_counts, turbineBoundary_exceeded, turbineBoundary_within⟩⟩
  have boundary := cycleBoundary_fresh held idle
  have rest := governed_rest p
  rw [governs_eq]
  intro b speed evaluated q
  have inForce : (governed p).csh = q.csh ∧ (governed p).ntu = q.ntu ∧ q.stb = p.stb ∧ q.hsu = p.hsu
      ∧ q.governing = p.governing
      ∧ (p.csh.pendingCopy = none → (governed p).ptu = p.ptu ∧ (governed p).pse = p.pse)
      ∧ (p.csh.pendingCopy ≠ none → (governed p).ptu = (moveTest q).ptu ∧ (governed p).pse = (moveTest q).pse) := by
    cases h : p.csh.pendingCopy with
    | none =>
      have same : q = p := by simp only [q, h]
      rw [same, governed_none h]
      exact ⟨rfl, rfl, rfl, rfl, rfl, fun _ => ⟨rfl, rfl⟩, fun c => absurd rfl c⟩
    | some c =>
      have same : q = pendingInForce c p := by simp only [q, h]
      have governing : p.governing = c.settings := by rw [Part.governing, h]
      obtain ⟨csh, ntu⟩ := governed_some_blocks h
      rw [same, governing]
      exact ⟨csh, ntu, rfl, rfl, rfl, nofun, fun _ => by rw [governed_some h]; exact ⟨rfl, rfl⟩⟩
  obtain ⟨csh, ntu, stb, hsu, governing, kept, moved⟩ := inForce
  have evaluation : evaluated = boundaryEvaluated p := rfl
  have made : b = cycleBoundary p := rfl
  have ended : speed = p.atk.cycAcc.map p.governing.cycleRpm := rfl
  clear_value b speed evaluated q
  rw [turbineBoundary_increment_ntu stb hsu governing, ← csh, ← ntu, made, boundary, evaluation, ended]
  have others : (governed p).kna = p.kna ∧ (governed p).partTime = p.partTime := by
    rw [rest]
    exact ⟨rfl, rfl⟩
  simpa [others] using And.intro kept moved

end Sys2Proof.Proofs

/-! The first Apply, Analysis Reset and Disengage (R22, R25, R27 to R29, R42, R69, R83, R84, R100, R102, R114, R129, R147) -/

namespace Sys2Proof.Machine

/-! ### The first Apply (R25, R100, R147) -/

/-- The part with the first configuration in force under its tag, in MONITORING, and ACTIVE reported. -/
def firstInForce (g : Settings) (tag : BitVec 16) (p : Part) : Part :=
  (p.setCsh { p.csh with
    mode := .monitoring, active := some g, activeGen := tag
    lastGen := tag, lastResult := .active, lastReason := none }).setNtu ⟨p.ntu.flags ||| 0x200⟩

theorem applyNow_first (g : Settings) (tag : BitVec 16) {p : Part} (hm : p.csh.mode = .transparent)
    (hc : p.csh.pendingCopy = none) :
    applyNow .layout g tag p = layoutPosting (resetKnock (firstInForce g tag p)) := by
  unfold applyNow
  rw [supersedePending_none hc]
  have mode : (resultReport tag .active none (p.setCsh { p.csh with active := some g, activeGen := tag })).csh.mode
      = .transparent := hm
  dsimp only
  rw [mode]
  rfl

/-- In TRANSPARENT no configuration is in force and no copy is pending, so a validated copy is of the layout class. -/
theorem takeApply_first {d : Word} {p : Part} (modes : p.modesAgree) (hd : d.extractLsb' 0 16 ≠ 0)
    (hm : p.csh.mode = .transparent) (valid : (Settings.parse p.csh.staging).validate (pageBase p.ptu.strap) = none) :
    takeCommand 0x00 d p
      = layoutPosting (resetKnock (firstInForce (Settings.parse p.csh.staging) (d.extractLsb' 0 16) p)) := by
  obtain ⟨inForce, pending, -, -⟩ := modes
  have active : p.csh.active = none := inForce.mp hm
  have none : p.csh.pendingCopy = none := by
    by_contra c
    have monitoring := pending c
    rw [hm] at monitoring
    cases monitoring
  rw [takeApply_copy hd (by rw [hm]; nofun), applyCopy, valid, active]
  exact applyNow_first _ _ hm none

/-- What a layout-class Apply does to the posting of a part, and what it keeps of the blocks behind it. -/
theorem layoutPosting_keeps (p : Part) : ∃ stb ntu queue state, layoutPosting p
      = (((p.setStb stb).setPse ⟨[], 0, 0, 0, state⟩).setQueue queue).setNtu ntu
    ∧ ∀ n, p.noticeSet n = true → (layoutPosting p).noticeSet n = true := by
  obtain ⟨x, ⟨rest, -, notices⟩, made⟩ := layoutPosting_eq p
  have mono : ∀ n, p.noticeSet n = true → (p.setNtu x.ntu).noticeSet n = true := notices
  rw [made, rest]
  split
  · exact ⟨_, _, _, _, rfl, fun n h => noticeSet_setNotice_mono (p := p.setNtu x.ntu) .postStopped (mono n h)⟩
  · exact ⟨_, _, _, _, rfl, mono⟩

end Sys2Proof.Machine

namespace Sys2Proof.Proofs

open Sys2Proof.Machine Sys2Proof.Statements

/-- Settles O18: the first copy is of the layout class, announced to the Knock Analyser and the posting alone. -/
theorem firstApplyBringsMonitoring : Obligations.FirstApplyBringsMonitoring := by
  intro d s granted modes hd hm valid
  have taken := takeApply_first (p := wordOut s 0 d) modes hd hm valid
  refine ⟨_, exec_apply d granted, ?_⟩
  rw [State.setPart_part, State.setPart_sram, taken]
  obtain ⟨stb, ntu, queue, state, made, notices⟩ := layoutPosting_keeps
    (resetKnock (firstInForce (Settings.parse s.part.csh.staging) (d.extractLsb' 0 16) (wordOut s 0 d)))
  have reported := notices .configResult ((noticeSet_setNotice .configResult .configResult s.part).trans rfl)
  have seeded (c : Nat) (low : 1 ≤ c) (high : c ≤ (Settings.parse s.part.csh.staging).cylinders) :
      (resetKnock (firstInForce (Settings.parse s.part.csh.staging) (d.extractLsb' 0 16) (wordOut s 0 d))).reference c
        = Table.readCyl (Settings.parse s.part.csh.staging).seed c 1 := readCyl_seedReferences _ low high
  have staging : (wordOut s 0 d).csh.staging = s.part.csh.staging := rfl
  rw [staging]
  revert reported made
  generalize layoutPosting _ = t
  intro made reported
  rw [made] at reported ⊢
  exact ⟨rfl, reported, seeded, rfl, rfl, rfl, rfl, rfl, rfl, rfl, rfl, rfl, rfl, rfl, rfl, rfl⟩

end Sys2Proof.Proofs

/-! Analysis Reset, Disengage and its end (R27 to R29, R42, R69, R83, R84, R102, R114, R129, R147) -/

namespace Sys2Proof.Machine

/-! ### Analysis Reset (R29) -/

/-- An abandonment of reason RESET is counted as one of reason CONFIG is, and decides as little (R66). -/
theorem abandon_reset (i : Nat) (p : Part) : abandon .reset i p = abandon .config i p := by
  unfold abandon
  cases p.slot i <;> rfl

theorem abandonAll_reset (p : Part) : abandonAll .reset p = abandonAll .config p := by
  simp only [abandonAll, abandon_reset]

/-- What Analysis Reset makes of a part `p` with no Pending Copy: the analysis blocks start again, the rest is kept. -/
structure AnalysisRestarted (p t : Part) : Prop where
  csh : t.csh = p.csh
  ptu : t.ptu = p.ptu
  pse : t.pse = p.pse
  time : t.partTime = p.partTime
  atk : t.atk = { p.atk.stop with lastLoss := .reset }
  order : t.flc.order = []
  slots : ∀ i, t.slot i = none
  nextSeq : t.flc.nextSeq = p.flc.nextSeq
  sga : t.sga = ⟨[], none, [], none⟩
  kna : t.kna = ⟨[], p.kna.commitIndex, [], seedReferences p.cfg, Vector.replicate 4 .reset⟩
  cxu : t.cxu = ⟨.reset, [], 0, none, none⟩
  hsu : t.hsu = ⟨Vector.replicate 8 .reset, 0, 0, false⟩
  snapshot : t.stb.snapshot = p.stb.snapshot
  lost : t.noticeSet .syncLost = true
  notices : ∀ n, p.noticeSet n = true → t.noticeSet n = true

/-- The part after the loss of reason RESET, before its records are abandoned. -/
def resetAnnounced (p : Part) : Part := announceLoss .reset (Statements.lossReported .reset p)

theorem resetAnnounced_eq (p : Part) : ∃ cxu hsu, resetAnnounced p
    = ((((setNotice .syncLost p).setAtk { p.atk.stop with lastLoss := .reset }).setSga ⟨[], none, [], none⟩).setCxu
      cxu).setHsu hsu := ⟨_, _, rfl⟩

theorem takeAnalysisReset_eq {p a : Part} (none : p.csh.pendingCopy = none) (h : abandonAll .config (resetAnnounced p) = a) :
    takeAnalysisReset p
      = ((a.setKna ⟨[], a.kna.commitIndex, [], seedReferences a.cfg, Vector.replicate 4 .reset⟩).setCxu
        ⟨.reset, [], 0, .none, .none⟩).setHsu ⟨Vector.replicate 8 .reset, 0, 0, false⟩ := by
  subst h
  rw [takeAnalysisReset, syncLoss_none _ none, abandonAll_reset]
  rfl

theorem takeAnalysisReset_restarted {p : Part} (agrees : p.listAgrees) (none : p.csh.pendingCopy = none) :
    AnalysisRestarted p (takeAnalysisReset p) := by
  have stillAgrees : (resetAnnounced p).listAgrees := by
    rw [resetAnnounced, ← trackerLoss_eq]
    exact ((Kept.trackerLoss .reset p).trans (Kept.announceLoss .reset _)).list agrees
  obtain ⟨rest, commit, nextSeq, snapshot, notices⟩ := Dropped.abandonAll_config (resetAnnounced p)
  obtain ⟨free, order⟩ := abandonAll_config_empty stillAgrees
  obtain ⟨cxu, hsu, announced⟩ := resetAnnounced_eq p
  have set (n : Notice) : (resetAnnounced p).noticeSet n = (decide (n = .syncLost) || p.noticeSet n) := by
    rw [← noticeSet_setNotice, announced]
    rfl
  generalize ha : abandonAll .config (resetAnnounced p) = a at *
  rw [takeAnalysisReset_eq none ha]
  rw [announced] at rest commit nextSeq snapshot
  have blocks : a.csh = p.csh ∧ a.ptu = p.ptu ∧ a.pse = p.pse ∧ a.partTime = p.partTime
      ∧ a.atk = { p.atk.stop with lastLoss := .reset } ∧ a.sga = ⟨[], .none, [], .none⟩ := by
    rw [rest]
    simp [setNotice]
  obtain ⟨csh, ptu, pse, time, atk, sga⟩ := blocks
  have cfg : a.cfg = p.cfg := by rw [Part.cfg, csh, Part.cfg]
  have kna : (⟨[], a.kna.commitIndex, [], seedReferences a.cfg, Vector.replicate 4 .reset⟩ : KnockAnalyser)
      = ⟨[], p.kna.commitIndex, [], seedReferences p.cfg, Vector.replicate 4 .reset⟩ := by
    rw [cfg, commit]
    rfl
  exact {
    csh := csh, ptu := ptu, pse := pse, time := time, atk := atk, order := order, slots := free, nextSeq := nextSeq
    sga := sga, kna := kna, cxu := rfl, hsu := rfl, snapshot := snapshot
    lost := notices _ ((set .syncLost).trans rfl)
    notices := fun n h => notices n (by rw [set, h, Bool.or_true]) }

namespace AnalysisRestarted

variable {p t : Part} (h : AnalysisRestarted p t)
include h

theorem reference (c : Nat) (low : 1 ≤ c) (high : c ≤ p.cfg.cylinders) :
    t.reference c = Table.readCyl p.cfg.seed c 1 := by
  rw [Part.reference, h.kna]
  exact readCyl_seedReferences p.cfg low high

theorem sensor (x : Nat) : t.sensor x = ⟨.ok, 0, 0, 0⟩ := by
  rw [Part.sensor, h.kna]
  exact Table.read_replicate ..

theorem context (c : Ctx) : t.cxu.table.get c = ⟨.idle, 0, false⟩ := by
  rw [h.cxu]
  exact ContextTable.get_reset c

theorem cylinderHistory (c : Nat) : t.cylinderHistory c = ⟨[], 0, .healthy, false⟩ := by
  rw [Part.cylinderHistory, h.hsu]
  exact Table.readCyl_replicate ..

end AnalysisRestarted

/-! ### Disengage (R27, R28) -/

/-- The Configuration Shadow as Disengage is taken: DISENGAGING, and a Pending Copy discarded as SUPERSEDED. -/
def leavingShadow (c : ConfigShadow) : ConfigShadow :=
  match c.pendingCopy with
  | none => { c with mode := .disengaging }
  | some x => { c with
      mode := .disengaging, pendingCopy := none
      lastGen := x.generation, lastResult := .superseded, lastReason := none }

theorem leavingShadow_none {c : ConfigShadow} (h : c.pendingCopy = none) :
    leavingShadow c = { c with mode := .disengaging } := by
  rw [leavingShadow, h]

theorem leavingShadow_some {c : ConfigShadow} {x : PendingCopy} (h : c.pendingCopy = some x) : leavingShadow c = { c with
    mode := .disengaging, pendingCopy := none
    lastGen := x.generation, lastResult := .superseded, lastReason := none } := by
  rw [leavingShadow, h]

theorem leavingShadow_pendingCopy (c : ConfigShadow) : (leavingShadow c).pendingCopy = none := by
  unfold leavingShadow
  split
  · next h => exact h
  · rfl

theorem leavingShadow_mode (c : ConfigShadow) : (leavingShadow c).mode = .disengaging := by
  unfold leavingShadow
  split <;> rfl

theorem leavingShadow_active (c : ConfigShadow) : (leavingShadow c).active = c.active := by
  unfold leavingShadow
  split <;> rfl

/-- The part as Disengage is announced: both latches are empty and a Pending Copy is discarded. -/
def leavingPart (p : Part) : Part := supersedePending (emptyLatches (p.setCsh { p.csh with mode := .disengaging }))

theorem leavingPart_eq (p : Part) : leavingPart p
    = ((p.setCsh (leavingShadow p.csh)).setPtu { p.ptu with scheduleLatch := none, knockLatch := none }).setNtu
      (leavingPart p).ntu := by
  cases h : p.csh.pendingCopy with
  | none =>
    rw [leavingShadow_none h, leavingPart,
      supersedePending_none (p := emptyLatches (p.setCsh { p.csh with mode := .disengaging })) h]
    rfl
  | some c =>
    rw [leavingShadow_some h, leavingPart,
      supersedePending_some (p := emptyLatches (p.setCsh { p.csh with mode := .disengaging })) h]
    rfl

theorem noticeSet_leavingPart {p : Part} (h : p.csh.pendingCopy ≠ none) :
    (leavingPart p).noticeSet .configResult = true := by
  obtain ⟨c, hc⟩ := Option.ne_none_iff_exists'.mp h
  rw [leavingPart, supersedePending_some (p := emptyLatches (p.setCsh { p.csh with mode := .disengaging })) hc]
  exact (noticeSet_setNotice .configResult .configResult p).trans rfl

theorem takeDisengage_eq (p : Part) :
    takeDisengage p = endIfDrained (discardPostQueue (takeAnalysisReset (leavingPart p))) := rfl

theorem discardPostQueue_eq (p : Part) : ∃ x, Counted p x ∧ discardPostQueue p
    = x.setPse { p.pse with postQueue := [] } := by
  have counted := Counted.reportDropped p.pse.postQueue.length p
  have pse : (reportDropped p.pse.postQueue.length p).pse = p.pse := by
    rw [counted.rest]
    rfl
  refine ⟨_, counted, ?_⟩
  rw [discardPostQueue, pse]

theorem endIfDrained_disengaging {p : Part} (hm : p.csh.mode = .disengaging) :
    endIfDrained p = if p.ptu.queue = [] then finishDisengage p else p := by
  simp only [endIfDrained, hm, true_and]

theorem leavingPart_listAgrees {p : Part} (agrees : p.listAgrees) : (leavingPart p).listAgrees := by
  rw [leavingPart_eq]
  exact agrees

/-- The Configuration Shadow and the Post Engine after Disengage, which ends at once when no word is queued (R28, R147). -/
def disengagedShadow (p : Part) : ConfigShadow :=
  if p.ptu.queue = [] then { leavingShadow p.csh with mode := .transparent, active := none, activeGen := 0 }
  else leavingShadow p.csh

def disengagedPosting (p : Part) : PostEngine :=
  if p.ptu.queue = [] then ⟨[], 0, 0, 0, .running⟩ else { p.pse with postQueue := [] }

/-- Disengage is an Analysis Reset of the part as it is announced, with the posting ended and the shadow left. -/
theorem takeDisengage_shape {p : Part} (agrees : p.listAgrees) : ∃ y stb ntu, AnalysisRestarted (leavingPart p) y
    ∧ stb.snapshot = p.stb.snapshot ∧ (∀ n, y.noticeSet n = true → (y.setNtu ntu).noticeSet n = true)
    ∧ takeDisengage p
      = (((y.setStb stb).setNtu ntu).setCsh (disengagedShadow p)).setPse (disengagedPosting p) := by
  have none : (leavingPart p).csh.pendingCopy = none := by
    rw [leavingPart_eq]
    exact leavingShadow_pendingCopy p.csh
  have restarted := takeAnalysisReset_restarted (leavingPart_listAgrees agrees) none
  obtain ⟨x, ⟨rest, snapshot, notices⟩, discarded⟩ := discardPostQueue_eq (takeAnalysisReset (leavingPart p))
  refine ⟨_, x.stb, x.ntu, restarted, ?_, notices, ?_⟩
  · rw [snapshot, restarted.snapshot, leavingPart_eq]
    rfl
  rw [takeDisengage_eq, discarded]
  generalize takeAnalysisReset (leavingPart p) = y at *
  have csh : y.csh = leavingShadow p.csh := by rw [restarted.csh, leavingPart_eq]; rfl
  have queue : y.ptu.queue = p.ptu.queue := by rw [restarted.ptu, leavingPart_eq]; rfl
  have pse : y.pse = p.pse := by rw [restarted.pse, leavingPart_eq]; rfl
  have xCsh : x.csh = leavingShadow p.csh := by rw [rest, ← csh]; rfl
  have xQueue : x.ptu.queue = p.ptu.queue := by rw [rest, ← queue]; rfl
  rw [endIfDrained_disengaging (by rw [Part.setPse_csh, xCsh, leavingShadow_mode]), Part.setPse_ptu, xQueue, pse,
    disengagedShadow, disengagedPosting]
  split
  · rw [finishDisengage, Part.setPse_csh, xCsh, rest]
    rfl
  · rw [← csh, rest]
    rfl

theorem takeCommand_disengage {p : Part} (d : Word) (hm : p.csh.mode = .monitoring) :
    takeCommand 0x1C d p = takeDisengage p := by
  simp only [takeCommand, hm]
  rfl

theorem takeCommand_disengage_ignored {p : Part} (d : Word) (hm : p.csh.mode ≠ .monitoring) :
    takeCommand 0x1C d p = p := by
  cases mode : p.csh.mode with
  | monitoring => exact absurd mode hm
  | transparent => exact takeCommand_transparent d (by decide) mode
  | disengaging =>
    simp only [takeCommand, mode]
    rfl

theorem takeCommand_analysisReset {p : Part} (d : Word) (hm : p.csh.mode = .monitoring) :
    takeCommand 0x18 d p = takeAnalysisReset p := by
  simp only [takeCommand, hm]
  rfl

end Sys2Proof.Machine

namespace Sys2Proof.Proofs

open Sys2Proof.Machine Sys2Proof.Statements

/-- Settles O20: the loss, the abandonments and the resets of `AnalysisRestarted`, on the part as the command word leaves. -/
theorem analysisResetRestartsJudgement : Obligations.AnalysisResetRestartsJudgement := by
  intro d s granted agrees hm none
  have taken := takeCommand_analysisReset (p := wordOut s 0x18 d) d hm
  have restarted := takeAnalysisReset_restarted (p := wordOut s 0x18 d) agrees none
  refine ⟨_, exec_analysisReset d granted, ?_⟩
  rw [State.setPart_part, State.setPart_sram, taken]
  refine ⟨restarted.atk, restarted.lost, restarted.order, restarted.slots, restarted.nextSeq, restarted.sga, ?_, ?_, ?_,
    fun c low high _ => restarted.reference c low high, restarted.sensor, restarted.context, ?_, restarted.cylinderHistory,
    ?_, restarted.csh, restarted.pse, restarted.ptu, restarted.snapshot, restarted.time, rfl⟩
  · rw [restarted.kna]
  · rw [restarted.kna]
  · rw [restarted.kna]
    rfl
  · rw [restarted.cxu]
  · rw [restarted.hsu]

/-- Settles O21: by the mode; in MONITORING by `takeDisengage_shape`, and by whether a word is queued. -/
theorem disengageAndItsEnd : Obligations.DisengageAndItsEnd := by
  refine ⟨fun d s granted => exec_disengage d granted, fun d p hm => takeCommand_disengage_ignored d hm,
    fun d p agrees hm => ?_, fun s quiet => ⟨fun hm queue => ?_, fun other => ?_⟩⟩
  · intro t leaving
    have left : leaving = leavingShadow p.csh := rfl
    obtain ⟨y, stb, ntu, restarted, snapshot, notices, made⟩ := takeDisengage_shape agrees
    have taken : t = _ := (takeCommand_disengage d hm).trans made
    have cfg : (leavingPart p).cfg = p.cfg := by
      rw [leavingPart_eq]
      exact congrArg (fun a => a.getD Settings.blank) (leavingShadow_active p.csh)
    have reported (pending : p.csh.pendingCopy ≠ none) :=
      notices _ (restarted.notices _ (noticeSet_leavingPart pending))
    have ptu : y.ptu = { p.ptu with scheduleLatch := none, knockLatch := none } := by
      rw [restarted.ptu, leavingPart_eq]
      rfl
    have commit : y.kna.commitIndex = p.kna.commitIndex := by
      rw [restarted.kna, leavingPart_eq]
      rfl
    have time : y.partTime = p.partTime := by
      rw [restarted.time, leavingPart_eq]
      rfl
    have references := restarted.reference
    rw [cfg] at references
    have emptied : (disengagedPosting p).postQueue = [] := by
      unfold disengagedPosting
      split <;> rfl
    clear_value t leaving
    rw [taken, left]
    refine ⟨restarted.order, restarted.slots, emptied, congrArg Tracker.sync restarted.atk,
      congrArg Tracker.lastLoss restarted.atk, notices _ restarted.lost, reported, restarted.sga,
      congrArg KnockAnalyser.frames restarted.kna, congrArg KnockAnalyser.waitList restarted.kna, commit,
      fun c low high _ => references c low high, restarted.sensor, restarted.context,
      congrArg ContextUnit.roughHistory restarted.cxu, congrArg ContextUnit.resyncCount restarted.cxu,
      congrArg ContextUnit.heldInput restarted.cxu, congrArg ContextUnit.lastLoad restarted.cxu,
      restarted.cylinderHistory, congrArg HistoryUnit.blockCycles restarted.hsu,
      congrArg HistoryUnit.blockMisfires restarted.hsu, congrArg HistoryUnit.exceeded restarted.hsu, snapshot, time, ptu,
      fun queued => ⟨if_neg queued, if_neg queued⟩, fun empty => ⟨if_pos empty, if_pos empty⟩⟩
  · have ended : endIfDrained s.part = finishDisengage s.part := if_pos ⟨hm, queue⟩
    show Host.Outcome.next (event endIfDrained s) = _
    rw [event_quiet quiet (by rw [ended]; rfl), ended]
    rfl
  · have idle : endIfDrained s.part = s.part := if_neg other
    show Host.Outcome.next (event endIfDrained s) = _
    rw [event_quiet quiet (by rw [idle]), idle]
    rfl

end Sys2Proof.Proofs

/-! The Angle Tracker: speed figures, the first tooth, the tables of SEEKING and HALF_SYNC, and the angle events of a cycle
position (R32 to R38, R43 to R46, R50, R59, R60, R63, R73, R91, R110) -/

namespace Sys2Proof.Machine

/-! ### Speed (R50) -/

theorem Settings.segmentRpm_eq (g : Settings) (period : Nat) :
    g.segmentRpm period = min 65535 (120000000000 / (g.cylinders * period * g.tickNs)) := rfl

theorem Settings.speedBand_le (g : Settings) (period : Nat) : g.speedBand period ≤ 7 := by
  have bound := bandOf_le g.speedBounds.toList (g.segmentRpm period)
  rwa [Vector.length_toList] at bound

/-! ### A tooth in STOPPED, an old tooth, a tooth in SEEKING (R32, R35, R36) -/

theorem exec_toothEntry {a : Addr} {d : Word} {s : State} (tap : Statements.tapped .tooth a s) :
    exec (.toothEntry a d) s = .next (s.setPart (takeToothEntry d (Statements.tapOut s a d))) := by
  rw [exec_of_cycleOf rfl, present_tooth tap]

theorem takeToothEntry_stopped (d : Word) {p : Part} (h : p.atk.sync = .stopped) :
    takeToothEntry d p = firstTooth (toothStamp d) p := by
  rw [takeToothEntry, h]

theorem takeToothEntry_old {d : Word} {last : Stamp} {p : Part} (running : p.atk.sync ≠ .stopped)
    (before : p.atk.lastTooth = some last) (old : isLater (toothStamp d) last = false) : takeToothEntry d p = p := by
  unfold takeToothEntry
  split
  · next stopped => exact absurd stopped running
  all_goals simp only [before, old, Bool.false_eq_true, if_false]

theorem isLater_eq_false_iff (b a : Stamp) : isLater b a = false ↔ b - a = 0 ∨ 2 ^ 23 ≤ (b - a).toNat := by
  have zero : b - a = 0 ↔ (b - a).toNat = 0 := BitVec.toNat_inj.symm
  rw [Bool.eq_false_iff, Ne, isLater_iff, interval, zero]
  omega

theorem takenTooth_seeking {p : Part} (h : p.atk.sync = .seeking) (t : Stamp) (i : Nat) (cam : Bool) :
    takenTooth t i cam p = seekTooth (isGap p.cfg p.atk.lastInterval i) cam
      ((increment 512 p).setAtk (Statements.toothTaken p t i)) := by
  have counted (x : Tracker) : report .teethTaken (p.setAtk x) = (increment 512 p).setAtk x := increment_setAtk 512 x p
  simp only [takenTooth, counted, h, Statements.toothTaken, reduceCtorEq, if_false]

/-- In SEEKING a tooth later than the last one is taken and goes by the table of SEEKING (R32, R36). -/
theorem exec_toothEntry_seeking {a : Addr} {d : Word} {last : Stamp} {s : State} (tap : Statements.tapped .tooth a s)
    (seeking : s.part.atk.sync = .seeking) (before : s.part.atk.lastTooth = some last)
    (after : 0 < (d.extractLsb' 0 24 - last).toNat) (near : (d.extractLsb' 0 24 - last).toNat < 2 ^ 23) :
    exec (.toothEntry a d) s = .next (s.setPart (seekTooth
      (isGap s.part.cfg s.part.atk.lastInterval (d.extractLsb' 0 24 - last).toNat) (d.getLsbD 24)
      ((increment 512 (Statements.tapOut s a d)).setAtk
        (Statements.toothTaken s.part (d.extractLsb' 0 24) (d.extractLsb' 0 24 - last).toNat)))) := by
  have running : s.part.atk.sync ≠ .stopped := by
    rw [seeking]
    nofun
  have taken := takeToothEntry_later (p := Statements.tapOut s a d) running before
    ((isLater_iff (toothStamp d) last).mpr ⟨after, near⟩)
  rw [exec_toothEntry tap, taken, takenTooth_seeking (p := Statements.tapOut s a d) seeking]
  rfl

section SeekTooth

variable {p : Part} {cam : Bool} {k : Nat}

theorem seekTooth_plain_none (h : p.atk.refGap = none) : seekTooth false cam p = p := by
  simp only [seekTooth, h]

theorem seekTooth_plain_some (h : p.atk.refGap = some k) :
    seekTooth false cam p = p.setAtk { p.atk with refGap := some (min 255 (k + 1)) } := by
  simp only [seekTooth, h]

theorem seekTooth_gap_none (h : p.atk.refGap = none) :
    seekTooth true cam p = p.setAtk { p.atk with refGap := some 0 } := by
  simp only [seekTooth, h]

theorem seekTooth_gap_wrong (h : p.atk.refGap = some k) (wrong : min 255 (k + 1) ≠ p.cfg.teeth - p.cfg.missing) :
    seekTooth true cam p = p.setAtk { p.atk with refGap := some 0 } := by
  simp only [seekTooth, h, if_neg wrong]

theorem seekTooth_gap_confirmed (h : p.atk.refGap = some k)
    (confirmed : min 255 (k + 1) = p.cfg.teeth - p.cfg.missing) : seekTooth true cam p
      = if cam then gainSync (p.setAtk { p.atk with sync := .halfSync, revPos := 0, refGap := none })
        else p.setAtk { p.atk with sync := .halfSync, revPos := 0, refGap := none } := by
  simp only [seekTooth, h, if_pos confirmed]

end SeekTooth

/-- A sync gained under a counted tooth: the marker fixes the half, and the Context Unit takes SYNC_GAINED (R38, R110). -/
theorem gainSync_tooth (s : State) (a : Addr) (d : Word) (x : Tracker) :
    gainSync ((increment 512 (Statements.tapOut s a d)).setAtk x)
      = ((increment 512 (Statements.tapOut s a d)).setAtk { x with
          sync := .synced, revHalf := decide (s.part.cfg.camHalf = 1), boundarySeen := false, segAcc := none
          cycAcc := none }).setCxu { s.part.cxu with resyncCount := 2 } := by
  have cfg : ((increment 512 (Statements.tapOut s a d)).setAtk x).cfg = s.part.cfg :=
    increment_cfg 512 (Statements.tapOut s a d)
  have cxu : (increment 512 (Statements.tapOut s a d)).cxu = s.part.cxu := increment_cxu 512 (Statements.tapOut s a d)
  simp only [gainSync, contextSyncGained, cfg, Part.setAtk_cxu, cxu]
  rfl

/-! ### A tooth in HALF_SYNC (R37, R38) -/

theorem checkTooth_wrap_halfSync {gap : Bool} {p : Part} (h : revCheck p.cfg p.atk.revPos gap = .wrap)
    (sync : p.atk.sync = .halfSync) (cam : Bool) (t : Stamp) :
    checkTooth gap cam t p = afterCheck cam t (p.setAtk { p.atk with revPos := 0 }) := by
  simp only [checkTooth, h, sync, reduceCtorEq, if_false]

theorem afterCheck_halfSync {p : Part} (sync : p.atk.sync = .halfSync) (cam : Bool) (t : Stamp) :
    afterCheck cam t p = if cam then gainSync p else p := by
  rw [afterCheck, sync]

/-! ### The first record in the taking order that passes a test -/

theorem findRecord_of_firstRecord {p : Part} {test : Record → Prop} {check : Record → Bool}
    (agrees : ∀ r, check r = true ↔ test r) {i : Nat} {r : Record} (h : Statements.firstRecord p test i r) :
    p.findRecord check = some (i, r) := by
  obtain ⟨xs, ys, listed, passes, earlier⟩ := h
  refine List.find?_eq_some_iff_append.mpr ⟨(agrees r).mpr passes, xs, ys, listed, fun x hx => ?_⟩
  rw [Bool.not_eq_true', Bool.eq_false_iff]
  exact fun found => earlier x hx ((agrees x.2).mp found)

theorem findRecord_of_none {p : Part} {test : Record → Prop} {check : Record → Bool}
    (agrees : ∀ r, check r = true ↔ test r) (h : ∀ x ∈ p.records, ¬ test x.2) : p.findRecord check = none :=
  List.find?_eq_none.mpr fun x hx found => h x hx ((agrees x.2).mp found)

theorem cylinderInState_iff (c : Nat) (x : RecordState) (r : Record) :
    (r.cylinder == c && decide (r.state = x)) = true ↔ r.cylinder = c ∧ r.state = x := by simp

theorem measuringOf_first {p : Part} {c i : Nat} {r : Record}
    (h : Statements.firstRecord p (fun r => r.cylinder = c ∧ r.state = .measuring) i r) :
    p.measuringOf c = some (i, r) := findRecord_of_firstRecord (cylinderInState_iff c .measuring) h

theorem measuringOf_none {p : Part} {c : Nat} (h : ∀ x ∈ p.records, ¬ (x.2.cylinder = c ∧ x.2.state = .measuring)) :
    p.measuringOf c = none :=
  findRecord_of_none (test := fun r => r.cylinder = c ∧ r.state = .measuring) (cylinderInState_iff c .measuring) h

theorem measuringOf_spec {p : Part} {c i : Nat} {r : Record} (h : p.measuringOf c = some (i, r)) :
    p.slot i = some r ∧ r.cylinder = c ∧ r.state = .measuring := by
  obtain ⟨listed, passes⟩ := findRecord_mem h
  exact ⟨(records_mem listed).2, (cylinderInState_iff c .measuring r).mp passes⟩

/-! ### Segment boundaries (R46, R59, R73) -/

/-- The segment boundary event that the tracker emits for a cylinder (R46). -/
def boundaryEvent (c : Nat) (t : Stamp) (p : Part) : SegmentBoundary :=
  ⟨c, if p.atk.boundarySeen then p.cfg.before c else none, t, p.atk.engineCycle, p.atk.segAcc⟩

/-- The tracker after a segment boundary (R46). -/
def boundaryTracker (k : Tracker) : Tracker :=
  { k with lastPeriod := if k.segAcc.isSome then k.segAcc else k.lastPeriod, segAcc := some 0, boundarySeen := true }

theorem segmentBoundary_eq (c : Nat) (t : Stamp) (p : Part) : segmentBoundary c t p
    = analyseBoundary (boundaryEvent c t p) (firingBoundary (boundaryEvent c t p) (p.setAtk (boundaryTracker p.atk))) := by
  unfold segmentBoundary boundaryTracker
  cases h : p.atk.segAcc <;> simp only [boundaryEvent, h] <;> rfl

theorem segmentBoundary_atk (c : Nat) (t : Stamp) (p : Part) : (segmentBoundary c t p).atk = boundaryTracker p.atk := by
  obtain ⟨-, analysed, -⟩ := analyseBoundary_spec (boundaryEvent c t p)
    (firingBoundary (boundaryEvent c t p) (p.setAtk (boundaryTracker p.atk)))
  rw [segmentBoundary_eq, analysed, (Settled.firingBoundary _ _).atk, Part.setAtk_atk]

theorem segmentBoundary_openSegment (c : Nat) (t : Stamp) (p : Part) :
    (segmentBoundary c t p).sga.openSegment = some (c, p.atk.engineCycle) := by
  obtain ⟨-, -, -, opened⟩ := analyseBoundary_spec (boundaryEvent c t p)
    (firingBoundary (boundaryEvent c t p) (p.setAtk (boundaryTracker p.atk)))
  rw [segmentBoundary_eq, opened]
  rfl

/-- With one record written and no record ready by it, no decision is made (R64). -/
theorem testReady_setSlot_idle {p : Part} {i : Nat} {x : Record} (c : Nat) (others : ∀ y ∈ p.records, y.2.ready = false)
    (own : x.ready = false) : testReady c (setSlot i (some x) p) = setSlot i (some x) p := by
  refine decideLoop_none _ (List.find?_eq_none.mpr fun y hy => ?_)
  have ready : y.2.ready = false := by
    obtain ⟨listed, held⟩ := records_mem hy
    rw [slot_setSlot] at held
    split at held
    · cases held
      exact own
    · exact others y (List.mem_filterMap.mpr ⟨y.1, listed, by rw [held]; rfl⟩)
  simp [ready]

theorem classWithoutFigure_eq (r : Record) : classWithoutFigure r
    = if r.fuel = .cut ∨ r.ignition = .cut then .intended else .unavailable := by
  simp [classWithoutFigure, Record.isCut]

theorem Record.ended_ready {r : Record} (n : Nat) (h : r.knock = none ∨ r.hasNeighbour = true ∧ r.misfire = none) :
    (r.ended n).ready = false := by
  rcases h with knock | ⟨neighbour, misfire⟩
  · simp [Record.ready, Record.ended, knock]
  · simp [Record.ready, Record.ended, neighbour, misfire]

theorem segmentEnd_measuring {e i : Nat} {r : Record} {p : Part} (n : Nat) (h : p.measuringOf e = some (i, r))
    (others : ∀ x ∈ p.records, x.2.ready = false) (open' : r.knock = none ∨ r.hasNeighbour = true ∧ r.misfire = none) :
    segmentEnd e n p = setSlot i (some (r.ended n)) p := by
  simp only [segmentEnd, h]
  exact testReady_setSlot_idle e others (Record.ended_ready n open')

theorem foldl_bit_getLsbD (l : List Ctx) (set : BitVec 6) (c : Ctx) :
    (l.foldl (fun s c => s ||| c.bit) set).getLsbD c.index = (set.getLsbD c.index || decide (c ∈ l)) := by
  induction l generalizing set with
  | nil => simp
  | cons x l ih => simp [ih, Ctx.bit_getLsbD, Bool.or_assoc, eq_comm]

/-- A context is in the active set when it is ACTIVE or HOLDING (R104). -/
theorem activeSet_getLsbD (t : ContextTable) (c : Ctx) :
    t.activeSet.getLsbD c.index = true ↔ (t.get c).state ≠ .idle := by
  rw [ContextTable.activeSet, foldl_bit_getLsbD]
  simp [Ctx.mem_list]

/-! ### Knock window edges (R60, R63, R91) -/

theorem knockCloseEdge_measuring {c i : Nat} {r : Record} {p : Part} (t : Stamp) (h : p.measuringOf c = some (i, r)) :
    knockCloseEdge c t p = windowFix i r t (setSlot i (some { r with closeTime := some t }) p) := by
  simp only [knockCloseEdge, h]

theorem Record.isCut_iff (r : Record) : r.isCut = true ↔ r.fuel = .cut ∨ r.ignition = .cut := by simp [Record.isCut]

/-- A knock report for a MEASURING record whose knock half is open: the half is final, and nothing is decided (R63, R64). -/
theorem takeKnockReport_measuring {i : Nat} {r : Record} {p : Part} (k : KnockReport) (held : p.slot i = some r)
    (measuring : r.state = .measuring) (open' : r.knock = none) :
    takeKnockReport i r.seq k p = setSlot i (some (r.withKnock k)) p := by
  have unsettled : r.state ≠ .settling := by
    rw [measuring]
    nofun
  simp only [takeKnockReport, held, open', and_self, if_true, if_neg unsettled]

/-- A closed frame of a sensor reaches a close time (R91, R92). -/
theorem any_frameReaches_iff (g : Settings) (fs : List Frame) (sensor : Nat) (t : Stamp) :
    (fs.any fun f => f.sensor == sensor && decide (f.state ≠ .filling) && frameReaches g f t) = true
      ↔ ∃ f ∈ fs, f.sensor = sensor ∧ f.state ≠ .filling
        ∧ isLater t (f.start + BitVec.ofNat 24 (f.samples.length * g.samplePeriod)) = false := by
  simp [frameReaches, frameEnd, sampleTime, and_assoc]

theorem windowFix_cut {i : Nat} {r : Record} (t : Stamp) (p : Part) (h : r.isCut = true) :
    windowFix i r t p = takeKnockReport i r.seq ⟨.skipped, none, 0, 0, none⟩ p := if_pos h

theorem windowFix_uncut {i : Nat} {r : Record} {o : Stamp} (t : Stamp) (p : Part) (h : ¬ r.isCut = true)
    (opened : r.openTime = some o) :
    let e : PendingEval := ⟨i, r.seq, r.cylinder, p.cfg.sensorOf r.cylinder, o, t, p.partTime⟩
    windowFix i r t p
      = if (p.kna.frames.any fun f => f.sensor == e.sensor && decide (f.state ≠ .filling) && frameReaches p.cfg f t) = true
        then evaluate e p else p.setKna { p.kna with waitList := p.kna.waitList ++ [e] } := by
  rw [windowFix, if_neg h, opened]
  rfl

/-! ### The angle events of a cycle position (R43 to R45) -/

theorem Settings.mem_cylinderList (g : Settings) (c : Nat) : c ∈ g.cylinderList ↔ 1 ≤ c ∧ c ≤ g.cylinders := by
  rw [Settings.cylinderList, List.mem_range'_1]
  omega

section AngleEvents

variable {g : Settings} {q : Nat}

theorem startingAt_none (h : ∀ c, 1 ≤ c → c ≤ g.cylinders → g.segStart c ≠ q) : g.startingAt q = none :=
  List.find?_eq_none.mpr fun c hc starts =>
    h c ((g.mem_cylinderList c).mp hc).1 ((g.mem_cylinderList c).mp hc).2 (beq_iff_eq.mp starts)

theorem startingAt_some {c : Nat} (low : 1 ≤ c) (high : c ≤ g.cylinders) (starts : g.segStart c = q)
    (only : ∀ x, 1 ≤ x → x ≤ g.cylinders → g.segStart x = q → x = c) : g.startingAt q = some c := by
  cases found : g.startingAt q with
  | none =>
    have missed := List.find?_eq_none.mp found c ((g.mem_cylinderList c).mpr ⟨low, high⟩)
    exact absurd (beq_iff_eq.mpr starts) missed
  | some x =>
    obtain ⟨xlow, xhigh⟩ := (g.mem_cylinderList x).mp (List.mem_of_find?_eq_some found)
    rw [only x xlow xhigh (beq_iff_eq.mp (List.find?_some found :))]

theorem isCycleBoundary_iff : g.isCycleBoundary q = true ↔ ∃ c, g.order.head? = some c ∧ g.segStart c = q := by
  unfold Settings.isCycleBoundary
  cases g.order <;> simp

end AngleEvents

/-- The knock closes of a cycle position, which are emitted only after a segment boundary since the sync (R45, R48). -/
def closesEmitted (t : Stamp) (p : Part) : Part := if p.atk.boundarySeen then emitCloses p.cyclePosition t p else p

theorem closesEmitted_eq (t : Stamp) (p : Part) :
    closesEmitted t p = if p.atk.boundarySeen then emitCloses p.cyclePosition t p else p := rfl

theorem Settled.closesEmitted (t : Stamp) (p : Part) : Settled p (closesEmitted t p) :=
  Settled.ite (Settled.emitCloses _ t p) (Settled.refl p)

theorem cfg_congr {p q : Part} (h : q.csh = p.csh) : q.cfg = p.cfg := by rw [Part.cfg, h, Part.cfg]

/-- At a position that is no segment start there are the knock edges alone (R45). -/
theorem emitEvents_elsewhere {t : Stamp} {p : Part} (plain : p.cfg.isCycleBoundary p.cyclePosition = false)
    (none : p.cfg.startingAt p.cyclePosition = none) : emitEvents t p
      = if p.atk.boundarySeen then emitOpens p.cyclePosition t (closesEmitted t p) else p := by
  have cfg : (closesEmitted t p).cfg = p.cfg := cfg_congr (Settled.closesEmitted t p).csh
  have atk := (Settled.closesEmitted t p).atk
  have events : emitEvents t p = if (closesEmitted t p).atk.boundarySeen
      then emitOpens p.cyclePosition t (closesEmitted t p) else closesEmitted t p := by
    rw [emitEvents]
    simp only [← closesEmitted_eq, cfg, plain, none, Bool.false_eq_true, if_false]
  rw [events, atk]
  cases seen : p.atk.boundarySeen with
  | true => rfl
  | false =>
    show closesEmitted t p = p
    rw [closesEmitted, seen]
    rfl

/-- At a segment start the boundary that it makes sets the boundary flag, so the knock opens are emitted (R45, R46). -/
theorem emitEvents_segmentStart {t : Stamp} {p : Part} {c : Nat} (none : p.csh.pendingCopy = none)
    (starts : p.cfg.startingAt p.cyclePosition = some c) : emitEvents t p
      = emitOpens p.cyclePosition t (segmentBoundary c t
          (if p.cfg.isCycleBoundary p.cyclePosition then cycleBoundary (closesEmitted t p) else closesEmitted t p)) := by
  have settled := Settled.closesEmitted t p
  have cfg : (closesEmitted t p).cfg = p.cfg := cfg_congr settled.csh
  have quiet : Quiet (closesEmitted t p)
      (if p.cfg.isCycleBoundary p.cyclePosition then cycleBoundary (closesEmitted t p) else closesEmitted t p) :=
    Quiet.ite (Quiet.cycleBoundary _ (by rw [settled.csh, none])) (Quiet.refl _)
  have cfg' := (cfg_congr quiet.csh).trans cfg
  rw [emitEvents]
  simp only [← closesEmitted_eq, cfg, cfg', starts, segmentBoundary_atk, boundaryTracker, if_true]

end Sys2Proof.Machine

namespace Sys2Proof.Proofs

open Sys2Proof.Machine Sys2Proof.Statements

/-- Settles O41: the speed of a segment is that of a cycle of N such segments, and there are seven boundaries. -/
theorem engineSpeedAndBand : Obligations.EngineSpeedAndBand := fun g period =>
  ⟨g.segmentRpm_eq period, rfl, rfl, g.speedBand_le period⟩

/-- Settles O35: by the state of the tracker; a tooth that is not later is at interval 0 or at half the range or more. -/
theorem firstToothIsTakenAndOldToothIgnored : Obligations.FirstToothIsTakenAndOldToothIgnored := by
  intro a d s tap
  refine ⟨fun stopped => ?_, fun last running before old => ?_⟩
  · rw [exec_toothEntry tap, takeToothEntry_stopped (p := tapOut s a d) d stopped]
    rfl
  · have notLater : isLater (toothStamp d) last = false := (isLater_eq_false_iff _ _).mpr old
    rw [exec_toothEntry tap, takeToothEntry_old (p := tapOut s a d) running before notLater]

/-- Settles O36: by the gap test and the reference gap; the confirming gap tooth goes on to `gainSync` with a marker. -/
theorem seekingToothTable : Obligations.SeekingToothTable := by
  intro a d last s tap seeking before after near i k answer
  have reached : exec (.toothEntry a d) s = .next (s.setPart (seekTooth (isGap s.part.cfg s.part.atk.lastInterval i)
      (d.getLsbD 24) ((increment 512 (tapOut s a d)).setAtk k))) := exec_toothEntry_seeking tap seeking before after near
  have cfg : ((increment 512 (tapOut s a d)).setAtk k).cfg = s.part.cfg := increment_cfg 512 (tapOut s a d)
  have plain (h : ¬ gapTooth s.part i) : isGap s.part.cfg s.part.atk.lastInterval i = false :=
    Bool.eq_false_iff.mpr fun gap => h ((isGap_iff _ _).mp gap)
  have gap (h : gapTooth s.part i) : isGap s.part.cfg s.part.atk.lastInterval i = true := (isGap_iff _ _).mpr h
  have ref {x : Option Nat} (h : s.part.atk.refGap = x) :
      ((increment 512 (tapOut s a d)).setAtk k).atk.refGap = x := h
  have answered {x : Tracker} (table : seekTooth (isGap s.part.cfg s.part.atk.lastInterval i) (d.getLsbD 24)
      ((increment 512 (tapOut s a d)).setAtk k) = (increment 512 (tapOut s a d)).setAtk x) : answer x :=
    reached.trans (by rw [table])
  refine ⟨fun h none => answered ?_, fun n h counted => answered ?_, fun h none => answered ?_,
    fun n h counted wrong => answered ?_, fun n h counted confirmed => ?_⟩
  · rw [plain h]
    exact seekTooth_plain_none (ref none)
  · rw [plain h]
    exact seekTooth_plain_some (ref counted)
  · rw [gap h]
    exact seekTooth_gap_none (ref none)
  · rw [gap h]
    exact seekTooth_gap_wrong (ref counted) (by rwa [cfg])
  · have half := seekTooth_gap_confirmed (cam := d.getLsbD 24) (ref counted) (by rwa [cfg])
    refine ⟨fun unmarked => answered ?_, fun marked => ?_⟩
    · rw [gap h, half, unmarked]
      rfl
    · rw [reached, gap h, half, marked]
      exact congrArg (fun p => Host.Outcome.next (s.setPart p))
        (gainSync_tooth s a d { k with sync := .halfSync, revPos := 0, refGap := none })

/-- Settles O37: the revolution check gives the position, and a marker gains sync. -/
theorem halfSyncToothAdvancesOrSyncs : Obligations.HalfSyncToothAdvancesOrSyncs := by
  intro a d last pos s tap half before after near i check k
  have reached := exec_toothEntry_turning tap (.inl half) before after near
  have unsynced : turningTooth s.part (d.extractLsb' 0 24) i = toothTaken s.part (d.extractLsb' 0 24) i :=
    if_neg (by rw [half]; nofun)
  have survived : checkTooth (isGap s.part.cfg s.part.atk.lastInterval i) (d.getLsbD 24) (d.extractLsb' 0 24)
      ((increment 512 (tapOut s a d)).setAtk (turningTooth s.part (d.extractLsb' 0 24) i))
        = afterCheck (d.getLsbD 24) (d.extractLsb' 0 24) ((increment 512 (tapOut s a d)).setAtk k) := by
    rcases check with ⟨plain, early, rfl⟩ | ⟨gap, due, rfl⟩
    · rw [Bool.eq_false_iff.mpr fun gap => plain ((isGap_iff _ _).mp gap),
        checkTooth_advance ((revCheck_tooth ..).trans (revCheck_advance early)), unsynced]
      rfl
    · rw [(isGap_iff _ _).mpr gap, checkTooth_wrap_halfSync ((revCheck_tooth ..).trans (revCheck_wrap due))
        (unsynced ▸ half), unsynced]
      rfl
  rw [reached, survived, afterCheck_halfSync (p := (increment 512 (tapOut s a d)).setAtk k) half]
  refine ⟨fun unmarked => ?_, fun marked => ?_⟩
  · rw [unmarked]
    rfl
  · rw [marked]
    exact congrArg (fun p => Host.Outcome.next (s.setPart p)) (gainSync_tooth s a d k)

/-- Settles O22: the boundary's equation and what the Segment Analyser keeps; then the first record that each event finds. -/
theorem segmentBoundaryAndKnockEdges : Obligations.SegmentBoundaryAndKnockEdges := by
  refine ⟨fun c t p => ?_, fun e n p => ⟨fun h => ?_, fun i r first others open' => ?_⟩,
    fun b p => ⟨fun h => ?_, activeSet_getLsbD _, fun i r first => ?_⟩,
    fun c t p => ⟨fun h => ?_, fun i r first => ?_⟩⟩
  · exact ⟨segmentBoundary_eq c t p, segmentBoundary_atk c t p, segmentBoundary_openSegment c t p⟩
  · rw [segmentEnd, measuringOf_none h]
  · rw [segmentEnd_measuring n (measuringOf_first first) others open', Record.ended, classWithoutFigure_eq]
    rfl
  · rw [segmentStart, findRecord_of_none (test := fun r => r.cylinder = b.starting ∧ r.state = .planned)
      (cylinderInState_iff b.starting .planned) h]
  · rw [segmentStart, findRecord_of_firstRecord (cylinderInState_iff b.starting .planned) first]
    rfl
  · rw [knockOpenEdge, knockCloseEdge, measuringOf_none h]
    exact ⟨rfl, rfl⟩
  · have found := measuringOf_first first
    obtain ⟨held, rfl, measuring⟩ := measuringOf_spec found
    have lt : i < 24 := slot_some_lt (p := p) (by rw [held]; rfl)
    refine ⟨by rw [knockOpenEdge, found]; rfl, fun cut open' => ?_, fun o uncut opened => ?_⟩
    · have closed : (setSlot i (some { r with closeTime := some t }) p).slot i = some { r with closeTime := some t } := by
        rw [slot_setSlot, if_pos ⟨rfl, lt⟩]
      rw [knockCloseEdge_measuring t found, windowFix_cut t _ (r.isCut_iff.mpr cut)]
      exact (takeKnockReport_measuring _ closed measuring open').trans (setSlot_setSlot i _ _ p)
    · have fixed := windowFix_uncut (i := i) t (setSlot i (some { r with closeTime := some t }) p)
        (fun cut => uncut (r.isCut_iff.mp cut)) opened
      have reaches := any_frameReaches_iff p.cfg p.kna.frames (p.cfg.sensorOf r.cylinder) t
      rw [knockCloseEdge_measuring t found]
      exact ⟨fun reached => fixed.trans (if_pos (reaches.mpr reached)),
        fun missed => fixed.trans (if_neg fun reached => missed (reaches.mp reached))⟩

/-- Settles O7: by whether a segment starts at the position; the knock closes, and with no Pending Copy the cycle boundary,
keep the configuration that the later events read. -/
theorem angleEventsInTheirOrder : Obligations.AngleEventsInTheirOrder := by
  intro t p none firing g q start edges closes opens closed
  have emitted : closesEmitted t p = closed := rfl
  have opened {x : Part} (csh : x.csh = p.csh) : emitOpens q t x = opens x := by
    rw [emitOpens, cfg_congr csh]
    rfl
  have kept : closed.csh = p.csh := (Settled.closesEmitted t p).csh
  have ranged {x : Nat} (h : g.order.head? = some x) := firing x (List.mem_of_mem_head? h)
  refine ⟨fun nowhere => ?_, fun c low high starts only => ?_⟩
  · have plain : p.cfg.isCycleBoundary p.cyclePosition = false := by
      refine Bool.eq_false_iff.mpr fun boundary => ?_
      obtain ⟨x, first, starts⟩ := isCycleBoundary_iff.mp boundary
      exact nowhere x (ranged first).1 (ranged first).2 starts
    rw [emitEvents_elsewhere plain (startingAt_none nowhere), ← opened kept]
    rfl
  · have events := emitEvents_segmentStart (t := t) none (startingAt_some low high starts only)
    rw [emitted] at events
    refine ⟨fun first => ?_, fun other => ?_⟩
    · have boundary : p.cfg.isCycleBoundary p.cyclePosition = true := isCycleBoundary_iff.mpr ⟨c, first, starts⟩
      have csh : (segmentBoundary c t (cycleBoundary closed)).csh = p.csh :=
        (Quiet.segmentBoundary c t _).csh.trans ((Quiet.cycleBoundary closed (by rw [kept, none])).csh.trans kept)
      rw [events, if_pos boundary, ← opened csh]
      rfl
    · have plain : ¬ p.cfg.isCycleBoundary p.cyclePosition = true := fun boundary => by
        obtain ⟨x, first, starts'⟩ := isCycleBoundary_iff.mp boundary
        exact other ((only x (ranged first).1 (ranged first).2 starts') ▸ first)
      rw [events, if_neg plain, ← opened ((Quiet.segmentBoundary c t closed).csh.trans kept)]
      rfl

end Sys2Proof.Proofs

/-! The taking order along a step; which record is decided next, and what a decision makes of the part (R52, R54, R64,
R65, R133, R134, R141) -/

namespace Sys2Proof.Machine

/-! ### The record decided next (R64) -/

/-- A listed record is the first of its cylinder when its slot is the first found. -/
theorem firstOf_iff_firstRecord {p : Part} (agrees : p.listAgrees) {i : Nat} {r : Record}
    (listed : (i, r) ∈ p.records) :
    p.firstOf r.cylinder = some i ↔ Statements.firstRecord p (fun x => x.cylinder = r.cylinder) i r := by
  constructor
  · intro front
    obtain ⟨xs, ys, split⟩ := List.append_of_mem listed
    exact ⟨xs, ys, split, rfl, (firstOf_eq_some agrees split _ rfl).mp front⟩
  · rintro ⟨xs, ys, split, -, earlier⟩
    exact (firstOf_eq_some agrees split _ rfl).mpr earlier

theorem decisionDue_listed {p : Part} {i : Nat} {r : Record} (due : Statements.decisionDue p i r) :
    (i, r) ∈ p.records := by
  obtain ⟨-, xs, ys, split, -⟩ := due
  rw [split]
  exact List.mem_append_right _ List.mem_cons_self

/-- The test of the decision loop selects a listed record whose decision is due. -/
theorem nextReady_test_iff {p : Part} (agrees : p.listAgrees) (sel : Nat → Bool) {x : Nat × Record}
    (listed : x ∈ p.records) :
    (sel x.2.cylinder && x.2.ready && p.firstOf x.2.cylinder == some x.1) = true
      ↔ sel x.2.cylinder = true ∧ Statements.decisionDue p x.1 x.2 := by
  rw [Bool.and_eq_true, Bool.and_eq_true, beq_iff_eq, firstOf_iff_firstRecord agrees listed, and_assoc,
    Statements.decisionDue]

theorem nextReady_eq_none_iff {p : Part} (agrees : p.listAgrees) (sel : Nat → Bool) :
    nextReady sel p = none ↔ ∀ i r, sel r.cylinder = true → ¬ Statements.decisionDue p i r := by
  rw [nextReady, List.find?_eq_none]
  constructor
  · intro untaken i r selected due
    have listed := decisionDue_listed due
    exact untaken (i, r) listed ((nextReady_test_iff agrees sel listed).mpr ⟨selected, due⟩)
  · intro idle x listed taken
    obtain ⟨selected, due⟩ := (nextReady_test_iff agrees sel listed).mp taken
    exact idle x.1 x.2 selected due

/-- The first record of the taking order that is selected and due is decided next. -/
theorem nextReady_first {p : Part} (agrees : p.listAgrees) {sel : Nat → Bool} {xs ys : List (Nat × Record)} {i : Nat}
    {r : Record} (split : p.records = xs ++ (i, r) :: ys) (selected : sel r.cylinder = true)
    (due : Statements.decisionDue p i r)
    (earlier : ∀ x ∈ xs, sel x.2.cylinder = true → ¬ Statements.decisionDue p x.1 x.2) :
    nextReady sel p = some (i, r) := by
  refine List.find?_eq_some_iff_append.mpr
    ⟨(nextReady_test_iff agrees sel (decisionDue_listed due)).mpr ⟨selected, due⟩, xs, ys, split, fun x hx => ?_⟩
  have listed : x ∈ p.records := split ▸ List.mem_append_left _ hx
  rw [Bool.not_eq_true', Bool.eq_false_iff]
  intro taken
  obtain ⟨chosen, ready⟩ := (nextReady_test_iff agrees sel listed).mp taken
  exact earlier x hx chosen ready

/-- The record of a cylinder that is due is the one that its readiness test decides. -/
theorem nextReady_cylinder {p : Part} (agrees : p.listAgrees) {i : Nat} {r : Record}
    (due : Statements.decisionDue p i r) :
    nextReady (fun c => c == r.cylinder) p = some (i, r) := by
  obtain ⟨ready, xs, ys, split, same, earlier⟩ := due
  refine nextReady_first agrees split (beq_self_eq_true _) ⟨ready, xs, ys, split, same, earlier⟩ fun x hx chosen _ => ?_
  exact earlier x hx (beq_iff_eq.mp chosen)

/-- A readiness test ends with no selected record due. -/
theorem not_decisionDue_decideLoop {p : Part} (agrees : p.listAgrees) {sel : Nat → Bool} {i : Nat} {r : Record}
    (selected : sel r.cylinder = true) : ¬ Statements.decisionDue (decideLoop sel Config.slotCount p) i r :=
  (nextReady_eq_none_iff ((Kept.decideLoop sel _ p).list agrees) sel).mp
    (nextReady_decideLoop sel _ p (order_length_le agrees)) i r selected

/-! ### A decided record leaves the list (R54, R65) -/

theorem counts_decideRecord (i : Nat) (r : Record) (p : Part) : (decideRecord i r p).flc.counts
    = Table.writeCyl p.flc.counts r.cylinder (p.recordCount r.cylinder - 1) := by
  obtain ⟨x, same, left⟩ := decideRecord_eq i r p
  rw [left, Part.recordCount, ← same]
  rfl

theorem nextSeq_decideRecord (i : Nat) (r : Record) (p : Part) : (decideRecord i r p).flc.nextSeq = p.flc.nextSeq := by
  obtain ⟨x, same, left⟩ := decideRecord_eq i r p
  rw [left, ← same]
  rfl

/-- A record that leaves the list makes the reserve in use follow the counts. -/
theorem reserveInUse_leaveList (i c : Nat) (p : Part) :
    (leaveList i c p).flc.reserveInUse = reserveOf p.cfg.allotment (leaveList i c p).flc.counts := rfl

theorem reserveInUse_decideRecord (i : Nat) (r : Record) (p : Part) :
    (decideRecord i r p).flc.reserveInUse = reserveOf p.cfg.allotment (decideRecord i r p).flc.counts := by
  have csh := (Settled.decideRecord i r p).csh
  obtain ⟨x, -, left⟩ := decideRecord_eq i r p
  rw [left] at csh
  have cfg : x.cfg = p.cfg := congrArg (fun y : ConfigShadow => y.active.getD Settings.blank) csh
  rw [left, reserveInUse_leaveList, cfg]

theorem Record.ready_iff (r : Record) : r.ready = true ↔ r.state = .settling ∧ r.misfire ≠ none ∧ r.knock ≠ none := by
  simp [Record.ready, Option.isSome_iff_ne_none, and_assoc]

/-! ### What a decision counts and posts (R133, R134, R141) -/

theorem MisfireClass.judged_iff (m : MisfireClass) : m.judged = true ↔ m = .none ∨ m = .weak ∨ m = .misfire := by
  cases m <;> decide

theorem KnockClass.judged_iff (k : KnockClass) : k.judged = true ↔ k = .none ∨ k = .light ∨ k = .heavy := by
  cases k <;> decide

theorem filter_cons_ite {α : Type} (t : α → Bool) (a : α) (l : List α) :
    (a :: l).filter t = (if t a = true then [a] else []) ++ l.filter t := by
  rw [List.filter_cons]
  split <;> rfl

/-- The kinds that a decided record increments, by their numbers. -/
theorem countedKinds_index (d : Decided) : (countedKinds d).map ClassKind.index
    = [0, 1, 2, 3, 4, 5, 6, 7].filter fun k => decide (Statements.counted d k) := by
  simp only [filter_cons_ite, List.filter_nil, countedKinds, List.map_append, apply_ite (List.map ClassKind.index),
    List.map_cons, List.map_nil, ClassKind.index, Statements.counted, ← MisfireClass.judged_iff,
    ← KnockClass.judged_iff, decide_eq_true_eq, Bool.and_eq_true, Bool.or_eq_true, Bool.not_eq_true',
    List.append_nil, List.append_assoc]
  simp

theorem countRecord_eq (d : Decided) (p : Part) : countRecord d p
    = ([0, 1, 2, 3, 4, 5, 6, 7].filter fun k => decide (Statements.counted d k)).foldl
        (fun p k => increment (((d.record.cylinder - 1) * 8 + d.speedBand) * 8 + k) p) p := by
  rw [← countedKinds_index, List.foldl_map]
  rfl

theorem isPosted_exceptions (d : Decided) : isPosted .exceptions d = true
    ↔ (d.misfireClass = .misfire ∨ d.misfireClass = .weak ∨ d.misfireClass = .unavailable)
      ∨ d.knockClass = .light ∨ d.knockClass = .heavy ∨ d.knockClass = .unavailable ∨ d.knockClass = .sensorFault := by
  simp [isPosted]

end Sys2Proof.Machine

namespace Sys2Proof.Proofs

open Sys2Proof.Machine Sys2Proof.Statements

/-- Settles O59: part time touches no list, power-on reset empties it, and every other command keeps the agreement. -/
theorem everyStepKeepsTakingOrderTrue : Obligations.EveryStepKeepsTakingOrderTrue := by
  intro s t agrees h
  have kept : t.part.listAgrees := by
    obtain rfl | ⟨rest, ⟨strap, rfl⟩ | kept⟩ := step_cases h
    · exact agrees
    · exact Part.powerOn_listAgrees strap
    · exact kept.part.list agrees
  exact ⟨kept, order_length_le kept⟩

/-- Settles O47: a decision is its hand-offs and `leaveList`; the loop of a readiness test takes the due record that
comes first, and ends with none due. -/
theorem decisionFreesTheSlot : Obligations.DecisionFreesTheSlot := by
  refine ⟨fun i r p held => ?_, Record.ready_iff, fun c p agrees => ⟨fun idle => ?_, fun i r same due => ?_, ?_⟩,
    fun p agrees => ⟨fun idle => ?_, fun xs i r ys split due earlier => ?_, ?_⟩,
    fun d p => ⟨countRecord_eq d p, ?_, ?_⟩⟩
  · intro q d
    have kept := Settled.decideRecord i r p
    refine ⟨rfl, rfl, rfl, rfl, rfl, fun m final => ?_, fun k final => ?_, ?_, fun j other => ?_, ?_,
      counts_decideRecord i r p, reserveInUse_decideRecord i r p, nextSeq_decideRecord i r p, kept.csh, kept.atk,
      kept.cxu, kept.sga⟩
    · show r.misfire.getD .unavailable = m
      rw [final]
      rfl
    · show r.knock.getD .unavailable = k
      rw [final]
      rfl
    · exact (slot_decideRecord i i r p).trans (if_pos rfl)
    · exact (slot_decideRecord i j r p).trans (if_neg other.symm)
    · rw [order_decideRecord]
      exact List.filter_congr fun j _ => by rw [bne, decide_not, beq_eq_decide]
  · exact decideLoop_none _ ((nextReady_eq_none_iff agrees _).mpr fun i r chosen => idle i r (beq_iff_eq.mp chosen))
  · subst same
    exact decideLoop_step agrees (nextReady_cylinder agrees due)
  · exact fun i r same => not_decisionDue_decideLoop agrees (beq_iff_eq.mpr same)
  · exact decideLoop_none _ ((nextReady_eq_none_iff agrees _).mpr fun i r _ => idle i r)
  · exact decideLoop_step agrees (nextReady_first agrees split rfl due fun x hx _ => earlier x hx)
  · exact fun i r => not_decisionDue_decideLoop agrees rfl
  · intro posted exception
    refine ⟨fun policy => ?_, fun policy => ?_, fun policy => ?_⟩
    · have all : p.cfg.policy = .all := by simp only [Settings.policy, policy]
      rw [postVerdict, all]
      rfl
    · have exceptions : p.cfg.policy = .exceptions := by simp only [Settings.policy, policy]
      rw [postVerdict, exceptions]
      exact ⟨fun h => if_pos ((isPosted_exceptions d).mpr h), fun h => if_neg fun k => h ((isPosted_exceptions d).mp k)⟩
    · have none : p.cfg.policy = .none := by simp only [Settings.policy, policy]
      rw [postVerdict, none]
      rfl
  · rfl

end Sys2Proof.Proofs

/-! A plan age expiry: the stale records leave the list one after another (R54, R66, R67) -/

namespace Sys2Proof.Machine

/-! ### An event with no held cycle to release (R13) -/

/-- With the port busy or no cycle held, the arbiter's decision sets the PTU alone. -/
theorem arbitrate_setPtu {p : Part} (h : p.ptu.port ≠ .free ∨ p.ptu.held = none) : ∃ x, arbitrate p = p.setPtu x := by
  by_cases busy : p.ptu.port = .free
  · exact ⟨_, arbitrate_unheld busy (h.resolve_left (not_not_intro busy))⟩
  · exact ⟨p.ptu, arbitrate_busy busy⟩

/-- What leaves the port and the held cycle alone leaves the arbiter no cycle to release. -/
theorem Settled.unheld {p q : Part} (kept : Settled p q) (h : p.ptu.port ≠ .free ∨ p.ptu.held = none) :
    q.ptu.port ≠ .free ∨ q.ptu.held = none := by
  rw [kept.ptu]
  exact h

/-! ### Records that leave the list one after another (R54) -/

/-- The Firing List as the record in slot `i`, of cylinder `c`, leaves it. -/
def FiringList.left (allotment i c : Nat) (f : FiringList) : FiringList where
  slots := Table.write f.slots i none
  counts := Table.writeCyl f.counts c (Table.readCyl f.counts c 0 - 1)
  reserveInUse := reserveOf allotment (Table.writeCyl f.counts c (Table.readCyl f.counts c 0 - 1))
  nextSeq := f.nextSeq
  order := f.order.filter fun j => j != i

theorem leaveList_eq (i c : Nat) (p : Part) : leaveList i c p = p.setFlc (p.flc.left p.cfg.allotment i c) := rfl

/-- The Firing List as records leave it, one after another. -/
def FiringList.leftAll (allotment : Nat) (l : List (Nat × Record)) (f : FiringList) : FiringList :=
  l.foldl (fun f x => f.left allotment x.1 x.2.cylinder) f

section LeftAll

variable (allotment : Nat) (l : List (Nat × Record)) (f : FiringList)

theorem leftAll_order : (f.leftAll allotment l).order = f.order.filter fun i => decide (i ∉ l.map Prod.fst) := by
  induction l generalizing f with
  | nil => simp [FiringList.leftAll]
  | cons x l ih =>
    refine (ih (f.left allotment x.1 x.2.cylinder)).trans ((List.filter_filter ..).trans ?_)
    refine List.filter_congr fun j _ => Bool.eq_iff_iff.mpr ?_
    rw [Bool.and_eq_true, decide_eq_true_iff, decide_eq_true_iff, bne_iff_ne, List.map_cons, List.mem_cons,
      not_or, and_comm]

theorem leftAll_slot (p : Part) (j : Nat) : (p.setFlc (p.flc.leftAll allotment l)).slot j
    = if j ∈ l.map Prod.fst then none else p.slot j := by
  induction l generalizing p with
  | nil => rfl
  | cons x l ih =>
    refine (ih (p.setFlc (p.flc.left allotment x.1 x.2.cylinder))).trans ?_
    have left : (p.setFlc (p.flc.left allotment x.1 x.2.cylinder)).slot j = if x.1 = j then none else p.slot j :=
      slot_leaveList x.1 x.2.cylinder j p
    rw [left]
    by_cases same : x.1 = j
    · rw [if_pos same, ite_self, List.map_cons, if_pos (List.mem_cons.mpr (.inl same.symm))]
    · rw [if_neg same]
      exact if_congr (List.mem_cons.trans (or_iff_right (Ne.symm same))).symm rfl rfl

theorem leftAll_counts : (f.leftAll allotment l).counts = l.foldl (fun k x =>
    Table.writeCyl k x.2.cylinder (Table.readCyl k x.2.cylinder 0 - 1)) f.counts := by
  induction l generalizing f with
  | nil => rfl
  | cons x l ih => exact ih (f.left allotment x.1 x.2.cylinder)

theorem leftAll_nextSeq : (f.leftAll allotment l).nextSeq = f.nextSeq := by
  induction l generalizing f with
  | nil => rfl
  | cons x l ih => exact ih (f.left allotment x.1 x.2.cylinder)

theorem leftAll_reserve (nonempty : l ≠ []) :
    (f.leftAll allotment l).reserveInUse = reserveOf allotment (f.leftAll allotment l).counts := by
  induction l generalizing f with
  | nil => exact absurd rfl nonempty
  | cons x l ih =>
    cases l with
    | nil => rfl
    | cons y l => exact ih (f.left allotment x.1 x.2.cylinder) (List.cons_ne_nil y l)

end LeftAll

/-! ### The stale records (R66, R67) -/

/-- What a run of counts makes of the Live Bank and the flags depends on these alone. -/
theorem foldl_increment_congr {α : Type} (k : Nat) (l : List α) {p q : Part} (hs : q.stb = p.stb) (hn : q.ntu = p.ntu) :
    (l.foldl (fun p _ => increment k p) q).stb = (l.foldl (fun p _ => increment k p) p).stb
      ∧ (l.foldl (fun p _ => increment k p) q).ntu = (l.foldl (fun p _ => increment k p) p).ntu := by
  induction l generalizing p q with
  | nil => exact ⟨hs, hn⟩
  | cons a l ih =>
    refine ih (increment_stb k hs) ?_
    show (increment k q).ntu = (increment k p).ntu
    rw [increment_eq k hs hn]
    rfl

/-- A record that leaves the list makes no other record ready. -/
theorem unready_leaveList {i c : Nat} {p : Part} (h : ∀ x ∈ p.records, x.2.ready = false) :
    ∀ x ∈ (leaveList i c p).records, x.2.ready = false := by
  intro x hx
  obtain ⟨listed, held⟩ := records_mem hx
  rw [order_leaveList] at listed
  rw [slot_leaveList] at held
  split at held
  · cases held
  · exact h x (List.mem_filterMap.mpr ⟨x.1, (List.mem_filter.mp listed).1, by rw [held]; rfl⟩)

/-- With no record ready, a record abandoned STALE leaves the list, counted. -/
theorem abandon_stale_counted {p : Part} {i : Nat} {r : Record} (held : p.slot i = some r)
    (unready : ∀ x ∈ p.records, x.2.ready = false) : ∃ k, abandon .stale i p
      = (((p.setFlc (p.flc.left p.cfg.allotment i r.cylinder)).setKna k).setStb (increment 526 p).stb).setNtu
        (increment 526 p).ntu := by
  obtain ⟨k, left⟩ := abandon_stale held unready
  have counted : report .abandonedStale (p.setKna k)
      = ((p.setKna k).setStb (increment 526 p).stb).setNtu (increment 526 p).ntu := increment_eq 526 rfl rfl
  rw [left, counted, leaveList_eq]
  exact ⟨k, rfl⟩

/-- With no record ready, records abandoned STALE leave the list one after another, each counted, and no decision
follows. -/
theorem abandonEach_stale (l : List (Nat × Record)) {p : Part} (held : ∀ x ∈ l, p.slot x.1 = some x.2)
    (apart : (l.map Prod.fst).Nodup) (unready : ∀ x ∈ p.records, x.2.ready = false) :
    ∃ k, l.foldl (fun p x => abandon .stale x.1 p) p
      = (((p.setFlc (p.flc.leftAll p.cfg.allotment l)).setKna k).setStb
        (l.foldl (fun p _ => increment 526 p) p).stb).setNtu (l.foldl (fun p _ => increment 526 p) p).ntu := by
  induction l generalizing p with
  | nil => exact ⟨p.kna, rfl⟩
  | cons x l ih =>
    obtain ⟨fresh, apart⟩ := List.nodup_cons.mp apart
    obtain ⟨k, left⟩ := abandon_stale_counted (held x List.mem_cons_self) unready
    have slots (j : Nat) : (abandon .stale x.1 p).slot j = if x.1 = j then none else p.slot j := by
      rw [left]
      exact slot_leaveList x.1 x.2.cylinder j p
    obtain ⟨k', rest⟩ := ih (p := abandon .stale x.1 p)
      (fun y hy => by
        have other : x.1 ≠ y.1 := fun same => fresh (by rw [same]; exact List.mem_map_of_mem hy)
        rw [slots, if_neg other]
        exact held y (List.mem_cons_of_mem _ hy))
      apart (by rw [left]; exact unready_leaveList unready)
    obtain ⟨stb, ntu⟩ := foldl_increment_congr 526 l (p := increment 526 p) (q := abandon .stale x.1 p)
      (by rw [left, Part.setNtu_stb, Part.setStb_stb]) (by rw [left, Part.setNtu_ntu])
    refine ⟨k', ?_⟩
    rw [List.foldl_cons, rest, stb, ntu, left]
    rfl

/-- The listed slots whose records pass a test are the held ones whose records pass it. -/
theorem mem_filter_records_iff {p : Part} (agrees : p.listAgrees) (t : Record → Prop) [DecidablePred t] (i : Nat) :
    i ∈ (p.records.filter fun x => decide (t x.2)).map Prod.fst ↔ ∃ r, p.slot i = some r ∧ t r := by
  constructor
  · intro listed
    obtain ⟨x, hx, rfl⟩ := List.mem_map.mp listed
    obtain ⟨listed, passes⟩ := List.mem_filter.mp hx
    exact ⟨x.2, (records_mem listed).2, of_decide_eq_true passes⟩
  · rintro ⟨r, held, passes⟩
    have inOrder : i ∈ p.flc.order := (agrees.2 i).mpr (by rw [held]; rfl)
    have listed : (i, r) ∈ p.records := List.mem_filterMap.mpr ⟨i, inOrder, by rw [held]; rfl⟩
    exact List.mem_map.mpr ⟨(i, r), List.mem_filter.mpr ⟨listed, decide_eq_true passes⟩, rfl⟩

/-- A plan age expiry abandons the stale records in the taking order (R67). -/
theorem expirePlanAges_eq (p : Part) : expirePlanAges p = (p.records.filter fun x => decide (x.2.state = .planned
    ∧ p.cfg.planAgeLimit * 1000 ≤ (p.partTime - x.2.takenTime).toNat)).foldl (fun p x => abandon .stale x.1 p) p := by
  rw [expirePlanAges, Part.staleSlots, List.foldl_map]
  refine congrArg (fun l => List.foldl _ p l) (List.filter_congr fun x _ => Bool.eq_iff_iff.mpr ?_)
  rw [planAgeDue_iff, decide_eq_true_iff]

end Sys2Proof.Machine

namespace Sys2Proof.Proofs

open Sys2Proof.Machine Sys2Proof.Statements

/-- Settles O46: the stale records are abandoned one after another in the taking order; with none of the others ready,
no abandonment is followed by a decision. -/
theorem planAgeExpiryAbandonsStale : Obligations.PlanAgeExpiryAbandonsStale := by
  intro s agrees unheld unready stale counted
  obtain ⟨k, abandoned⟩ := abandonEach_stale stale (p := s.part)
    (fun x hx => (records_mem (List.mem_filter.mp hx).1).2)
    ((records_nodup agrees).sublist (List.filter_sublist.map _)) unready
  have expired := (expirePlanAges_eq s.part).trans abandoned
  obtain ⟨x, arbitrated⟩ := arbitrate_setPtu ((Settled.expirePlanAges s.part).unheld unheld)
  rw [expired] at arbitrated
  have part : (event expirePlanAges s).part = _ := (congrArg arbitrate expired).trans arbitrated
  have mem_stale := mem_filter_records_iff agrees fun r => r.state = .planned
    ∧ s.part.cfg.planAgeLimit * 1000 ≤ (s.part.partTime - r.takenTime).toNat
  have flc : (event expirePlanAges s).part.flc = s.part.flc.leftAll s.part.cfg.allotment stale := by rw [part]; rfl
  have slot (j : Nat) : (event expirePlanAges s).part.slot j
      = if j ∈ stale.map Prod.fst then none else s.part.slot j := by
    rw [slot_congr (p := s.part.setFlc (s.part.flc.leftAll s.part.cfg.allotment stale)) flc, leftAll_slot]
  refine ⟨_, rfl, ?_, fun i hi => ?_, fun i hi => ?_, ?_, ?_, ?_, fun taken => ?_, fun idle => ?_, ?_, ?_, ?_, ?_,
    ?_, ?_, rfl⟩
  · rw [flc, leftAll_order]
    exact List.filter_congr fun i _ => by rw [decide_eq_decide, mem_stale]
  · rw [flc, leftAll_order] at hi
    rw [slot, if_neg (of_decide_eq_true (List.mem_filter.mp hi).2)]
  · rw [flc, leftAll_order, List.mem_filter, agrees.2] at hi
    rw [slot]
    split
    · rfl
    · next fresh =>
      exact Option.not_isSome_iff_eq_none.mp fun held => hi ⟨held, decide_eq_true fresh⟩
  · rw [part]; rfl
  · rw [part]; rfl
  · rw [flc, leftAll_counts]
  · rw [flc, leftAll_reserve _ _ _ taken]; rfl
  · rw [flc, idle]; rfl
  · rw [flc, leftAll_nextSeq]
  all_goals rw [part]; rfl

end Sys2Proof.Proofs

/-! A segment boundary in the Segment Analyser, the roughness figure and the M report (R62, R64, R73 to R76) -/

namespace Sys2Proof.Machine

/-! ### The Segment Sequence (R73 to R75) -/

theorem middleFigure_of_length_ne {xs : List SegmentEntry} (h : xs.length ≠ 3) : middleFigure xs = none := by
  match xs with
  | [] | [_] | [_, _] | _ :: _ :: _ :: _ :: _ => rfl
  | [_, _, _] => exact absurd rfl h

theorem middleFigure_open {x y z : SegmentEntry} (h : y.roughness = none) : middleFigure [x, y, z]
    = some ([x, { y with roughness := some (roughnessFigure x.period y.period z.period) }, z], y,
        roughnessFigure x.period y.period z.period) := by
  simp only [middleFigure, h]

theorem middleFigure_computed {x y z : SegmentEntry} (h : y.roughness ≠ none) : middleFigure [x, y, z] = none := by
  obtain ⟨m, computed⟩ := Option.ne_none_iff_exists'.mp h
  simp only [middleFigure, computed]

theorem appendSegment_eq (xs : List SegmentEntry) (e : SegmentEntry) :
    appendSegment xs e = (if xs.length < 3 then xs else xs.drop 1) ++ [e] := by
  rw [appendSegment, ← ite_not]
  simp only [Nat.not_le]

/-! ### A boundary (R73) -/

theorem analyseBoundary_opens {b : SegmentBoundary} (p : Part) (h : b.ending = none ∨ b.period = none) :
    analyseBoundary b p = p.setSga { p.sga with openSegment := some (b.starting, b.cycleNumber) } := by
  unfold analyseBoundary
  rcases h with ending | period
  · simp only [ending]
  · cases b.ending <;> simp only [period]

theorem analyseBoundary_closes {b : SegmentBoundary} {p q : Part} {e n : Nat} (ending : b.ending = some e)
    (period : b.period = some n) (figure : computeFigure (closeSegment n p) = q) :
    analyseBoundary b p = q.setSga { q.sga with openSegment := some (b.starting, b.cycleNumber) } := by
  simp only [analyseBoundary, ending, period, figure]

theorem closeSegment_open {p : Part} {c : Nat} {k : BitVec 32} (n : Nat) (opened : p.sga.openSegment = some (c, k)) :
    closeSegment n p = p.setSga { p.sga with sequence := appendSegment p.sga.sequence ⟨c, k, n, none⟩ } := by
  rw [closeSegment, opened]

theorem computeFigure_none {p : Part} (h : middleFigure p.sga.sequence = none) : computeFigure p = p := by
  rw [computeFigure, h]

theorem computeFigure_some {p : Part} {xs : List SegmentEntry} {y : SegmentEntry} {m : Int}
    (h : middleFigure p.sga.sequence = some (xs, y, m)) : computeFigure p = takeMReport y.cylinder y.cycleNumber m
      (p.setSga { p.sga with sequence := xs, roughness := p.sga.roughness ++ [m] }) := by
  rw [computeFigure, h]

/-! ### The M report (R62) -/

/-- The record that an M report is for: SETTLING, of the cylinder and the cycle, its misfire half open. -/
theorem awaitsFigure_iff (c : Nat) (n : BitVec 32) (r : Record) :
    (r.cylinder == c && decide (r.state = .settling) && r.cycleNumber == some n && r.misfire.isNone) = true
      ↔ r.cylinder = c ∧ r.state = .settling ∧ r.cycleNumber = some n ∧ r.misfire = none := by
  simp [and_assoc]

end Sys2Proof.Machine

namespace Sys2Proof.Proofs

open Sys2Proof.Machine Sys2Proof.Statements

/-- Settles O48: the cases of `middleFigure`, of the boundary by what it closes and computes, and of the M report by the
record that it finds. -/
theorem roughnessFigure : Obligations.RoughnessFigure := by
  refine ⟨fun a b c => rfl, by decide, fun x y z => middleFigure_open, fun x y z => middleFigure_computed,
    fun xs => middleFigure_of_length_ne, fun b p => ⟨analyseBoundary_opens p, fun e n c k ending period opened => ?_⟩,
    fun c n m p => ⟨fun absent => ?_, fun i r first => ?_⟩⟩
  · intro closed
    have closes : closeSegment n p = p.setSga { p.sga with sequence := closed } := by
      rw [closeSegment_open n opened, appendSegment_eq]
    refine ⟨fun idle => ?_, fun xs y m due => ?_⟩
    · exact analyseBoundary_closes (q := p.setSga { p.sga with sequence := closed }) ending period
        (by rw [closes]; exact computeFigure_none idle)
    · intro q newSga
      have kept := Settled.takeMReport y.cylinder y.cycleNumber m
        (p.setSga { p.sga with sequence := xs, roughness := p.sga.roughness ++ [m] })
      have boundary : analyseBoundary b p = q.setSga { q.sga with openSegment := some (b.starting, b.cycleNumber) } :=
        analyseBoundary_closes ending period (by rw [closes]; exact computeFigure_some due)
      rw [show q.sga = _ from kept.sga] at boundary
      exact ⟨boundary, kept.atk, kept.cxu, kept.csh⟩
  · rw [takeMReport, findRecord_of_none (awaitsFigure_iff c n) absent]
  · rw [takeMReport, findRecord_of_firstRecord (awaitsFigure_iff c n) first]
    rfl

end Sys2Proof.Proofs

/-! The Context Unit: declared causes, the state step of a context, the cycle evaluation and its two inputs (R61, R105,
R107 to R112) -/

namespace Sys2Proof.Machine

/-! ### One step of a context (R111) -/

theorem ctxStep_idle {e : CtxEntry} (n : Nat) (h : e.state = .idle) :
    ctxStep n e = if e.mark then { e with state := .active, remaining := 0 } else e := by
  simp only [ctxStep, h]

theorem ctxStep_active {e : CtxEntry} (n : Nat) (h : e.state = .active) : ctxStep n e = if e.mark then e
    else if n = 0 then { e with state := .idle, remaining := 0 } else { e with state := .holding, remaining := n } := by
  simp only [ctxStep, h]

theorem ctxStep_holding {e : CtxEntry} (n : Nat) (h : e.state = .holding) : ctxStep n e
    = if e.mark then { e with state := .active, remaining := 0 }
      else if e.remaining ≤ 1 then { e with state := .idle, remaining := 0 }
      else { e with remaining := e.remaining - 1 } := by
  simp only [ctxStep, h]

theorem ctxStep_marked {e : CtxEntry} (n : Nat) (marked : e.mark = true) :
    (ctxStep n e).state = .active ∧ (e.state ≠ .active → (ctxStep n e).remaining = 0) := by
  cases h : e.state with
  | idle => rw [ctxStep_idle n h, if_pos marked]; exact ⟨rfl, fun _ => rfl⟩
  | active => rw [ctxStep_active n h, if_pos marked]; exact ⟨h, fun other => absurd rfl other⟩
  | holding => rw [ctxStep_holding n h, if_pos marked]; exact ⟨rfl, fun _ => rfl⟩

/-- A context passes from IDLE to ACTIVE exactly with its mark set. -/
theorem ctxStep_enters_iff {e : CtxEntry} (n : Nat) (h : e.state = .idle) :
    (ctxStep n e).state = .active ↔ e.mark = true := by
  rw [ctxStep_idle n h]
  cases e.mark
  · simp [h]
  · simp

/-! ### The causes of a cycle evaluation (R108 to R110) -/

theorem roughCycle_iff (g : Settings) (ms : List Int) :
    let large := ms.filter fun m => decide (g.roughLevel ≤ m.natAbs)
    roughCycle g ms = true ↔ 2 ≤ large.length ∧ ∃ m ∈ large, m < 0 := by
  intro large
  rw [roughCycle, Bool.and_eq_true, decide_eq_true_iff, List.any_eq_true]
  simp only [decide_eq_true_iff, large]

theorem appendFlag_eq (fs : List Bool) (f : Bool) :
    appendFlag fs f = if (fs ++ [f]).length ≤ 8 then fs ++ [f] else (fs ++ [f]).drop 1 := by
  rw [appendFlag, ← ite_not]
  simp only [Nat.not_lt]

theorem length_filter_id (fs : List Bool) : (fs.filter id).length = fs.count true := by
  rw [← List.countP_eq_length_filter]
  exact List.countP_congr fun b _ => by cases b <;> decide

/-- The table with the marks that a cycle evaluation writes (R108 to R110). -/
def cycleMarked (g : Settings) (r : CycleResult) (p : Part) : ContextTable :=
  writeMarks (roughCause g p.cxu.table.rough.state
      ((appendFlag p.cxu.roughHistory (roughCycle g r.roughness)).filter id).length)
    (flareCause g r) (decide (0 < p.cxu.resyncCount)) p.cxu.table

/-- Each context steps with the mark that its cause gives it. -/
theorem cycleMarked_get (g : Settings) (r : CycleResult) (p : Part) (c : Ctx) : (cycleMarked g r p).get c
    = { p.cxu.table.get c with
        mark := Statements.markFound g r
          ((appendFlag p.cxu.roughHistory (roughCycle g r.roughness)).count true) p c } := by
  rw [cycleMarked, length_filter_id]
  cases c with
  | als | launch | transient | resync => rfl
  | rough =>
    cases h : p.cxu.table.rough.state <;> simp [writeMarks, ContextTable.get, Statements.markFound, roughCause, h]
  | flare =>
    cases hs : r.speed <;> cases hp : r.previous <;>
      simp [writeMarks, ContextTable.get, Statements.markFound, flareCause, hs, hp]
    omega

/-! ### The cycle evaluation (R107, R112) -/

/-- The six contexts after their step, the marks still set. -/
def cycleStepped (g : Settings) (r : CycleResult) (p : Part) : ContextTable :=
  (cycleMarked g r p).map fun c e => ctxStep (g.residencyOf c) e

/-- A cycle evaluation sets the Context Unit, and the contexts it enters join the MEASURING record's set. -/
theorem evaluateCycle_eq (g : Settings) (r : CycleResult) (p : Part) : evaluateCycle g r p
    = ((enteredContexts (cycleMarked g r p) (cycleStepped g r p)).foldl (fun p c => joinMeasuring c p) p).setCxu
      { p.cxu with
        roughHistory := appendFlag p.cxu.roughHistory (roughCycle g r.roughness)
        resyncCount := p.cxu.resyncCount - 1
        table := (cycleStepped g r p).map fun _ e => { e with mark := false } } := by
  show setTable _ (List.foldl _ (p.setCxu _) _) = _
  rw [joinMeasuring_foldl_setCxu]
  rfl

theorem mem_enteredContexts_iff (g : Settings) (r : CycleResult) (p : Part) (c : Ctx) :
    c ∈ enteredContexts (cycleMarked g r p) (cycleStepped g r p) ↔ (p.cxu.table.get c).state = .idle
      ∧ Statements.markFound g r ((appendFlag p.cxu.roughHistory (roughCycle g r.roughness)).count true) p c
        = true := by
  have idle : ((cycleMarked g r p).get c).state = (p.cxu.table.get c).state := by rw [cycleMarked_get]
  rw [enteredContexts, List.mem_filter, cycleStepped, ContextTable.get_map, Bool.and_eq_true, decide_eq_true_iff,
    decide_eq_true_iff, idle, and_iff_right c.mem_list]
  refine and_congr_right fun h => ?_
  rw [ctxStep_enters_iff _ (idle.trans h), cycleMarked_get]

/-! ### The two inputs of a cycle evaluation (R107) -/

theorem takeBoundaryInput_held {p : Part} {n : BitVec 32}
    (h : ∀ k r g, p.cxu.heldInput = some ⟨k, some r, g⟩ → k ≠ n) :
    takeBoundaryInput n p = setHeldInput (some ⟨n, none, p.governing⟩) p := by
  unfold takeBoundaryInput
  split
  · next k r g held => exact if_neg (h k r g held)
  · rfl
  · rfl

theorem takeResultInput_held {p : Part} {n : BitVec 32} (r : CycleResult)
    (h : ∀ k g, p.cxu.heldInput = some ⟨k, none, g⟩ → k ≠ n) :
    takeResultInput n r p = setHeldInput (some ⟨n, some r, p.governing⟩) p := by
  unfold takeResultInput
  split
  · next k g held => exact if_neg (h k g held)
  · rfl
  · rfl

end Sys2Proof.Machine

namespace Sys2Proof.Proofs

open Sys2Proof.Machine Sys2Proof.Statements

/-- Settles O54: a declared cause and a cycle evaluation by their equations, the inputs by the one held, and the state
step by the state and the mark. -/
theorem contextStateMachine : Obligations.ContextStateMachine := by
  refine ⟨fun c p => ⟨?_, fun other => ?_, fun idle absent => ?_, fun idle i r found => ?_⟩, fun g r p => ?_,
    fun n r p => ?_, fun n e => ?_⟩
  · rw [declareCause_eq]
    rfl
  · rw [declareCause_eq, if_neg other]
    rfl
  · rw [declareCause_eq, if_pos idle, (joinMeasuring_foldl [c] p).1 absent]
    rfl
  · rw [declareCause_eq, if_pos idle, List.foldl_cons, List.foldl_nil, joinMeasuring, found]
    rfl
  · intro q large history kept mark
    have flags : appendFlag p.cxu.roughHistory (roughCycle g r.roughness) = kept := by
      have rough : roughCycle g r.roughness = decide (2 ≤ large.length ∧ ∃ m ∈ large, m < 0) :=
        Bool.eq_iff_iff.mpr ((roughCycle_iff g r.roughness).trans decide_eq_true_iff.symm)
      rw [appendFlag_eq, rough]
    have evaluated := evaluateCycle_eq g r p
    have entered := mem_enteredContexts_iff g r p
    have marked := cycleMarked_get g r p
    rw [flags] at evaluated entered marked
    have cxu : q.cxu = _ := congrArg Part.cxu evaluated
    refine ⟨evaluateCycle_congr g r rfl rfl, by rw [cxu]; rfl, by rw [cxu]; rfl, by rw [cxu]; rfl, by rw [cxu]; rfl,
      fun c => ?_, fun absent => ?_, fun i x found => ?_⟩
    · rw [congrArg ContextUnit.table cxu]
      show (ContextTable.map _ _).get c = _
      rw [ContextTable.get_map, cycleStepped, ContextTable.get_map, marked]
    · have joined := (joinMeasuring_foldl (enteredContexts (cycleMarked g r p) (cycleStepped g r p)) p).1 absent
      rw [joined] at evaluated
      exact (congrArg Part.flc evaluated).trans rfl
    · obtain ⟨set, bits, joined⟩ :=
        (joinMeasuring_foldl (enteredContexts (cycleMarked g r p) (cycleStepped g r p)) p).2 i x found
      rw [joined] at evaluated
      exact ⟨set, fun c => (bits c).trans (entered c), congrArg Part.flc evaluated⟩
  · intro holds
    rw [governs_eq]
    refine ⟨fun none => ⟨takeBoundaryInput_held ?_, takeResultInput_held r ?_⟩, fun g held => ?_, fun g held => ?_,
      fun k x g held other => ⟨takeBoundaryInput_held ?_, takeResultInput_held r ?_⟩⟩
    · rw [none]
      nofun
    · rw [none]
      nofun
    · rw [takeBoundaryInput, held]
      exact if_pos rfl
    · rw [takeResultInput, held]
      exact if_pos rfl
    · rintro k' r' g' held'
      rw [held] at held'
      cases held'
      exact other
    · rintro k' g' held'
      rw [held] at held'
      cases held'
      exact other
  · refine ⟨ctxStep_marked n, fun unmarked idle => ?_, fun unmarked active zero => ?_, fun unmarked active longer => ?_,
      fun unmarked holding last => ?_, fun unmarked holding longer => ?_⟩
    all_goals have clear : ¬ e.mark = true := by rw [unmarked]; exact Bool.false_ne_true
    · rw [ctxStep_idle n idle, if_neg clear]
    · rw [ctxStep_active n active, if_neg clear, if_pos zero]
    · rw [ctxStep_active n active, if_neg clear, if_neg longer]
      exact ⟨rfl, rfl⟩
    · rw [ctxStep_holding n holding, if_neg clear, if_pos last]
    · rw [ctxStep_holding n holding, if_neg clear, if_neg (Nat.not_le.mpr longer)]
      exact ⟨holding, rfl⟩

end Sys2Proof.Proofs

/-! The Knock Analyser: the Knock Wait List along evaluations, the used samples, evaluation, the knock report, sensor
health and the learning of a reference (R63, R90, R93, R95 to R99, R101) -/

namespace Sys2Proof.Machine

/-! ### The Knock Wait List along an evaluation (R63, R93) -/

theorem decideRecord_waitList (i : Nat) (r : Record) (p : Part) :
    (decideRecord i r p).kna.waitList = p.kna.waitList := by
  have learned (d : Decided) (q : Part) : (learnReference d q).kna.waitList = q.kna.waitList := by
    unfold learnReference
    dsimp only
    split <;> rfl
  unfold decideRecord
  dsimp only
  rw [leaveList_kna, reportDecision_kna, postVerdict_kna, learned, countRecord_kna, historyTake_kna]

theorem decideLoop_waitList (sel : Nat → Bool) (n : Nat) (p : Part) :
    (decideLoop sel n p).kna.waitList = p.kna.waitList := by
  induction n generalizing p with
  | zero => rfl
  | succ n ih =>
    unfold decideLoop
    split
    · rfl
    · exact (ih _).trans (decideRecord_waitList _ _ p)

theorem takeKnockReport_waitList (i : Nat) (seq : BitVec 16) (k : KnockReport) (p : Part) :
    (takeKnockReport i seq k p).kna.waitList = p.kna.waitList := by
  unfold takeKnockReport
  split
  · rfl
  · split
    · dsimp only
      split
      · exact decideLoop_waitList _ _ _
      · rfl
    · rfl

/-- The update of a sensor sets its health, and the flags (R98, R99). -/
theorem updateSensor_eq (x : Nat) (quiet clip : Bool) (p : Part) : updateSensor x quiet clip p
    = (p.setKna { p.kna with sensors := Table.write p.kna.sensors x (sensorStep (p.sensor x) quiet clip) }).setNtu
      (updateSensor x quiet clip p).ntu := by
  unfold updateSensor
  dsimp only
  split <;> rfl

theorem evaluate_waitList (e : PendingEval) (p : Part) : (evaluate e p).kna.waitList = p.kna.waitList := by
  unfold evaluate
  dsimp only
  split
  · exact takeKnockReport_waitList _ _ _ p
  · rw [takeKnockReport_waitList, updateSensor_eq]
    rfl

/-- Evaluations taken off the Knock Wait List leave the others in their order. -/
theorem foldl_evaluatedOff_waitList (l : List PendingEval) (p : Part) :
    (l.foldl Statements.evaluatedOff p).kna.waitList
      = p.kna.waitList.filter fun e => decide (∀ x ∈ l, ¬ (x.slot = e.slot ∧ x.seq = e.seq)) := by
  induction l generalizing p with
  | nil => simp
  | cons a l ih =>
    rw [List.foldl_cons, ih, Statements.evaluatedOff, evaluate_waitList, Part.setKna_kna, List.filter_filter]
    refine List.filter_congr fun e _ => Bool.eq_iff_iff.mpr ?_
    simp only [Bool.and_eq_true, decide_eq_true_eq, Bool.not_eq_true', Bool.and_eq_false_iff, beq_eq_false_iff_ne,
      List.forall_mem_cons, not_and_or, and_comm, ne_comm (a := e.slot), ne_comm (a := e.seq), ne_eq]

/-! ### Evaluation (R95 to R97) -/

/-- The used samples of a pending evaluation over the frames of its sensor (R95). -/
def usedBy (e : PendingEval) (p : Part) : List Nat :=
  usedSamples p.cfg (p.kna.frames.filter fun f => f.sensor == e.sensor) e.openTime e.closeTime

/-- The intensity of an evaluation (R96). -/
def intensityBy (e : PendingEval) (p : Part) : Nat := intensityOf (Table.read p.cfg.bias e.sensor 0) (usedBy e p)

/-- The part after the sensor's update by a covered window (R98, R99). -/
def sensed (e : PendingEval) (p : Part) : Part := updateSensor e.sensor
  (decide (intensityBy e p < p.cfg.quietFloor)) (decide (0 < clippedCount (usedBy e p))) p

section Evaluation

variable {e : PendingEval} {p : Part}

theorem uncovered_iff (g : Settings) (expected used : Nat) :
    uncovered g expected used = true ↔ expected = 0 ∨ used * 8 < expected * g.minCover := by
  rw [uncovered, Bool.or_eq_true, decide_eq_true_iff, decide_eq_true_iff]

theorem evaluate_uncovered (h : uncovered p.cfg (expectedCount p.cfg e) (usedBy e p).length = true) :
    evaluate e p = takeKnockReport e.slot e.seq ⟨.unavailable, none,
      coverageOf (expectedCount p.cfg e) (usedBy e p).length, min 255 (clippedCount (usedBy e p)), none⟩ p := if_pos h

theorem evaluate_covered (h : ¬ uncovered p.cfg (expectedCount p.cfg e) (usedBy e p).length = true) :
    evaluate e p = takeKnockReport e.slot e.seq (judgeCovered e (intensityBy e p)
      (coverageOf (expectedCount p.cfg e) (usedBy e p).length) (min 255 (clippedCount (usedBy e p))) (sensed e p))
      (sensed e p) := if_neg h

/-- An evaluation whose sensor has no frame has no sample to judge (R95). -/
theorem evaluate_unheard (cover : 1 ≤ p.cfg.minCover) (silent : ∀ f ∈ p.kna.frames, f.sensor ≠ e.sensor) :
    evaluate e p = takeKnockReport e.slot e.seq ⟨.unavailable, none, 0, 0, none⟩ p := by
  have none : p.kna.frames.filter (fun f => f.sensor == e.sensor) = [] :=
    List.filter_eq_nil_iff.mpr fun f hf => by simpa using silent f hf
  have used : usedBy e p = [] := by
    rw [usedBy, none]
    rfl
  have coverage : coverageOf (expectedCount p.cfg e) 0 = 0 := by simp [coverageOf]
  have missed : uncovered p.cfg (expectedCount p.cfg e) (usedBy e p).length = true := by
    rw [uncovered_iff, used, List.length_nil, Nat.zero_mul]
    exact (Nat.eq_zero_or_pos _).imp_right fun h => Nat.mul_pos h cover
  rw [evaluate_uncovered missed, used]
  show takeKnockReport _ _ ⟨_, _, coverageOf _ 0, _, _⟩ p = _
  rw [coverage]
  rfl

theorem distance_eq_natAbs (a b : Nat) : distance a b = ((a : Int) - b).natAbs := by
  unfold distance
  omega

theorem intensityBy_eq (e : PendingEval) (p : Part) : intensityBy e p
    = ((usedBy e p).map fun x : Nat => ((x : Int) - Table.read p.cfg.bias e.sensor 0).natAbs).sum
      / (usedBy e p).length := by
  simp only [intensityBy, intensityOf, distance_eq_natAbs]

/-- The speed band of an evaluation (R97, step 4). -/
theorem evaluationBand_eq (e : PendingEval) (p : Part) : evaluationBand e p
    = match (p.slot e.slot).bind fun r => if r.seq = e.seq then r.period else none with
      | some n => p.cfg.speedBand n
      | none => p.atk.lastPeriod.elim 0 p.cfg.speedBand := by
  unfold evaluationBand
  cases (p.slot e.slot).bind fun r => if r.seq = e.seq then r.period else none with
  | some n => rfl
  | none => cases p.atk.lastPeriod <;> rfl

theorem knockClassOf_heavy {g : Settings} {band ratio : Nat} (h : Table.read g.heavyRatio band 0 ≤ ratio) :
    knockClassOf g band ratio = .heavy := if_pos h

theorem knockClassOf_light {g : Settings} {band ratio : Nat} (h : ratio < Table.read g.heavyRatio band 0)
    (l : Table.read g.lightRatio band 0 ≤ ratio) : knockClassOf g band ratio = .light := by
  rw [knockClassOf, if_neg (Nat.not_le.mpr h), if_pos l]

theorem knockClassOf_none {g : Settings} {band ratio : Nat} (h : ratio < Table.read g.heavyRatio band 0)
    (l : ratio < Table.read g.lightRatio band 0) : knockClassOf g band ratio = .none := by
  rw [knockClassOf, if_neg (Nat.not_le.mpr h), if_neg (Nat.not_le.mpr l)]

/-- A covered window with a faulty sensor (R97, step 3). -/
theorem judgeCovered_fault {q : Part} (i coverage clipped : Nat) (h : (q.sensor e.sensor).state ≠ .ok) :
    judgeCovered e i coverage clipped q = ⟨.sensorFault, some i, coverage, clipped, none⟩ := if_pos h

/-- A covered window with its sensor OK is judged by its ratio, under the references and bands that its sensor's update
leaves as they were (R97, steps 4 and 5). -/
theorem judgeCovered_sensed (i coverage clipped : Nat) (h : ((sensed e p).sensor e.sensor).state = .ok) :
    judgeCovered e i coverage clipped (sensed e p)
      = ⟨knockClassOf p.cfg (evaluationBand e p) (min 255 (i * 16 / p.reference e.cylinder)), some i, coverage, clipped,
          some (min 255 (i * 16 / p.reference e.cylinder))⟩ := by
  have same : sensed e p = _ := updateSensor_eq _ _ _ p
  have reference : (sensed e p).reference e.cylinder = p.reference e.cylinder := by rw [same]; rfl
  have cfg : (sensed e p).cfg = p.cfg := by rw [same]; rfl
  have band : evaluationBand e (sensed e p) = evaluationBand e p := by rw [same]; rfl
  rw [judgeCovered, if_neg (not_not_intro h), reference, cfg, band]

end Evaluation

/-! ### The used samples of a window (R90, R95) -/

theorem inWindow_iff (opn cls t : Stamp) : inWindow opn cls t = true ↔ (t - opn).toNat < (cls - opn).toNat :=
  decide_eq_true_iff

section UsedSamples

variable {g : Settings} {fs : List Frame} (period : 1 ≤ g.samplePeriod)
  (short : ∀ f ∈ fs, f.samples.length * g.samplePeriod < 2 ^ 24)
  (ordered : fs.Pairwise fun a b => a.commit.toNat < b.commit.toNat)
  (transitive : ∀ a ∈ fs, ∀ b ∈ fs, ∀ c ∈ fs, b.startedLater a → c.startedLater b → c.startedLater a)

include period short ordered transitive in
/-- A frame supplies its sample time exactly where no later-started frame has a sample at that time. -/
theorem supplier_sampleTime_iff {f : Frame} (hf : f ∈ fs) {j : Nat} (hj : j < f.samples.length) :
    (supplier g fs (sampleTime g f j)).map (·.commit) = some f.commit ↔ ∀ b ∈ fs, ∀ k, k < b.samples.length →
      sampleTime g b k = sampleTime g f j → ¬ b.startedLater f := by
  have own : hasSampleAt g f (sampleTime g f j) = true := (hasSampleAt_iff period (short f hf) _).mpr ⟨j, hj, rfl⟩
  rw [supplier_iff ordered transitive hf own]
  refine forall₂_congr fun b hb => ?_
  rw [hasSampleAt_iff period (short b hb)]
  exact ⟨fun h k hk same => h ⟨k, hk, same⟩, fun h ⟨k, hk, same⟩ => h k hk same⟩

include period short ordered transitive in
theorem usedSamples_eq (opn cls : Stamp) : usedSamples g fs opn cls = fs.flatMap fun f =>
    f.samples.zipIdx.filterMap fun x => if (sampleTime g f x.2 - opn).toNat < (cls - opn).toNat
        ∧ ∀ b ∈ fs, ∀ k, k < b.samples.length → sampleTime g b k = sampleTime g f x.2 → ¬ b.startedLater f
      then some x.1 else none := by
  refine List.flatMap_congr fun f hf => List.filterMap_congr fun x hx => if_congr ?_ rfl rfl
  have inside : x.2 < f.samples.length := by
    simpa using List.snd_lt_add_of_mem_zipIdx hx
  rw [Bool.and_eq_true, inWindow_iff, beq_iff_eq, supplier_sampleTime_iff period short ordered transitive hf inside]

end UsedSamples

/-! ### The knock report (R63) -/

theorem takeKnockReport_missed {i : Nat} {seq : BitVec 16} {p : Part} (k : KnockReport)
    (h : ∀ r, p.slot i = some r → r.seq ≠ seq ∨ r.knock ≠ none) : takeKnockReport i seq k p = p := by
  unfold takeKnockReport
  split
  · rfl
  · next r held => exact if_neg fun ⟨named, open'⟩ => (h r held).elim (· named) (· open')

theorem takeKnockReport_named {i : Nat} {r : Record} {p : Part} (k : KnockReport) (held : p.slot i = some r)
    (open' : r.knock = none) : takeKnockReport i r.seq k p = if r.state = .settling
      then testReady r.cylinder (setSlot i (some (r.withKnock k)) p) else setSlot i (some (r.withKnock k)) p := by
  simp only [takeKnockReport, held, open', and_self, if_true]

/-! ### Sensor health (R98, R99) -/

theorem updateSensor_sensor {x : Nat} (quiet clip : Bool) (p : Part) (h : x < 4) :
    (updateSensor x quiet clip p).sensor x = sensorStep (p.sensor x) quiet clip := by
  rw [updateSensor_eq]
  exact (Table.read_write ..).trans (if_pos ⟨rfl, h⟩)

theorem SensorState.ne_ok_iff (x : SensorState) : x ≠ .ok ↔ x = .quiet ∨ x = .clipped := by cases x <;> decide

/-- SENSOR_FAULT alone is set, by a sensor that enters QUIET or CLIPPED (R99). -/
theorem noticeSet_updateSensor (x : Nat) (quiet clip : Bool) (p : Part) (n : Notice) :
    let y := sensorStep (p.sensor x) quiet clip
    (updateSensor x quiet clip p).noticeSet n = true ↔ p.noticeSet n = true
      ∨ n = .sensorFault ∧ y.state ≠ (p.sensor x).state ∧ (y.state = .quiet ∨ y.state = .clipped) := by
  intro y
  rw [← SensorState.ne_ok_iff]
  unfold updateSensor
  dsimp only
  split
  · next entered =>
    rw [noticeSet_setNotice, Bool.or_eq_true, decide_eq_true_iff, and_iff_left entered, or_comm]
    rfl
  · next stays => exact (or_iff_left fun h => stays h.2).symm

/-- A run counter reaches 8 from 7 by one more window of its kind (R98). -/
theorem nextCount_reaches_iff (hit : Bool) (n : Nat) : nextCount hit n = 8 ∧ n = 7 ↔ hit = true ∧ n = 7 := by
  refine and_congr_left fun seven => ?_
  subst seven
  cases hit <;> decide

theorem sensorStep_state (x : Sensor) (quiet clip : Bool) : (sensorStep x quiet clip).state
    = if clip = true ∧ x.clipRun = 7 ∧ x.state ≠ .clipped then .clipped
      else if quiet = true ∧ x.quietRun = 7 ∧ x.state ≠ .quiet then .quiet
      else if quiet = false ∧ clip = false ∧ x.cleanRun = 7 ∧ x.state ≠ .ok then .ok
      else x.state := by
  simp only [sensorStep, ← and_assoc, nextCount_reaches_iff, Bool.and_eq_true, Bool.not_eq_true']

end Sys2Proof.Machine

namespace Sys2Proof.Proofs

open Sys2Proof.Machine Sys2Proof.Statements

/-- Settles O52: the evaluations due are taken off and made one after another; none of them touches the frames or
another pending evaluation. -/
theorem knockWaitExpiryTakesTheDue : Obligations.KnockWaitExpiryTakesTheDue := by
  intro s unheld due
  have expired : expireKnockWaits s.part
      = (s.part.kna.waitList.filter fun e => decide (due e)).foldl evaluatedOff s.part := rfl
  obtain ⟨x, arbitrated⟩ := arbitrate_setPtu ((Settled.expireKnockWaits s.part).unheld unheld)
  have part : (event expireKnockWaits s).part = (expireKnockWaits s.part).setPtu x := arbitrated
  refine ⟨_, rfl, rfl, ?_, ?_, fun e r only expiring cover silent held seq open' measuring => ?_⟩
  · rw [part]
    exact (FramesKept.evaluateEach _ s.part).frames
  · rw [part, Part.setPtu_kna, expired, foldl_evaluatedOff_waitList]
    exact List.filter_congr fun e _ => by simp only [List.mem_filter, decide_eq_true_eq, and_imp]
  · have made : expireKnockWaits s.part = setSlot e.slot (some (r.withKnock ⟨.unavailable, none, 0, 0, none⟩))
        (withdrawEval e.slot e.seq s.part) := by
      rw [expired, only, List.filter_cons_of_pos (p := fun e => decide (due e)) (decide_eq_true expiring),
        List.filter_nil, List.foldl_cons, List.foldl_nil]
      show evaluate e (withdrawEval e.slot e.seq s.part) = _
      rw [evaluate_unheard (p := withdrawEval e.slot e.seq s.part) cover silent, ← seq]
      exact takeKnockReport_measuring _ held measuring open'
    have lt : e.slot < 24 := slot_some_lt (p := s.part) (by rw [held]; rfl)
    have slot : (setSlot e.slot (some (r.withKnock ⟨.unavailable, none, 0, 0, none⟩))
        (withdrawEval e.slot e.seq s.part)).slot e.slot = some (r.withKnock ⟨.unavailable, none, 0, 0, none⟩) := by
      rw [slot_setSlot, if_pos ⟨rfl, lt⟩]
    rw [part, made]
    exact ⟨slot, rfl⟩

/-- Settles O53: the used samples by their suppliers, an evaluation by its coverage and the sensor's state after the
update, and the report, the update and the learning by their conditions. -/
theorem sensorHealthAndReference : Obligations.SensorHealthAndReference := by
  refine ⟨fun g fs opn cls period short ordered transitive => usedSamples_eq period short ordered transitive opn cls,
    fun e p => ?_, fun i seq k p => ⟨takeKnockReport_missed k, fun r held named open' => ?_⟩,
    fun x quiet clip p inside => ⟨updateSensor_eq x quiet clip p, updateSensor_sensor quiet clip p inside, ?_, ?_⟩,
    fun x quiet clip => ⟨rfl, rfl, rfl, sensorStep_state x quiet clip⟩,
    fun d p => ⟨fun teach => if_pos teach, fun idle => if_neg idle⟩⟩
  · intro used expected coverage clipped bias i ratio band heavy light q reported uncov
    have intensity : intensityBy e p = i := intensityBy_eq e p
    have updated : sensed e p = q := by rw [sensed, intensity]; rfl
    have bandOf : evaluationBand e p = band := evaluationBand_eq e p
    have missed : uncovered p.cfg (expectedCount p.cfg e) (usedBy e p).length = true ↔ uncov := uncovered_iff ..
    refine ⟨fun un => evaluate_uncovered (missed.mpr un), fun cov fault => ?_, fun cov ok => ?_⟩
    · rw [evaluate_covered fun un => cov (missed.mp un), intensity, updated, judgeCovered_fault _ _ _ fault]
      rfl
    · have judged := evaluate_covered (e := e) (p := p) fun un => cov (missed.mp un)
      rw [judgeCovered_sensed _ _ _ (updated ▸ ok), intensity, updated, bandOf] at judged
      refine ⟨fun h => ?_, fun h l => ?_, fun h l => ?_⟩
      · rw [judged, knockClassOf_heavy h]
        rfl
      · rw [judged, knockClassOf_light h l]
        rfl
      · rw [judged, knockClassOf_none h l]
        rfl
  · subst named
    exact takeKnockReport_named k held open'
  · exact (noticeSet_updateSensor x quiet clip p .sensorFault).trans (or_congr_right (and_iff_right rfl))
  · intro n other
    exact Bool.eq_iff_iff.mpr ((noticeSet_updateSensor x quiet clip p n).trans (or_iff_left fun h => other h.1))

end Sys2Proof.Proofs

/-! The misfire classification, row by row (R78, R79) -/

namespace Sys2Proof.Machine

/-- Row 1: a firing cut on purpose is not judged, whatever its figure. -/
theorem classWithFigure_cut {r : Record} (g : Settings) (m : Int) (h : r.isCut = true) :
    classWithFigure g r m = .intended :=
  if_pos h

/-- Rows 3 to 5: the figure of a firing that is not cut is held against the threshold `tm` of its bands, then against the
partial threshold. -/
theorem classWithFigure_uncut {g : Settings} {r : Record} {tm : Nat} (m : Int) (h : ¬ r.isCut = true)
    (threshold : g.misfireThreshold (g.speedBand (r.period.getD 0)) (g.loadBand r.load) = tm) :
    classWithFigure g r m = if (tm : Int) ≤ m then .misfire
      else if ((tm * g.partialFraction / 8 : Nat) : Int) ≤ m then .weak else .none := by
  subst threshold
  exact if_neg h

end Sys2Proof.Machine

namespace Sys2Proof.Proofs

open Sys2Proof.Machine

/-- Settles O49: by whether the firing is cut; if not, by where the figure lies among the two thresholds. -/
theorem misfireClassification : Obligations.MisfireClassification := by
  intro g r m tm tp
  refine ⟨fun cut => ⟨classWithFigure_cut g m (r.isCut_iff.mpr cut), ?_⟩, fun uncut => ?_⟩
  · rw [classWithoutFigure_eq, if_pos cut]
  · have judged : classWithFigure g r m
        = if (tm : Int) ≤ m then .misfire else if (tp : Int) ≤ m then .weak else .none :=
      classWithFigure_uncut m (fun cut => uncut (r.isCut_iff.mp cut)) rfl
    refine ⟨?_, fun reached => ?_, fun below partly => ?_, fun below under => ?_⟩
    · rw [classWithoutFigure_eq, if_neg uncut]
    · rw [judged, if_pos reached]
    · rw [judged, if_neg (Int.not_le.mpr below), if_pos partly]
    · rw [judged, if_neg (Int.not_le.mpr below), if_neg (Int.not_le.mpr under)]

end Sys2Proof.Proofs

/-! A sample word: the FILLING frame it fills, or the orphan it is (R89, R92) -/

namespace Sys2Proof.Machine

/-- A Knock Window write above the header pair is a sample word (R9). -/
theorem takeKnockWrite_sample {a : Nat} {p : Part} (d : Word) (h : p.cfg.knockBase + 8 ≤ a) :
    takeKnockWrite a d p = sampleWord d p := by
  have notTimestamp : a - p.cfg.knockBase ≠ 0 := by omega
  have notDescriptor : a - p.cfg.knockBase ≠ 4 := by omega
  exact (if_neg notTimestamp).trans (if_neg notDescriptor)

theorem exec_knockSampleWord {a : Addr} (d : Word) {s : State} (tap : Statements.tapped .knock a s)
    (ha : s.part.cfg.knockBase + 8 ≤ wordAddress a) :
    exec (.knockSampleWord a d) s = .next (s.setPart (sampleWord d (Statements.tapOut s a d))) := by
  rw [exec_of_cycleOf rfl, present_knock tap, takeKnockWrite_sample (p := Statements.tapOut s a d) d ha]

theorem sampleWord_orphan {p : Part} (d : Word) (h : ∀ f ∈ p.kna.frames, f.state ≠ .filling) :
    sampleWord d p = report .orphanSampleWords p := by
  have noFilling : p.filling = none := List.find?_eq_none.mpr fun f hf => by simpa using h f hf
  rw [sampleWord, noFilling]

/-- The one FILLING frame takes the two samples in its place in the store; filled by them, it is COMPLETE, counted and
closed. -/
theorem sampleWord_filling {p : Part} {xs ys : List Frame} {f : Frame} (d : Word) (split : p.kna.frames = xs ++ f :: ys)
    (filling : f.state = .filling) (others : ∀ z ∈ xs ++ ys, z.state ≠ .filling) :
    let x := { f with samples := f.samples ++ wordSamples d }
    sampleWord d p = if f.samples.length + 2 = 2 * f.pairs
      then frameClosure { x with state := .complete } (report .framesCompleted
        (setFrames (xs ++ { x with state := .complete } :: ys) p))
      else setFrames (xs ++ x :: ys) p := by
  have grown : (f.samples ++ wordSamples d).length = f.samples.length + 2 := List.length_append
  rw [sampleWord, filling_split split filling others]
  dsimp only
  rw [grown, split, replaceFilling_split _ filling others, replaceFilling_split _ filling others]

end Sys2Proof.Machine

namespace Sys2Proof.Proofs

open Sys2Proof.Machine Sys2Proof.Statements

/-- Settles O51: by whether a frame is FILLING; if one is, by whether the word's two samples fill it. -/
theorem sampleWordFillsOrIsOrphan : Obligations.SampleWordFillsOrIsOrphan := by
  intro a d s tap ha
  rw [exec_knockSampleWord d tap ha]
  refine ⟨fun noFilling => ?_, fun fs f split others filling => ?_⟩
  · rw [sampleWord_orphan (p := tapOut s a d) d noFilling]
    rfl
  · have taken := sampleWord_filling (p := tapOut s a d) d split filling (ys := [])
      (by rwa [List.append_nil])
    refine ⟨fun short => ?_, fun full => ?_⟩
    · rw [taken, if_neg short]
      rfl
    · rw [taken, if_pos full]
      rfl

end Sys2Proof.Proofs

/-! The effects merged over a context set at a decision, and the flags they give (R65, R116) -/

namespace Sys2Proof.Machine

/-! ### The members of a context set (R104) -/

theorem Ctx.exists_index_eq {i : Nat} (h : i < 6) : ∃ c : Ctx, c.index = i := by
  interval_cases i
  · exact ⟨.als, rfl⟩
  · exact ⟨.launch, rfl⟩
  · exact ⟨.rough, rfl⟩
  · exact ⟨.flare, rfl⟩
  · exact ⟨.transient, rfl⟩
  · exact ⟨.resync, rfl⟩

/-- The six contexts fill the six bits, so a set without a member is the empty word. -/
theorem exists_inSet_of_ne_zero {set : BitVec 6} (h : set ≠ 0) : ∃ c, inSet set c = true := by
  by_contra noMember
  refine h (BitVec.eq_of_getLsbD_eq fun i hi => ?_)
  obtain ⟨c, rfl⟩ := Ctx.exists_index_eq hi
  have outside : set.getLsbD c.index = false := by simpa [inSet] using not_exists.mp noMember c
  rw [outside]
  exact BitVec.getLsbD_zero.symm

theorem inSet_zero (c : Ctx) : inSet 0 c = false := BitVec.getLsbD_zero

theorem mem_filter_inSet {set : BitVec 6} {c : Ctx} : c ∈ Ctx.list.filter (inSet set) ↔ inSet set c = true := by
  rw [List.mem_filter, and_iff_right (Ctx.mem_list c)]

theorem filter_inSet_isEmpty_false {set : BitVec 6} (h : set ≠ 0) : (Ctx.list.filter (inSet set)).isEmpty = false := by
  obtain ⟨c, member⟩ := exists_inSet_of_ne_zero h
  exact List.isEmpty_eq_false_iff_exists_mem.mpr ⟨c, mem_filter_inSet.mpr member⟩

/-! ### The merge policies (R116) -/

theorem mergedEffect_zero (g : Settings) (k : Nat) : mergedEffect g 0 k = false := by
  have noMember : Ctx.list.filter (inSet 0) = [] :=
    List.filter_eq_nil_iff.mpr fun c _ => ne_true_of_eq_false (inSet_zero c)
  rw [mergedEffect, noMember]
  rfl

/-- The policy ANY: one member with the effect gives it. -/
theorem mergedEffect_any {g : Settings} {set : BitVec 6} (k : Nat) (h : set ≠ 0) (any : g.mergePolicy = 0) :
    mergedEffect g set k = true ↔ ∃ c, inSet set c = true ∧ g.effectBit k c = true := by
  have merged : mergedEffect g set k = (Ctx.list.filter (inSet set)).any (g.effectBit k) := by
    simp [mergedEffect, filter_inSet_isEmpty_false h, any]
  rw [merged, List.any_eq_true]
  exact exists_congr fun c => and_congr_left fun _ => mem_filter_inSet

/-- The policy ALL: the effect needs every member to have it. -/
theorem mergedEffect_all {g : Settings} {set : BitVec 6} (k : Nat) (h : set ≠ 0) (all : g.mergePolicy = 1) :
    mergedEffect g set k = true ↔ ∀ c, inSet set c = true → g.effectBit k c = true := by
  have merged : mergedEffect g set k = (Ctx.list.filter (inSet set)).all (g.effectBit k) := by
    simp [mergedEffect, filter_inSet_isEmpty_false h, all]
  rw [merged, List.all_eq_true]
  exact forall_congr' fun c => imp_congr mem_filter_inSet Iff.rfl

/-! ### Judged halves (R65) -/

theorem MisfireClass.judged_eq_decide (m : MisfireClass) : m.judged = decide (m = .none ∨ m = .weak ∨ m = .misfire) :=
  Bool.eq_iff_iff.mpr (m.judged_iff.trans decide_eq_true_iff.symm)

theorem KnockClass.judged_eq_decide (k : KnockClass) : k.judged = decide (k = .none ∨ k = .light ∨ k = .heavy) :=
  Bool.eq_iff_iff.mpr (k.judged_iff.trans decide_eq_true_iff.symm)

theorem decidedOf_misfireWithheld {r : Record} {m : MisfireClass} (p : Part) (h : r.misfire = some m) :
    (decidedOf r p).misfireWithheld = (mergedEffect p.cfg (r.contexts.getD 0) 0 && m.judged) := by
  simp only [decidedOf, h, Option.getD_some]

theorem decidedOf_knockWithheld {r : Record} {k : KnockClass} (p : Part) (h : r.knock = some k) :
    (decidedOf r p).knockWithheld = (mergedEffect p.cfg (r.contexts.getD 0) 1 && k.judged) := by
  simp only [decidedOf, h, Option.getD_some]

end Sys2Proof.Machine

namespace Sys2Proof.Proofs

open Sys2Proof.Machine

/-- Settles O55: the merge by whether the set has a member and by the policy; each flag by the class of its half. -/
theorem mergedEffectsAtDecision : Obligations.MergedEffectsAtDecision := by
  refine ⟨mergedEffect_zero, fun _ _ k nonzero any => mergedEffect_any k nonzero any,
    fun _ _ k nonzero all => mergedEffect_all k nonzero all, fun r p m k misfire knock => ⟨?_, ?_, rfl⟩⟩
  · rw [decidedOf_misfireWithheld p misfire, m.judged_eq_decide]
  · rw [decidedOf_knockWithheld p knock, k.judged_eq_decide]

end Sys2Proof.Proofs

/-! Cylinder Release (R126), and the handling of a decided record in the History Unit: its outcomes, the ring, the misfire
run, the health and alert steps and what they set (R118 to R125, R128) -/

namespace Sys2Proof.Machine

/-! ### Cylinder Release (R126) -/

theorem exec_cylinderRelease {s : State} (d : Word) (granted : s.part.grantsAtOnce) :
    exec (.cylinderRelease d) s = .next (s.setPart (takeCommand 0x14 d (Statements.wordOut s 0x14 d))) :=
  congrArg Host.Outcome.next (presentCommand_eq 0x14 d (by decide) (by decide) granted)

/-- Bit c − 1 of the mask empties cylinder c. -/
theorem cylinderHistory_releaseCylinders (mask : Byte) (p : Part) {c : Nat} (low : 1 ≤ c) (high : c ≤ 8) :
    (releaseCylinders mask p).cylinderHistory c
      = if mask.getLsbD (c - 1) = true then .reset else p.cylinderHistory c := by
  have inside : c - 1 < 8 := by omega
  rw [releaseCylinders, Part.cylinderHistory, Part.setHsu_hsu, Table.readCyl, Table.read_build, if_pos inside]
  rfl

theorem commandCode_getLsbD (d : Word) {i : Nat} (h : i < 8) : (commandCode d).getLsbD i = d.getLsbD i := by
  simp [commandCode, h]

/-! ### The outcomes of a decided record (R119) -/

theorem misfireOutcome_eq (d : Decided) : misfireOutcome d
    = if (d.misfireClass = .none ∨ d.misfireClass = .weak ∨ d.misfireClass = .misfire) ∧ d.misfireWithheld = false
      then some d.misfireClass else none :=
  if_congr (by rw [Bool.and_eq_true, d.misfireClass.judged_iff, Bool.not_eq_true']) rfl rfl

theorem knockOutcome_eq (d : Decided) : knockOutcome d
    = if (d.knockClass = .none ∨ d.knockClass = .light ∨ d.knockClass = .heavy) ∧ d.knockWithheld = false
      then some d.knockClass else none :=
  if_congr (by rw [Bool.and_eq_true, d.knockClass.judged_iff, Bool.not_eq_true']) rfl rfl

/-! ### The ring (R120) -/

theorem appendEntry_room {ring : List HistoryEntry} (e : HistoryEntry) (room : ring.length < 16) :
    appendEntry ring e = ring ++ [e] := by
  have kept : ¬ Config.historyCapacity < (ring ++ [e]).length := by
    rw [List.length_append, List.length_singleton]
    exact Nat.not_lt.mpr room
  exact if_neg kept

theorem appendEntry_full (x : HistoryEntry) {ring : List HistoryEntry} (e : HistoryEntry) (full : ring.length = 15) :
    appendEntry (x :: ring) e = ring ++ [e] := by
  have overfull : Config.historyCapacity < (x :: ring ++ [e]).length := by
    rw [List.length_append, List.length_cons, List.length_singleton, full]
    decide
  exact if_pos overfull

/-! ### The health and alert steps (R122, R124) -/

section HealthStep

variable {g : Settings} {count run : Nat}

theorem healthStep_fault {h : Health} (alive : h ≠ .faulted) (fault : g.faultCount ≤ count ∨ g.faultRun ≤ run) :
    healthStep g h count run = .faulted := by
  cases h with
  | faulted => exact absurd rfl alive
  | healthy => exact if_pos fault
  | suspect => exact if_pos fault

theorem healthStep_healthy (sound : ¬ (g.faultCount ≤ count ∨ g.faultRun ≤ run)) :
    healthStep g .healthy count run = if g.suspectCount ≤ count then .suspect else .healthy := if_neg sound

theorem healthStep_suspect (sound : ¬ (g.faultCount ≤ count ∨ g.faultRun ≤ run)) :
    healthStep g .suspect count run = if count ≤ g.clearCount then .healthy else .suspect := if_neg sound

end HealthStep

/-! ### What the handling of a decided record sets (R122, R124, R125, R128) -/

/-- The notice is set when the condition holds. -/
def noticeWhen (c : Prop) [Decidable c] (n : Notice) (p : Part) : Part := if c then setNotice n p else p

/-- A health step sets CYL_FAULT as FAULTED is entered, and CYL_SUSPECT as SUSPECT is entered. -/
theorem healthNotice_eq (a b : Health) (p : Part) : healthNotice a b p
    = noticeWhen (a = .healthy ∧ b = .suspect) .cylSuspect (noticeWhen (a ≠ .faulted ∧ b = .faulted) .cylFault p) := by
  cases a <;> cases b <;> rfl

theorem alertNotice_eq (a b : Bool) (p : Part) :
    alertNotice a b p = noticeWhen (a = false ∧ b = true) .knockAlert p :=
  if_congr (by rw [Bool.and_eq_true, Bool.not_eq_true']) rfl rfl

section NoticeWhen

variable (c : Prop) [Decidable c] (m n : Notice) (p : Part)

theorem noticeWhen_hsu : (noticeWhen c m p).hsu = p.hsu := by
  unfold noticeWhen
  split <;> rfl

theorem noticeSet_noticeWhen : (noticeWhen c m p).noticeSet n = true ↔ p.noticeSet n = true ∨ n = m ∧ c := by
  unfold noticeWhen
  split
  · next holds => rw [noticeSet_setNotice, Bool.or_eq_true, decide_eq_true_iff, and_iff_left holds, or_comm]
  · next fails => exact (or_iff_left fun h => fails h.2).symm

end NoticeWhen

theorem countTurbine_ntu (o : Option MisfireClass) (p : Part) : (countTurbine o p).ntu = p.ntu := by
  unfold countTurbine
  split <;> rfl

theorem countTurbine_hsu (o : Option MisfireClass) (p : Part) : (countTurbine o p).hsu = { p.hsu with
    blockMisfires := if o = some .misfire then min 65535 (p.hsu.blockMisfires + 1) else p.hsu.blockMisfires } := by
  unfold countTurbine
  split <;> rfl

/-- From `p` to `q` the History Unit and the Notice Unit alone change. -/
def HistoryAlone (p q : Part) : Prop := q = (p.setHsu q.hsu).setNtu q.ntu

namespace HistoryAlone

theorem refl (p : Part) : HistoryAlone p p := rfl

theorem trans {p q r : Part} (h : HistoryAlone p q) (k : HistoryAlone q r) : HistoryAlone p r := by
  unfold HistoryAlone at *
  rw [k, h]
  rfl

theorem noticeWhen (c : Prop) [Decidable c] (n : Notice) (p : Part) : HistoryAlone p (noticeWhen c n p) := by
  unfold Machine.noticeWhen
  split <;> rfl

theorem countTurbine (o : Option MisfireClass) (p : Part) : HistoryAlone p (countTurbine o p) := by
  unfold Machine.countTurbine
  split <;> rfl

end HistoryAlone

section HistoryTake

/-- The cylinder's history after the entry of a decided record. -/
def historyAfter (d : Decided) (p : Part) : CylinderHistory :=
  cylinderStep p.cfg (p.cylinderHistory d.record.cylinder) ⟨misfireOutcome d, knockOutcome d⟩

variable {d : Decided} (p : Part)

theorem historyTake_absent (misfire : misfireOutcome d = none) (knock : knockOutcome d = none) :
    historyTake d p = p := if_pos ⟨misfire, knock⟩

variable (present : misfireOutcome d ≠ none ∨ knockOutcome d ≠ none)
include present

/-- The handling of a record with an outcome: its cylinder, the notices of its steps, its count. -/
theorem historyTake_eq :
    let before := p.cylinderHistory d.record.cylinder
    let after := historyAfter d p
    historyTake d p = countTurbine (misfireOutcome d)
      (noticeWhen (before.alert = false ∧ after.alert = true) .knockAlert
        (noticeWhen (before.health = .healthy ∧ after.health = .suspect) .cylSuspect
          (noticeWhen (before.health ≠ .faulted ∧ after.health = .faulted) .cylFault
            (setCylinder d.record.cylinder after p)))) := by
  intro before after
  rw [← healthNotice_eq, ← alertNotice_eq]
  exact if_neg (not_and_or.mpr present)

theorem HistoryAlone.historyTake : HistoryAlone p (historyTake d p) := by
  have cylinder : HistoryAlone p (setCylinder d.record.cylinder (historyAfter d p) p) := rfl
  rw [historyTake_eq p present]
  exact (((cylinder.trans (.noticeWhen ..)).trans (.noticeWhen ..)).trans (.noticeWhen ..)).trans (.countTurbine ..)

theorem historyTake_hsu : (historyTake d p).hsu = { p.hsu with
    cylinders := Table.writeCyl p.hsu.cylinders d.record.cylinder (historyAfter d p)
    blockMisfires := if misfireOutcome d = some .misfire then min 65535 (p.hsu.blockMisfires + 1)
      else p.hsu.blockMisfires } := by
  rw [historyTake_eq p present, countTurbine_hsu, noticeWhen_hsu, noticeWhen_hsu, noticeWhen_hsu]
  rfl

theorem cylinderHistory_historyTake (c : Nat) : (historyTake d p).cylinderHistory c
    = if d.record.cylinder - 1 = c - 1 ∧ d.record.cylinder - 1 < 8 then historyAfter d p else p.cylinderHistory c := by
  rw [Part.cylinderHistory, historyTake_hsu p present]
  exact cylinderHistory_setCylinder ..

theorem noticeSet_historyTake (n : Notice) :
    let before := p.cylinderHistory d.record.cylinder
    let after := historyAfter d p
    (historyTake d p).noticeSet n = true ↔ ((p.noticeSet n = true
      ∨ n = .cylFault ∧ before.health ≠ .faulted ∧ after.health = .faulted)
      ∨ n = .cylSuspect ∧ before.health = .healthy ∧ after.health = .suspect)
      ∨ n = .knockAlert ∧ before.alert = false ∧ after.alert = true := by
  intro before after
  rw [historyTake_eq p present, noticeSet_congr (countTurbine_ntu ..), noticeSet_noticeWhen, noticeSet_noticeWhen,
    noticeSet_noticeWhen]
  rfl

theorem cylFault_historyTake : (historyTake d p).noticeSet .cylFault = true ↔ p.noticeSet .cylFault = true
    ∨ (p.cylinderHistory d.record.cylinder).health ≠ .faulted ∧ (historyAfter d p).health = .faulted := by
  simpa using noticeSet_historyTake p present .cylFault

theorem cylSuspect_historyTake : (historyTake d p).noticeSet .cylSuspect = true ↔ p.noticeSet .cylSuspect = true
    ∨ (p.cylinderHistory d.record.cylinder).health = .healthy ∧ (historyAfter d p).health = .suspect := by
  simpa using noticeSet_historyTake p present .cylSuspect

theorem knockAlert_historyTake : (historyTake d p).noticeSet .knockAlert = true ↔ p.noticeSet .knockAlert = true
    ∨ (p.cylinderHistory d.record.cylinder).alert = false ∧ (historyAfter d p).alert = true := by
  simpa using noticeSet_historyTake p present .knockAlert

theorem noticeSet_historyTake_other {n : Notice} (notFault : n ≠ .cylFault) (notSuspect : n ≠ .cylSuspect)
    (notAlert : n ≠ .knockAlert) : (historyTake d p).noticeSet n = p.noticeSet n :=
  Bool.eq_iff_iff.mpr (by simpa [notFault, notSuspect, notAlert] using noticeSet_historyTake p present n)

end HistoryTake

end Sys2Proof.Machine

namespace Sys2Proof.Proofs

open Sys2Proof.Machine Sys2Proof.Statements

/-- Settles O34: the outcomes by the classes judged, each step by its branches; the record's cylinder is the one written,
and each notice is set by its own step. -/
theorem historyEntrySteps : Obligations.HistoryEntrySteps := by
  refine ⟨fun d p => ⟨misfireOutcome_eq d, knockOutcome_eq d, historyTake_absent p⟩,
    fun _ e room => appendEntry_room e room, fun x _ e full => appendEntry_full x e full,
    fun _ => ⟨rfl, rfl, rfl, rfl⟩, fun _ _ _ => rfl,
    fun g h count run alive => ⟨healthStep_fault alive, fun sound => ⟨?_, ?_⟩⟩,
    fun _ _ => ⟨rfl, rfl⟩, fun d p present low high => ?_⟩
  · rintro rfl
    exact healthStep_healthy sound
  · rintro rfl
    exact healthStep_suspect sound
  · intro h ring run health alert q
    refine ⟨HistoryAlone.historyTake p present, ?own, fun c positive other => ?others, ?misfires, ?cycles, ?exceeded,
      cylFault_historyTake p present, cylSuspect_historyTake p present, knockAlert_historyTake p present,
      fun _ => noticeSet_historyTake_other p present⟩
    case own => exact (cylinderHistory_historyTake p present _).trans (if_pos ⟨rfl, by omega⟩)
    case others => exact (cylinderHistory_historyTake p present c).trans (if_neg (by omega))
    case misfires => exact congrArg (·.blockMisfires) (historyTake_hsu p present)
    case cycles => exact congrArg (·.blockCycles) (historyTake_hsu p present)
    case exceeded => exact congrArg (·.exceeded) (historyTake_hsu p present)

/-- Settles O33: outside TRANSPARENT the command is taken, and each bit of its code empties the cylinder it names. -/
theorem cylinderReleaseByMask : Obligations.CylinderReleaseByMask := by
  intro d s granted mode
  refine ⟨(releaseCylinders (commandCode d) s.part).hsu.cylinders, ?_, fun c low high => ?_⟩
  · rw [exec_cylinderRelease d granted, takeCommand_common (p := wordOut s 0x14 d) d (by decide) mode]
    rfl
  · have inside : c - 1 < 8 := by omega
    rw [← commandCode_getLsbD d inside]
    exact cylinderHistory_releaseCylinders (commandCode d) s.part low high

end Sys2Proof.Proofs

/-! The Statistics Banks: one increment, the Statistics Command, and the commands along which no live counter falls (R20,
R132, R135 to R137) -/

namespace Sys2Proof.Machine

/-! ### One increment (R132) -/

theorem increment_saturated {k : Nat} {p : Part} (top : p.liveCounter k = 0xFFFFFFFF) : increment k p = p := if_pos top

/-- Below saturation the counter takes the next value, and nothing else of the banks changes. -/
theorem increment_stb_of_unsaturated {k : Nat} {p : Part} (low : p.liveCounter k ≠ 0xFFFFFFFF) :
    (increment k p).stb = { p.stb with live := Table.write p.stb.live k (p.liveCounter k + 1) } := by
  rw [increment, if_neg low]
  split <;> rfl

theorem liveCounter_increment_of_unsaturated {k : Nat} {p : Part} (low : p.liveCounter k ≠ 0xFFFFFFFF) (j : Nat) :
    (increment k p).liveCounter j = if k = j ∧ k < 538 then p.liveCounter k + 1 else p.liveCounter j := by
  rw [Part.liveCounter, increment_stb_of_unsaturated low]
  exact Table.read_write ..

theorem liveCounter_increment_self {k : Nat} (p : Part) (hk : k < 538) :
    ((increment k p).liveCounter k).toNat = min (2 ^ 32 - 1) ((p.liveCounter k).toNat + 1) := by
  by_cases top : p.liveCounter k = 0xFFFFFFFF
  · rw [increment_saturated top, top]
    rfl
  · rw [liveCounter_increment_of_unsaturated top, if_pos ⟨rfl, hk⟩]
    have room : (p.liveCounter k).toNat < 2 ^ 32 - 1 := by bv_omega
    rw [BitVec.toNat_add_of_lt (by simpa using Nat.add_lt_of_lt_sub room)]
    exact (Nat.min_eq_right room).symm

theorem liveCounter_increment_other {k j : Nat} (p : Part) (h : j ≠ k) :
    (increment k p).liveCounter j = p.liveCounter j := by
  by_cases top : p.liveCounter k = 0xFFFFFFFF
  · rw [increment_saturated top]
  · rw [liveCounter_increment_of_unsaturated top, if_neg fun e => h e.1.symm]

/-- COUNTER_HALF is set by the increment that reaches 2^31, and no increment sets another notice. -/
theorem increment_ntu (k : Nat) (p : Part) : (increment k p).ntu
    = (if (p.liveCounter k).toNat = 2 ^ 31 - 1 then setNotice .counterHalf p else p).ntu := by
  have half : p.liveCounter k = 0x7FFFFFFF ↔ (p.liveCounter k).toNat = 2 ^ 31 - 1 := BitVec.toNat_eq
  rw [increment_noticed k rfl]
  show NoticeUnit.mk (p.ntu.flags ||| halfNotice k p) = _
  by_cases h : (p.liveCounter k).toNat = 2 ^ 31 - 1
  · rw [halfNotice, if_pos (half.mpr h), if_pos h]
    rfl
  · rw [halfNotice, if_neg fun e => h (half.mp e), if_neg h]
    exact congrArg NoticeUnit.mk BitVec.or_zero

/-- An increment is in the Live Bank alone. -/
theorem increment_snapshot_generation (k : Nat) (p : Part) :
    (increment k p).stb.snapshot = p.stb.snapshot ∧ (increment k p).stb.generation = p.stb.generation := by
  by_cases top : p.liveCounter k = 0xFFFFFFFF
  · rw [increment_saturated top]
    exact ⟨rfl, rfl⟩
  · rw [increment_stb_of_unsaturated top]
    exact ⟨rfl, rfl⟩

/-! ### The Statistics Command (R135 to R137) -/

theorem exec_snapshot {s : State} (u : BitVec 24) (granted : s.part.grantsAtOnce) :
    exec (.snapshot u) s = .next (s.setPart (takeCommand 0x10 (u ++ 1#8) (Statements.wordOut s 0x10 (u ++ 1#8)))) :=
  congrArg Host.Outcome.next (presentCommand_eq 0x10 (u ++ 1#8) (by decide) (by decide) granted)

theorem exec_clear {s : State} (u : BitVec 24) (granted : s.part.grantsAtOnce) :
    exec (.clear u) s = .next (s.setPart (takeCommand 0x10 (u ++ 2#8) (Statements.wordOut s 0x10 (u ++ 2#8)))) :=
  congrArg Host.Outcome.next (presentCommand_eq 0x10 (u ++ 2#8) (by decide) (by decide) granted)

theorem exec_snapshotAndClear {s : State} (u : BitVec 24) (granted : s.part.grantsAtOnce) :
    exec (.snapshotAndClear u) s
      = .next (s.setPart (takeCommand 0x10 (u ++ 3#8) (Statements.wordOut s 0x10 (u ++ 3#8)))) :=
  congrArg Host.Outcome.next (presentCommand_eq 0x10 (u ++ 3#8) (by decide) (by decide) granted)

section StatisticsCommand

variable {p : Part} (hm : p.csh.mode ≠ .transparent)
include hm

theorem takeCommand_statistics (d : Word) : takeCommand 0x10 d p = takeStatisticsCommand d p :=
  takeCommand_common d (by decide) hm

theorem takeCommand_snapshot (u : BitVec 24) : takeCommand 0x10 (u ++ 1#8) p = takeSnapshot p := by
  rw [takeCommand_statistics hm, takeStatisticsCommand, commandCode_append]
  rfl

theorem takeCommand_clear (u : BitVec 24) : takeCommand 0x10 (u ++ 2#8) p = clearLive p := by
  rw [takeCommand_statistics hm, takeStatisticsCommand, commandCode_append]
  rfl

theorem takeCommand_snapshotAndClear (u : BitVec 24) : takeCommand 0x10 (u ++ 3#8) p = snapshotAndClearLive p := by
  rw [takeCommand_statistics hm, takeStatisticsCommand, commandCode_append]
  rfl

end StatisticsCommand

/-! ### A cycle that carries no Clear (R132, R136, R137) -/

/-- No live counter falls from `p` to `q`. -/
def NoFall (p q : Part) : Prop := ∀ k, (p.liveCounter k).toNat ≤ (q.liveCounter k).toNat

theorem NoFall.refl (p : Part) : NoFall p p := fun _ => Nat.le_refl _

theorem NoFall.trans {p q r : Part} (h : NoFall p q) (k : NoFall q r) : NoFall p r :=
  fun i => Nat.le_trans (h i) (k i)

/-- The code of a Clear or of a Snapshot-and-Clear (12.2). -/
def clearingCode (d : Word) : Prop := commandCode d = 2 ∨ commandCode d = 3

/-- The cycle is a full-word write of a clearing code at the Statistics Command. -/
def Cycle.clears (strap : BitVec 4) (c : Cycle) : Prop :=
  c.write = true ∧ c.enables = fullWord ∧ wordAddress c.address = pageBase strap + 0x10 ∧ clearingCode c.data

theorem NoFall.takeStatisticsCommand {d : Word} (p : Part) (h : ¬ clearingCode d) :
    NoFall p (takeStatisticsCommand d p) := by
  unfold Machine.takeStatisticsCommand
  split
  · exact (Kept.takeSnapshot p).live
  · next code => exact absurd (.inl (BitVec.eq_of_toNat_eq code)) h
  · next code => exact absurd (.inr (BitVec.eq_of_toNat_eq code)) h
  · exact NoFall.refl p

theorem NoFall.takeCommand {o : Nat} {d : Word} (p : Part) (h : ¬ (o = 0x10 ∧ clearingCode d)) :
    NoFall p (takeCommand o d p) := by
  by_cases ho : o = 0x10
  · subst ho
    by_cases hm : p.csh.mode = .transparent
    · rw [takeCommand_transparent d (by decide) hm]
      exact NoFall.refl p
    · rw [takeCommand_statistics hm]
      exact NoFall.takeStatisticsCommand p fun code => h ⟨rfl, code⟩
  · exact (Kept.takeCommand o d p ho).live

theorem NoFall.takePageWrite {o : Nat} {d : Word} {e : Enables} (p : Part)
    (h : ¬ (e = fullWord ∧ o = 0x10 ∧ clearingCode d)) : NoFall p (takePageWrite o d e p) := by
  unfold Machine.takePageWrite
  split
  · split
    · next full => exact NoFall.takeCommand p fun command => h ⟨full, command⟩
    · exact NoFall.refl p
  · exact NoFall.refl p

theorem NoFall.deliver {c : Cycle} (p : Part) (write : c.write = true) (h : ¬ c.clears p.ptu.strap) :
    NoFall p (deliver c p) := by
  cases page : within c.address.toNat (pageBase p.ptu.strap) 0x1000 with
  | false => exact (Kept.deliver c p page).live
  | true =>
    obtain ⟨a, d, e, w⟩ := c
    subst write
    rw [deliver_page p a d e page]
    refine NoFall.takePageWrite p fun ⟨full, offset, code⟩ => h ⟨rfl, full, ?_, code⟩
    show wordAddress a = _
    omega

theorem NoFall.release {h : HeldCycle} (p : Part) (hc : ¬ h.cycle.clears p.ptu.strap) : NoFall p (release h p) := by
  cases write : h.cycle.write with
  | false => exact (Calm.release h p (by rw [Cycle.writesPage, write, Bool.false_and])).live
  | true =>
    rw [release_write write]
    exact NoFall.deliver ((p.setHeld none).setPort (.forwarding h.cycle true)) write hc

/-- The arbiter leaves the held cycle where it is, forces an injection ahead of it, or releases it. -/
theorem NoFall.arbitrate {p : Part} {h : HeldCycle} (held : p.ptu.held = some h) (hc : ¬ h.cycle.clears p.ptu.strap) :
    NoFall p (arbitrate p) := by
  by_cases free : p.ptu.port = .free
  · rw [arbitrate_held free held]
    split
    · exact NoFall.refl p
    · exact NoFall.release p hc
  · rw [arbitrate_busy free]
    exact NoFall.refl p

theorem NoFall.arrive {c : Cycle} (p : Part) (hc : ¬ c.clears p.ptu.strap) : NoFall p (arrive c p) :=
  NoFall.arbitrate (p := p.setHeld (some ⟨c, .injectionBusy, !c.write && p.isLive c.address⟩)) rfl hc

/-! ### The part with no cycle held (R13) -/

/-- From `p` to `q` no live counter falls, and `q` holds no cycle. -/
structure Unheld (p q : Part) : Prop extends Calm p q where
  held : q.ptu.held = none

theorem Unheld.refl {p : Part} (h : p.ptu.held = none) : Unheld p p := ⟨Calm.refl p, h⟩

theorem Unheld.kept {p q r : Part} (h : Unheld p q) (k : Kept q r) : Unheld p r :=
  ⟨h.toCalm.trans k.toCalm, k.held.trans h.held⟩

theorem Unheld.setPort {p q : Part} (h : Unheld p q) (x : Port) : Unheld p (q.setPort x) :=
  ⟨h.toCalm.trans (Calm.setPort q x), h.held⟩

/-- The arbiter has no cycle to release: it begins an injection or does nothing. -/
theorem Unheld.arbitrate {p q : Part} (h : Unheld p q) : Unheld p (arbitrate q) := by
  by_cases free : q.ptu.port = .free
  · rw [arbitrate_unheld free h.held]
    exact h.setPort _
  · rw [arbitrate_busy free]
    exact h

theorem countForced_held (p : Part) : (countForced p).ptu.held = p.ptu.held := by
  have counted : (increment 534 (p.setPtu { p.ptu with forcedCount := p.ptu.forcedCount + 1 })).ptu.held = p.ptu.held := by
    rw [increment_ptu]
    rfl
  rw [countForced_eq]
  split <;> exact counted

theorem Unheld.injectedComplete {p r : Part} (h : Unheld p r) (burst : Option Nat) {q : QueuedWord}
    {rest : List QueuedWord} (hq : r.ptu.queue = q :: rest) : Unheld p (injectedComplete burst q rest r) := by
  have freed : Unheld p (r.setPort .free) := h.setPort _
  cases burst with
  | none => exact (freed.kept (Kept.wordLeaves q rest (r.setPort .free) hq)).arbitrate
  | some n =>
    have counted : Unheld p (countForced (r.setPort .free)) :=
      ⟨freed.toCalm.trans (Calm.countForced _), (countForced_held _).trans freed.held⟩
    have left : Unheld p (wordLeaves q rest (countForced (r.setPort .free))) :=
      counted.kept (Kept.wordLeaves q rest _ ((countForced_queue _).trans hq))
    show Unheld p (afterForced (n + 1) _)
    rw [afterForced_dropped left.held]
    exact left.arbitrate

theorem Unheld.completeInjected {p : Part} {s : State} (h : Unheld p s.part) : Unheld p (completeInjected s).part := by
  unfold Machine.completeInjected
  split
  · next queue => exact h.injectedComplete _ queue
  · exact (h.setPort .free).arbitrate
  · exact h
  · exact h
  · exact h

/-- A refresh write whose read was dropped frees the port (R17). -/
theorem completeForwarded_dropped {s : State} {a : Nat} {v : Word} (hp : s.part.ptu.port = .refreshing a v)
    (hh : s.part.ptu.held = none) : completeForwarded s
      = (s.setSram (Memory.writeWord s.sram a v fullWord)).setPart (arbitrate (s.part.setPort .free)) := by
  have dropped : (s.setSram (Memory.writeWord s.sram a v fullWord)).part.heldRead = none := by
    show s.part.heldRead = none
    rw [Part.heldRead, hh]
  simp only [completeForwarded, hp, dropped]
  rfl

theorem Unheld.completeForwarded {p : Part} {s : State} (h : Unheld p s.part) : Unheld p (completeForwarded s).part := by
  have freed : Unheld p (Machine.arbitrate (s.part.setPort .free)) := (h.setPort .free).arbitrate
  cases port : s.part.ptu.port with
  | forwarding c ready =>
    rw [completeForwarded_forwarding port]
    exact freed
  | refreshing a v =>
    rw [completeForwarded_dropped port h.held]
    exact freed
  | free =>
    simp only [Machine.completeForwarded, port]
    exact h
  | injecting burst =>
    simp only [Machine.completeForwarded, port]
    exact h

theorem Unheld.completeOne {p : Part} {s : State} (h : Unheld p s.part) : Unheld p (completeOne s).part := by
  unfold Machine.completeOne
  split
  · exact h.completeInjected
  · exact h.completeForwarded
  · exact h.completeForwarded
  · exact h.arbitrate

theorem Unheld.settleUpstream {p : Part} {s : State} (n : Nat) (h : Unheld p s.part) :
    Unheld p (settleUpstream n s).part := by
  induction n generalizing s with
  | zero => exact h
  | succ n ih =>
    unfold Machine.settleUpstream
    split
    · exact ih h.completeOne
    · exact h

theorem Unheld.event {f : Part → Part} {s : State} (h : Unheld s.part (f s.part)) : Unheld s.part (event f s).part :=
  h.arbitrate

theorem Unheld.takeInterval {p : Part} (h : p.ptu.held = none) : Unheld p (takeInterval p) := by
  refine ⟨Kept.takeInterval p, ?_⟩
  unfold Machine.takeInterval
  split <;> exact h

/-- A cycle presented while none is held: the completions that come first release nothing, and the cycle itself lowers no
counter unless it clears. -/
theorem NoFall.present {c : Cycle} {s : State} (held : s.part.ptu.held = none) (hc : ¬ c.clears s.part.ptu.strap) :
    NoFall s.part (present c s).part := by
  have settled : Unheld s.part (settleUpstream settleFuel s).part := (Unheld.refl held).settleUpstream settleFuel
  unfold Machine.present
  dsimp only
  split
  · exact settled.live
  · exact NoFall.trans settled.live (NoFall.arrive _ (by rw [settled.strap]; exact hc))

/-! ### The rows that may clear (R132) -/

theorem wordAddress_page (strap : BitVec 4) {o : Nat} (ho : o < 0x1000) :
    wordAddress (BitVec.ofNat 24 (pageBase strap + o)) = pageBase strap + o / 4 * 4 := by
  have bounds := pageBase_bounds strap
  rw [wordAddress, pageAddress_toNat strap o ho]
  omega

/-- A write in the page clears only at the Statistics Command's own word. -/
theorem offset_of_clears {strap : BitVec 4} {o : Nat} {d : Word} {e : Enables} (ho : o < 0x1000)
    (h : (pageCycle strap o d e).clears strap) : e = fullWord ∧ o / 4 * 4 = 0x10 := by
  obtain ⟨-, full, address, -⟩ := h
  have word := (wordAddress_page strap ho).symm.trans address
  exact ⟨full, by omega⟩

theorem not_clearingCode_snapshot (u : BitVec 24) : ¬ clearingCode (u ++ 1#8) := by
  rw [clearingCode, commandCode_append]
  decide

/-- Every row whose cycle clears is one that `mayClear` names. -/
theorem mayClear_of_clears {strap : BitVec 4} {c : Instr} {y : Cycle} (carried : Statements.cycleOf strap c = some y)
    (h : y.clears strap) : Statements.mayClear strap c := by
  have elsewhere {o : Nat} {d : Word} (low : o < 0x1000) (ho : o / 4 * 4 ≠ 0x10)
      (h : (pageCycle strap o d fullWord).clears strap) : False := ho (offset_of_clears low h).2
  cases c with
  | forwardCycle _ _ _ _ => cases carried; exact ⟨h.1, h.2.1, h.2.2.1⟩
  | partialWordWrite _ _ _ => cases carried; exact ⟨h.2.1, h.2.2.1⟩
  | refreshRead _ _ => cases carried; exact nomatch h.1
  | settingsWrite o _ _ => cases carried; exact offset_of_clears o.isLt h
  | snapshot u => cases carried; exact absurd h.2.2.2 (not_clearingCode_snapshot u)
  | clear _ | snapshotAndClear _ => trivial
  | apply _ | noticeClear _ | consumerCount _ | postStop _ | postResume _ | cylinderRelease _ | analysisReset _
  | disengage _ => cases carried; exact (elsewhere (by decide) (by decide) h).elim
  | toothEntry _ _ | scheduleFirstWord _ _ | scheduleCommit _ _ | knockHeaderTimestamp _ _ | knockHeaderCommit _ _
  | knockSampleWord _ _ => cases carried; exact h.2.2.1
  | _ => exact nomatch carried

/-- The rows that carry no processor cycle, power-on reset aside, release none while none is held. -/
theorem Unheld.exec {c : Instr} {s t : State} (held : s.part.ptu.held = none)
    (noCycle : Statements.cycleOf s.part.ptu.strap c = none) (hc : ∀ strap, c ≠ .powerOnReset strap)
    (h : exec c s = .next t) : Unheld s.part t.part := by
  have idle : Unheld s.part s.part := Unheld.refl held
  cases c with
  | powerOnReset strap => exact absurd rfl (hc strap)
  | ecuReset =>
    cases h
    exact Unheld.arbitrate (q := cleared s.part (orphanPort s.part.ptu.port)) ⟨Calm.setPtu s.part _ rfl id, rfl⟩
  | downstreamCycleComplete => cases h; exact idle.completeForwarded
  | injectedWordComplete => cases h; exact idle.completeInjected
  | postStoppedEntry => cases h; exact Unheld.event (idle.kept (Kept.reportNoPublishing _))
  | endOfDisengage => cases h; exact Unheld.event (idle.kept (Kept.endIfDrained _))
  | intervalBoundary => cases h; exact Unheld.event (Unheld.takeInterval held)
  | stall => cases h; exact Unheld.event (idle.kept (Kept.stallIfDue _))
  | knockWaitExpiry => cases h; exact Unheld.event (idle.kept (Kept.expireKnockWaits _))
  | planAgeExpiry => cases h; exact Unheld.event (idle.kept (Kept.expirePlanAges _))
  | _ => exact nomatch noCycle

end Sys2Proof.Machine

namespace Sys2Proof.Proofs

open Sys2Proof.Machine Sys2Proof.Statements

/-- Settles O31: the counter, the other counters, the flags and the rest, each by its own rule of an increment. -/
theorem incrementSaturatesAndNoticesHalf : Obligations.IncrementSaturatesAndNoticesHalf := fun k p inBank =>
  ⟨liveCounter_increment_self p inBank, fun _ other => liveCounter_increment_other p other, increment_ntu k p,
    increment_self k p, increment_snapshot_generation k p⟩

/-- Settles O32: a row with a processor cycle presents it, and it does not clear; the other rows release no cycle. -/
theorem liveCountersNeverFall : Obligations.LiveCountersNeverFall := by
  intro c s t held harmless ran
  cases carried : cycleOf s.part.ptu.strap c with
  | some y =>
    have presented : present y s = t := Host.Outcome.next.inj ((exec_of_cycleOf carried).symm.trans ran)
    rw [← presented]
    exact NoFall.present held fun clears => harmless (mayClear_of_clears carried clears)
  | none =>
    have notReset : ∀ strap, c ≠ .powerOnReset strap := by
      rintro strap rfl
      exact harmless trivial
    exact (Unheld.exec held carried notReset ran).live

/-- Settles O30: outside TRANSPARENT the command word is taken, and its code selects the action. -/
theorem statisticsCommands : Obligations.StatisticsCommands := by
  intro u s granted mode
  refine ⟨?_, ?_, ?_⟩
  · rw [exec_snapshot u granted, takeCommand_snapshot (p := wordOut s 0x10 (u ++ 1#8)) mode]
    rfl
  · rw [exec_clear u granted, takeCommand_clear (p := wordOut s 0x10 (u ++ 2#8)) mode]
    rfl
  · rw [exec_snapshotAndClear u granted, takeCommand_snapshotAndClear (p := wordOut s 0x10 (u ++ 3#8)) mode]
    rfl

end Sys2Proof.Proofs

/-! The notice lines (R150); the consumer count and the offer to the Post Queue (R142, R145); the move test, one move at a
time (R143); the words of a verdict, each as a layout (R141, 12.4) -/

namespace Sys2Proof.Machine

/-! ### The notice lines (R150) -/

/-- Every bit of the notice flags is the bit of a notice (12.4). -/
theorem Notice.exists_index {i : Nat} (h : i < 13) : ∃ n : Notice, n.index = i := by
  have listed : ∀ i < 13, ∃ n ∈ [Notice.watermark, .postStopped, .verdictDropped, .cylSuspect, .cylFault, .knockAlert,
      .turbineRate, .sensorFault, .syncLost, .configResult, .stallBudget, .counterHalf, .scheduleRefused],
      n.index = i := by decide
  obtain ⟨n, -, at_i⟩ := listed i h
  exact ⟨n, at_i⟩

theorem Notice.index_lt (n : Notice) : n.index < 13 := by cases n <;> decide

theorem noticeMask_ne_zero_iff (m : BitVec 13) : m ≠ 0 ↔ ∃ n : Notice, m.getLsbD n.index = true := by
  constructor
  · intro nonzero
    by_contra clear
    refine nonzero (BitVec.eq_of_getLsbD_eq fun i hi => ?_)
    obtain ⟨n, rfl⟩ := Notice.exists_index hi
    simpa using not_exists.mp clear n
  · rintro ⟨n, bit⟩ rfl
    simp at bit

/-- With no Active Copy there are no enables, so no line is asserted. -/
theorem lineAsserted_unconfigured {p : Part} (h : p.csh.active = none) (l : Line) : p.lineAsserted l = false := by
  rw [Part.lineAsserted, h]

theorem lineAsserted_iff {p : Part} {g : Settings} (h : p.csh.active = some g) (l : Line) : p.lineAsserted l = true ↔
    ∃ n : Notice, p.noticeSet n = true ∧ g.noticeEnables.getLsbD n.index = true
      ∧ (g.routedTo l).getLsbD n.index = true := by
  rw [Part.lineAsserted, h]
  dsimp only
  rw [decide_eq_true_eq, noticeMask_ne_zero_iff]
  simp only [BitVec.getLsbD_and, Bool.and_eq_true, and_assoc, Part.noticeSet]

theorem routedTo_a (g : Settings) (n : Notice) :
    (g.routedTo .a).getLsbD n.index = true ↔ g.noticeRoutes.getLsbD n.index = false := by
  simp [Settings.routedTo, n.index_lt]

/-! ### The consumer count and the offer (R142, R145) -/

theorem exec_consumerCount {s : State} (d : Word) (granted : s.part.grantsAtOnce) :
    exec (.consumerCount d) s = .next (s.setPart (takeCommand 0x08 d (Statements.wordOut s 8 d))) :=
  congrArg Host.Outcome.next (presentCommand_eq 0x08 d (by decide) (by decide) granted)

theorem takeCommand_consumerCount {p : Part} (d : Word) (hm : p.csh.mode ≠ .transparent) :
    takeCommand 0x08 d p = takeConsumerCount (d.extractLsb' 0 16) p := by
  rw [takeCommand_common d (by decide) hm]
  rfl

theorem takeConsumerCount_accepted {v : BitVec 16} {p : Part} (h : (v - p.pse.consumer).toNat ≤ p.occupancy) :
    takeConsumerCount v p = moveTest (p.setPse { p.pse with consumer := v }) := if_pos h

theorem takeConsumerCount_refused {v : BitVec 16} {p : Part} (h : ¬ (v - p.pse.consumer).toNat ≤ p.occupancy) :
    takeConsumerCount v p = increment 535 p := if_neg h

theorem offerVerdict_room {p : Part} (v : Verdict) (h : p.pse.postQueue.length < 16) :
    offerVerdict v p = moveTest (p.setPse { p.pse with postQueue := p.pse.postQueue ++ [v] }) := if_pos h

theorem offerVerdict_full {p : Part} (v : Verdict) (h : ¬ p.pse.postQueue.length < 16) :
    offerVerdict v p = setNotice .verdictDropped (increment 533 p) := if_neg h

/-! ### The move test, one move at a time (R143) -/

theorem canMove_iff (p : Part) : canMove p = true ↔ p.pse.postState = .running ∧ p.ptu.queue.length + 8 ≤ 32
    ∧ (p.pse.assigned - p.pse.consumer).toNat < p.cfg.ringSize := by
  rw [canMove, Bool.and_eq_true, Bool.and_eq_true, decide_eq_true_eq, decide_eq_true_eq, decide_eq_true_eq, and_assoc]
  rfl

theorem moveTest_cons {p : Part} {v : Verdict} {rest : List Verdict} (h : p.pse.postQueue = v :: rest) :
    moveTest p = if canMove p then moveTest (moveVerdict v rest p) else p := by
  rw [moveTest, h, List.length_cons, moveLoop, h]
  rfl

/-- With a condition failed no verdict moves. -/
theorem moveTest_stuck {p : Part} (h : canMove p = false) : moveTest p = p := by
  cases hq : p.pse.postQueue with
  | nil => exact moveTest_idle (.inl hq)
  | cons v rest => rw [moveTest_cons hq, h, if_neg Bool.false_ne_true]

/-- The move test ends where a condition fails or no verdict is left. -/
theorem moveTest_stops {q : List Verdict} : ∀ {p : Part}, p.pse.postQueue = q →
    canMove (moveTest p) = false ∨ (moveTest p).pse.postQueue = [] := by
  induction q with
  | nil =>
    intro p empty
    rw [moveTest_idle (.inl empty)]
    exact .inr empty
  | cons v rest ih =>
    intro p waiting
    cases can : canMove p with
    | false =>
      rw [moveTest_stuck can]
      exact .inl can
    | true =>
      rw [moveTest_cons waiting, if_pos can]
      exact ih rfl

/-! ### The words of a verdict (R141, 12.4) -/

theorem MisfireClass.code_lt (x : MisfireClass) : x.code < 2 ^ 3 := by cases x <;> decide
theorem KnockClass.code_lt (x : KnockClass) : x.code < 2 ^ 3 := by cases x <;> decide
theorem FuelState.code_lt (x : FuelState) : x.code < 2 ^ 2 := by cases x <;> decide
theorem IgnitionState.code_lt (x : IgnitionState) : x.code < 2 ^ 2 := by cases x <;> decide

/-- The unsigned numbers of a decided record fit the fields of its verdict. -/
structure Decided.Fits (d : Decided) : Prop where
  cylinder : d.record.cylinder < 2 ^ 4
  speedBand : d.speedBand < 2 ^ 3
  loadBand : d.loadBand < 2 ^ 2
  period : d.record.period.getD 0 < 2 ^ 24
  ratio : d.record.ratio.getD 0 < 2 ^ 8
  intensity : d.record.intensity.getD 0 < 2 ^ 16
  coverage : d.record.coverage.getD 0 < 2 ^ 8
  clipped : d.record.clipped.getD 0 < 2 ^ 8
  load : d.record.load < 2 ^ 9

/-- The first of the words combined needs no zero before it. -/
theorem fields_eq_foldl (xs : List Word) : fields xs = xs.tail.foldl (· ||| ·) (xs.headD 0) := by
  cases xs with
  | nil => rfl
  | cons x xs => exact congrArg (xs.foldl (· ||| ·)) BitVec.zero_or

/-- A word that combines places from its first one gives each number at its place. -/
theorem field_of_combined {w : Word} {xs : List Placed}
    (hw : w = (xs.map Placed.word).tail.foldl (· ||| ·) ((xs.map Placed.word).headD 0))
    (apart : xs.Pairwise Placed.Apart) : ∀ x ∈ xs, x.lo + x.width ≤ 32 → field w x.lo x.width = x.value :=
  field_of_layout (hw.trans (fields_eq_foldl _).symm) apart

section VerdictWords

variable {d : Decided} (fits : d.Fits) (p : Part)

/-- Word 0: the record's identity. -/
def verdictLayout0 : List Placed :=
  [⟨d.record.seq.toNat, 0, 16, d.record.seq.isLt⟩, ⟨d.record.cylinder, 16, 4, fits.cylinder⟩,
   ⟨d.record.cycleTag.toNat, 24, 8, d.record.cycleTag.isLt⟩]

/-- Word 1: the classes, the withheld flags, the context set, the bands and the presence flags. -/
def verdictLayout1 : List Placed :=
  [⟨d.misfireClass.code, 0, 3, d.misfireClass.code_lt⟩, ⟨d.knockClass.code, 3, 3, d.knockClass.code_lt⟩,
   ⟨d.misfireWithheld.toNat, 6, 1, Bool.toNat_lt_pow _⟩, ⟨d.knockWithheld.toNat, 7, 1, Bool.toNat_lt_pow _⟩,
   ⟨(d.record.contexts.getD 0).toNat, 8, 6, (d.record.contexts.getD 0).isLt⟩, ⟨d.speedBand, 14, 3, fits.speedBand⟩,
   ⟨d.loadBand, 17, 2, fits.loadBand⟩, ⟨d.record.roughness.isSome.toNat, 19, 1, Bool.toNat_lt_pow _⟩,
   ⟨d.record.intensity.isSome.toNat, 20, 1, Bool.toNat_lt_pow _⟩,
   ⟨d.record.ratio.isSome.toNat, 21, 1, Bool.toNat_lt_pow _⟩]

/-- Word 2: M, the ratio, and what the History Unit holds of the cylinder and of the turbine. -/
def verdictLayout2 : List Placed :=
  [⟨(BitVec.ofInt 16 (d.record.roughness.getD 0)).toNat, 0, 16, BitVec.isLt _⟩,
   ⟨d.record.ratio.getD 0, 16, 8, fits.ratio⟩,
   ⟨(p.cylinderHistory d.record.cylinder).health.code, 24, 2, Health.code_lt _⟩,
   ⟨(p.cylinderHistory d.record.cylinder).alert.toNat, 26, 1, Bool.toNat_lt_pow _⟩,
   ⟨p.hsu.exceeded.toNat, 27, 1, Bool.toNat_lt_pow _⟩]

/-- Word 4: the knock intensity, the coverage and the clipped count. -/
def verdictLayout4 : List Placed :=
  [⟨d.record.intensity.getD 0, 0, 16, fits.intensity⟩, ⟨d.record.coverage.getD 0, 16, 8, fits.coverage⟩,
   ⟨d.record.clipped.getD 0, 24, 8, fits.clipped⟩]

/-- Word 6: the plan. -/
def verdictLayout6 : List Placed :=
  [⟨d.record.spark.toNat, 0, 8, d.record.spark.isLt⟩, ⟨d.record.load, 8, 9, fits.load⟩,
   ⟨d.record.fuel.code, 17, 2, FuelState.code_lt _⟩, ⟨d.record.ignition.code, 19, 2, IgnitionState.code_lt _⟩]

include fits

theorem field_verdict_w0 : field (buildVerdict d p).w0 0 16 = d.record.seq.toNat
    ∧ field (buildVerdict d p).w0 16 4 = d.record.cylinder
    ∧ field (buildVerdict d p).w0 24 8 = d.record.cycleTag.toNat := by
  simpa [verdictLayout0] using field_of_combined (xs := verdictLayout0 fits) (w := (buildVerdict d p).w0)
    rfl (by simp [verdictLayout0, Placed.Apart])

theorem field_verdict_w1 : field (buildVerdict d p).w1 0 3 = d.misfireClass.code
    ∧ field (buildVerdict d p).w1 3 3 = d.knockClass.code
    ∧ field (buildVerdict d p).w1 6 1 = d.misfireWithheld.toNat
    ∧ field (buildVerdict d p).w1 7 1 = d.knockWithheld.toNat
    ∧ field (buildVerdict d p).w1 8 6 = (d.record.contexts.getD 0).toNat
    ∧ field (buildVerdict d p).w1 14 3 = d.speedBand ∧ field (buildVerdict d p).w1 17 2 = d.loadBand
    ∧ field (buildVerdict d p).w1 19 1 = d.record.roughness.isSome.toNat
    ∧ field (buildVerdict d p).w1 20 1 = d.record.intensity.isSome.toNat
    ∧ field (buildVerdict d p).w1 21 1 = d.record.ratio.isSome.toNat := by
  simpa [verdictLayout1] using field_of_combined (xs := verdictLayout1 fits) (w := (buildVerdict d p).w1)
    rfl (by simp [verdictLayout1, Placed.Apart])

theorem field_verdict_w2 :
    field (buildVerdict d p).w2 0 16 = (BitVec.ofInt 16 (d.record.roughness.getD 0)).toNat
    ∧ field (buildVerdict d p).w2 16 8 = d.record.ratio.getD 0
    ∧ field (buildVerdict d p).w2 24 2 = (p.cylinderHistory d.record.cylinder).health.code
    ∧ field (buildVerdict d p).w2 26 1 = (p.cylinderHistory d.record.cylinder).alert.toNat
    ∧ field (buildVerdict d p).w2 27 1 = p.hsu.exceeded.toNat := by
  simpa [verdictLayout2] using field_of_combined (xs := verdictLayout2 fits p) (w := (buildVerdict d p).w2)
    rfl (by simp [verdictLayout2, Placed.Apart])

theorem field_verdict_w3 : field (buildVerdict d p).w3 0 24 = d.record.period.getD 0 :=
  field_place_same fits.period (by decide)

theorem field_verdict_w4 : field (buildVerdict d p).w4 0 16 = d.record.intensity.getD 0
    ∧ field (buildVerdict d p).w4 16 8 = d.record.coverage.getD 0
    ∧ field (buildVerdict d p).w4 24 8 = d.record.clipped.getD 0 := by
  simpa [verdictLayout4] using field_of_combined (xs := verdictLayout4 fits) (w := (buildVerdict d p).w4)
    rfl (by simp [verdictLayout4, Placed.Apart])

theorem field_verdict_w6 : field (buildVerdict d p).w6 0 8 = d.record.spark.toNat
    ∧ field (buildVerdict d p).w6 8 9 = d.record.load ∧ field (buildVerdict d p).w6 17 2 = d.record.fuel.code
    ∧ field (buildVerdict d p).w6 19 2 = d.record.ignition.code := by
  simpa [verdictLayout6] using field_of_combined (xs := verdictLayout6 fits) (w := (buildVerdict d p).w6)
    rfl (by simp [verdictLayout6, Placed.Apart])

end VerdictWords

/-- A signed number of 16 bits reads back from its two's complement. -/
theorem toInt_ofInt_halfword {r : Int} (low : -32768 ≤ r) (high : r ≤ 32767) : (BitVec.ofInt 16 r).toInt = r := by
  rw [BitVec.toInt_ofInt, Int.bmod_eq_of_le] <;> omega

end Sys2Proof.Machine

namespace Sys2Proof.Proofs

open Sys2Proof.Machine Sys2Proof.Statements

/-- Settles O24: the mask of the set, enabled and routed notices has a bit, and every bit is a notice's. -/
theorem linesFollowFlagsEnablesAndRoutes : Obligations.LinesFollowFlagsEnablesAndRoutes := by
  refine fun p => ⟨fun unconfigured => ?_, fun g active => ⟨?_, lineAsserted_iff active .b⟩⟩
  · exact ⟨lineAsserted_unconfigured unconfigured .a, lineAsserted_unconfigured unconfigured .b⟩
  · simp only [lineAsserted_iff active, routedTo_a]

/-- Settles O25: outside TRANSPARENT the command word is taken, and the occupancy decides. -/
theorem consumerCountAcceptedOrRefused : Obligations.ConsumerCountAcceptedOrRefused := by
  intro d s granted mode
  have taken : exec (.consumerCount d) s
      = .next (s.setPart (takeConsumerCount (d.extractLsb' 0 16) (wordOut s 8 d))) := by
    rw [exec_consumerCount d granted, takeCommand_consumerCount (p := wordOut s 8 d) d mode]
  refine ⟨fun within => ?_, fun beyond => ?_⟩
  · rw [taken, takeConsumerCount_accepted (p := wordOut s 8 d) within]
    rfl
  · rw [taken, takeConsumerCount_refused (p := wordOut s 8 d) beyond]

/-- Settles O27: each word of several fields is the word of its layout, whose places share no bit. -/
theorem verdictFields : Obligations.VerdictFields := by
  intro d p cylinder speedBand loadBand period low high ratio intensity coverage clipped load v
  have fits : d.Fits := ⟨cylinder, speedBand, loadBand, period, ratio, intensity, coverage, clipped, load⟩
  obtain ⟨seq, cyl, tag⟩ := field_verdict_w0 fits p
  obtain ⟨misfire, knock, misfireHeld, knockHeld, contexts, speed, loadB, hasM, hasI, hasRatio⟩ := field_verdict_w1 fits p
  obtain ⟨roughness, ratioField, health, alert, exceeded⟩ := field_verdict_w2 fits p
  obtain ⟨intens, cover, clip⟩ := field_verdict_w4 fits p
  obtain ⟨spark, loadField, fuel, ignition⟩ := field_verdict_w6 fits p
  have signed : (v.w2.extractLsb' 0 16).toInt = d.record.roughness.getD 0 := by
    rw [extractLsb'_of_field roughness, toInt_ofInt_halfword low high]
  exact ⟨rfl, rfl, rfl, rfl, rfl, seq, cyl, extractLsb'_of_field tag, misfire, knock, getLsbD_of_field misfireHeld,
    getLsbD_of_field knockHeld, extractLsb'_of_field contexts, speed, loadB, getLsbD_of_field hasM, getLsbD_of_field hasI,
    getLsbD_of_field hasRatio, signed, ratioField, health, getLsbD_of_field alert, getLsbD_of_field exceeded,
    field_verdict_w3 fits p, intens, cover, clip, rfl, extractLsb'_of_field spark, loadField, fuel, ignition, rfl⟩

/-- Settles O28: a queue with room takes the verdict; a full one drops it with a count and a notice. -/
theorem verdictOfferedOrDropped : Obligations.VerdictOfferedOrDropped := by
  refine fun v p => ⟨offerVerdict_room v, fun full => ?_⟩
  rw [offerVerdict_full v (by omega)]
  refine ⟨increment_pse 533 p, increment_ptu 533 p, rfl, ?_⟩
  rw [noticeSet_setNotice]
  rfl

/-- Settles O29: one move is `moveTest_cons` under `canMove_iff`, and the end is an induction on the Post Queue. -/
theorem moveTestFillsTheRing : Obligations.MoveTestFillsTheRing := by
  refine ⟨fun p blocked => ?_, fun p v rest waiting running room load => ?_, fun p => moveTest_stops rfl⟩
  · by_cases can : canMove p = true
    · obtain ⟨running, room, load⟩ := (canMove_iff p).mp can
      rcases blocked with stopped | noRoom | ringFull | empty
      · exact absurd running stopped
      · omega
      · omega
      · exact moveTest_idle (.inl empty)
    · exact moveTest_stuck (Bool.eq_false_iff.mpr can)
  · rw [moveTest_cons waiting, if_pos ((canMove_iff p).mpr ⟨running, room, load⟩)]
    rfl

end Sys2Proof.Proofs

/-! One step of the machine with a command waiting (log 1) -/

namespace Sys2Proof.Proofs

open Sys2Proof.Machine

/-- Settles O1: a nonempty queue selects the second arm of `step`; the first is `step_of_pending_nil`. -/
theorem stepRunsFrontCommand : Obligations.StepRunsFrontCommand := by
  intro s c rest front
  simp only [step, front]

end Sys2Proof.Proofs
